-- ==== Sys2Proof/Word.lean ====
section
/-!
DEFINITION. The word types of "Instruction Set v2.0.0-alpha": the byte (the unit of memory, 20_memory.md R60), the
half and the word (00_scope.md R5, R12). The byte-order helpers stand in Sys2Proof/Decode.lean and
Sys2Proof/Machine/Mem.lean.
-/

namespace Sys2Proof

/-- The unit of memory and of the instruction stream (R60, R90). -/
abbrev Byte := BitVec 8

/-- A 2-byte integer (R12). -/
abbrev Half := BitVec 16

/-- A 4-byte integer; an address is one (R12, R60). -/
abbrev Word := BitVec 32

end Sys2Proof
end

