-- ==== Sys2Proof/Syntax.lean ====
section
/-!
DEFINITION. The syntax: register references, variable literals and one constructor of `Instr` for each row of
spec/opcode_table.json (30_encoding.md R105, R102). Constructors of one mnemonic differ by format (R92): La a literal
address, Ra a register ref address, Vl a variable literal, Rr two register references, Lb a literal byte, Rb a register
ref byte, Lw a literal word, Rw a register ref word.
-/

namespace Sys2Proof

/-- A one-byte register reference (30_encoding.md R95). A byte above 0x24 names no register; it is still a legal byte
of an encoding, whose instruction raises IllegalOperation (R103), so it is an operand of the syntax. -/
inductive Ref where
  /-- r0-r7, references 0x00-0x07 -/
  | r (i : Fin 8)
  /-- r0h-r7h, references 0x08-0x0F -/
  | h (i : Fin 8)
  /-- r0b-r7b, references 0x10-0x17 -/
  | b (i : Fin 8)
  /-- f0-f7, references 0x18-0x1F -/
  | f (i : Fin 8)
  /-- reference 0x20 -/
  | flags
  /-- reference 0x21 -/
  | uspr
  /-- reference 0x22 -/
  | kspr
  /-- reference 0x23 -/
  | pdpr
  /-- reference 0x24 -/
  | imr
  /-- references 0x25-0xFF: no register -/
  | invalid (code : Byte)
deriving DecidableEq, Repr, Inhabited

/-- A variable literal (30_encoding.md R93, R97): 1, 2 or 4 bytes, as the register before it is wide; in front of it an
invalid reference leaves its length undefined, and no byte of it is read. -/
inductive Lit where
  | byte (v : Byte)
  | half (v : Half)
  | word (v : Word)
  | noLength
deriving DecidableEq, Repr, Inhabited

/-- The instructions, one constructor for each row of the opcode table, in its order. -/
inductive Instr where
  /-- 0x00 HALT, format N, R130 -/
  | halt
  /-- 0x01 PAUSE, format N, R131 -/
  | pause
  /-- 0x02 TIMER, format LW, R132 -/
  | timerLw (ms : Word)
  /-- 0x03 TIMER, format RW, R132 -/
  | timerRw (rr : Ref)
  /-- 0x04 USERMODE, format N, R133 -/
  | usermode
  /-- 0x05 IRETURN, format N, R134 -/
  | ireturn
  /-- 0x06 LOAD, format R_LA, R151 -/
  | loadLa (rr : Ref) (addr : Word)
  /-- 0x07 LOAD, format R_RA, R151 -/
  | loadRa (rr : Ref) (ra : Ref)
  /-- 0x08 STORE, format LA_R, R152 -/
  | storeLa (addr : Word) (rr : Ref)
  /-- 0x09 STORE, format RA_R, R152 -/
  | storeRa (ra : Ref) (rr : Ref)
  /-- 0x0A COPY, format R_VL, R153 -/
  | copyVl (rd : Ref) (lit : Lit)
  /-- 0x0B COPY, format R_R, R153 -/
  | copyRr (rd : Ref) (rs : Ref)
  /-- 0x0C SWAP, format R_LA, R155 -/
  | swapLa (rr : Ref) (addr : Word)
  /-- 0x0D SWAP, format R_RA, R155 -/
  | swapRa (rr : Ref) (ra : Ref)
  /-- 0x0E PUSH, format R, R156 -/
  | push (rr : Ref)
  /-- 0x0F POP, format R, R157 -/
  | pop (rr : Ref)
  /-- 0x10 BLOCKCOPY, format LW_LA_LA, R158 -/
  | blockcopyLwLaLa (len : Word) (dst : Word) (src : Word)
  /-- 0x11 BLOCKCOPY, format LW_LA_RA, R158 -/
  | blockcopyLwLaRa (len : Word) (dst : Word) (rsrc : Ref)
  /-- 0x12 BLOCKCOPY, format LW_RA_LA, R158 -/
  | blockcopyLwRaLa (len : Word) (rdst : Ref) (src : Word)
  /-- 0x13 BLOCKCOPY, format LW_RA_RA, R158 -/
  | blockcopyLwRaRa (len : Word) (rdst : Ref) (rsrc : Ref)
  /-- 0x14 BLOCKCOPY, format RW_LA_LA, R158 -/
  | blockcopyRwLaLa (rlen : Ref) (dst : Word) (src : Word)
  /-- 0x15 BLOCKCOPY, format RW_LA_RA, R158 -/
  | blockcopyRwLaRa (rlen : Ref) (dst : Word) (rsrc : Ref)
  /-- 0x16 BLOCKCOPY, format RW_RA_LA, R158 -/
  | blockcopyRwRaLa (rlen : Ref) (rdst : Ref) (src : Word)
  /-- 0x17 BLOCKCOPY, format RW_RA_RA, R158 -/
  | blockcopyRwRaRa (rlen : Ref) (rdst : Ref) (rsrc : Ref)
  /-- 0x18 NEGATE, format R, R184 -/
  | negate (rd : Ref)
  /-- 0x19 ADD, format R_VL, R185 -/
  | addVl (rd : Ref) (lit : Lit)
  /-- 0x1A ADD, format R_R, R185 -/
  | addRr (rd : Ref) (rs : Ref)
  /-- 0x1B ADDCARRY, format RI_VL, R186 -/
  | addcarryVl (rd : Ref) (lit : Lit)
  /-- 0x1C ADDCARRY, format RI_RI, R186 -/
  | addcarryRr (rd : Ref) (rs : Ref)
  /-- 0x1D SUB, format R_VL, R187 -/
  | subVl (rd : Ref) (lit : Lit)
  /-- 0x1E SUB, format R_R, R187 -/
  | subRr (rd : Ref) (rs : Ref)
  /-- 0x1F SUBBORROW, format RI_VL, R188 -/
  | subborrowVl (rd : Ref) (lit : Lit)
  /-- 0x20 SUBBORROW, format RI_RI, R188 -/
  | subborrowRr (rd : Ref) (rs : Ref)
  /-- 0x21 MULT, format R_VL, R189 -/
  | multVl (rd : Ref) (lit : Lit)
  /-- 0x22 MULT, format R_R, R189 -/
  | multRr (rd : Ref) (rs : Ref)
  /-- 0x23 SDIV, format R_VL, R190 -/
  | sdivVl (rd : Ref) (lit : Lit)
  /-- 0x24 SDIV, format R_R, R190 -/
  | sdivRr (rd : Ref) (rs : Ref)
  /-- 0x25 UDIV, format RI_VL, R191 -/
  | udivVl (rd : Ref) (lit : Lit)
  /-- 0x26 UDIV, format RI_RI, R191 -/
  | udivRr (rd : Ref) (rs : Ref)
  /-- 0x27 SREM, format R_VL, R192 -/
  | sremVl (rd : Ref) (lit : Lit)
  /-- 0x28 SREM, format R_R, R192 -/
  | sremRr (rd : Ref) (rs : Ref)
  /-- 0x29 UREM, format RI_VL, R193 -/
  | uremVl (rd : Ref) (lit : Lit)
  /-- 0x2A UREM, format RI_RI, R193 -/
  | uremRr (rd : Ref) (rs : Ref)
  /-- 0x2B NOT, format RI, R221 -/
  | notR (rd : Ref)
  /-- 0x2C AND, format RI_VL, R222 -/
  | andVl (rd : Ref) (lit : Lit)
  /-- 0x2D AND, format RI_RI, R222 -/
  | andRr (rd : Ref) (rs : Ref)
  /-- 0x2E OR, format RI_VL, R223 -/
  | orVl (rd : Ref) (lit : Lit)
  /-- 0x2F OR, format RI_RI, R223 -/
  | orRr (rd : Ref) (rs : Ref)
  /-- 0x30 XOR, format RI_VL, R224 -/
  | xorVl (rd : Ref) (lit : Lit)
  /-- 0x31 XOR, format RI_RI, R224 -/
  | xorRr (rd : Ref) (rs : Ref)
  /-- 0x32 LSHIFT, format RI_LB, R226 -/
  | lshiftLb (rd : Ref) (n : Byte)
  /-- 0x33 LSHIFT, format RI_RB, R226 -/
  | lshiftRb (rd : Ref) (rb : Ref)
  /-- 0x34 RSHIFTL, format RI_LB, R227 -/
  | rshiftlLb (rd : Ref) (n : Byte)
  /-- 0x35 RSHIFTL, format RI_RB, R227 -/
  | rshiftlRb (rd : Ref) (rb : Ref)
  /-- 0x36 RSHIFTA, format RI_LB, R228 -/
  | rshiftaLb (rd : Ref) (n : Byte)
  /-- 0x37 RSHIFTA, format RI_RB, R228 -/
  | rshiftaRb (rd : Ref) (rb : Ref)
  /-- 0x38 LROT, format RI_LB, R229 -/
  | lrotLb (rd : Ref) (n : Byte)
  /-- 0x39 LROT, format RI_RB, R229 -/
  | lrotRb (rd : Ref) (rb : Ref)
  /-- 0x3A RROT, format RI_LB, R230 -/
  | rrotLb (rd : Ref) (n : Byte)
  /-- 0x3B RROT, format RI_RB, R230 -/
  | rrotRb (rd : Ref) (rb : Ref)
  /-- 0x3C LROTCARRY, format RI_LB, R231 -/
  | lrotcarryLb (rd : Ref) (n : Byte)
  /-- 0x3D LROTCARRY, format RI_RB, R231 -/
  | lrotcarryRb (rd : Ref) (rb : Ref)
  /-- 0x3E RROTCARRY, format RI_LB, R232 -/
  | rrotcarryLb (rd : Ref) (n : Byte)
  /-- 0x3F RROTCARRY, format RI_RB, R232 -/
  | rrotcarryRb (rd : Ref) (rb : Ref)
  /-- 0x40 JUMP, format LA, R261 -/
  | jumpLa (target : Word)
  /-- 0x41 JUMP, format RA, R261 -/
  | jumpRa (ra : Ref)
  /-- 0x42 COMPARE, format R_VL, R262 -/
  | compareVl (r1 : Ref) (lit : Lit)
  /-- 0x43 COMPARE, format R_R, R262 -/
  | compareRr (r1 : Ref) (r2 : Ref)
  /-- 0x44 JEQUAL, format LA, R263 -/
  | jequalLa (target : Word)
  /-- 0x45 JEQUAL, format RA, R263 -/
  | jequalRa (ra : Ref)
  /-- 0x46 JNOTEQUAL, format LA, R264 -/
  | jnotequalLa (target : Word)
  /-- 0x47 JNOTEQUAL, format RA, R264 -/
  | jnotequalRa (ra : Ref)
  /-- 0x48 JGREATER, format LA, R265 -/
  | jgreaterLa (target : Word)
  /-- 0x49 JGREATER, format RA, R265 -/
  | jgreaterRa (ra : Ref)
  /-- 0x4A JGREATEREQ, format LA, R266 -/
  | jgreatereqLa (target : Word)
  /-- 0x4B JGREATEREQ, format RA, R266 -/
  | jgreatereqRa (ra : Ref)
  /-- 0x4C JABOVE, format LA, R267 -/
  | jaboveLa (target : Word)
  /-- 0x4D JABOVE, format RA, R267 -/
  | jaboveRa (ra : Ref)
  /-- 0x4E JABOVEEQ, format LA, R268 -/
  | jaboveeqLa (target : Word)
  /-- 0x4F JABOVEEQ, format RA, R268 -/
  | jaboveeqRa (ra : Ref)
  /-- 0x50 JLESSER, format LA, R269 -/
  | jlesserLa (target : Word)
  /-- 0x51 JLESSER, format RA, R269 -/
  | jlesserRa (ra : Ref)
  /-- 0x52 JLESSEREQ, format LA, R270 -/
  | jlessereqLa (target : Word)
  /-- 0x53 JLESSEREQ, format RA, R270 -/
  | jlessereqRa (ra : Ref)
  /-- 0x54 JBELOW, format LA, R271 -/
  | jbelowLa (target : Word)
  /-- 0x55 JBELOW, format RA, R271 -/
  | jbelowRa (ra : Ref)
  /-- 0x56 JBELOWEQ, format LA, R272 -/
  | jbeloweqLa (target : Word)
  /-- 0x57 JBELOWEQ, format RA, R272 -/
  | jbeloweqRa (ra : Ref)
  /-- 0x58 JOVERFLOW, format LA, R273 -/
  | joverflowLa (target : Word)
  /-- 0x59 JOVERFLOW, format RA, R273 -/
  | joverflowRa (ra : Ref)
  /-- 0x5A JNOTOVERFLOW, format LA, R274 -/
  | jnotoverflowLa (target : Word)
  /-- 0x5B JNOTOVERFLOW, format RA, R274 -/
  | jnotoverflowRa (ra : Ref)
  /-- 0x5C CALL, format LA, R275 -/
  | callLa (target : Word)
  /-- 0x5D CALL, format RA, R275 -/
  | callRa (ra : Ref)
  /-- 0x5E RETURN, format N, R276 -/
  | ret
  /-- 0x5F SYSCALL, format N, R277 -/
  | syscall
  /-- 0x60-0x7F, the opcode byte's low five bits kept (unmapped), format N, R102 -/
  | unmapped60 (low : BitVec 5)
  /-- 0x80-0xFF, the opcode byte's low seven bits kept (unmapped), format N, R102 -/
  | unmapped80 (low : BitVec 7)
deriving DecidableEq, Repr, Inhabited

end Sys2Proof
end

