-- ==== Sys2Proof/WellFormed.lean ====
section
/-!
DEFINITION. When a term of the syntax is the reading of some encoding (30_encoding.md R95, R97). The class of a
register reference (R96) and the length and type matches (R99, R100) are no part of this: an encoding that fails them is
well formed and raises IllegalOperation when it executes (R103).
-/

namespace Sys2Proof

/-- The two checks, by name. -/
inductive IllFormed where
  /-- `Ref.invalid` holds a byte that names a register (R95) -/
  | namedReference
  /-- a variable literal whose length is not its register's (R97) -/
  | literalLength
deriving DecidableEq, Repr

/-- R95: `invalid` stands for 0x25-0xFF only. -/
def Ref.wf : Ref → Bool
  | .invalid c => decide (0x25 ≤ c.toNat)
  | _ => true

/-- R97: the literal after `rd` has the length of `rd`, and none after an invalid reference. -/
def Lit.fits : Ref → Lit → Bool
  | .r _, .word _ => true
  | .h _, .half _ => true
  | .b _, .byte _ => true
  | .f _, .word _ => true
  | .flags, .half _ => true
  | .uspr, .word _ => true
  | .kspr, .word _ => true
  | .pdpr, .word _ => true
  | .imr, .half _ => true
  | .invalid _, .noLength => true
  | _, _ => false

/-- Check one reference. -/
def checkRef (r : Ref) : Except IllFormed Unit :=
  if r.wf then .ok () else .error .namedReference

/-- Check two references. -/
def checkRefs (r r' : Ref) : Except IllFormed Unit :=
  if r.wf && r'.wf then .ok () else .error .namedReference

/-- Check a reference and the variable literal after it. -/
def checkLit (rd : Ref) (lit : Lit) : Except IllFormed Unit :=
  if rd.wf then (if Lit.fits rd lit then .ok () else .error .literalLength) else .error .namedReference

/-- Check three references. -/
def checkRefs3 (r r' r'' : Ref) : Except IllFormed Unit :=
  if r.wf && r'.wf && r''.wf then .ok () else .error .namedReference

/-- The check of an instruction: every operand is one an encoding can hold. -/
def Instr.check : Instr → Except IllFormed Unit
  | .halt => .ok ()
  | .pause => .ok ()
  | .timerLw _ => .ok ()
  | .timerRw rr => checkRef rr
  | .usermode => .ok ()
  | .ireturn => .ok ()
  | .loadLa rr _ => checkRef rr
  | .loadRa rr ra => checkRefs rr ra
  | .storeLa _ rr => checkRef rr
  | .storeRa ra rr => checkRefs ra rr
  | .copyVl rd lit => checkLit rd lit
  | .copyRr rd rs => checkRefs rd rs
  | .swapLa rr _ => checkRef rr
  | .swapRa rr ra => checkRefs rr ra
  | .push rr => checkRef rr
  | .pop rr => checkRef rr
  | .blockcopyLwLaLa _ _ _ => .ok ()
  | .blockcopyLwLaRa _ _ rsrc => checkRef rsrc
  | .blockcopyLwRaLa _ rdst _ => checkRef rdst
  | .blockcopyLwRaRa _ rdst rsrc => checkRefs rdst rsrc
  | .blockcopyRwLaLa rlen _ _ => checkRef rlen
  | .blockcopyRwLaRa rlen _ rsrc => checkRefs rlen rsrc
  | .blockcopyRwRaLa rlen rdst _ => checkRefs rlen rdst
  | .blockcopyRwRaRa rlen rdst rsrc => checkRefs3 rlen rdst rsrc
  | .negate rd => checkRef rd
  | .addVl rd lit => checkLit rd lit
  | .addRr rd rs => checkRefs rd rs
  | .addcarryVl rd lit => checkLit rd lit
  | .addcarryRr rd rs => checkRefs rd rs
  | .subVl rd lit => checkLit rd lit
  | .subRr rd rs => checkRefs rd rs
  | .subborrowVl rd lit => checkLit rd lit
  | .subborrowRr rd rs => checkRefs rd rs
  | .multVl rd lit => checkLit rd lit
  | .multRr rd rs => checkRefs rd rs
  | .sdivVl rd lit => checkLit rd lit
  | .sdivRr rd rs => checkRefs rd rs
  | .udivVl rd lit => checkLit rd lit
  | .udivRr rd rs => checkRefs rd rs
  | .sremVl rd lit => checkLit rd lit
  | .sremRr rd rs => checkRefs rd rs
  | .uremVl rd lit => checkLit rd lit
  | .uremRr rd rs => checkRefs rd rs
  | .notR rd => checkRef rd
  | .andVl rd lit => checkLit rd lit
  | .andRr rd rs => checkRefs rd rs
  | .orVl rd lit => checkLit rd lit
  | .orRr rd rs => checkRefs rd rs
  | .xorVl rd lit => checkLit rd lit
  | .xorRr rd rs => checkRefs rd rs
  | .lshiftLb rd _ => checkRef rd
  | .lshiftRb rd rb => checkRefs rd rb
  | .rshiftlLb rd _ => checkRef rd
  | .rshiftlRb rd rb => checkRefs rd rb
  | .rshiftaLb rd _ => checkRef rd
  | .rshiftaRb rd rb => checkRefs rd rb
  | .lrotLb rd _ => checkRef rd
  | .lrotRb rd rb => checkRefs rd rb
  | .rrotLb rd _ => checkRef rd
  | .rrotRb rd rb => checkRefs rd rb
  | .lrotcarryLb rd _ => checkRef rd
  | .lrotcarryRb rd rb => checkRefs rd rb
  | .rrotcarryLb rd _ => checkRef rd
  | .rrotcarryRb rd rb => checkRefs rd rb
  | .jumpLa _ => .ok ()
  | .jumpRa ra => checkRef ra
  | .compareVl r1 lit => checkLit r1 lit
  | .compareRr r1 r2 => checkRefs r1 r2
  | .jequalLa _ => .ok ()
  | .jequalRa ra => checkRef ra
  | .jnotequalLa _ => .ok ()
  | .jnotequalRa ra => checkRef ra
  | .jgreaterLa _ => .ok ()
  | .jgreaterRa ra => checkRef ra
  | .jgreatereqLa _ => .ok ()
  | .jgreatereqRa ra => checkRef ra
  | .jaboveLa _ => .ok ()
  | .jaboveRa ra => checkRef ra
  | .jaboveeqLa _ => .ok ()
  | .jaboveeqRa ra => checkRef ra
  | .jlesserLa _ => .ok ()
  | .jlesserRa ra => checkRef ra
  | .jlessereqLa _ => .ok ()
  | .jlessereqRa ra => checkRef ra
  | .jbelowLa _ => .ok ()
  | .jbelowRa ra => checkRef ra
  | .jbeloweqLa _ => .ok ()
  | .jbeloweqRa ra => checkRef ra
  | .joverflowLa _ => .ok ()
  | .joverflowRa ra => checkRef ra
  | .jnotoverflowLa _ => .ok ()
  | .jnotoverflowRa ra => checkRef ra
  | .callLa _ => .ok ()
  | .callRa ra => checkRef ra
  | .ret => .ok ()
  | .syscall => .ok ()
  | .unmapped60 _ => .ok ()
  | .unmapped80 _ => .ok ()

/-- An instruction that some encoding holds. -/
def Instr.wf (i : Instr) : Bool :=
  match i.check with
  | .ok _ => true
  | .error _ => false

end Sys2Proof
end

