-- ==== Sys2Proof/Decode.lean ====
section
/-!
DEFINITION. The encoding (30_encoding.md): register references, literals, formats, lengths, the decoder, and after it
the encoder written from the same tables. The decoder is total: every opcode byte is an instruction (the unmapped
ones too, R102), every reference byte an operand (R103); what it refuses, by name, is a list of bytes that ends before
the instruction does.
-/

namespace Sys2Proof

/-- R95, R97: the width in bits of the register a reference names; an invalid reference has none. -/
@[reducible] def Ref.width : Ref → Nat
  | .r _ => 32
  | .h _ => 16
  | .b _ => 8
  | .f _ => 32
  | .flags => 16
  | .uspr => 32
  | .kspr => 32
  | .pdpr => 32
  | .imr => 16
  | .invalid _ => 0

/-- R95: whether a reference names a register. -/
def Ref.named : Ref → Bool
  | .invalid _ => false
  | _ => true

/-- R95: the register a reference byte names. -/
def Ref.ofByte (c : Byte) : Ref :=
  let i : Fin 8 := ⟨c.toNat % 8, Nat.mod_lt _ (by decide)⟩
  match c.toNat / 8 with
  | 0 => .r i
  | 1 => .h i
  | 2 => .b i
  | 3 => .f i
  | 4 =>
    match c.toNat % 8 with
    | 0 => .flags
    | 1 => .uspr
    | 2 => .kspr
    | 3 => .pdpr
    | 4 => .imr
    | _ => .invalid c
  | _ => .invalid c

/-- R95: the reference byte of a register. -/
def Ref.toByte : Ref → Byte
  | .r i => BitVec.ofNat 8 i.val
  | .h i => BitVec.ofNat 8 (0x08 + i.val)
  | .b i => BitVec.ofNat 8 (0x10 + i.val)
  | .f i => BitVec.ofNat 8 (0x18 + i.val)
  | .flags => 0x20
  | .uspr => 0x21
  | .kspr => 0x22
  | .pdpr => 0x23
  | .imr => 0x24
  | .invalid c => c

/-- R94: a 4-byte literal, most significant byte first. -/
def wordOfBytes (b3 b2 b1 b0 : Byte) : Word := b3 ++ b2 ++ b1 ++ b0

/-- R94: a 2-byte literal, most significant byte first. -/
def halfOfBytes (b1 b0 : Byte) : Half := b1 ++ b0

/-- R94: the bytes of a 4-byte literal in encoding order. -/
def bytesOfWord (w : Word) : List Byte :=
  [w.extractLsb' 24 8, w.extractLsb' 16 8, w.extractLsb' 8 8, w.extractLsb' 0 8]

/-- R94: the bytes of a 2-byte literal in encoding order. -/
def bytesOfHalf (h : Half) : List Byte := [h.extractLsb' 8 8, h.extractLsb' 0 8]

/-- R94: the bytes of a variable literal. -/
def Lit.bytes : Lit → List Byte
  | .byte v => [v]
  | .half v => bytesOfHalf v
  | .word v => bytesOfWord v
  | .noLength => []

/-- R97, R98: the number of bytes from the opcode on of a variable-literal instruction whose reference is `rd`; none where the
length is undefined. -/
def vlLength (rd : Ref) : Option Nat :=
  if rd.named then some (2 + rd.width / 8) else none

/-- R92: the formats. -/
inductive Format where
  | n
  | lw
  | rw
  | rLa
  | rRa
  | laR
  | raR
  | rVl
  | rR
  | r
  | lwLaLa
  | lwLaRa
  | lwRaLa
  | lwRaRa
  | rwLaLa
  | rwLaRa
  | rwRaLa
  | rwRaRa
  | riVl
  | riRi
  | ri
  | riLb
  | riRb
  | la
  | ra
deriving DecidableEq, Repr

/-- R105, R102: the format the opcode byte selects; an unmapped opcode is one byte long. -/
def formatOf (op : Byte) : Format :=
  match op.toNat with
  | 0x00 => .n
  | 0x01 => .n
  | 0x02 => .lw
  | 0x03 => .rw
  | 0x04 => .n
  | 0x05 => .n
  | 0x06 => .rLa
  | 0x07 => .rRa
  | 0x08 => .laR
  | 0x09 => .raR
  | 0x0A => .rVl
  | 0x0B => .rR
  | 0x0C => .rLa
  | 0x0D => .rRa
  | 0x0E => .r
  | 0x0F => .r
  | 0x10 => .lwLaLa
  | 0x11 => .lwLaRa
  | 0x12 => .lwRaLa
  | 0x13 => .lwRaRa
  | 0x14 => .rwLaLa
  | 0x15 => .rwLaRa
  | 0x16 => .rwRaLa
  | 0x17 => .rwRaRa
  | 0x18 => .r
  | 0x19 => .rVl
  | 0x1A => .rR
  | 0x1B => .riVl
  | 0x1C => .riRi
  | 0x1D => .rVl
  | 0x1E => .rR
  | 0x1F => .riVl
  | 0x20 => .riRi
  | 0x21 => .rVl
  | 0x22 => .rR
  | 0x23 => .rVl
  | 0x24 => .rR
  | 0x25 => .riVl
  | 0x26 => .riRi
  | 0x27 => .rVl
  | 0x28 => .rR
  | 0x29 => .riVl
  | 0x2A => .riRi
  | 0x2B => .ri
  | 0x2C => .riVl
  | 0x2D => .riRi
  | 0x2E => .riVl
  | 0x2F => .riRi
  | 0x30 => .riVl
  | 0x31 => .riRi
  | 0x32 => .riLb
  | 0x33 => .riRb
  | 0x34 => .riLb
  | 0x35 => .riRb
  | 0x36 => .riLb
  | 0x37 => .riRb
  | 0x38 => .riLb
  | 0x39 => .riRb
  | 0x3A => .riLb
  | 0x3B => .riRb
  | 0x3C => .riLb
  | 0x3D => .riRb
  | 0x3E => .riLb
  | 0x3F => .riRb
  | 0x40 => .la
  | 0x41 => .ra
  | 0x42 => .rVl
  | 0x43 => .rR
  | 0x44 => .la
  | 0x45 => .ra
  | 0x46 => .la
  | 0x47 => .ra
  | 0x48 => .la
  | 0x49 => .ra
  | 0x4A => .la
  | 0x4B => .ra
  | 0x4C => .la
  | 0x4D => .ra
  | 0x4E => .la
  | 0x4F => .ra
  | 0x50 => .la
  | 0x51 => .ra
  | 0x52 => .la
  | 0x53 => .ra
  | 0x54 => .la
  | 0x55 => .ra
  | 0x56 => .la
  | 0x57 => .ra
  | 0x58 => .la
  | 0x59 => .ra
  | 0x5A => .la
  | 0x5B => .ra
  | 0x5C => .la
  | 0x5D => .ra
  | 0x5E => .n
  | 0x5F => .n
  | _ => .n

/-- R92: whether the format ends in a variable literal. -/
def Format.hasVariableLiteral : Format → Bool
  | .rVl => true
  | .riVl => true
  | _ => false

/-- R92: the length in bytes of a format of fixed length (of the variable ones: the bytes before the literal). -/
def Format.bytes : Format → Nat
  | .n => 1
  | .lw => 5
  | .rw => 2
  | .rLa => 6
  | .rRa => 3
  | .laR => 6
  | .raR => 3
  | .rVl => 2
  | .rR => 3
  | .r => 2
  | .lwLaLa => 13
  | .lwLaRa => 10
  | .lwRaLa => 10
  | .lwRaRa => 7
  | .rwLaLa => 10
  | .rwLaRa => 7
  | .rwRaLa => 7
  | .rwRaRa => 4
  | .riVl => 2
  | .riRi => 3
  | .ri => 2
  | .riLb => 3
  | .riRb => 3
  | .la => 5
  | .ra => 2

/-- R98: the bytes that fix the length of the instruction: the opcode, and in front of a variable literal its reference. -/
def Format.headBytes (f : Format) : Nat := if f.hasVariableLiteral then 2 else 1

/-- R98: the bytes to read of an instruction of format `f`, `rd` the reference at offset 1. Where the length is undefined
(an invalid `rd` before a variable literal) these are the opcode and the reference (log 22). -/
def Format.totalBytes (f : Format) (rd : Ref) : Nat :=
  if f.hasVariableLiteral then 2 + rd.width / 8 else f.bytes

/-- What the decoder refuses. -/
inductive DecodeError where
  /-- the list of bytes ends before the instruction does -/
  | truncated
deriving DecidableEq, Repr

/-- An instruction and the bytes after it, or a refusal by name. -/
abbrev Decoded := Except DecodeError (Instr × List Byte)

/-- R92: the operands a 4-byte literal. -/
def readW (mk : Word → Instr) : List Byte → Decoded
  | a3 :: a2 :: a1 :: a0 :: rest => .ok (mk (wordOfBytes a3 a2 a1 a0), rest)
  | _ => .error .truncated

/-- R92: the operands a register reference. -/
def readR (mk : Ref → Instr) : List Byte → Decoded
  | r0 :: rest => .ok (mk (Ref.ofByte r0), rest)
  | _ => .error .truncated

/-- R92: the operands a register reference, a 4-byte literal. -/
def readRW (mk : Ref → Word → Instr) : List Byte → Decoded
  | r0 :: b3 :: b2 :: b1 :: b0 :: rest => .ok (mk (Ref.ofByte r0) (wordOfBytes b3 b2 b1 b0), rest)
  | _ => .error .truncated

/-- R92: the operands a register reference, a register reference. -/
def readRR (mk : Ref → Ref → Instr) : List Byte → Decoded
  | r0 :: r1 :: rest => .ok (mk (Ref.ofByte r0) (Ref.ofByte r1), rest)
  | _ => .error .truncated

/-- R92: the operands a 4-byte literal, a register reference. -/
def readWR (mk : Word → Ref → Instr) : List Byte → Decoded
  | a3 :: a2 :: a1 :: a0 :: r1 :: rest => .ok (mk (wordOfBytes a3 a2 a1 a0) (Ref.ofByte r1), rest)
  | _ => .error .truncated

/-- R92: the operands a 4-byte literal, a 4-byte literal, a 4-byte literal. -/
def readWWW (mk : Word → Word → Word → Instr) : List Byte → Decoded
  | a3 :: a2 :: a1 :: a0 :: b3 :: b2 :: b1 :: b0 :: c3 :: c2 :: c1 :: c0 :: rest => .ok (mk (wordOfBytes a3 a2 a1 a0) (wordOfBytes b3 b2 b1 b0) (wordOfBytes c3 c2 c1 c0), rest)
  | _ => .error .truncated

/-- R92: the operands a 4-byte literal, a 4-byte literal, a register reference. -/
def readWWR (mk : Word → Word → Ref → Instr) : List Byte → Decoded
  | a3 :: a2 :: a1 :: a0 :: b3 :: b2 :: b1 :: b0 :: r2 :: rest => .ok (mk (wordOfBytes a3 a2 a1 a0) (wordOfBytes b3 b2 b1 b0) (Ref.ofByte r2), rest)
  | _ => .error .truncated

/-- R92: the operands a 4-byte literal, a register reference, a 4-byte literal. -/
def readWRW (mk : Word → Ref → Word → Instr) : List Byte → Decoded
  | a3 :: a2 :: a1 :: a0 :: r1 :: c3 :: c2 :: c1 :: c0 :: rest => .ok (mk (wordOfBytes a3 a2 a1 a0) (Ref.ofByte r1) (wordOfBytes c3 c2 c1 c0), rest)
  | _ => .error .truncated

/-- R92: the operands a 4-byte literal, a register reference, a register reference. -/
def readWRR (mk : Word → Ref → Ref → Instr) : List Byte → Decoded
  | a3 :: a2 :: a1 :: a0 :: r1 :: r2 :: rest => .ok (mk (wordOfBytes a3 a2 a1 a0) (Ref.ofByte r1) (Ref.ofByte r2), rest)
  | _ => .error .truncated

/-- R92: the operands a register reference, a 4-byte literal, a 4-byte literal. -/
def readRWW (mk : Ref → Word → Word → Instr) : List Byte → Decoded
  | r0 :: b3 :: b2 :: b1 :: b0 :: c3 :: c2 :: c1 :: c0 :: rest => .ok (mk (Ref.ofByte r0) (wordOfBytes b3 b2 b1 b0) (wordOfBytes c3 c2 c1 c0), rest)
  | _ => .error .truncated

/-- R92: the operands a register reference, a 4-byte literal, a register reference. -/
def readRWR (mk : Ref → Word → Ref → Instr) : List Byte → Decoded
  | r0 :: b3 :: b2 :: b1 :: b0 :: r2 :: rest => .ok (mk (Ref.ofByte r0) (wordOfBytes b3 b2 b1 b0) (Ref.ofByte r2), rest)
  | _ => .error .truncated

/-- R92: the operands a register reference, a register reference, a 4-byte literal. -/
def readRRW (mk : Ref → Ref → Word → Instr) : List Byte → Decoded
  | r0 :: r1 :: c3 :: c2 :: c1 :: c0 :: rest => .ok (mk (Ref.ofByte r0) (Ref.ofByte r1) (wordOfBytes c3 c2 c1 c0), rest)
  | _ => .error .truncated

/-- R92: the operands a register reference, a register reference, a register reference. -/
def readRRR (mk : Ref → Ref → Ref → Instr) : List Byte → Decoded
  | r0 :: r1 :: r2 :: rest => .ok (mk (Ref.ofByte r0) (Ref.ofByte r1) (Ref.ofByte r2), rest)
  | _ => .error .truncated

/-- R92: the operands a register reference, a literal byte. -/
def readRB (mk : Ref → Byte → Instr) : List Byte → Decoded
  | r0 :: n1 :: rest => .ok (mk (Ref.ofByte r0) n1, rest)
  | _ => .error .truncated

/-- R97: the variable literal after the reference `rd`, with the bytes after it. -/
def readLit (mk : Lit → Instr) (rd : Ref) (bs : List Byte) : Decoded :=
  match rd.width, bs with
  | 8, b0 :: rest => .ok (mk (.byte b0), rest)
  | 16, b1 :: b0 :: rest => .ok (mk (.half (halfOfBytes b1 b0)), rest)
  | 32, b3 :: b2 :: b1 :: b0 :: rest => .ok (mk (.word (wordOfBytes b3 b2 b1 b0)), rest)
  | 0, rest => .ok (mk .noLength, rest)
  | _, _ => .error .truncated

/-- R92: the operands a register reference, a variable literal of its length. -/
def readRL (mk : Ref → Lit → Instr) : List Byte → Decoded
  | r0 :: rest => readLit (mk (Ref.ofByte r0)) (Ref.ofByte r0) rest
  | _ => .error .truncated

/-- R105: the instruction a mapped opcode byte selects, reading its operands from `rest`; R102 for the unmapped ones. -/
def decodeOperands (op : Byte) (rest : List Byte) : Decoded :=
  match op.toNat with
  | 0x00 => .ok (.halt, rest)
  | 0x01 => .ok (.pause, rest)
  | 0x02 => readW .timerLw rest
  | 0x03 => readR .timerRw rest
  | 0x04 => .ok (.usermode, rest)
  | 0x05 => .ok (.ireturn, rest)
  | 0x06 => readRW .loadLa rest
  | 0x07 => readRR .loadRa rest
  | 0x08 => readWR .storeLa rest
  | 0x09 => readRR .storeRa rest
  | 0x0A => readRL .copyVl rest
  | 0x0B => readRR .copyRr rest
  | 0x0C => readRW .swapLa rest
  | 0x0D => readRR .swapRa rest
  | 0x0E => readR .push rest
  | 0x0F => readR .pop rest
  | 0x10 => readWWW .blockcopyLwLaLa rest
  | 0x11 => readWWR .blockcopyLwLaRa rest
  | 0x12 => readWRW .blockcopyLwRaLa rest
  | 0x13 => readWRR .blockcopyLwRaRa rest
  | 0x14 => readRWW .blockcopyRwLaLa rest
  | 0x15 => readRWR .blockcopyRwLaRa rest
  | 0x16 => readRRW .blockcopyRwRaLa rest
  | 0x17 => readRRR .blockcopyRwRaRa rest
  | 0x18 => readR .negate rest
  | 0x19 => readRL .addVl rest
  | 0x1A => readRR .addRr rest
  | 0x1B => readRL .addcarryVl rest
  | 0x1C => readRR .addcarryRr rest
  | 0x1D => readRL .subVl rest
  | 0x1E => readRR .subRr rest
  | 0x1F => readRL .subborrowVl rest
  | 0x20 => readRR .subborrowRr rest
  | 0x21 => readRL .multVl rest
  | 0x22 => readRR .multRr rest
  | 0x23 => readRL .sdivVl rest
  | 0x24 => readRR .sdivRr rest
  | 0x25 => readRL .udivVl rest
  | 0x26 => readRR .udivRr rest
  | 0x27 => readRL .sremVl rest
  | 0x28 => readRR .sremRr rest
  | 0x29 => readRL .uremVl rest
  | 0x2A => readRR .uremRr rest
  | 0x2B => readR .notR rest
  | 0x2C => readRL .andVl rest
  | 0x2D => readRR .andRr rest
  | 0x2E => readRL .orVl rest
  | 0x2F => readRR .orRr rest
  | 0x30 => readRL .xorVl rest
  | 0x31 => readRR .xorRr rest
  | 0x32 => readRB .lshiftLb rest
  | 0x33 => readRR .lshiftRb rest
  | 0x34 => readRB .rshiftlLb rest
  | 0x35 => readRR .rshiftlRb rest
  | 0x36 => readRB .rshiftaLb rest
  | 0x37 => readRR .rshiftaRb rest
  | 0x38 => readRB .lrotLb rest
  | 0x39 => readRR .lrotRb rest
  | 0x3A => readRB .rrotLb rest
  | 0x3B => readRR .rrotRb rest
  | 0x3C => readRB .lrotcarryLb rest
  | 0x3D => readRR .lrotcarryRb rest
  | 0x3E => readRB .rrotcarryLb rest
  | 0x3F => readRR .rrotcarryRb rest
  | 0x40 => readW .jumpLa rest
  | 0x41 => readR .jumpRa rest
  | 0x42 => readRL .compareVl rest
  | 0x43 => readRR .compareRr rest
  | 0x44 => readW .jequalLa rest
  | 0x45 => readR .jequalRa rest
  | 0x46 => readW .jnotequalLa rest
  | 0x47 => readR .jnotequalRa rest
  | 0x48 => readW .jgreaterLa rest
  | 0x49 => readR .jgreaterRa rest
  | 0x4A => readW .jgreatereqLa rest
  | 0x4B => readR .jgreatereqRa rest
  | 0x4C => readW .jaboveLa rest
  | 0x4D => readR .jaboveRa rest
  | 0x4E => readW .jaboveeqLa rest
  | 0x4F => readR .jaboveeqRa rest
  | 0x50 => readW .jlesserLa rest
  | 0x51 => readR .jlesserRa rest
  | 0x52 => readW .jlessereqLa rest
  | 0x53 => readR .jlessereqRa rest
  | 0x54 => readW .jbelowLa rest
  | 0x55 => readR .jbelowRa rest
  | 0x56 => readW .jbeloweqLa rest
  | 0x57 => readR .jbeloweqRa rest
  | 0x58 => readW .joverflowLa rest
  | 0x59 => readR .joverflowRa rest
  | 0x5A => readW .jnotoverflowLa rest
  | 0x5B => readR .jnotoverflowRa rest
  | 0x5C => readW .callLa rest
  | 0x5D => readR .callRa rest
  | 0x5E => .ok (.ret, rest)
  | 0x5F => .ok (.syscall, rest)
  | n =>
    if n < 0x80 then .ok (.unmapped60 (op.extractLsb' 0 5), rest)
    else .ok (.unmapped80 (op.extractLsb' 0 7), rest)

/-- The decoder: the instruction at the head of a list of bytes and the bytes after it (R90, R105). -/
def decode : List Byte → Decoded
  | op :: rest => decodeOperands op rest
  | [] => .error .truncated

/-- The encoder: the bytes of an instruction in order of increasing address (R90, R91, R94, R105). -/
def encode : Instr → List Byte
  | .halt => [0x00]
  | .pause => [0x01]
  | .timerLw ms => 0x02 :: bytesOfWord ms
  | .timerRw rr => [0x03, rr.toByte]
  | .usermode => [0x04]
  | .ireturn => [0x05]
  | .loadLa rr addr => 0x06 :: rr.toByte :: bytesOfWord addr
  | .loadRa rr ra => [0x07, rr.toByte, ra.toByte]
  | .storeLa addr rr => 0x08 :: (bytesOfWord addr ++ [rr.toByte])
  | .storeRa ra rr => [0x09, ra.toByte, rr.toByte]
  | .copyVl rd lit => 0x0A :: rd.toByte :: lit.bytes
  | .copyRr rd rs => [0x0B, rd.toByte, rs.toByte]
  | .swapLa rr addr => 0x0C :: rr.toByte :: bytesOfWord addr
  | .swapRa rr ra => [0x0D, rr.toByte, ra.toByte]
  | .push rr => [0x0E, rr.toByte]
  | .pop rr => [0x0F, rr.toByte]
  | .blockcopyLwLaLa len dst src => 0x10 :: (bytesOfWord len ++ bytesOfWord dst ++ bytesOfWord src)
  | .blockcopyLwLaRa len dst rsrc => 0x11 :: (bytesOfWord len ++ bytesOfWord dst ++ [rsrc.toByte])
  | .blockcopyLwRaLa len rdst src => 0x12 :: (bytesOfWord len ++ (rdst.toByte :: bytesOfWord src))
  | .blockcopyLwRaRa len rdst rsrc => 0x13 :: (bytesOfWord len ++ [rdst.toByte, rsrc.toByte])
  | .blockcopyRwLaLa rlen dst src => 0x14 :: rlen.toByte :: bytesOfWord dst ++ bytesOfWord src
  | .blockcopyRwLaRa rlen dst rsrc => 0x15 :: rlen.toByte :: bytesOfWord dst ++ [rsrc.toByte]
  | .blockcopyRwRaLa rlen rdst src => 0x16 :: rlen.toByte :: rdst.toByte :: bytesOfWord src
  | .blockcopyRwRaRa rlen rdst rsrc => [0x17, rlen.toByte, rdst.toByte, rsrc.toByte]
  | .negate rd => [0x18, rd.toByte]
  | .addVl rd lit => 0x19 :: rd.toByte :: lit.bytes
  | .addRr rd rs => [0x1A, rd.toByte, rs.toByte]
  | .addcarryVl rd lit => 0x1B :: rd.toByte :: lit.bytes
  | .addcarryRr rd rs => [0x1C, rd.toByte, rs.toByte]
  | .subVl rd lit => 0x1D :: rd.toByte :: lit.bytes
  | .subRr rd rs => [0x1E, rd.toByte, rs.toByte]
  | .subborrowVl rd lit => 0x1F :: rd.toByte :: lit.bytes
  | .subborrowRr rd rs => [0x20, rd.toByte, rs.toByte]
  | .multVl rd lit => 0x21 :: rd.toByte :: lit.bytes
  | .multRr rd rs => [0x22, rd.toByte, rs.toByte]
  | .sdivVl rd lit => 0x23 :: rd.toByte :: lit.bytes
  | .sdivRr rd rs => [0x24, rd.toByte, rs.toByte]
  | .udivVl rd lit => 0x25 :: rd.toByte :: lit.bytes
  | .udivRr rd rs => [0x26, rd.toByte, rs.toByte]
  | .sremVl rd lit => 0x27 :: rd.toByte :: lit.bytes
  | .sremRr rd rs => [0x28, rd.toByte, rs.toByte]
  | .uremVl rd lit => 0x29 :: rd.toByte :: lit.bytes
  | .uremRr rd rs => [0x2A, rd.toByte, rs.toByte]
  | .notR rd => [0x2B, rd.toByte]
  | .andVl rd lit => 0x2C :: rd.toByte :: lit.bytes
  | .andRr rd rs => [0x2D, rd.toByte, rs.toByte]
  | .orVl rd lit => 0x2E :: rd.toByte :: lit.bytes
  | .orRr rd rs => [0x2F, rd.toByte, rs.toByte]
  | .xorVl rd lit => 0x30 :: rd.toByte :: lit.bytes
  | .xorRr rd rs => [0x31, rd.toByte, rs.toByte]
  | .lshiftLb rd n => [0x32, rd.toByte, n]
  | .lshiftRb rd rb => [0x33, rd.toByte, rb.toByte]
  | .rshiftlLb rd n => [0x34, rd.toByte, n]
  | .rshiftlRb rd rb => [0x35, rd.toByte, rb.toByte]
  | .rshiftaLb rd n => [0x36, rd.toByte, n]
  | .rshiftaRb rd rb => [0x37, rd.toByte, rb.toByte]
  | .lrotLb rd n => [0x38, rd.toByte, n]
  | .lrotRb rd rb => [0x39, rd.toByte, rb.toByte]
  | .rrotLb rd n => [0x3A, rd.toByte, n]
  | .rrotRb rd rb => [0x3B, rd.toByte, rb.toByte]
  | .lrotcarryLb rd n => [0x3C, rd.toByte, n]
  | .lrotcarryRb rd rb => [0x3D, rd.toByte, rb.toByte]
  | .rrotcarryLb rd n => [0x3E, rd.toByte, n]
  | .rrotcarryRb rd rb => [0x3F, rd.toByte, rb.toByte]
  | .jumpLa target => 0x40 :: bytesOfWord target
  | .jumpRa ra => [0x41, ra.toByte]
  | .compareVl r1 lit => 0x42 :: r1.toByte :: lit.bytes
  | .compareRr r1 r2 => [0x43, r1.toByte, r2.toByte]
  | .jequalLa target => 0x44 :: bytesOfWord target
  | .jequalRa ra => [0x45, ra.toByte]
  | .jnotequalLa target => 0x46 :: bytesOfWord target
  | .jnotequalRa ra => [0x47, ra.toByte]
  | .jgreaterLa target => 0x48 :: bytesOfWord target
  | .jgreaterRa ra => [0x49, ra.toByte]
  | .jgreatereqLa target => 0x4A :: bytesOfWord target
  | .jgreatereqRa ra => [0x4B, ra.toByte]
  | .jaboveLa target => 0x4C :: bytesOfWord target
  | .jaboveRa ra => [0x4D, ra.toByte]
  | .jaboveeqLa target => 0x4E :: bytesOfWord target
  | .jaboveeqRa ra => [0x4F, ra.toByte]
  | .jlesserLa target => 0x50 :: bytesOfWord target
  | .jlesserRa ra => [0x51, ra.toByte]
  | .jlessereqLa target => 0x52 :: bytesOfWord target
  | .jlessereqRa ra => [0x53, ra.toByte]
  | .jbelowLa target => 0x54 :: bytesOfWord target
  | .jbelowRa ra => [0x55, ra.toByte]
  | .jbeloweqLa target => 0x56 :: bytesOfWord target
  | .jbeloweqRa ra => [0x57, ra.toByte]
  | .joverflowLa target => 0x58 :: bytesOfWord target
  | .joverflowRa ra => [0x59, ra.toByte]
  | .jnotoverflowLa target => 0x5A :: bytesOfWord target
  | .jnotoverflowRa ra => [0x5B, ra.toByte]
  | .callLa target => 0x5C :: bytesOfWord target
  | .callRa ra => [0x5D, ra.toByte]
  | .ret => [0x5E]
  | .syscall => [0x5F]
  | .unmapped60 low => [(0b011#3 ++ low : BitVec 8)]
  | .unmapped80 low => [(0b1#1 ++ low : BitVec 8)]

/-- R98: the length of an instruction; none where it is undefined. -/
def Instr.length : Instr → Option Nat
  | .halt => some 1
  | .pause => some 1
  | .timerLw _ => some 5
  | .timerRw _ => some 2
  | .usermode => some 1
  | .ireturn => some 1
  | .loadLa _ _ => some 6
  | .loadRa _ _ => some 3
  | .storeLa _ _ => some 6
  | .storeRa _ _ => some 3
  | .copyVl rd _ => vlLength rd
  | .copyRr _ _ => some 3
  | .swapLa _ _ => some 6
  | .swapRa _ _ => some 3
  | .push _ => some 2
  | .pop _ => some 2
  | .blockcopyLwLaLa _ _ _ => some 13
  | .blockcopyLwLaRa _ _ _ => some 10
  | .blockcopyLwRaLa _ _ _ => some 10
  | .blockcopyLwRaRa _ _ _ => some 7
  | .blockcopyRwLaLa _ _ _ => some 10
  | .blockcopyRwLaRa _ _ _ => some 7
  | .blockcopyRwRaLa _ _ _ => some 7
  | .blockcopyRwRaRa _ _ _ => some 4
  | .negate _ => some 2
  | .addVl rd _ => vlLength rd
  | .addRr _ _ => some 3
  | .addcarryVl rd _ => vlLength rd
  | .addcarryRr _ _ => some 3
  | .subVl rd _ => vlLength rd
  | .subRr _ _ => some 3
  | .subborrowVl rd _ => vlLength rd
  | .subborrowRr _ _ => some 3
  | .multVl rd _ => vlLength rd
  | .multRr _ _ => some 3
  | .sdivVl rd _ => vlLength rd
  | .sdivRr _ _ => some 3
  | .udivVl rd _ => vlLength rd
  | .udivRr _ _ => some 3
  | .sremVl rd _ => vlLength rd
  | .sremRr _ _ => some 3
  | .uremVl rd _ => vlLength rd
  | .uremRr _ _ => some 3
  | .notR _ => some 2
  | .andVl rd _ => vlLength rd
  | .andRr _ _ => some 3
  | .orVl rd _ => vlLength rd
  | .orRr _ _ => some 3
  | .xorVl rd _ => vlLength rd
  | .xorRr _ _ => some 3
  | .lshiftLb _ _ => some 3
  | .lshiftRb _ _ => some 3
  | .rshiftlLb _ _ => some 3
  | .rshiftlRb _ _ => some 3
  | .rshiftaLb _ _ => some 3
  | .rshiftaRb _ _ => some 3
  | .lrotLb _ _ => some 3
  | .lrotRb _ _ => some 3
  | .rrotLb _ _ => some 3
  | .rrotRb _ _ => some 3
  | .lrotcarryLb _ _ => some 3
  | .lrotcarryRb _ _ => some 3
  | .rrotcarryLb _ _ => some 3
  | .rrotcarryRb _ _ => some 3
  | .jumpLa _ => some 5
  | .jumpRa _ => some 2
  | .compareVl r1 _ => vlLength r1
  | .compareRr _ _ => some 3
  | .jequalLa _ => some 5
  | .jequalRa _ => some 2
  | .jnotequalLa _ => some 5
  | .jnotequalRa _ => some 2
  | .jgreaterLa _ => some 5
  | .jgreaterRa _ => some 2
  | .jgreatereqLa _ => some 5
  | .jgreatereqRa _ => some 2
  | .jaboveLa _ => some 5
  | .jaboveRa _ => some 2
  | .jaboveeqLa _ => some 5
  | .jaboveeqRa _ => some 2
  | .jlesserLa _ => some 5
  | .jlesserRa _ => some 2
  | .jlessereqLa _ => some 5
  | .jlessereqRa _ => some 2
  | .jbelowLa _ => some 5
  | .jbelowRa _ => some 2
  | .jbeloweqLa _ => some 5
  | .jbeloweqRa _ => some 2
  | .joverflowLa _ => some 5
  | .joverflowRa _ => some 2
  | .jnotoverflowLa _ => some 5
  | .jnotoverflowRa _ => some 2
  | .callLa _ => some 5
  | .callRa _ => some 2
  | .ret => some 1
  | .syscall => some 1
  | .unmapped60 _ => some 1
  | .unmapped80 _ => some 1

/-- The length of the longest instruction (R90). -/
def maxInstrBytes : Nat := 13

/-- The bytes of an opcode-table number: byte k is bits 8k+7..8k of `w`, and every bit at `nbits` or above is 0. -/
def tableBytes (nbits w : Nat) : List Byte :=
  (List.range maxInstrBytes).map fun k => BitVec.ofNat 8 (w % 2 ^ nbits / 2 ^ (8 * k))

/-- The instruction the decoder reads from an instruction whose bits are `w`, numbered as spec/opcode_table.json numbers
them: byte k is bits 8k+7..8k; every bit at `nbits` or above is 0. -/
def decodeTableWord (nbits w : Nat) : Option Instr :=
  match decode (tableBytes nbits w) with
  | .ok (i, _) => some i
  | .error _ => none

end Sys2Proof
end

