-- ==== Sys2Proof/Machine/Params.lean ====
section
/-!
DEFINITION. The parameters of 00_scope.md R6 to which the spec gives a default, at that default (log 20). The
definitions that use one cover its other values too.
-/

namespace Sys2Proof.Machine

/-- `IRQ_PRIORITY` (60_exceptions.md R305). -/
inductive IrqPriority where
  | highestNumberFirst
  | lowestNumberFirst
deriving DecidableEq, Repr

/-- `FAULT_PC` (60_exceptions.md R309). -/
inductive FaultPc where
  /-- the instruction after the faulting one -/
  | next
  /-- the faulting instruction itself -/
  | faulting
deriving DecidableEq, Repr

/-- `SHIFT_COUNT_MODE` (43_bitwise.md R225). -/
inductive ShiftCountMode where
  | unmasked
  /-- the count modulo the operand's width -/
  | moduloWidth
  /-- the count modulo 32 -/
  | modulo32
deriving DecidableEq, Repr

/-- Default: highest interrupt number first (R305, D27). -/
def irqPriority : IrqPriority := .highestNumberFirst

/-- Default: the next sequential instruction (R309, D15). -/
def faultPc : FaultPc := .next

/-- Default: the count is used unmasked (R225, D19). -/
def shiftCountMode : ShiftCountMode := .unmasked

/-- `REGCLASS_WIDE`, default false: the special registers are outside the integer and address classes
(30_encoding.md R96, D6). -/
def regclassWide : Bool := false

end Sys2Proof.Machine
end

