-- ==== Sys2Proof/Config.lean ====
section
/-!
DEFINITION. What the spec leaves to the platform or leaves open: the opaque free values (no body: nothing in Lean can
evaluate them) and the entry point. The parameters the spec gives a default (IRQ_PRIORITY, FAULT_PC,
SHIFT_COUNT_MODE, REGCLASS_WIDE) stand in Sys2Proof/Machine/Params.lean.
-/

namespace Sys2Proof

/-- The access kinds of `Translate` (20_memory.md R70). -/
inductive Access where
  | fetch
  | read
  | write
deriving DecidableEq, Repr, Inhabited

/-- The answers of `Translate` (20_memory.md R70). -/
inductive Translation where
  /-- the physical address of the byte -/
  | ok (paddr : Word)
  /-- the access raises interrupt 4 -/
  | fault
  /-- for a write only: the access raises interrupt 6 -/
  | readOnly
deriving DecidableEq, Repr, Inhabited

/-- What the asynchronous sources do at one point between two instructions: who sets its latch (60_exceptions.md R303), and
the bytes the devices store to physical memory, in order (00_scope.md R6, 20_memory.md R74; log 8). -/
structure Arrival where
  keyboard : Bool
  diskA : Bool
  diskB : Bool
  timer : Bool
  writes : List (Word × Byte)
deriving DecidableEq, Repr, Inhabited

/-- The two-operand binary32 functions of `FloatOps` (42_arithmetic.md R181). -/
inductive FloatFn where
  | add
  | sub
  | mul
  | div
  | rem
deriving DecidableEq, Repr, Inhabited

namespace Config

/-- `RESET_PC` (00_scope.md R6, 70_reset_and_hazards.md R350): OPEN in the spec. DESIGN CHOICE (log 1), unsafe: the
value the spec's test programs take (92_eei_decisions.md D33). -/
def resetPc : Word := 0x00000100

/-- FREE VALUE. A 32-bit value nothing constrains, the n-th one drawn (log 9, 10, 12). Safe. -/
opaque freeWord : Nat → Word

/-- FREE VALUE. The byte at index k of the n-th block of bytes drawn (41_data_movement.md R158, U7; log 15, 16). Safe. -/
opaque freeByte : Nat → Nat → Byte

/-- FREE VALUE. What `FloatOps` leaves in a result that is a NaN (42_arithmetic.md R181, U5; log 11). Safe. -/
opaque nanResult : FloatFn → Word → Word → Word

/-- FREE VALUE. `to_int32` of a NaN, an infinity or a value out of range (41_data_movement.md R154, U6; log 13). Safe. -/
opaque outOfRangeInt : Word → Word

/-- FREE VALUE. The sign of a zero result of `rem`, which no rule states (42_arithmetic.md R181; log 14). Safe. -/
opaque zeroRemainderSign : Word → Word → Bool

/-- PARAMETER `Translate(PDPR, vaddr, access)` over the contents of physical memory (20_memory.md R70; log 6). Safe. -/
opaque translate : (pdpr : Word) → (vaddr : Word) → Access → (mem : List (Nat × Byte)) → Translation

/-- PARAMETERS `DeviceOracle` and `TimerOracle`: what the sources do before the n-th check, to the latches and to memory
(00_scope.md R6; 60_exceptions.md R303, R320, R322; 20_memory.md R74; log 7, 8). Safe. -/
opaque arrival : Nat → Arrival

end Config
end Sys2Proof
end

