-- ==== Sys2Proof/Machine/State.lean ====
section
/-!
DEFINITION. The state of the machine as plain data (10_state.md R44), the parameters the spec leaves to the platform
carried beside it (00_scope.md R6), the reasons a step can stop, and the state after reset (R43, R350).
-/

namespace Sys2Proof.Machine

/-- The two privilege modes (10_state.md R38). -/
inductive Mode where
  | kernel
  | user
deriving DecidableEq, Repr, Inhabited

/-- The eight interrupts (60_exceptions.md R300). -/
inductive Irq where
  | syscall
  | keyboard
  | diskA
  | diskB
  | pageFault
  | divideByZero
  | illegalOperation
  | timer
deriving DecidableEq, Repr, Inhabited

/-- The latches `latch[0..7]`, one bit for each interrupt (10_state.md R39). -/
structure Latches where
  syscall : Bool
  keyboard : Bool
  diskA : Bool
  diskB : Bool
  pageFault : Bool
  divideByZero : Bool
  illegalOperation : Bool
  timer : Bool
deriving DecidableEq, Repr, Inhabited

/-- A register file of eight 32-bit registers (10_state.md R20, R23). -/
structure Bank where
  r0 : Word
  r1 : Word
  r2 : Word
  r3 : Word
  r4 : Word
  r5 : Word
  r6 : Word
  r7 : Word
deriving DecidableEq, Repr, Inhabited

/-- Physical memory: (address, byte) pairs in one canonical form (`Memory.wf`, Sys2Proof/Machine/Mem.lean). -/
abbrev Memory := List Host.Cell

/-- What `PhysMap` says of a physical address (20_memory.md R68). -/
inductive RegionKind where
  | ram
  | readOnly
  | device
  | absent
deriving DecidableEq, Repr, Inhabited

/-- A region of the physical memory map: `size` addresses from `base` on (20_memory.md R68). -/
structure Region where
  base : Nat
  size : Nat
  kind : RegionKind
deriving DecidableEq, Repr, Inhabited

/-- One entry of a listed translation: `size` virtual addresses from `vbase` on map to the physical addresses from
`pbase` on while PDPR is `pdpr`; an access of a kind in `faulting` answers fault, any other write where `writable` is false
read_only (20_memory.md R70). -/
structure PageEntry where
  pdpr : Word
  vbase : Nat
  size : Nat
  pbase : Word
  writable : Bool
  faulting : List Access
deriving DecidableEq, Repr, Inhabited

/-- The parameter `Translate` (20_memory.md R70; log 6). -/
inductive Mmu where
  /-- the opaque `Config.translate`: any function of PDPR, address, access and memory -/
  | external
  /-- a finite listing, the first entry that holds the address deciding; an address in none faults -/
  | listed (entries : List PageEntry)
deriving DecidableEq, Repr, Inhabited

/-- The parameters `DeviceOracle` and `TimerOracle`: what the asynchronous sources do at the checks to come (00_scope.md R6;
60_exceptions.md R303, R320, R322; log 7, 8). -/
inductive Arrivals where
  /-- no source acts any more -/
  | quiet
  /-- the opaque `Config.arrival`, from position `tick` on -/
  | oracle (tick : Nat)
  /-- this at the next check, then the rest -/
  | first (a : Arrival) (rest : Arrivals)
deriving DecidableEq, Repr, Inhabited

/-- The state. Every field up to `mem` is the spec's (10_state.md R44); `physMap`, `mmu` and `arrivals` are the spec's
parameters; `draws` is the model's own. -/
structure State where
  /-- R[0..7] (R20) -/
  r : Bank
  /-- F[0..7], binary32 patterns (R23) -/
  f : Bank
  /-- FLAGS[14:0]; bit 15 is not storage (R26, R27) -/
  flags : BitVec 15
  /-- USPR (R31) -/
  uspr : Word
  /-- KSPR (R32) -/
  kspr : Word
  /-- PDPR (R34) -/
  pdpr : Word
  /-- IMR (R35) -/
  imr : BitVec 16
  /-- the program counter (R37) -/
  pc : Word
  /-- the privilege mode (R38) -/
  mode : Mode
  /-- the interrupt latches (R39) -/
  latch : Latches
  /-- set by HALT, never cleared (R40) -/
  halted : Bool
  /-- set by PAUSE, cleared when an interrupt is serviced (R40) -/
  paused : Bool
  /-- timer_period, in milliseconds, 0 when disabled (R41) -/
  timerPeriod : Word
  /-- physical memory (R60) -/
  mem : Memory
  /-- parameter PhysMap; an address in no listed region is ram (R68; log 5) -/
  physMap : List Region
  /-- parameter Translate (R70; log 6) -/
  mmu : Mmu
  /-- parameters DeviceOracle and TimerOracle (R320, R322; log 7, 8) -/
  arrivals : Arrivals
  /-- the model's own: how many free values have been drawn (log 26) -/
  draws : Nat
deriving DecidableEq, Repr, Inhabited

/-- The reasons a step stops with a fault. The architecture's own faults (interrupts 4, 5, 6) are next states. -/
inductive Fault where
  /-- Raised by `step` after HALT: no step of any kind (40_privileged.md R130, 60_exceptions.md R304). The end of a run
  (00_scope.md R8). Safe. -/
  | halted
  /-- Raised by any access (fetch, data, stack, vector) to a physical address that PhysMap marks absent, to which the
  source gives no meaning (20_memory.md R63, R71; U10). Safe. -/
  | absentAddress
deriving DecidableEq, Repr

/-- The reasons a step is refused. -/
inductive Refusal where
  /-- Raised by an arm of `exec` whose instruction has no meaning yet. Safe. -/
  | notModelled (mnemonic : String)
  /-- Raised by any access to a physical address that PhysMap marks device: the source gives no device behaviour
  (00_scope.md R4, 20_memory.md R63; U10). Safe. -/
  | deviceAccess
  /-- Raised by an entry-sequence push onto a read_only address, to which the source gives no result (60_exceptions.md
  R326; U10). Safe. -/
  | entryPushReadOnly
  /-- Raised by `step` if the decoder found the fetched bytes too few. No state raises it, the fetch reads the
  instruction's whole length (30_encoding.md R98). Safe. -/
  | truncatedFetch
deriving DecidableEq, Repr

/-- A register file of zeros. -/
def Bank.zero : Bank := ⟨0, 0, 0, 0, 0, 0, 0, 0⟩

/-- No interrupt latched. -/
def Latches.none : Latches := ⟨false, false, false, false, false, false, false, false⟩

/-- The machine right after reset (10_state.md R43, 70_reset_and_hazards.md R350). The spec fixes mode, IMR, latches,
halted, paused and timer_period; the registers' zeros, the entry point, the empty listing of memory and the values of
the parameters are DESIGN CHOICE (log 1, 2, 3, 5, 6, 7, 26), unsafe. -/
def State.reset : State where
  r := Bank.zero
  f := Bank.zero
  flags := 0
  uspr := 0
  kspr := 0
  pdpr := 0
  imr := 0
  pc := Config.resetPc
  mode := .kernel
  latch := Latches.none
  halted := false
  paused := false
  timerPeriod := 0
  mem := []
  physMap := []
  mmu := .external
  arrivals := .oracle 0
  draws := 0

end Sys2Proof.Machine
end

