-- ==== Sys2Proof/Machine/Flags.lean ====
section
/-!
DEFINITION. The flags and every flag computation: FLAGS and its four bits (10_state.md R26 to R30), the W-bit integer
operations with their carry and overflow (42_arithmetic.md R182, R183, R189 to R193; 43_bitwise.md R221 to R232) and the
conditions of the jumps (44_flow_control.md R278). W is the width of the operand; values are exact integers until the
result is reduced modulo 2^W.
-/

namespace Sys2Proof.Machine

/-- Flag Z, FLAGS[0] (R26). -/
def State.flagZ (s : State) : Bool := s.flags.getLsbD 0

/-- Flag N, FLAGS[1] (R26). -/
def State.flagN (s : State) : Bool := s.flags.getLsbD 1

/-- Flag C, FLAGS[2] (R26). -/
def State.flagC (s : State) : Bool := s.flags.getLsbD 2

/-- Flag O, FLAGS[3] (R26). -/
def State.flagO (s : State) : Bool := s.flags.getLsbD 3

/-- FLAGS with its low four bits replaced, bits 14:4 unchanged (R28, R29). -/
def withZNCO (fl : BitVec 15) (z n c o : Bool) : BitVec 15 :=
  fl.extractLsb' 4 11 ++ BitVec.ofBool o ++ BitVec.ofBool c ++ BitVec.ofBool n ++ BitVec.ofBool z

/-- Write FLAGS[14:0]. -/
def State.setFlags (s : State) (v : BitVec 15) : State := { s with flags := v }

/-- Write the four flags (R29). -/
def State.setZNCO (s : State) (z n c o : Bool) : State := s.setFlags (withZNCO s.flags z n c o)

/-- The outcome of a W-bit integer operation: result, carry, overflow. Z and N follow from the result (R30). -/
structure Alu (w : Nat) where
  val : BitVec w
  c : Bool
  o : Bool
deriving DecidableEq, Repr

/-- Z of a result (R30). -/
def Alu.z {w : Nat} (a : Alu w) : Bool := decide (a.val = 0)

/-- N of a result: its top bit (R30). -/
def Alu.n {w : Nat} (a : Alu w) : Bool := a.val.getMsbD 0

/-- Whether an integer is outside the W-bit two's complement range. -/
def signedOverflow (w : Nat) (x : Int) : Bool :=
  decide (x < -((2 ^ (w - 1) : Nat) : Int)) || decide (((2 ^ (w - 1) : Nat) : Int) - 1 < x)

/-- `AddW(a, b, cin)` (R182). -/
def addW {w : Nat} (a b : BitVec w) (cin : Bool) : Alu w where
  val := BitVec.ofNat w (a.toNat + b.toNat + cin.toNat)
  c := decide (2 ^ w ≤ a.toNat + b.toNat + cin.toNat)
  o := signedOverflow w (a.toInt + b.toInt + cin.toNat)

/-- `SubW(a, b, bin)`: a - b - bin, C the borrow (R183). -/
def subW {w : Nat} (a b : BitVec w) (bin : Bool) : Alu w where
  val := BitVec.ofInt w ((a.toNat : Int) - b.toNat - bin.toNat)
  c := decide ((a.toNat : Int) - b.toNat - bin.toNat < 0)
  o := signedOverflow w (a.toInt - b.toInt - bin.toNat)

/-- MULT: the low W bits of the product (R189, D17). -/
def mulW {w : Nat} (a b : BitVec w) : Alu w where
  val := BitVec.ofNat w (a.toNat * b.toNat)
  c := decide (2 ^ w ≤ a.toNat * b.toNat)
  o := signedOverflow w (a.toInt * b.toInt)

/-- SDIV by a divisor that is not 0: the quotient rounded toward zero (R190, D18). -/
def sdivW {w : Nat} (a b : BitVec w) : Alu w where
  val := BitVec.ofInt w (a.toInt.tdiv b.toInt)
  c := false
  o := decide (a.toInt.tdiv b.toInt = ((2 ^ (w - 1) : Nat) : Int))

/-- UDIV by a divisor that is not 0 (R191). -/
def udivW {w : Nat} (a b : BitVec w) : Alu w where
  val := BitVec.ofNat w (a.toNat / b.toNat)
  c := false
  o := false

/-- SREM by a divisor that is not 0: the remainder of the quotient rounded toward zero (R192). -/
def sremW {w : Nat} (a b : BitVec w) : Alu w where
  val := BitVec.ofInt w (a.toInt - a.toInt.tdiv b.toInt * b.toInt)
  c := false
  o := false

/-- UREM by a divisor that is not 0 (R193). -/
def uremW {w : Nat} (a b : BitVec w) : Alu w where
  val := BitVec.ofNat w (a.toNat % b.toNat)
  c := false
  o := false

/-- A bitwise result: C and O are written 0 (R220, D16). -/
def logicW {w : Nat} (r : BitVec w) : Alu w where
  val := r
  c := false
  o := false

/-- NOT (R221). -/
def notW {w : Nat} (a : BitVec w) : Alu w := logicW (BitVec.ofNat w (2 ^ w - 1 - a.toNat))

/-- AND (R222). -/
def andW {w : Nat} (a b : BitVec w) : Alu w := logicW (a &&& b)

/-- OR (R223). -/
def orW {w : Nat} (a b : BitVec w) : Alu w := logicW (a ||| b)

/-- XOR (R224). -/
def xorW {w : Nat} (a b : BitVec w) : Alu w := logicW (a ^^^ b)

/-- The count a shift uses (R225, D19): parameter SHIFT_COUNT_MODE. -/
def shiftCount (w n : Nat) : Nat :=
  match shiftCountMode with
  | .unmasked => n
  | .moduloWidth => n % w
  | .modulo32 => n % 32

/-- LSHIFT by n places (R226). -/
def lshiftBy {w : Nat} (a : BitVec w) (n : Nat) : Alu w where
  val := BitVec.ofNat w (a.toNat * 2 ^ n)
  c := decide (1 ≤ n ∧ n ≤ w) && a.getLsbD (w - n)
  o := false

/-- RSHIFTL by n places (R227). -/
def rshiftlBy {w : Nat} (a : BitVec w) (n : Nat) : Alu w where
  val := BitVec.ofNat w (a.toNat / 2 ^ n)
  c := decide (1 ≤ n ∧ n ≤ w) && a.getLsbD (n - 1)
  o := false

/-- RSHIFTA by n places: the floor of the signed quotient; past the width the bits shifted out are copies of the sign
(R228). -/
def rshiftaBy {w : Nat} (a : BitVec w) (n : Nat) : Alu w where
  val := BitVec.ofInt w (a.toInt / ((2 ^ n : Nat) : Int))
  c := if n = 0 then false else if n ≤ w then a.getLsbD (n - 1) else a.getLsbD (w - 1)
  o := false

/-- LSHIFT (R225, R226). -/
def lshiftW {w : Nat} (a : BitVec w) (n : Nat) : Alu w := lshiftBy a (shiftCount w n)

/-- RSHIFTL (R225, R227). -/
def rshiftlW {w : Nat} (a : BitVec w) (n : Nat) : Alu w := rshiftlBy a (shiftCount w n)

/-- RSHIFTA (R225, R228). -/
def rshiftaW {w : Nat} (a : BitVec w) (n : Nat) : Alu w := rshiftaBy a (shiftCount w n)

/-- A rotation left by k places, k at most the width (R229, R231). -/
def rotateL {w : Nat} (v : BitVec w) (k : Nat) : BitVec w :=
  BitVec.ofNat w (v.toNat * 2 ^ k) ||| BitVec.ofNat w (v.toNat / 2 ^ (w - k))

/-- A rotation right by k places, k at most the width (R230, R232). -/
def rotateR {w : Nat} (v : BitVec w) (k : Nat) : BitVec w :=
  BitVec.ofNat w (v.toNat / 2 ^ k) ||| BitVec.ofNat w (v.toNat * 2 ^ (w - k))

/-- LROT: C takes no part and is written 0 (R229, D20). -/
def lrotW {w : Nat} (a : BitVec w) (n : Nat) : Alu w := logicW (rotateL a (n % w))

/-- RROT (R230, D20). -/
def rrotW {w : Nat} (a : BitVec w) (n : Nat) : Alu w := logicW (rotateR a (n % w))

/-- LROTCARRY: C stands to the left of the register, W+1 bits rotate (R231, D20). -/
def lrotcarryW {w : Nat} (a : BitVec w) (cin : Bool) (n : Nat) : Alu w :=
  let v := rotateL (BitVec.cons cin a) (n % (w + 1))
  { val := v.extractLsb' 0 w, c := v.getLsbD w, o := false }

/-- RROTCARRY: C stands to the right of the register, W+1 bits rotate (R232, D20). -/
def rrotcarryW {w : Nat} (a : BitVec w) (cin : Bool) (n : Nat) : Alu w :=
  let v := rotateR (BitVec.concat a cin) (n % (w + 1))
  { val := v.extractLsb' 1 w, c := v.getLsbD 0, o := false }

/-- JEQUAL (R263). -/
def State.condEqual (s : State) : Bool := s.flagZ

/-- JNOTEQUAL (R264). -/
def State.condNotEqual (s : State) : Bool := !s.flagZ

/-- JGREATER (R265): N = O and Z = 0. -/
def State.condGreater (s : State) : Bool := (s.flagN == s.flagO) && !s.flagZ

/-- JGREATEREQ (R266): N = O or Z = 1. -/
def State.condGreaterEq (s : State) : Bool := (s.flagN == s.flagO) || s.flagZ

/-- JABOVE (R267): C = 0 and Z = 0. -/
def State.condAbove (s : State) : Bool := !s.flagC && !s.flagZ

/-- JABOVEEQ (R268): C = 0 or Z = 1. -/
def State.condAboveEq (s : State) : Bool := !s.flagC || s.flagZ

/-- JLESSER (R269): N ≠ O. -/
def State.condLesser (s : State) : Bool := s.flagN != s.flagO

/-- JLESSEREQ (R270): N ≠ O or Z = 1. -/
def State.condLesserEq (s : State) : Bool := (s.flagN != s.flagO) || s.flagZ

/-- JBELOW (R271): C = 1. -/
def State.condBelow (s : State) : Bool := s.flagC

/-- JBELOWEQ (R272): C = 1 or Z = 1. -/
def State.condBelowEq (s : State) : Bool := s.flagC || s.flagZ

/-- JOVERFLOW (R273): O = 1. -/
def State.condOverflow (s : State) : Bool := s.flagO

/-- JNOTOVERFLOW (R274): O = 0. -/
def State.condNotOverflow (s : State) : Bool := !s.flagO

end Sys2Proof.Machine
end

