-- ==== Sys2Proof/Machine/Float.lean ====
section
/-!
DEFINITION. `FloatOps` (42_arithmetic.md R181) at the spec's default: IEEE 754 binary32, round to nearest, ties to even,
gradual underflow. A finite value is held exactly as an integer number of units of 2^-149, the least subnormal. What the
spec leaves unspecified (NaN patterns, conversions out of range, the sign of a zero remainder) is a free value.
PRESUMED (log 14), unsafe: the spec marks this default as general knowledge.
-/

namespace Sys2Proof.Machine

/-- Bit 31 (10_state.md R23). -/
def signBit (x : Word) : Bool := x.getLsbD 31

/-- Bits 30:23, the biased exponent (R23). -/
def expField (x : Word) : Nat := (x.extractLsb' 23 8).toNat

/-- Bits 22:0, the fraction (R23). -/
def fracField (x : Word) : Nat := (x.extractLsb' 0 23).toNat

def isNaN (x : Word) : Bool := expField x == 255 && fracField x != 0

def isInf (x : Word) : Bool := expField x == 255 && fracField x == 0

/-- +0.0 or -0.0. -/
def isZero (x : Word) : Bool := expField x == 0 && fracField x == 0

/-- Less than zero: -0.0 and a NaN are not (R194). -/
def isNegative (x : Word) : Bool := signBit x && !isZero x && !isNaN x

/-- The magnitude of a finite value in units of 2^-149. -/
def magnitude (x : Word) : Nat :=
  if expField x = 0 then fracField x else (2 ^ 23 + fracField x) * 2 ^ (expField x - 1)

/-- A finite value in units of 2^-149. -/
def exactValue (x : Word) : Int := if signBit x then -(magnitude x : Int) else magnitude x

/-- A pattern from its sign and its bits 30:0. -/
def packFloat (neg : Bool) (bits : Nat) : Word := BitVec.ofBool neg ++ BitVec.ofNat 31 bits

/-- Bits 30:0 of an infinity. -/
def infBits : Nat := 0x7F800000

/-- The binary32 value nearest to ± num/den units of 2^-149, ties to even; an infinity past the largest finite value.
`q` counts quanta of 2^k units; a carry out of the significand runs into the exponent field. -/
def roundFloat (neg : Bool) (num den : Nat) : Word :=
  let k := Nat.log2 (num / den) - 23
  let d := den * 2 ^ k
  let q := num / d
  let rem := num % d
  let q' := if d < 2 * rem ∨ (2 * rem = d ∧ q % 2 = 1) then q + 1 else q
  let bits := k * 2 ^ 23 + q'
  packFloat neg (if infBits ≤ bits then infBits else bits)

/-- A NaN whose sign and payload nothing constrains (U5; log 11). -/
def freeNaN (fn : FloatFn) (a b : Word) : Word :=
  let p := Config.nanResult fn a b
  if isNaN p then p else 0x7FC00000

/-- `neg`: flips bit 31 (R181). -/
def negFloat (a : Word) : Word := a ^^^ 0x80000000

/-- The sum of two operands that are no NaN; `fn` and the operands as given name the NaN of an infinity minus itself. -/
def sumFloat (nan : Word) (a b : Word) : Word :=
  if isInf a then (if isInf b && (signBit a != signBit b) then nan else a)
  else if isInf b then b
  else
    let v := exactValue a + exactValue b
    if v = 0 then packFloat (signBit a && signBit b) 0
    else roundFloat (decide (v < 0)) v.natAbs 1

/-- `add` (R181). -/
def addFloat (a b : Word) : Word :=
  if isNaN a || isNaN b then freeNaN .add a b else sumFloat (freeNaN .add a b) a b

/-- `sub` (R181). -/
def subFloat (a b : Word) : Word :=
  if isNaN a || isNaN b then freeNaN .sub a b else sumFloat (freeNaN .sub a b) a (negFloat b)

/-- `mul` (R181). -/
def mulFloat (a b : Word) : Word :=
  let neg := signBit a != signBit b
  if isNaN a || isNaN b then freeNaN .mul a b
  else if (isInf a && isZero b) || (isZero a && isInf b) then freeNaN .mul a b
  else if isInf a || isInf b then packFloat neg infBits
  else roundFloat neg (magnitude a * magnitude b) (2 ^ 149)

/-- `div` (R181). -/
def divFloat (a b : Word) : Word :=
  let neg := signBit a != signBit b
  if isNaN a || isNaN b then freeNaN .div a b
  else if (isInf a && isInf b) || (isZero a && isZero b) then freeNaN .div a b
  else if isInf a || isZero b then packFloat neg infBits
  else if isInf b then packFloat neg 0
  else roundFloat neg (magnitude a * 2 ^ 149) (magnitude b)

/-- `rem`: a - b * trunc(a / b) exactly, a non-zero result with the sign of a (R181). An infinite b leaves a finite a
(log 14); the sign of a zero result is a free value. -/
def remFloat (a b : Word) : Word :=
  if isNaN a || isNaN b then freeNaN .rem a b
  else if isInf a || isZero b then freeNaN .rem a b
  else
    let m := if isInf b then magnitude a else magnitude a % magnitude b
    if m = 0 then packFloat (Config.zeroRemainderSign a b) 0 else roundFloat (signBit a) m 1

/-- `from_int32`: the nearest binary32 value, ties to even (41_data_movement.md R154). -/
def fromInt32 (a : Word) : Word := roundFloat (decide (a.toInt < 0)) (a.toInt.natAbs * 2 ^ 149) 1

/-- `to_int32`: truncation toward zero; a free value for a NaN, an infinity and a value out of range (R154, U6; log 13). -/
def toInt32 (a : Word) : Word :=
  if isNaN a || isInf a then Config.outOfRangeInt a
  else
    let t : Int := if signBit a then -((magnitude a / 2 ^ 149 : Nat) : Int) else ((magnitude a / 2 ^ 149 : Nat) : Int)
    if -2147483648 ≤ t ∧ t ≤ 2147483647 then BitVec.ofInt 32 t else Config.outOfRangeInt a

/-- The configuration record of R181. -/
structure FloatOps where
  add : Word → Word → Word
  sub : Word → Word → Word
  mul : Word → Word → Word
  div : Word → Word → Word
  rem : Word → Word → Word
  neg : Word → Word
  fromInt32 : Word → Word
  toInt32 : Word → Word

/-- The spec's default for `FloatOps` (R181, D21, D22). -/
def floatOps : FloatOps where
  add := addFloat
  sub := subFloat
  mul := mulFloat
  div := divFloat
  rem := remFloat
  neg := negFloat
  fromInt32 := Machine.fromInt32
  toInt32 := Machine.toInt32

end Sys2Proof.Machine
end

