-- ==== Sys2Proof/Machine/Mem.lean ====
section
/-!
DEFINITION. Physical memory as a list of cells in canonical form, the byte order, the physical memory map and the
translation (20_memory.md R60, R62, R68, R70).
-/

namespace Sys2Proof.Machine

/-- What an unlisted address reads as. DESIGN CHOICE (log 3), unsafe: the spec leaves the contents of memory after reset
unspecified (R43). -/
def unlistedByte : Byte := 0

/-- The byte at an address (R68: a read has no side effect). -/
def Memory.read (m : Memory) (a : Nat) : Byte :=
  match m with
  | [] => unlistedByte
  | (k, v) :: rest => if a = k then v else if a < k then unlistedByte else Memory.read rest a

/-- A cell in front of a list, left out where it holds what an unlisted address reads as. -/
def Memory.cons (a : Nat) (b : Byte) (m : Memory) : Memory :=
  if b = unlistedByte then m else (a, b) :: m

/-- Store one byte, keeping the canonical form. -/
def Memory.write (m : Memory) (a : Nat) (b : Byte) : Memory :=
  match m with
  | [] => Memory.cons a b []
  | (k, v) :: rest =>
    if a = k then Memory.cons a b rest
    else if a < k then Memory.cons a b ((k, v) :: rest)
    else (k, v) :: Memory.write rest a b

/-- The canonical form above a bound: every address at least `lo` and below 2^32, strictly rising, no entry equal to what
an unlisted address reads as. -/
def Memory.wfFrom (lo : Nat) : Memory → Bool
  | [] => true
  | (k, v) :: rest => decide (lo ≤ k) && decide (k < 2 ^ 32) && decide (v ≠ unlistedByte) && Memory.wfFrom (k + 1) rest

/-- The canonical form. -/
def Memory.wf (m : Memory) : Bool := Memory.wfFrom 0 m

/-- R62: the value of n bytes, the first the most significant. -/
def valueOfBytes : List Byte → Nat → Nat
  | [], acc => acc
  | b :: rest, acc => valueOfBytes rest (acc * 256 + b.toNat)

/-- R62: a big-endian value of `w` bits from its bytes. -/
def ofBytes (w : Nat) (bs : List Byte) : BitVec w := BitVec.ofNat w (valueOfBytes bs 0)

/-- R62: the n least significant bytes of a value, most significant first. -/
def bytesOfNat : Nat → Nat → List Byte
  | 0, _ => []
  | n + 1, v => BitVec.ofNat 8 (v / 256 ^ n) :: bytesOfNat n v

/-- R62: the bytes of a value of `w` bits in order of increasing address. -/
def toBytes {w : Nat} (v : BitVec w) : List Byte := bytesOfNat (w / 8) v.toNat

/-- R63, R78: the n addresses from `a` on, modulo 2^32. -/
def addrs (a : Word) : Nat → List Word
  | 0 => []
  | n + 1 => a :: addrs (a + 1) n

/-- R68: what a memory map says of an address; in no listed region it is ram (log 5). -/
def kindAt (map : List Region) (a : Nat) : RegionKind :=
  match map with
  | [] => .ram
  | g :: rest => if g.base ≤ a ∧ a < g.base + g.size then g.kind else kindAt rest a

/-- What `PhysMap` says of a physical address (R68). -/
def State.kindOf (s : State) (a : Word) : RegionKind := kindAt s.physMap a.toNat

/-- A listed translation (R70; log 6). -/
def lookupPage (entries : List PageEntry) (pdpr vaddr : Word) (acc : Access) : Translation :=
  match entries with
  | [] => .fault
  | e :: rest =>
    if e.pdpr = pdpr ∧ e.vbase ≤ vaddr.toNat ∧ vaddr.toNat < e.vbase + e.size then
      (if acc ∈ e.faulting then .fault
       else if acc = .write ∧ e.writable = false then .readOnly
       else .ok (e.pbase + BitVec.ofNat 32 (vaddr.toNat - e.vbase)))
    else lookupPage rest pdpr vaddr acc

/-- R70 gives the answer read_only to writes alone: from the opaque function, on another access, it is read as a fault
(log 6). -/
def Translation.restrict (acc : Access) : Translation → Translation
  | .readOnly => if acc = .write then .readOnly else .fault
  | t => t

/-- `Translate(PDPR, vaddr, access)`, over the memory as it stands (R70, R77). -/
def State.translate (s : State) (vaddr : Word) (acc : Access) : Translation :=
  match s.mmu with
  | .external => Translation.restrict acc (Config.translate s.pdpr vaddr acc s.mem)
  | .listed entries => lookupPage entries s.pdpr vaddr acc

end Sys2Proof.Machine
end

