-- ==== Sys2Proof/Machine/Ops.lean ====
section
/-!
DEFINITION. The named operations over registers and memory that the meanings are written with: register read and write
(10_state.md R24, R25), memory access (20_memory.md R63 to R66), raising a synchronous interrupt (60_exceptions.md R309),
the asynchronous sources (R303), the interrupt check (R304, R305), interrupt entry (R306) and the return (40_privileged.md R134).
-/

namespace Sys2Proof.Machine

/-- What one step answers. -/
abbrev Result := Host.Outcome State Fault Refusal

/-- The causes of the interrupts an instruction raises by failing (00_scope.md R10, `raise`). -/
inductive Cause where
  | pageFault
  | divideByZero
  | illegalOperation
deriving DecidableEq, Repr

/-- Why an instruction does not complete: it raises an interrupt, or it reaches what the source gives no meaning. -/
inductive Stop where
  | raise (c : Cause)
  | fault (f : Fault)
  | refuse (r : Refusal)
deriving DecidableEq, Repr

/-- A computation inside one instruction. -/
abbrev Exec (α : Type) := Except Stop α

/-! ## Interrupt numbers, latches, register files -/

/-- The number of an interrupt (60_exceptions.md R300). -/
def Irq.number : Irq → Nat
  | .syscall => 0
  | .keyboard => 1
  | .diskA => 2
  | .diskB => 3
  | .pageFault => 4
  | .divideByZero => 5
  | .illegalOperation => 6
  | .timer => 7

/-- The interrupt a cause raises (R310, R311, R312). -/
def Cause.irq : Cause → Irq
  | .pageFault => .pageFault
  | .divideByZero => .divideByZero
  | .illegalOperation => .illegalOperation

/-- One latch (10_state.md R39). -/
def Latches.get (l : Latches) : Irq → Bool
  | .syscall => l.syscall
  | .keyboard => l.keyboard
  | .diskA => l.diskA
  | .diskB => l.diskB
  | .pageFault => l.pageFault
  | .divideByZero => l.divideByZero
  | .illegalOperation => l.illegalOperation
  | .timer => l.timer

/-- Set or clear one latch (R39, R308). -/
def Latches.set (l : Latches) (n : Irq) (v : Bool) : Latches :=
  match n with
  | .syscall => { l with syscall := v }
  | .keyboard => { l with keyboard := v }
  | .diskA => { l with diskA := v }
  | .diskB => { l with diskB := v }
  | .pageFault => { l with pageFault := v }
  | .divideByZero => { l with divideByZero := v }
  | .illegalOperation => { l with illegalOperation := v }
  | .timer => { l with timer := v }

/-- Register i of a file. -/
def Bank.get (b : Bank) (i : Fin 8) : Word :=
  match i with
  | 0 => b.r0
  | 1 => b.r1
  | 2 => b.r2
  | 3 => b.r3
  | 4 => b.r4
  | 5 => b.r5
  | 6 => b.r6
  | 7 => b.r7

/-- Write register i of a file. -/
def Bank.set (b : Bank) (i : Fin 8) (v : Word) : Bank :=
  match i with
  | 0 => { b with r0 := v }
  | 1 => { b with r1 := v }
  | 2 => { b with r2 := v }
  | 3 => { b with r3 := v }
  | 4 => { b with r4 := v }
  | 5 => { b with r5 := v }
  | 6 => { b with r6 := v }
  | 7 => { b with r7 := v }

/-! ## Updates of one field -/

def State.setPc (s : State) (v : Word) : State := { s with pc := v }

def State.setMode (s : State) (m : Mode) : State := { s with mode := m }

def State.setImr (s : State) (v : BitVec 16) : State := { s with imr := v }

def State.setMem (s : State) (m : Memory) : State := { s with mem := m }

def State.setHalted (s : State) (b : Bool) : State := { s with halted := b }

def State.setPaused (s : State) (b : Bool) : State := { s with paused := b }

def State.setTimerPeriod (s : State) (v : Word) : State := { s with timerPeriod := v }

def State.setLatch (s : State) (n : Irq) (v : Bool) : State := { s with latch := s.latch.set n v }

/-- R37: `pc` moved by n bytes, modulo 2^32 (R78). -/
def State.advance (s : State) (n : Nat) : State := s.setPc (s.pc + BitVec.ofNat 32 n)

/-! ## Free values -/

/-- One free value is taken. -/
def State.draw (s : State) : State := { s with draws := s.draws + 1 }

/-- `pc` becomes unspecified (60_exceptions.md R309, U12; log 9). -/
def State.freePc (s : State) : State := (s.setPc (Config.freeWord s.draws)).draw

/-- FLAGS[14:0] becomes unspecified (42_arithmetic.md R180, U2; log 10). -/
def State.freeFlags (s : State) : State := (s.setFlags ((Config.freeWord s.draws).setWidth 15)).draw

/-- Z and N become unspecified, C and O 0 (42_arithmetic.md R194, U5; log 12). -/
def State.freeZN (s : State) : State :=
  (s.setZNCO ((Config.freeWord s.draws).getLsbD 0) ((Config.freeWord s.draws).getLsbD 1) false false).draw

/-! ## Registers -/

/-- R24: the register read `x[ref]`, `width(ref)` bits. A reference that names no register has none; the checks of R103
come before any read. -/
def State.x (s : State) : (ref : Ref) → BitVec ref.width
  | .r i => s.r.get i
  | .h i => (s.r.get i).extractLsb' 0 16
  | .b i => (s.r.get i).extractLsb' 0 8
  | .f i => s.f.get i
  | .flags => (0#1 ++ s.flags : BitVec 16)
  | .uspr => s.uspr
  | .kspr => s.kspr
  | .pdpr => s.pdpr
  | .imr => s.imr
  | .invalid _ => 0#0

/-- R25: the register write `x[ref] <- v`; a half or byte register leaves the other bits of the full register (D10). -/
def State.setX (s : State) : (ref : Ref) → BitVec ref.width → State
  | .r i, v => { s with r := s.r.set i v }
  | .h i, v => { s with r := s.r.set i ((s.r.get i).extractLsb' 16 16 ++ (v : BitVec 16)) }
  | .b i, v => { s with r := s.r.set i ((s.r.get i).extractLsb' 8 24 ++ (v : BitVec 8)) }
  | .f i, v => { s with f := s.f.set i v }
  | .flags, v => s.setFlags ((v : BitVec 16).extractLsb' 0 15)
  | .uspr, v => { s with uspr := v }
  | .kspr, v => { s with kspr := v }
  | .pdpr, v => { s with pdpr := v }
  | .imr, v => s.setImr v
  | .invalid _, _ => s

/-- R33: the active stack pointer. -/
def State.sp (s : State) : Word :=
  match s.mode with
  | .kernel => s.kspr
  | .user => s.uspr

/-- Write the active stack pointer (R33). -/
def State.setSp (s : State) (v : Word) : State :=
  match s.mode with
  | .kernel => { s with kspr := v }
  | .user => { s with uspr := v }

/-! ## Memory access -/

/-- The physical address of an answer `ok` (20_memory.md R70). -/
def Translation.address : Translation → Option Word
  | .ok p => some p
  | _ => none

/-- R61, R64, R65: the physical addresses of an access under the current mode. In user mode any fault raises PageFault, then
any read_only answer IllegalOperation. -/
def State.resolve (s : State) (acc : Access) (l : List Word) : Exec (List Word) :=
  match s.mode with
  | .kernel => .ok l
  | .user =>
    let answers := l.map fun a => s.translate a acc
    if answers.any fun t => decide (t = .fault) then .error (.raise .pageFault)
    else if answers.any fun t => decide (t = .readOnly) then .error (.raise .illegalOperation)
    else .ok (answers.filterMap Translation.address)

/-- An access to an absent or a device address has no meaning in the source (R63, U10; log 17). -/
def State.accessible (s : State) (l : List Word) : Exec Unit :=
  if l.any fun a => decide (s.kindOf a = .absent) then .error (.fault .absentAddress)
  else if l.any fun a => decide (s.kindOf a = .device) then .error (.refuse .deviceAccess)
  else .ok ()

/-- `PhysRead` (R63): the bytes at physical addresses. -/
def State.physRead (s : State) (l : List Word) : Exec (List Byte) := do
  s.accessible l
  .ok (l.map fun a => s.mem.read a.toNat)

/-- The bytes stored at the addresses, in order. -/
def Memory.writeAll (m : Memory) : List Word → List Byte → Memory
  | a :: l, b :: bs => Memory.writeAll (m.write a.toNat b) l bs
  | _, _ => m

/-- `PhysWrite` (R63): a read_only address among them raises IllegalOperation and nothing is written (D45). -/
def State.physWrite (s : State) (l : List Word) (bs : List Byte) : Exec State :=
  if l.any fun a => decide (s.kindOf a = .readOnly) then .error (.raise .illegalOperation)
  else do
    s.accessible l
    .ok (s.setMem (s.mem.writeAll l bs))

/-- `MemRead(a, w/8)` (R64). -/
def State.memRead (s : State) (w : Nat) (a : Word) : Exec (BitVec w) := do
  let l ← s.resolve .read (addrs a (w / 8))
  let bs ← s.physRead l
  .ok (ofBytes w bs)

/-- `MemWrite(a, w/8, v)` (R65). -/
def State.memWrite (s : State) {w : Nat} (a : Word) (v : BitVec w) : Exec State := do
  let l ← s.resolve .write (addrs a (w / 8))
  s.physWrite l (toBytes v)

/-- One byte of the instruction stream, k bytes after `pc` (R71, R78). -/
def State.fetchByte (s : State) (k : Nat) : Exec (List Byte) := do
  let l ← s.resolve .fetch [s.pc + BitVec.ofNat 32 k]
  s.physRead l

/-- The n bytes of the instruction stream from the k-th on, in order of increasing address; the first that cannot be read
stops the fetch (R71). -/
def State.fetchFrom (s : State) (k : Nat) : Nat → Exec (List Byte)
  | 0 => .ok []
  | n + 1 => do
    let b ← s.fetchByte k
    let rest ← s.fetchFrom (k + 1) n
    .ok (b ++ rest)

/-- `Push(w/8, v)` (R66). -/
def State.push (s : State) {w : Nat} (v : BitVec w) : Exec State :=
  let t := s.setSp (s.sp - BitVec.ofNat 32 (w / 8))
  t.memWrite t.sp v

/-- `Pop(w/8)` (R66): the value and the state with the stack pointer raised. -/
def State.pop (s : State) (w : Nat) : Exec (BitVec w × State) := do
  let v ← s.memRead w s.sp
  .ok (v, s.setSp (s.sp + BitVec.ofNat 32 (w / 8)))

/-! ## Raising, and how an instruction ends -/

/-- R10, R309: the latch is set and `pc` follows; nothing else changes. `len` is the length of the instruction, none where
it is undefined. After a PageFault and after an undefined length `pc` is unspecified (U12; log 9). -/
def State.raise (s : State) (c : Cause) (len : Option Nat) : State :=
  let t := s.setLatch c.irq true
  match c, len with
  | .pageFault, _ => t.freePc
  | _, none => t.freePc
  | _, some n =>
    match faultPc with
    | .next => t.advance n
    | .faulting => t

/-- How an instruction ends: with the state it computed, or with an interrupt raised in the state it began in, so that none
of its own writes takes place (R10, R317, D14), or with a stop. -/
def settle (len : Option Nat) (s : State) (body : Exec State) : Result :=
  match body with
  | .ok t => .next t
  | .error (.raise c) => .next (s.raise c len)
  | .error (.fault f) => .fault f
  | .error (.refuse r) => .refused r

/-- An instruction that does not assign `pc`: it ends with `pc <- npc` (R37). -/
def completes (len : Option Nat) (s : State) (body : Exec State) : Result :=
  settle len s (do
    let t ← body
    .ok (t.advance (len.getD 0)))

/-- A legality check: its failure raises IllegalOperation (30_encoding.md R104). -/
def need (b : Bool) : Exec Unit := if b then .ok () else .error (.raise .illegalOperation)

/-! ## Asynchronous sources and the interrupt check -/

/-- No source acts. -/
def noArrival : Arrival := ⟨false, false, false, false, []⟩

/-- What the sources do before this check (R303). -/
def Arrivals.now : Arrivals → Arrival
  | .quiet => noArrival
  | .oracle n => Config.arrival n
  | .first a _ => a

/-- What is left for the checks after this one. -/
def Arrivals.later : Arrivals → Arrivals
  | .quiet => .quiet
  | .oracle n => .oracle (n + 1)
  | .first _ rest => rest

/-- R303: each source that acts sets its latch; the timer never while its period is 0 (R320). -/
def latchArrivals (l : Latches) (period : Word) (a : Arrival) : Latches :=
  { l with
    keyboard := l.keyboard || a.keyboard
    diskA := l.diskA || a.diskA
    diskB := l.diskB || a.diskB
    timer := l.timer || (decide (period ≠ 0) && a.timer) }

/-- The bytes devices store, in order (00_scope.md R6, 20_memory.md R74; log 8). A read_only address keeps its fixed content
and only ram has stores (R68), so those at other addresses have no effect. -/
def Memory.deviceWrites (m : Memory) (map : List Region) : List (Word × Byte) → Memory
  | [] => m
  | (a, b) :: rest =>
    Memory.deviceWrites (if kindAt map a.toNat = .ram then m.write a.toNat b else m) map rest

/-- The asynchronous sources' turn, between two steps of the CPU (R303, R320, R322; 20_memory.md R74; log 7, 8). -/
def State.sample (s : State) : State :=
  { s with
    latch := latchArrivals s.latch s.timerPeriod s.arrivals.now
    mem := s.mem.deviceWrites s.physMap s.arrivals.now.writes
    arrivals := s.arrivals.later }

/-- R302: an interrupt is enabled iff its IMR bit is 1. -/
def State.enabled (s : State) (n : Irq) : Bool := s.imr.getLsbD n.number

/-- R304: enabled and latched. -/
def State.pending (s : State) (n : Irq) : Bool := s.enabled n && s.latch.get n

/-- The interrupts in the order of their priority (R305, D27): parameter IRQ_PRIORITY. -/
def priorityOrder : List Irq :=
  match irqPriority with
  | .highestNumberFirst => [.timer, .illegalOperation, .divideByZero, .pageFault, .diskB, .diskA, .keyboard, .syscall]
  | .lowestNumberFirst => [.syscall, .keyboard, .diskA, .diskB, .pageFault, .divideByZero, .illegalOperation, .timer]

/-- R304, R305: the interrupt the check chooses, none where none is pending. -/
def State.choose (s : State) : Option Irq := priorityOrder.find? s.pending

/-! ## Interrupt entry and return -/

/-- R326: a push of the entry sequence that lands on a read_only address has no result in the source (log 18). -/
def entryPush (e : Exec State) : Exec State :=
  match e with
  | .error (.raise _) => .error (.refuse .entryPushReadOnly)
  | e => e

/-- R306: interrupt entry, one atomic operation; `paused` is cleared by the check that services (R304). The vector is
read in kernel mode, so physically, at address 4 * n (R69). -/
def State.service (s : State) (n : Irq) : Exec State := do
  let image : BitVec 16 := BitVec.ofBool (decide (s.mode = .kernel)) ++ s.flags
  let s1 ← entryPush ((s.setMode .kernel).push image)
  let s2 ← entryPush (s1.push s.pc)
  let s3 ← entryPush (s2.push s.imr)
  let s4 := (s3.setImr 0).setLatch n false
  let handler ← s4.memRead 32 (BitVec.ofNat 32 (4 * n.number))
  .ok ((s4.setPaused false).setPc handler)

/-- R134: the return from an interrupt; bit 15 of the popped image chooses the mode and is not stored (D40). -/
def State.interruptReturn (s : State) : Exec State := do
  let (m, s1) ← s.pop 16
  let (target, s2) ← s1.pop 32
  let (fl, s3) ← s2.pop 16
  let t := ((s3.setImr m).setFlags (fl.extractLsb' 0 15)).setPc target
  .ok (if fl.getLsbD 15 then t else t.setMode .user)

end Sys2Proof.Machine
end

