-- ==== Sys2Proof/Machine/Operands.lean ====
section
/-!
DEFINITION. The operand forms: register classes and the legality checks common to all instructions (30_encoding.md R95,
R96, R99 to R104), literals, addresses and targets, counts, and the shared shapes of the two-operand instructions
(42_arithmetic.md R180, 43_bitwise.md R220).
-/

namespace Sys2Proof.Machine

/-- R95: kind(ref) is float. -/
def isFloatRef : Ref → Bool
  | .f _ => true
  | _ => false

/-- R36: a privileged register. -/
def isPrivilegedRef : Ref → Bool
  | .kspr => true
  | .pdpr => true
  | .imr => true
  | _ => false

/-- R93: the operand types that are register references. `address` is also `Register ref word`. -/
inductive RefClass where
  /-- `Register ref` -/
  | any
  /-- `Register ref integer` -/
  | integer
  /-- `Register ref address`, `Register ref word` -/
  | address
  /-- `Register ref byte` -/
  | byte
deriving DecidableEq, Repr

/-- R96: the references an operand type accepts; the special registers in the integer and address types by parameter
REGCLASS_WIDE. -/
def RefClass.accepts : RefClass → Ref → Bool
  | .any, r => r.named
  | .integer, .r _ => true
  | .integer, .h _ => true
  | .integer, .b _ => true
  | .integer, .flags => regclassWide
  | .integer, .uspr => regclassWide
  | .integer, .kspr => regclassWide
  | .integer, .pdpr => regclassWide
  | .integer, .imr => regclassWide
  | .integer, _ => false
  | .address, .r _ => true
  | .address, .uspr => regclassWide
  | .address, .kspr => regclassWide
  | .address, .pdpr => regclassWide
  | .address, _ => false
  | .byte, .b _ => true
  | .byte, _ => false

/-- R101, R103: the reference is in its class, and not privileged in user mode. -/
def State.legal (s : State) (c : RefClass) (r : Ref) : Bool :=
  c.accepts r && (decide (s.mode = .kernel) || !isPrivilegedRef r)

/-- R99: the lengths of two references match. -/
def widthsMatch (r r' : Ref) : Bool := decide (r.width = r'.width)

/-- R100: the kinds of two references match. -/
def kindsMatch (r r' : Ref) : Bool := isFloatRef r == isFloatRef r'

/-- R135: a privileged opcode. -/
def State.needKernel (s : State) : Exec Unit := need (decide (s.mode = .kernel))

/-- R94, R97: the value of a variable literal, at the width of its register. -/
def literalValue (w : Nat) : Lit → BitVec w
  | .byte v => v.setWidth w
  | .half v => v.setWidth w
  | .word v => v.setWidth w
  | .noLength => 0

/-- A register operand read at the width of the operand it must match (R99). -/
def State.xAs (s : State) (w : Nat) (r : Ref) : BitVec w := (s.x r).setWidth w

/-- R260, R150: the content of an address register. -/
def State.addressIn (s : State) (ra : Ref) : Word := s.xAs 32 ra

/-- R225: the count in a byte register. -/
def State.countIn (s : State) (rb : Ref) : Nat := (s.x rb).toNat

/-- Write an integer result and its flags (R29, R180). With FLAGS itself the destination the spec gives FLAGS[14:0] no value
(U2; log 10). -/
def State.writeAlu (s : State) (rd : Ref) (out : Alu rd.width) : State :=
  if rd = .flags then s.freeFlags else (s.setX rd out.val).setZNCO out.z out.n out.c out.o

/-- The flags after a binary32 operation with result r (R194); with a NaN operand or result Z and N are unspecified (U5;
log 12). -/
def State.floatFlags (s : State) (anyNaN : Bool) (r : Word) : State :=
  if anyNaN then s.freeZN else s.setZNCO (isZero r) (isNegative r) false false

/-- A binary32 operation on a float destination (R180, R194). -/
def State.floatResult (s : State) (op : Word → Word → Word) (rd : Ref) (b : Word) : State :=
  let a := s.xAs 32 rd
  let r := op a b
  (s.setX rd (r.setWidth rd.width)).floatFlags (isNaN a || isNaN b || isNaN r) r

/-- A W-bit integer operation that may raise an interrupt. -/
abbrev IntOp := (w : Nat) → BitVec w → BitVec w → Exec (Alu w)

/-- R195: a division or remainder raises DivideByZero where the divisor is 0. -/
def dividing (op : (w : Nat) → BitVec w → BitVec w → Alu w) : IntOp := fun w a b =>
  if b = 0 then .error (.raise .divideByZero) else .ok (op w a b)

/-- `OP register value` on integers (R180): first operand source and destination. -/
def State.integerOp (s : State) (op : IntOp) (rd : Ref) (b : BitVec rd.width) : Exec State := do
  let out ← op rd.width (s.x rd) b
  .ok (s.writeAlu rd out)

/-- `OP register value` of the kind of its destination (R180). -/
def State.arithmeticOp (s : State) (op : IntOp) (fop : Word → Word → Word) (rd : Ref) (b : BitVec rd.width) :
    Exec State :=
  if isFloatRef rd then .ok (s.floatResult fop rd (b.setWidth 32)) else s.integerOp op rd b

/-- Checks of format R_VL (R104). -/
def State.checkVl (s : State) (rd : Ref) : Exec Unit := need (s.legal .any rd)

/-- Checks of format R_R under the type match (R99, R100, R104). -/
def State.checkRr (s : State) (rd rs : Ref) : Exec Unit := do
  need (s.legal .any rd && s.legal .any rs)
  need (widthsMatch rd rs)
  need (kindsMatch rd rs)

/-- Checks of format RI_VL (R103, R104). -/
def State.checkIntVl (s : State) (rd : Ref) : Exec Unit := need (s.legal .integer rd)

/-- Checks of format RI_RI (R99, R103, R104). -/
def State.checkIntRr (s : State) (rd rs : Ref) : Exec Unit := do
  need (s.legal .integer rd && s.legal .integer rs)
  need (widthsMatch rd rs)

/-- The literal form of an instruction of both kinds (R180). -/
def State.arithmeticVl (s : State) (op : IntOp) (fop : Word → Word → Word) (rd : Ref) (lit : Lit) : Result :=
  completes (vlLength rd) s (do
    s.checkVl rd
    s.arithmeticOp op fop rd (literalValue rd.width lit))

/-- The register form of an instruction of both kinds (R180). -/
def State.arithmeticRr (s : State) (op : IntOp) (fop : Word → Word → Word) (rd rs : Ref) : Result :=
  completes (some 3) s (do
    s.checkRr rd rs
    s.arithmeticOp op fop rd (s.xAs rd.width rs))

/-- The literal form of an instruction on integers only (R180, R220). -/
def State.integerVl (s : State) (op : IntOp) (rd : Ref) (lit : Lit) : Result :=
  completes (vlLength rd) s (do
    s.checkIntVl rd
    s.integerOp op rd (literalValue rd.width lit))

/-- The register form of an instruction on integers only (R180, R220). -/
def State.integerRr (s : State) (op : IntOp) (rd rs : Ref) : Result :=
  completes (some 3) s (do
    s.checkIntRr rd rs
    s.integerOp op rd (s.xAs rd.width rs))

/-- A shift or rotate by a literal count (R225). -/
def State.shiftLb (s : State) (op : (w : Nat) → BitVec w → Nat → Alu w) (rd : Ref) (n : Byte) : Result :=
  completes (some 3) s (do
    need (s.legal .integer rd)
    .ok (s.writeAlu rd (op rd.width (s.x rd) n.toNat)))

/-- A shift or rotate by the count in a byte register (R225). -/
def State.shiftRb (s : State) (op : (w : Nat) → BitVec w → Nat → Alu w) (rd rb : Ref) : Result :=
  completes (some 3) s (do
    need (s.legal .integer rd && s.legal .byte rb)
    .ok (s.writeAlu rd (op rd.width (s.x rd) (s.countIn rb))))

/-- A jump to a literal address, taken where `taken` (R260, R278). -/
def State.jumpLiteral (s : State) (taken : Bool) (target : Word) : Result :=
  settle (some 5) s (.ok (if taken then s.setPc target else s.advance 5))

/-- A jump to the address in a register; the register is checked also where the jump is not taken (R260). -/
def State.jumpRegister (s : State) (taken : Bool) (ra : Ref) : Result :=
  settle (some 2) s (do
    need (s.legal .address ra)
    .ok (if taken then s.setPc (s.addressIn ra) else s.advance 2))

end Sys2Proof.Machine
end

