-- ==== Sys2Proof/Machine/Arithmetic.lean ====
section
/-!
DEFINITION. The meanings of the arithmetic instructions NEGATE, ADD, ADDCARRY, SUB, SUBBORROW, MULT, SDIV, UDIV, SREM, UREM (42_arithmetic.md
R180 to R195).
-/

namespace Sys2Proof.Machine

/-- ADD of integers (R185). -/
def addOp : IntOp := fun _ a b => .ok (addW a b false)

/-- SUB of integers (R187). -/
def subOp : IntOp := fun _ a b => .ok (subW a b false)

/-- ADDCARRY: the C flag before the instruction is added too (R186). -/
def addcarryOp (c : Bool) : IntOp := fun _ a b => .ok (addW a b c)

/-- SUBBORROW: the C flag before the instruction is subtracted too (R188). -/
def subborrowOp (c : Bool) : IntOp := fun _ a b => .ok (subW a b c)

/-- MULT of integers (R189). -/
def multOp : IntOp := fun _ a b => .ok (mulW a b)

/-- SDIV of integers (R190). -/
def sdivOp : IntOp := dividing fun _ a b => sdivW a b

/-- UDIV (R191). -/
def udivOp : IntOp := dividing fun _ a b => udivW a b

/-- SREM of integers (R192). -/
def sremOp : IntOp := dividing fun _ a b => sremW a b

/-- UREM (R193). -/
def uremOp : IntOp := dividing fun _ a b => uremW a b

/-- NEGATE (R184): 0 - a, or the binary32 sign flipped. -/
def State.negateIn (s : State) (rd : Ref) : State :=
  if isFloatRef rd then
    let a := s.xAs 32 rd
    let r := floatOps.neg a
    (s.setX rd (r.setWidth rd.width)).floatFlags (isNaN a || isNaN r) r
  else s.writeAlu rd (subW 0 (s.x rd) false)

/-- NEGATE (R184). -/
def execNegate (rd : Ref) (s : State) : Result :=
  completes (some 2) s (do
    need (s.legal .any rd)
    .ok (s.negateIn rd))

/-- ADD of a literal (R185). -/
def execAddVl (rd : Ref) (lit : Lit) (s : State) : Result :=
  s.arithmeticVl addOp floatOps.add rd lit

/-- ADD of a register (R185). -/
def execAddRr (rd : Ref) (rs : Ref) (s : State) : Result :=
  s.arithmeticRr addOp floatOps.add rd rs

/-- ADDCARRY of a literal (R186). -/
def execAddcarryVl (rd : Ref) (lit : Lit) (s : State) : Result :=
  s.integerVl (addcarryOp s.flagC) rd lit

/-- ADDCARRY of a register (R186). -/
def execAddcarryRr (rd : Ref) (rs : Ref) (s : State) : Result :=
  s.integerRr (addcarryOp s.flagC) rd rs

/-- SUB of a literal (R187). -/
def execSubVl (rd : Ref) (lit : Lit) (s : State) : Result :=
  s.arithmeticVl subOp floatOps.sub rd lit

/-- SUB of a register (R187). -/
def execSubRr (rd : Ref) (rs : Ref) (s : State) : Result :=
  s.arithmeticRr subOp floatOps.sub rd rs

/-- SUBBORROW of a literal (R188). -/
def execSubborrowVl (rd : Ref) (lit : Lit) (s : State) : Result :=
  s.integerVl (subborrowOp s.flagC) rd lit

/-- SUBBORROW of a register (R188). -/
def execSubborrowRr (rd : Ref) (rs : Ref) (s : State) : Result :=
  s.integerRr (subborrowOp s.flagC) rd rs

/-- MULT of a literal (R189). -/
def execMultVl (rd : Ref) (lit : Lit) (s : State) : Result :=
  s.arithmeticVl multOp floatOps.mul rd lit

/-- MULT of a register (R189). -/
def execMultRr (rd : Ref) (rs : Ref) (s : State) : Result :=
  s.arithmeticRr multOp floatOps.mul rd rs

/-- SDIV of a literal (R190). -/
def execSdivVl (rd : Ref) (lit : Lit) (s : State) : Result :=
  s.arithmeticVl sdivOp floatOps.div rd lit

/-- SDIV of a register (R190). -/
def execSdivRr (rd : Ref) (rs : Ref) (s : State) : Result :=
  s.arithmeticRr sdivOp floatOps.div rd rs

/-- UDIV of a literal (R191). -/
def execUdivVl (rd : Ref) (lit : Lit) (s : State) : Result :=
  s.integerVl udivOp rd lit

/-- UDIV of a register (R191). -/
def execUdivRr (rd : Ref) (rs : Ref) (s : State) : Result :=
  s.integerRr udivOp rd rs

/-- SREM of a literal (R192). -/
def execSremVl (rd : Ref) (lit : Lit) (s : State) : Result :=
  s.arithmeticVl sremOp floatOps.rem rd lit

/-- SREM of a register (R192). -/
def execSremRr (rd : Ref) (rs : Ref) (s : State) : Result :=
  s.arithmeticRr sremOp floatOps.rem rd rs

/-- UREM of a literal (R193). -/
def execUremVl (rd : Ref) (lit : Lit) (s : State) : Result :=
  s.integerVl uremOp rd lit

/-- UREM of a register (R193). -/
def execUremRr (rd : Ref) (rs : Ref) (s : State) : Result :=
  s.integerRr uremOp rd rs

end Sys2Proof.Machine
end

