-- ==== Sys2Proof/Machine/Bitwise.lean ====
section
/-!
DEFINITION. The meanings of the bitwise instructions NOT, AND, OR, XOR, LSHIFT, RSHIFTL, RSHIFTA, LROT, RROT, LROTCARRY, RROTCARRY
(43_bitwise.md R220 to R232). None applies to floats: every register is a Register ref integer (R220).
-/

namespace Sys2Proof.Machine

/-- AND (R222). -/
def andOp : IntOp := fun _ a b => .ok (andW a b)

/-- OR (R223). -/
def orOp : IntOp := fun _ a b => .ok (orW a b)

/-- XOR (R224). -/
def xorOp : IntOp := fun _ a b => .ok (xorW a b)

/-- NOT (R221). -/
def execNotR (rd : Ref) (s : State) : Result :=
  completes (some 2) s (do
    need (s.legal .integer rd)
    .ok (s.writeAlu rd (notW (s.x rd))))

/-- AND of a literal (R222). -/
def execAndVl (rd : Ref) (lit : Lit) (s : State) : Result :=
  s.integerVl andOp rd lit

/-- AND of a register (R222). -/
def execAndRr (rd : Ref) (rs : Ref) (s : State) : Result :=
  s.integerRr andOp rd rs

/-- OR of a literal (R223). -/
def execOrVl (rd : Ref) (lit : Lit) (s : State) : Result :=
  s.integerVl orOp rd lit

/-- OR of a register (R223). -/
def execOrRr (rd : Ref) (rs : Ref) (s : State) : Result :=
  s.integerRr orOp rd rs

/-- XOR of a literal (R224). -/
def execXorVl (rd : Ref) (lit : Lit) (s : State) : Result :=
  s.integerVl xorOp rd lit

/-- XOR of a register (R224). -/
def execXorRr (rd : Ref) (rs : Ref) (s : State) : Result :=
  s.integerRr xorOp rd rs

/-- LSHIFT by a literal count (R226). -/
def execLshiftLb (rd : Ref) (n : Byte) (s : State) : Result :=
  s.shiftLb (fun _ a n => lshiftW a n) rd n

/-- LSHIFT by the count in a byte register (R226). -/
def execLshiftRb (rd : Ref) (rb : Ref) (s : State) : Result :=
  s.shiftRb (fun _ a n => lshiftW a n) rd rb

/-- RSHIFTL by a literal count (R227). -/
def execRshiftlLb (rd : Ref) (n : Byte) (s : State) : Result :=
  s.shiftLb (fun _ a n => rshiftlW a n) rd n

/-- RSHIFTL by the count in a byte register (R227). -/
def execRshiftlRb (rd : Ref) (rb : Ref) (s : State) : Result :=
  s.shiftRb (fun _ a n => rshiftlW a n) rd rb

/-- RSHIFTA by a literal count (R228). -/
def execRshiftaLb (rd : Ref) (n : Byte) (s : State) : Result :=
  s.shiftLb (fun _ a n => rshiftaW a n) rd n

/-- RSHIFTA by the count in a byte register (R228). -/
def execRshiftaRb (rd : Ref) (rb : Ref) (s : State) : Result :=
  s.shiftRb (fun _ a n => rshiftaW a n) rd rb

/-- LROT by a literal count (R229). -/
def execLrotLb (rd : Ref) (n : Byte) (s : State) : Result :=
  s.shiftLb (fun _ a n => lrotW a n) rd n

/-- LROT by the count in a byte register (R229). -/
def execLrotRb (rd : Ref) (rb : Ref) (s : State) : Result :=
  s.shiftRb (fun _ a n => lrotW a n) rd rb

/-- RROT by a literal count (R230). -/
def execRrotLb (rd : Ref) (n : Byte) (s : State) : Result :=
  s.shiftLb (fun _ a n => rrotW a n) rd n

/-- RROT by the count in a byte register (R230). -/
def execRrotRb (rd : Ref) (rb : Ref) (s : State) : Result :=
  s.shiftRb (fun _ a n => rrotW a n) rd rb

/-- LROTCARRY by a literal count (R231). -/
def execLrotcarryLb (rd : Ref) (n : Byte) (s : State) : Result :=
  s.shiftLb (fun _ a n => lrotcarryW a s.flagC n) rd n

/-- LROTCARRY by the count in a byte register (R231). -/
def execLrotcarryRb (rd : Ref) (rb : Ref) (s : State) : Result :=
  s.shiftRb (fun _ a n => lrotcarryW a s.flagC n) rd rb

/-- RROTCARRY by a literal count (R232). -/
def execRrotcarryLb (rd : Ref) (n : Byte) (s : State) : Result :=
  s.shiftLb (fun _ a n => rrotcarryW a s.flagC n) rd n

/-- RROTCARRY by the count in a byte register (R232). -/
def execRrotcarryRb (rd : Ref) (rb : Ref) (s : State) : Result :=
  s.shiftRb (fun _ a n => rrotcarryW a s.flagC n) rd rb

end Sys2Proof.Machine
end

