-- ==== Sys2Proof/Machine/DataMovement.lean ====
section
/-!
DEFINITION. The meanings of the data movement instructions LOAD, STORE, COPY, SWAP, PUSH, POP, BLOCKCOPY (41_data_movement.md
R150 to R159). None changes a flag unless its destination is FLAGS (R159).
-/

namespace Sys2Proof.Machine

/-- `x[rr] <- MemRead(a, n)` (R151): n the width of `rr` in bytes. -/
def State.loadInto (s : State) (rr : Ref) (a : Word) : Exec State := do
  let v ← s.memRead rr.width a
  .ok (s.setX rr v)

/-- `MemWrite(a, n, x[rr])` (R152). -/
def State.storeFrom (s : State) (rr : Ref) (a : Word) : Exec State := s.memWrite a (s.x rr)

/-- R155: the old memory value goes to the register, the old register value to memory. -/
def State.swapWith (s : State) (rr : Ref) (a : Word) : Exec State := do
  let m ← s.memRead rr.width a
  let t ← s.memWrite a (s.x rr)
  .ok (t.setX rr m)

/-- R153, R154: register to register, converting between an integer and a float register. -/
def State.copyInto (s : State) (rd rs : Ref) : State :=
  if isFloatRef rd = isFloatRef rs then s.setX rd (s.xAs rd.width rs)
  else if isFloatRef rd then s.setX rd ((floatOps.fromInt32 (s.xAs 32 rs)).setWidth rd.width)
  else s.setX rd ((floatOps.toInt32 (s.xAs 32 rs)).setWidth rd.width)

/-- Two ranges of `len` bytes with different starts that share an address, addresses modulo 2^32 (R158, R78; log 15). -/
def rangesOverlap (len d src : Word) : Bool :=
  decide (d ≠ src) && (decide ((d - src).toNat < len.toNat) || decide ((src - d).toNat < len.toNat))

/-- The ascending loop of R158 from byte k on, n bytes to go. `free` is the draw whose free bytes take the place of the
copied ones (U7), none where the ranges do not overlap. -/
def State.copyBytes (s : State) (d src : Word) (free : Option Nat) (k : Nat) : Nat → Exec State
  | 0 => .ok s
  | n + 1 => do
    let b ← s.memRead 8 (src + BitVec.ofNat 32 k)
    let t ← s.memWrite (d + BitVec.ofNat 32 k) (match free with | none => b | some draw => Config.freeByte draw k)
    t.copyBytes d src free (k + 1) n

/-- After a copy that faults part-way every byte of the destination range that can be written is unspecified (R158, U7;
log 16): from byte k on, n bytes to go. Which copies count as part-way is said at `State.blockcopy`. -/
def State.scramble (s : State) (d : Word) (draw k : Nat) : Nat → State
  | 0 => s
  | n + 1 =>
    match s.memWrite (d + BitVec.ofNat 32 k) (Config.freeByte draw k) with
    | .ok t => t.scramble d draw (k + 1) n
    | .error _ => s.scramble d draw (k + 1) n

/-- BLOCKCOPY (R158) of `bytes` bytes of instruction. The interrupt of a fault part-way is the first of the ascending loop.
DESIGN CHOICE (log 16): R158 and U7 do not say whether a fault before any byte was written (a copy of one byte whose source
read faults) or a copy with d = s that faults counts as part-way; here both do, and the writable destination bytes are free. -/
def State.blockcopy (s : State) (bytes : Nat) (len d src : Word) : Exec State :=
  let overlap := rangesOverlap len d src
  match s.copyBytes d src (if overlap then some s.draws else none) 0 len.toNat with
  | .ok t => .ok ((if overlap then t.draw else t).advance bytes)
  | .error (.raise c) => .ok (((s.scramble d s.draws 0 len.toNat).draw).raise c (some bytes))
  | .error e => .error e

/-- LOAD from a literal address (R151). -/
def execLoadLa (rr : Ref) (addr : Word) (s : State) : Result :=
  completes (some 6) s (do
    need (s.legal .any rr)
    s.loadInto rr addr)

/-- LOAD from the address in a register, read before the write (R151). -/
def execLoadRa (rr : Ref) (ra : Ref) (s : State) : Result :=
  completes (some 3) s (do
    need (s.legal .any rr && s.legal .address ra)
    s.loadInto rr (s.addressIn ra))

/-- STORE to a literal address (R152). -/
def execStoreLa (addr : Word) (rr : Ref) (s : State) : Result :=
  completes (some 6) s (do
    need (s.legal .any rr)
    s.storeFrom rr addr)

/-- STORE to the address in a register (R152). -/
def execStoreRa (ra : Ref) (rr : Ref) (s : State) : Result :=
  completes (some 3) s (do
    need (s.legal .any rr && s.legal .address ra)
    s.storeFrom rr (s.addressIn ra))

/-- COPY of a literal (R153): a float register takes the pattern as it is. -/
def execCopyVl (rd : Ref) (lit : Lit) (s : State) : Result :=
  completes (vlLength rd) s (do
    need (s.legal .any rd)
    .ok (s.setX rd (literalValue rd.width lit)))

/-- COPY between registers of one width (R153, R154). -/
def execCopyRr (rd : Ref) (rs : Ref) (s : State) : Result :=
  completes (some 3) s (do
    need (s.legal .any rd && s.legal .any rs)
    need (widthsMatch rd rs)
    .ok (s.copyInto rd rs))

/-- SWAP with a literal address (R155). -/
def execSwapLa (rr : Ref) (addr : Word) (s : State) : Result :=
  completes (some 6) s (do
    need (s.legal .any rr)
    s.swapWith rr addr)

/-- SWAP with the address in a register, read before the writes (R155). -/
def execSwapRa (rr : Ref) (ra : Ref) (s : State) : Result :=
  completes (some 3) s (do
    need (s.legal .any rr && s.legal .address ra)
    s.swapWith rr (s.addressIn ra))

/-- PUSH (R156): the register is read after the decrement (D23). -/
def execPush (rr : Ref) (s : State) : Result :=
  completes (some 2) s (do
    need (s.legal .any rr)
    let t := s.setSp (s.sp - BitVec.ofNat 32 (rr.width / 8))
    t.memWrite t.sp (t.x rr))

/-- POP (R157): the stack pointer is read again after the register write (D23). -/
def execPop (rr : Ref) (s : State) : Result :=
  completes (some 2) s (do
    need (s.legal .any rr)
    let v ← s.memRead rr.width s.sp
    let t := s.setX rr v
    .ok (t.setSp (t.sp + BitVec.ofNat 32 (rr.width / 8))))

/-- BLOCKCOPY, the length literal, the destination literal, the source literal (R158). -/
def execBlockcopyLwLaLa (len : Word) (dst : Word) (src : Word) (s : State) : Result :=
  settle (some 13) s (s.blockcopy 13 len dst src)

/-- BLOCKCOPY, the length literal, the destination literal, the source in a register (R158). -/
def execBlockcopyLwLaRa (len : Word) (dst : Word) (rsrc : Ref) (s : State) : Result :=
  settle (some 10) s (do
    need (s.legal .address rsrc)
    s.blockcopy 10 len dst (s.addressIn rsrc))

/-- BLOCKCOPY, the length literal, the destination in a register, the source literal (R158). -/
def execBlockcopyLwRaLa (len : Word) (rdst : Ref) (src : Word) (s : State) : Result :=
  settle (some 10) s (do
    need (s.legal .address rdst)
    s.blockcopy 10 len (s.addressIn rdst) src)

/-- BLOCKCOPY, the length literal, the destination in a register, the source in a register (R158). -/
def execBlockcopyLwRaRa (len : Word) (rdst : Ref) (rsrc : Ref) (s : State) : Result :=
  settle (some 7) s (do
    need (s.legal .address rdst && s.legal .address rsrc)
    s.blockcopy 7 len (s.addressIn rdst) (s.addressIn rsrc))

/-- BLOCKCOPY, the length in a register, the destination literal, the source literal (R158). -/
def execBlockcopyRwLaLa (rlen : Ref) (dst : Word) (src : Word) (s : State) : Result :=
  settle (some 10) s (do
    need (s.legal .address rlen)
    s.blockcopy 10 (s.addressIn rlen) dst src)

/-- BLOCKCOPY, the length in a register, the destination literal, the source in a register (R158). -/
def execBlockcopyRwLaRa (rlen : Ref) (dst : Word) (rsrc : Ref) (s : State) : Result :=
  settle (some 7) s (do
    need (s.legal .address rlen && s.legal .address rsrc)
    s.blockcopy 7 (s.addressIn rlen) dst (s.addressIn rsrc))

/-- BLOCKCOPY, the length in a register, the destination in a register, the source literal (R158). -/
def execBlockcopyRwRaLa (rlen : Ref) (rdst : Ref) (src : Word) (s : State) : Result :=
  settle (some 7) s (do
    need (s.legal .address rlen && s.legal .address rdst)
    s.blockcopy 7 (s.addressIn rlen) (s.addressIn rdst) src)

/-- BLOCKCOPY, the length in a register, the destination in a register, the source in a register (R158). -/
def execBlockcopyRwRaRa (rlen : Ref) (rdst : Ref) (rsrc : Ref) (s : State) : Result :=
  settle (some 4) s (do
    need (s.legal .address rlen && s.legal .address rdst && s.legal .address rsrc)
    s.blockcopy 4 (s.addressIn rlen) (s.addressIn rdst) (s.addressIn rsrc))

end Sys2Proof.Machine
end

