-- ==== Sys2Proof/Machine/FlowControl.lean ====
section
/-!
DEFINITION. The meanings of the flow control instructions JUMP, COMPARE, the twelve conditional jumps, CALL, RETURN, SYSCALL
(44_flow_control.md R260 to R278).
-/

namespace Sys2Proof.Machine

/-- COMPARE of integers: the flags of value2 - value1 (R262). -/
def State.compareInt (s : State) {w : Nat} (v1 v2 : BitVec w) : State :=
  let out := subW v2 v1 false
  s.setZNCO out.z out.n out.c out.o

/-- COMPARE of floats: the flags of value2 - value1 (R262, R194). -/
def State.compareFloat (s : State) (v1 v2 : Word) : State :=
  let r := floatOps.sub v2 v1
  s.floatFlags (isNaN v1 || isNaN v2 || isNaN r) r

/-- COMPARE with value1 in `r1` (R262). No register changes. -/
def State.compareWith (s : State) (r1 : Ref) (v2 : BitVec r1.width) : State :=
  if isFloatRef r1 then s.compareFloat (s.xAs 32 r1) (v2.setWidth 32) else s.compareInt (s.x r1) v2

/-- CALL of `bytes` bytes (R275): the return address, then FLAGS with bit 15 = 0; the target was read before. -/
def State.callTo (s : State) (bytes : Nat) (target : Word) : Exec State := do
  let s1 ← s.push (s.pc + BitVec.ofNat 32 bytes)
  let s2 ← s1.push (0#1 ++ s.flags : BitVec 16)
  .ok (s2.setPc target)

/-- RETURN (R276): FLAGS, then the address; bit 15 of the popped word has no effect. -/
def State.returnFromCall (s : State) : Exec State := do
  let (fl, s1) ← s.pop 16
  let (target, s2) ← s1.pop 32
  .ok ((s2.setFlags (fl.extractLsb' 0 15)).setPc target)

/-- JUMP to a literal address (R261). -/
def execJumpLa (target : Word) (s : State) : Result :=
  s.jumpLiteral true target

/-- JUMP to the address in a register (R261). -/
def execJumpRa (ra : Ref) (s : State) : Result :=
  s.jumpRegister true ra

/-- COMPARE with a literal (R262). -/
def execCompareVl (r1 : Ref) (lit : Lit) (s : State) : Result :=
  completes (vlLength r1) s (do
    s.checkVl r1
    .ok (s.compareWith r1 (literalValue r1.width lit)))

/-- COMPARE of two registers (R262). -/
def execCompareRr (r1 : Ref) (r2 : Ref) (s : State) : Result :=
  completes (some 3) s (do
    s.checkRr r1 r2
    .ok (s.compareWith r1 (s.xAs r1.width r2)))

/-- JEQUAL to a literal address (R263). -/
def execJequalLa (target : Word) (s : State) : Result :=
  s.jumpLiteral s.condEqual target

/-- JEQUAL to the address in a register (R263). -/
def execJequalRa (ra : Ref) (s : State) : Result :=
  s.jumpRegister s.condEqual ra

/-- JNOTEQUAL to a literal address (R264). -/
def execJnotequalLa (target : Word) (s : State) : Result :=
  s.jumpLiteral s.condNotEqual target

/-- JNOTEQUAL to the address in a register (R264). -/
def execJnotequalRa (ra : Ref) (s : State) : Result :=
  s.jumpRegister s.condNotEqual ra

/-- JGREATER to a literal address (R265). -/
def execJgreaterLa (target : Word) (s : State) : Result :=
  s.jumpLiteral s.condGreater target

/-- JGREATER to the address in a register (R265). -/
def execJgreaterRa (ra : Ref) (s : State) : Result :=
  s.jumpRegister s.condGreater ra

/-- JGREATEREQ to a literal address (R266). -/
def execJgreatereqLa (target : Word) (s : State) : Result :=
  s.jumpLiteral s.condGreaterEq target

/-- JGREATEREQ to the address in a register (R266). -/
def execJgreatereqRa (ra : Ref) (s : State) : Result :=
  s.jumpRegister s.condGreaterEq ra

/-- JABOVE to a literal address (R267). -/
def execJaboveLa (target : Word) (s : State) : Result :=
  s.jumpLiteral s.condAbove target

/-- JABOVE to the address in a register (R267). -/
def execJaboveRa (ra : Ref) (s : State) : Result :=
  s.jumpRegister s.condAbove ra

/-- JABOVEEQ to a literal address (R268). -/
def execJaboveeqLa (target : Word) (s : State) : Result :=
  s.jumpLiteral s.condAboveEq target

/-- JABOVEEQ to the address in a register (R268). -/
def execJaboveeqRa (ra : Ref) (s : State) : Result :=
  s.jumpRegister s.condAboveEq ra

/-- JLESSER to a literal address (R269). -/
def execJlesserLa (target : Word) (s : State) : Result :=
  s.jumpLiteral s.condLesser target

/-- JLESSER to the address in a register (R269). -/
def execJlesserRa (ra : Ref) (s : State) : Result :=
  s.jumpRegister s.condLesser ra

/-- JLESSEREQ to a literal address (R270). -/
def execJlessereqLa (target : Word) (s : State) : Result :=
  s.jumpLiteral s.condLesserEq target

/-- JLESSEREQ to the address in a register (R270). -/
def execJlessereqRa (ra : Ref) (s : State) : Result :=
  s.jumpRegister s.condLesserEq ra

/-- JBELOW to a literal address (R271). -/
def execJbelowLa (target : Word) (s : State) : Result :=
  s.jumpLiteral s.condBelow target

/-- JBELOW to the address in a register (R271). -/
def execJbelowRa (ra : Ref) (s : State) : Result :=
  s.jumpRegister s.condBelow ra

/-- JBELOWEQ to a literal address (R272). -/
def execJbeloweqLa (target : Word) (s : State) : Result :=
  s.jumpLiteral s.condBelowEq target

/-- JBELOWEQ to the address in a register (R272). -/
def execJbeloweqRa (ra : Ref) (s : State) : Result :=
  s.jumpRegister s.condBelowEq ra

/-- JOVERFLOW to a literal address (R273). -/
def execJoverflowLa (target : Word) (s : State) : Result :=
  s.jumpLiteral s.condOverflow target

/-- JOVERFLOW to the address in a register (R273). -/
def execJoverflowRa (ra : Ref) (s : State) : Result :=
  s.jumpRegister s.condOverflow ra

/-- JNOTOVERFLOW to a literal address (R274). -/
def execJnotoverflowLa (target : Word) (s : State) : Result :=
  s.jumpLiteral s.condNotOverflow target

/-- JNOTOVERFLOW to the address in a register (R274). -/
def execJnotoverflowRa (ra : Ref) (s : State) : Result :=
  s.jumpRegister s.condNotOverflow ra

/-- CALL of a literal address (R275). -/
def execCallLa (target : Word) (s : State) : Result :=
  settle (some 5) s (s.callTo 5 target)

/-- CALL of the address in a register (R275). -/
def execCallRa (ra : Ref) (s : State) : Result :=
  settle (some 2) s (do
    need (s.legal .address ra)
    s.callTo 2 (s.addressIn ra))

/-- RETURN (R276). -/
def execRet (s : State) : Result :=
  settle (some 1) s s.returnFromCall

/-- SYSCALL (R277): latch 0 is set; the check after the instruction services it where it is enabled (R314). -/
def execSyscall (s : State) : Result :=
  completes (some 1) s (.ok (s.setLatch .syscall true))

end Sys2Proof.Machine
end

