-- ==== Sys2Proof/Machine/Privileged.lean ====
section
/-!
DEFINITION. The meanings of the privileged instructions HALT, PAUSE, TIMER, USERMODE, IRETURN (40_privileged.md R130 to R135) and of the unmapped
opcodes (30_encoding.md R102). In user mode a privileged opcode raises IllegalOperation before its operand is checked (R135).
-/

namespace Sys2Proof.Machine

/-- HALT (R130, D31): no further step; `pc` is left at the successor. -/
def execHalt (s : State) : Result :=
  completes (some 1) s (do
    s.needKernel
    .ok (s.setHalted true))

/-- PAUSE (R131, D30): the processor waits for an enabled interrupt; the wait and the wake are the step's (R304). -/
def execPause (s : State) : Result :=
  completes (some 1) s (do
    s.needKernel
    .ok (s.setPaused true))

/-- TIMER with a literal (R132): the period in milliseconds, 0 to disable; a set latch 7 stays set (D32). -/
def execTimerLw (ms : Word) (s : State) : Result :=
  completes (some 5) s (do
    s.needKernel
    .ok (s.setTimerPeriod ms))

/-- TIMER with a register r0-r7 (R132). -/
def execTimerRw (rr : Ref) (s : State) : Result :=
  completes (some 2) s (do
    s.needKernel
    need (s.legal .address rr)
    .ok (s.setTimerPeriod (s.addressIn rr)))

/-- USERMODE (R133): pop the target from the kernel stack, clear FLAGS, enter user mode, jump. -/
def execUsermode (s : State) : Result :=
  settle (some 1) s (do
    s.needKernel
    let (target, t) ← s.pop 32
    .ok (((t.setFlags 0).setMode .user).setPc target))

/-- IRETURN (R134): the return from an interrupt. -/
def execIreturn (s : State) : Result :=
  settle (some 1) s (do
    s.needKernel
    s.interruptReturn)

/-- An unmapped opcode 0x60-0x7F (R102): IllegalOperation, one byte long, in both modes. -/
def execUnmapped60 (_low : BitVec 5) (s : State) : Result :=
  settle (some 1) s (.error (.raise .illegalOperation))

/-- An unmapped opcode 0x80-0xFF (R102): IllegalOperation, one byte long, in both modes. -/
def execUnmapped80 (_low : BitVec 7) (s : State) : Result :=
  settle (some 1) s (.error (.raise .illegalOperation))

end Sys2Proof.Machine
end

