-- ==== Sys2Proof/Machine/Dispatch.lean ====
section
/-!
DEFINITION. The meaning of each instruction, one arm a constructor.
-/

namespace Sys2Proof.Machine

def exec (i : Instr) (s : State) : Host.Outcome State Fault Refusal :=
  match i with
  | .halt => Sys2Proof.Machine.execHalt s
  | .pause => Sys2Proof.Machine.execPause s
  | .timerLw ms => Sys2Proof.Machine.execTimerLw ms s
  | .timerRw rr => Sys2Proof.Machine.execTimerRw rr s
  | .usermode => Sys2Proof.Machine.execUsermode s
  | .ireturn => Sys2Proof.Machine.execIreturn s
  | .loadLa rr addr => Sys2Proof.Machine.execLoadLa rr addr s
  | .loadRa rr ra => Sys2Proof.Machine.execLoadRa rr ra s
  | .storeLa addr rr => Sys2Proof.Machine.execStoreLa addr rr s
  | .storeRa ra rr => Sys2Proof.Machine.execStoreRa ra rr s
  | .copyVl rd lit => Sys2Proof.Machine.execCopyVl rd lit s
  | .copyRr rd rs => Sys2Proof.Machine.execCopyRr rd rs s
  | .swapLa rr addr => Sys2Proof.Machine.execSwapLa rr addr s
  | .swapRa rr ra => Sys2Proof.Machine.execSwapRa rr ra s
  | .push rr => Sys2Proof.Machine.execPush rr s
  | .pop rr => Sys2Proof.Machine.execPop rr s
  | .blockcopyLwLaLa len dst src => Sys2Proof.Machine.execBlockcopyLwLaLa len dst src s
  | .blockcopyLwLaRa len dst rsrc => Sys2Proof.Machine.execBlockcopyLwLaRa len dst rsrc s
  | .blockcopyLwRaLa len rdst src => Sys2Proof.Machine.execBlockcopyLwRaLa len rdst src s
  | .blockcopyLwRaRa len rdst rsrc => Sys2Proof.Machine.execBlockcopyLwRaRa len rdst rsrc s
  | .blockcopyRwLaLa rlen dst src => Sys2Proof.Machine.execBlockcopyRwLaLa rlen dst src s
  | .blockcopyRwLaRa rlen dst rsrc => Sys2Proof.Machine.execBlockcopyRwLaRa rlen dst rsrc s
  | .blockcopyRwRaLa rlen rdst src => Sys2Proof.Machine.execBlockcopyRwRaLa rlen rdst src s
  | .blockcopyRwRaRa rlen rdst rsrc => Sys2Proof.Machine.execBlockcopyRwRaRa rlen rdst rsrc s
  | .negate rd => Sys2Proof.Machine.execNegate rd s
  | .addVl rd lit => Sys2Proof.Machine.execAddVl rd lit s
  | .addRr rd rs => Sys2Proof.Machine.execAddRr rd rs s
  | .addcarryVl rd lit => Sys2Proof.Machine.execAddcarryVl rd lit s
  | .addcarryRr rd rs => Sys2Proof.Machine.execAddcarryRr rd rs s
  | .subVl rd lit => Sys2Proof.Machine.execSubVl rd lit s
  | .subRr rd rs => Sys2Proof.Machine.execSubRr rd rs s
  | .subborrowVl rd lit => Sys2Proof.Machine.execSubborrowVl rd lit s
  | .subborrowRr rd rs => Sys2Proof.Machine.execSubborrowRr rd rs s
  | .multVl rd lit => Sys2Proof.Machine.execMultVl rd lit s
  | .multRr rd rs => Sys2Proof.Machine.execMultRr rd rs s
  | .sdivVl rd lit => Sys2Proof.Machine.execSdivVl rd lit s
  | .sdivRr rd rs => Sys2Proof.Machine.execSdivRr rd rs s
  | .udivVl rd lit => Sys2Proof.Machine.execUdivVl rd lit s
  | .udivRr rd rs => Sys2Proof.Machine.execUdivRr rd rs s
  | .sremVl rd lit => Sys2Proof.Machine.execSremVl rd lit s
  | .sremRr rd rs => Sys2Proof.Machine.execSremRr rd rs s
  | .uremVl rd lit => Sys2Proof.Machine.execUremVl rd lit s
  | .uremRr rd rs => Sys2Proof.Machine.execUremRr rd rs s
  | .notR rd => Sys2Proof.Machine.execNotR rd s
  | .andVl rd lit => Sys2Proof.Machine.execAndVl rd lit s
  | .andRr rd rs => Sys2Proof.Machine.execAndRr rd rs s
  | .orVl rd lit => Sys2Proof.Machine.execOrVl rd lit s
  | .orRr rd rs => Sys2Proof.Machine.execOrRr rd rs s
  | .xorVl rd lit => Sys2Proof.Machine.execXorVl rd lit s
  | .xorRr rd rs => Sys2Proof.Machine.execXorRr rd rs s
  | .lshiftLb rd n => Sys2Proof.Machine.execLshiftLb rd n s
  | .lshiftRb rd rb => Sys2Proof.Machine.execLshiftRb rd rb s
  | .rshiftlLb rd n => Sys2Proof.Machine.execRshiftlLb rd n s
  | .rshiftlRb rd rb => Sys2Proof.Machine.execRshiftlRb rd rb s
  | .rshiftaLb rd n => Sys2Proof.Machine.execRshiftaLb rd n s
  | .rshiftaRb rd rb => Sys2Proof.Machine.execRshiftaRb rd rb s
  | .lrotLb rd n => Sys2Proof.Machine.execLrotLb rd n s
  | .lrotRb rd rb => Sys2Proof.Machine.execLrotRb rd rb s
  | .rrotLb rd n => Sys2Proof.Machine.execRrotLb rd n s
  | .rrotRb rd rb => Sys2Proof.Machine.execRrotRb rd rb s
  | .lrotcarryLb rd n => Sys2Proof.Machine.execLrotcarryLb rd n s
  | .lrotcarryRb rd rb => Sys2Proof.Machine.execLrotcarryRb rd rb s
  | .rrotcarryLb rd n => Sys2Proof.Machine.execRrotcarryLb rd n s
  | .rrotcarryRb rd rb => Sys2Proof.Machine.execRrotcarryRb rd rb s
  | .jumpLa target => Sys2Proof.Machine.execJumpLa target s
  | .jumpRa ra => Sys2Proof.Machine.execJumpRa ra s
  | .compareVl r1 lit => Sys2Proof.Machine.execCompareVl r1 lit s
  | .compareRr r1 r2 => Sys2Proof.Machine.execCompareRr r1 r2 s
  | .jequalLa target => Sys2Proof.Machine.execJequalLa target s
  | .jequalRa ra => Sys2Proof.Machine.execJequalRa ra s
  | .jnotequalLa target => Sys2Proof.Machine.execJnotequalLa target s
  | .jnotequalRa ra => Sys2Proof.Machine.execJnotequalRa ra s
  | .jgreaterLa target => Sys2Proof.Machine.execJgreaterLa target s
  | .jgreaterRa ra => Sys2Proof.Machine.execJgreaterRa ra s
  | .jgreatereqLa target => Sys2Proof.Machine.execJgreatereqLa target s
  | .jgreatereqRa ra => Sys2Proof.Machine.execJgreatereqRa ra s
  | .jaboveLa target => Sys2Proof.Machine.execJaboveLa target s
  | .jaboveRa ra => Sys2Proof.Machine.execJaboveRa ra s
  | .jaboveeqLa target => Sys2Proof.Machine.execJaboveeqLa target s
  | .jaboveeqRa ra => Sys2Proof.Machine.execJaboveeqRa ra s
  | .jlesserLa target => Sys2Proof.Machine.execJlesserLa target s
  | .jlesserRa ra => Sys2Proof.Machine.execJlesserRa ra s
  | .jlessereqLa target => Sys2Proof.Machine.execJlessereqLa target s
  | .jlessereqRa ra => Sys2Proof.Machine.execJlessereqRa ra s
  | .jbelowLa target => Sys2Proof.Machine.execJbelowLa target s
  | .jbelowRa ra => Sys2Proof.Machine.execJbelowRa ra s
  | .jbeloweqLa target => Sys2Proof.Machine.execJbeloweqLa target s
  | .jbeloweqRa ra => Sys2Proof.Machine.execJbeloweqRa ra s
  | .joverflowLa target => Sys2Proof.Machine.execJoverflowLa target s
  | .joverflowRa ra => Sys2Proof.Machine.execJoverflowRa ra s
  | .jnotoverflowLa target => Sys2Proof.Machine.execJnotoverflowLa target s
  | .jnotoverflowRa ra => Sys2Proof.Machine.execJnotoverflowRa ra s
  | .callLa target => Sys2Proof.Machine.execCallLa target s
  | .callRa ra => Sys2Proof.Machine.execCallRa ra s
  | .ret => Sys2Proof.Machine.execRet s
  | .syscall => Sys2Proof.Machine.execSyscall s
  | .unmapped60 low => Sys2Proof.Machine.execUnmapped60 low s
  | .unmapped80 low => Sys2Proof.Machine.execUnmapped80 low s

end Sys2Proof.Machine
end

