-- ==== Sys2Proof/Machine/Fetch.lean ====
section
/-!
DEFINITION. Reading the instruction at `pc` (20_memory.md R71, 30_encoding.md R98): first the bytes that fix its length,
then all of them, each translated for a fetch in user mode; and where those bytes lie in physical memory.
-/

namespace Sys2Proof.Machine

/-- The number of bytes of the instruction whose first bytes are `head` (R98). -/
def bytesToFetch (head : List Byte) : Nat :=
  (formatOf (head.headD 0)).totalBytes (Ref.ofByte (head.getD 1 0))

/-- R71, R104: the instruction at `pc`. All its bytes are read before any check (log 21); a byte that faults stops it. -/
def State.fetch (s : State) : Exec Instr := do
  let opcode ← s.fetchFrom 0 1
  let head ← s.fetchFrom 0 (formatOf (opcode.headD 0)).headBytes
  let bytes ← s.fetchFrom 0 (bytesToFetch head)
  match decode bytes with
  | .ok (i, _) => .ok i
  | .error .truncated => .error (.refuse .truncatedFetch)

/-- The physical address `step` fetches the byte k after `pc` from; in user mode where the translation answers one. -/
def State.fetchAddress (s : State) (k : Nat) : Option Nat :=
  match s.resolve .fetch [s.pc + BitVec.ofNat 32 k] with
  | .ok [a] => some a.toNat
  | _ => none

/-- The bytes put where `step` fetches the bytes of its next instruction from, from the k-th on. -/
def State.placeAt (s : State) (k : Nat) : List Byte → State
  | [] => s
  | b :: rest =>
    match s.fetchAddress k with
    | some a => (s.setMem (s.mem.write a b)).placeAt (k + 1) rest
    | none => s.placeAt (k + 1) rest

end Sys2Proof.Machine
end

