-- ==== Sys2Proof/Machine/Step.lean ====
section
/-!
DEFINITION. One step of the CPU's loop (60_exceptions.md R304): an interrupt service, a wait, or one instruction.
-/

namespace Sys2Proof.Machine

/-- What an interrupted fetch does: a PageFault is raised in the state the instruction began in (60_exceptions.md R312; the
length is not known, `pc` is unspecified, U12); a stop stops. -/
def runFetched (s : State) (i : Exec Instr) : Result :=
  match i with
  | .ok i => exec i s
  | .error e => settle none s (.error e)

/-- One instruction: read it at `pc`, execute it. -/
def runInstruction (s : State) : Result := runFetched s s.fetch

/-- R304 after the asynchronous sources have acted: service the chosen interrupt; else wait while paused; else execute. -/
def checkAndRun (s : State) : Result :=
  match s.choose with
  | some n => settle none s (s.service n)
  | none => if s.paused then .next s else runInstruction s

/-- One step. After HALT there is none of any kind (R130). -/
def step (s : State) : Host.Outcome State Fault Refusal :=
  if s.halted then .fault .halted else checkAndRun s.sample

/-- `s` with the instruction of the opcode-table number `w` where `step` fetches its next instruction: the longest
instruction's bytes, those past `nbits` zero, from `pc` on, the processor neither halted nor paused, and no source acting
before that step, so that no device stores over the bytes (log 4). -/
def State.withFetchWord (s : State) (nbits w : Nat) : State :=
  { ((s.setHalted false).setPaused false).placeAt 0 (tableBytes nbits w) with arrivals := .first noArrival s.arrivals }

end Sys2Proof.Machine
end

