-- ==== Sys2Proof/Safety.lean ====
section
/-!
DEFINITION. The terms statements are made in: the invariant of the machine, the frames of instructions, the hypotheses under
which an access completes, and the register operands of an instruction by type.
-/

namespace Sys2Proof.Machine

/-! ## Invariant and isolation -/

/-- The invariant every step keeps: memory has its canonical form. -/
def State.Inv (s : State) : Prop := s.mem.wf = true

/-- The parameters of the platform are those of another state (00_scope.md R6). -/
def State.SamePlatform (s t : State) : Prop := t.physMap = s.physMap ∧ t.mmu = s.mmu

/-- What only kernel mode may change (10_state.md R36, R38; 60_exceptions.md R318): the mode, the privileged registers, the
timer and the run state. -/
def State.SamePrivileged (s t : State) : Prop :=
  t.mode = s.mode ∧ t.kspr = s.kspr ∧ t.pdpr = s.pdpr ∧ t.imr = s.imr ∧ t.timerPeriod = s.timerPeriod ∧
    t.halted = s.halted ∧ t.paused = s.paused

/-- Every interrupt latched in `s` is latched in `t` (10_state.md R39). -/
def State.LatchesKept (s t : State) : Prop := ∀ n : Irq, s.latch.get n = true → t.latch.get n = true

/-! ## Memory -/

/-- Every physical byte at an address that is none of `l` is read in `t` as in `s`. -/
def State.SameMemoryOutside (s t : State) (l : List Word) : Prop :=
  ∀ a : Nat, (∀ p ∈ l, a ≠ p.toNat) → t.mem.read a = s.mem.read a

/-- The physical bytes at the addresses, in order. -/
def State.bytesAt (s : State) (l : List Word) : List Byte := l.map fun p => s.mem.read p.toNat

/-- The big-endian value of `w` bits at a physical address (20_memory.md R62, R63). -/
def State.valueAt (s : State) (w : Nat) (a : Word) : BitVec w := ofBytes w (s.bytesAt (addrs a (w / 8)))

/-- Every address of the list is ram (20_memory.md R68). -/
def State.AllRam (s : State) (l : List Word) : Prop := ∀ p ∈ l, s.kindOf p = .ram

/-- Every address of the list is ram or read_only (20_memory.md R68). -/
def State.Readable (s : State) (l : List Word) : Prop := ∀ p ∈ l, s.kindOf p = .ram ∨ s.kindOf p = .readOnly

/-- An access to the addresses `l` reaches the physical addresses `pl`: themselves in kernel mode, their translations in
user mode (20_memory.md R61, R64, R65, R71). -/
def State.Reaches (s : State) (acc : Access) (l pl : List Word) : Prop :=
  match s.mode with
  | .kernel => pl = l
  | .user => (l.map fun v => s.translate v acc) = pl.map Translation.ok

/-- A user-mode access whose translation answers fault for some byte (20_memory.md R64, R65; 60_exceptions.md R312). -/
def State.Faults (s : State) (acc : Access) (l : List Word) : Prop :=
  s.mode = .user ∧ ∃ v ∈ l, s.translate v acc = .fault

/-- A write that no translation faults and that meets a read-only byte (20_memory.md R63, R65). -/
def State.WriteRefused (s : State) (l : List Word) : Prop :=
  match s.mode with
  | .kernel => ∃ p ∈ l, s.kindOf p = .readOnly
  | .user => (∀ v ∈ l, s.translate v .write ≠ .fault) ∧
      ∃ v ∈ l, s.translate v .write = .readOnly ∨ ∃ p, s.translate v .write = .ok p ∧ s.kindOf p = .readOnly

/-- What memory holds does not change the translation: kernel mode, or a user mode whose page tables lie apart (R70 lets
`Translate` depend on the contents of memory). -/
def State.Steady (s : State) : Prop :=
  s.mode = .user → ∀ (m : Memory) (v : Word) (acc : Access), (s.setMem m).translate v acc = s.translate v acc

/-- Memory in `t` is that of `s` with the bytes `bs` stored at the addresses `pl`, in order. Where two of the addresses
are one (user mode may alias) what that byte holds is not said. -/
def State.Stores (s t : State) (pl : List Word) (bs : List Byte) : Prop :=
  (pl.Nodup → t.bytesAt pl = bs) ∧ s.SameMemoryOutside t pl

/-! ## Operands -/

/-- A register the instruction may name under the current mode (30_encoding.md R95, R101). -/
def State.Allows (s : State) (ref : Ref) : Prop :=
  ref.named = true ∧ (s.mode = .user → ref ≠ .kspr ∧ ref ≠ .pdpr ∧ ref ≠ .imr)

/-- The register that holds the active stack pointer (10_state.md R33). -/
def State.activeStack (s : State) : Ref :=
  match s.mode with
  | .kernel => .kspr
  | .user => .uspr

/-- One of r0-r7, r0h-r7h, r0b-r7b: the registers `Register ref integer` accepts (R96). -/
def IsGeneral (ref : Ref) : Prop := ∃ i, ref = .r i ∨ ref = .h i ∨ ref = .b i

/-- One of f0-f7 (R95). -/
def IsFloat (ref : Ref) : Prop := ∃ i, ref = .f i

/-- The bytes a register reference takes on the stack or in memory (41_data_movement.md R150). -/
def bytesOf (ref : Ref) : Nat := ref.width / 8

/-- The reference bytes each operand type accepts, first and last (R96, the narrow reading). -/
def RefClass.firstLast : RefClass → Nat × Nat
  | .any => (0x00, 0x24)
  | .integer => (0x00, 0x17)
  | .address => (0x00, 0x07)
  | .byte => (0x10, 0x17)

/-- The reference names no register (R95), or lies outside the set its operand type accepts (R96, R103). -/
def OutsideClass (c : RefClass) (ref : Ref) : Prop :=
  ref.named = false ∨ ref.toByte.toNat < c.firstLast.1 ∨ c.firstLast.2 < ref.toByte.toNat

/-- The register operands of an instruction with their types (30_encoding.md R92, R105). -/
def refsOf : Instr → List (RefClass × Ref)
  | .halt => []
  | .pause => []
  | .timerLw _ => []
  | .timerRw rr => [(.address, rr)]
  | .usermode => []
  | .ireturn => []
  | .loadLa rr _ => [(.any, rr)]
  | .loadRa rr ra => [(.any, rr), (.address, ra)]
  | .storeLa _ rr => [(.any, rr)]
  | .storeRa ra rr => [(.address, ra), (.any, rr)]
  | .copyVl rd _ => [(.any, rd)]
  | .copyRr rd rs => [(.any, rd), (.any, rs)]
  | .swapLa rr _ => [(.any, rr)]
  | .swapRa rr ra => [(.any, rr), (.address, ra)]
  | .push rr => [(.any, rr)]
  | .pop rr => [(.any, rr)]
  | .blockcopyLwLaLa _ _ _ => []
  | .blockcopyLwLaRa _ _ rsrc => [(.address, rsrc)]
  | .blockcopyLwRaLa _ rdst _ => [(.address, rdst)]
  | .blockcopyLwRaRa _ rdst rsrc => [(.address, rdst), (.address, rsrc)]
  | .blockcopyRwLaLa rlen _ _ => [(.address, rlen)]
  | .blockcopyRwLaRa rlen _ rsrc => [(.address, rlen), (.address, rsrc)]
  | .blockcopyRwRaLa rlen rdst _ => [(.address, rlen), (.address, rdst)]
  | .blockcopyRwRaRa rlen rdst rsrc => [(.address, rlen), (.address, rdst), (.address, rsrc)]
  | .negate rd => [(.any, rd)]
  | .addVl rd _ => [(.any, rd)]
  | .addRr rd rs => [(.any, rd), (.any, rs)]
  | .addcarryVl rd _ => [(.integer, rd)]
  | .addcarryRr rd rs => [(.integer, rd), (.integer, rs)]
  | .subVl rd _ => [(.any, rd)]
  | .subRr rd rs => [(.any, rd), (.any, rs)]
  | .subborrowVl rd _ => [(.integer, rd)]
  | .subborrowRr rd rs => [(.integer, rd), (.integer, rs)]
  | .multVl rd _ => [(.any, rd)]
  | .multRr rd rs => [(.any, rd), (.any, rs)]
  | .sdivVl rd _ => [(.any, rd)]
  | .sdivRr rd rs => [(.any, rd), (.any, rs)]
  | .udivVl rd _ => [(.integer, rd)]
  | .udivRr rd rs => [(.integer, rd), (.integer, rs)]
  | .sremVl rd _ => [(.any, rd)]
  | .sremRr rd rs => [(.any, rd), (.any, rs)]
  | .uremVl rd _ => [(.integer, rd)]
  | .uremRr rd rs => [(.integer, rd), (.integer, rs)]
  | .notR rd => [(.integer, rd)]
  | .andVl rd _ => [(.integer, rd)]
  | .andRr rd rs => [(.integer, rd), (.integer, rs)]
  | .orVl rd _ => [(.integer, rd)]
  | .orRr rd rs => [(.integer, rd), (.integer, rs)]
  | .xorVl rd _ => [(.integer, rd)]
  | .xorRr rd rs => [(.integer, rd), (.integer, rs)]
  | .lshiftLb rd _ => [(.integer, rd)]
  | .lshiftRb rd rb => [(.integer, rd), (.byte, rb)]
  | .rshiftlLb rd _ => [(.integer, rd)]
  | .rshiftlRb rd rb => [(.integer, rd), (.byte, rb)]
  | .rshiftaLb rd _ => [(.integer, rd)]
  | .rshiftaRb rd rb => [(.integer, rd), (.byte, rb)]
  | .lrotLb rd _ => [(.integer, rd)]
  | .lrotRb rd rb => [(.integer, rd), (.byte, rb)]
  | .rrotLb rd _ => [(.integer, rd)]
  | .rrotRb rd rb => [(.integer, rd), (.byte, rb)]
  | .lrotcarryLb rd _ => [(.integer, rd)]
  | .lrotcarryRb rd rb => [(.integer, rd), (.byte, rb)]
  | .rrotcarryLb rd _ => [(.integer, rd)]
  | .rrotcarryRb rd rb => [(.integer, rd), (.byte, rb)]
  | .jumpLa _ => []
  | .jumpRa ra => [(.address, ra)]
  | .compareVl r1 _ => [(.any, r1)]
  | .compareRr r1 r2 => [(.any, r1), (.any, r2)]
  | .jequalLa _ => []
  | .jequalRa ra => [(.address, ra)]
  | .jnotequalLa _ => []
  | .jnotequalRa ra => [(.address, ra)]
  | .jgreaterLa _ => []
  | .jgreaterRa ra => [(.address, ra)]
  | .jgreatereqLa _ => []
  | .jgreatereqRa ra => [(.address, ra)]
  | .jaboveLa _ => []
  | .jaboveRa ra => [(.address, ra)]
  | .jaboveeqLa _ => []
  | .jaboveeqRa ra => [(.address, ra)]
  | .jlesserLa _ => []
  | .jlesserRa ra => [(.address, ra)]
  | .jlessereqLa _ => []
  | .jlessereqRa ra => [(.address, ra)]
  | .jbelowLa _ => []
  | .jbelowRa ra => [(.address, ra)]
  | .jbeloweqLa _ => []
  | .jbeloweqRa ra => [(.address, ra)]
  | .joverflowLa _ => []
  | .joverflowRa ra => [(.address, ra)]
  | .jnotoverflowLa _ => []
  | .jnotoverflowRa ra => [(.address, ra)]
  | .callLa _ => []
  | .callRa ra => [(.address, ra)]
  | .ret => []
  | .syscall => []
  | .unmapped60 _ => []
  | .unmapped80 _ => []

/-- The two references of unspecified length of formats R_R and RI_RI (30_encoding.md R99). -/
def pairOf : Instr → Option (Ref × Ref)
  | .copyRr rd rs => some (rd, rs)
  | .addRr rd rs => some (rd, rs)
  | .addcarryRr rd rs => some (rd, rs)
  | .subRr rd rs => some (rd, rs)
  | .subborrowRr rd rs => some (rd, rs)
  | .multRr rd rs => some (rd, rs)
  | .sdivRr rd rs => some (rd, rs)
  | .udivRr rd rs => some (rd, rs)
  | .sremRr rd rs => some (rd, rs)
  | .uremRr rd rs => some (rd, rs)
  | .andRr rd rs => some (rd, rs)
  | .orRr rd rs => some (rd, rs)
  | .xorRr rd rs => some (rd, rs)
  | .compareRr r1 r2 => some (r1, r2)
  | _ => none

/-- The two references whose kinds must match (30_encoding.md R100): format R_R but for COPY. -/
def kindPairOf : Instr → Option (Ref × Ref)
  | .addRr rd rs => some (rd, rs)
  | .subRr rd rs => some (rd, rs)
  | .multRr rd rs => some (rd, rs)
  | .sdivRr rd rs => some (rd, rs)
  | .sremRr rd rs => some (rd, rs)
  | .compareRr r1 r2 => some (r1, r2)
  | _ => none

/-- The length, the destination and the source of a BLOCKCOPY whose registers are r0-r7 (41_data_movement.md R158). -/
def State.blockcopyOf (s : State) : Instr → Option (Word × Word × Word)
  | .blockcopyLwLaLa len dst src => some (len, dst, src)
  | .blockcopyLwLaRa len dst (.r c) => some (len, dst, s.r.get c)
  | .blockcopyLwRaLa len (.r b) src => some (len, s.r.get b, src)
  | .blockcopyLwRaRa len (.r b) (.r c) => some (len, s.r.get b, s.r.get c)
  | .blockcopyRwLaLa (.r a) dst src => some (s.r.get a, dst, src)
  | .blockcopyRwLaRa (.r a) dst (.r c) => some (s.r.get a, dst, s.r.get c)
  | .blockcopyRwRaLa (.r a) (.r b) src => some (s.r.get a, s.r.get b, src)
  | .blockcopyRwRaRa (.r a) (.r b) (.r c) => some (s.r.get a, s.r.get b, s.r.get c)
  | _ => none

/-! ## What raises an interrupt -/

/-- A privileged instruction, opcodes 00 to 05 (40_privileged.md R135). -/
def IsPrivileged (i : Instr) : Prop :=
  i = .halt ∨ i = .pause ∨ (∃ ms, i = .timerLw ms) ∨ (∃ rr, i = .timerRw rr) ∨ i = .usermode ∨ i = .ireturn

/-- The addresses whose bytes the instruction loads as data or from the stack (41_data_movement.md R151, R155, R157, R158;
40_privileged.md R133, R134; 44_flow_control.md R276). -/
def State.loadsFrom (s : State) : Instr → List Word
  | .loadLa rr a => addrs a (bytesOf rr)
  | .loadRa rr ra => addrs (s.addressIn ra) (bytesOf rr)
  | .swapLa rr a => addrs a (bytesOf rr)
  | .swapRa rr ra => addrs (s.addressIn ra) (bytesOf rr)
  | .pop rr => addrs s.sp (bytesOf rr)
  | .ret => addrs s.sp 6
  | .usermode => addrs s.sp 4
  | .ireturn => addrs s.sp 8
  | i =>
    match s.blockcopyOf i with
    | some (len, _, src) => addrs src len.toNat
    | none => []

/-- The addresses whose bytes the instruction stores (41_data_movement.md R152, R155, R156, R158; 44_flow_control.md R275). -/
def State.storesTo (s : State) : Instr → List Word
  | .storeLa a rr => addrs a (bytesOf rr)
  | .storeRa ra rr => addrs (s.addressIn ra) (bytesOf rr)
  | .swapLa rr a => addrs a (bytesOf rr)
  | .swapRa rr ra => addrs (s.addressIn ra) (bytesOf rr)
  | .push rr => addrs (s.sp - BitVec.ofNat 32 (bytesOf rr)) (bytesOf rr)
  | .callLa _ => addrs (s.sp - 6) 6
  | .callRa _ => addrs (s.sp - 6) 6
  | i =>
    match s.blockcopyOf i with
    | some (len, d, _) => addrs d len.toNat
    | none => []

/-- The memories over which the accesses of an instruction are translated (R70 lets `Translate` depend on the contents of
memory): the one it finds, for CALL the one after its first push (44_flow_control.md R275), for BLOCKCOPY the one after each
number of bytes copied (41_data_movement.md R158). -/
inductive State.Passes (s : State) (i : Instr) : Memory → Prop where
  /-- before any store -/
  | start : s.Passes i s.mem
  /-- between the pushes of a CALL of n bytes -/
  | pushed (n : Nat) (t : State) (hi : (∃ a, i = .callLa a) ∨ ∃ ra, i = .callRa ra) (hn : i.length = some n)
    (h : s.push (s.pc + BitVec.ofNat 32 n) = .ok t) : s.Passes i t.mem
  /-- after the first k bytes of a BLOCKCOPY -/
  | copied (len d src : Word) (k : Nat) (t : State) (hi : s.blockcopyOf i = some (len, d, src)) (hk : k < len.toNat)
    (h : s.copyBytes d src (if rangesOverlap len d src then some s.draws else none) 0 k = .ok t) : s.Passes i t.mem

/-- A division or remainder of integers whose divisor is 0 (42_arithmetic.md R195; 60_exceptions.md R311). -/
def State.ZeroDivisor (s : State) (i : Instr) : Prop :=
  ∃ rd : Ref, ¬IsFloat rd ∧
    ((∃ lit : Lit, i ∈ [.sdivVl rd lit, .udivVl rd lit, .sremVl rd lit, .uremVl rd lit] ∧
        literalValue rd.width lit = 0) ∨
      (∃ rs : Ref, i ∈ [.sdivRr rd rs, .udivRr rd rs, .sremRr rd rs, .uremRr rd rs] ∧
        rs.width = rd.width ∧ s.x rs = 0))

/-- The causes of Illegal Operation, (a) to (g) of 60_exceptions.md R310. -/
inductive State.IllegalCause (s : State) (i : Instr) : Prop where
  /-- (a) an unmapped opcode (30_encoding.md R102) -/
  | unmapped (h : (∃ low, i = .unmapped60 low) ∨ ∃ low, i = .unmapped80 low)
  /-- (b) a privileged instruction in user mode (40_privileged.md R135) -/
  | privileged (hu : s.mode = .user) (h : IsPrivileged i)
  /-- (c) two references of unspecified length whose lengths differ (30_encoding.md R99) -/
  | lengths (a b : Ref) (hp : pairOf i = some (a, b)) (h : a.width ≠ b.width)
  /-- (d) a write to a read-only address, judged over a memory the instruction passes (20_memory.md R63, R65) -/
  | readOnly (v : Word) (m : Memory) (hv : v ∈ s.storesTo i) (hm : s.Passes i m) (h : (s.setMem m).WriteRefused [v])
  /-- (e) two operands of different kinds (30_encoding.md R100, the spec's decision D9) -/
  | kinds (a b : Ref) (hp : kindPairOf i = some (a, b)) (h : IsFloat a ↔ ¬IsFloat b)
  /-- (f) a reference outside the class of its operand (30_encoding.md R103, the spec's decision D7) -/
  | reference (c : RefClass) (ref : Ref) (hm : (c, ref) ∈ refsOf i) (h : OutsideClass c ref)
  /-- (g) a privileged register in user mode (30_encoding.md R101, the spec's decision D8) -/
  | register (c : RefClass) (ref : Ref) (hu : s.mode = .user) (hm : (c, ref) ∈ refsOf i)
    (h : ref = .kspr ∨ ref = .pdpr ∨ ref = .imr)

/-- What must hold of an instruction that raises an interrupt (60_exceptions.md R310, R311, R312): a translation of a byte
it loads or stores faults, over a memory it passes; its divisor is 0; a cause of Illegal Operation. -/
def State.MayRaise (s : State) (i : Instr) : Cause → Prop
  | .pageFault => ∃ m : Memory, s.Passes i m ∧
      ((s.setMem m).Faults .read (s.loadsFrom i) ∨ (s.setMem m).Faults .write (s.storesTo i))
  | .divideByZero => s.ZeroDivisor i
  | .illegalOperation => s.IllegalCause i

/-- A physical ram byte that a write to one of the addresses reaches (20_memory.md R61, R65, R68). -/
def State.Writable (s : State) (l : List Word) (p : Word) : Prop :=
  s.kindOf p = .ram ∧ ∃ v ∈ l, s.Reaches .write [v] [p]

/-- Memory changes only at ram bytes that a write to the addresses `l` reaches. -/
def State.OnlyWritable (s t : State) (l : List Word) : Prop :=
  ∀ a : Nat, (∀ p : Word, s.Writable l p → a ≠ p.toNat) → t.mem.read a = s.mem.read a

/-! ## Rounding -/

/-- A binary32 pattern of a number: no NaN and no infinity (10_state.md R23). -/
def IsFinite (x : Word) : Prop := isNaN x = false ∧ isInf x = false

/-- An infinity of the sign (10_state.md R23). -/
def IsInfinity (neg : Bool) (x : Word) : Prop := isInf x = true ∧ signBit x = neg

/-- How far apart two magnitudes are. -/
def distance (a b : Nat) : Nat := (a - b) + (b - a)

/-- The least magnitude, in units of 2^-149, that rounds to an infinity: halfway from the largest finite value to 2^128. -/
def overflowBound : Nat := (2 ^ 25 - 1) * 2 ^ 252

/-- `y` is ± num/den units of 2^-149 rounded to binary32, to nearest, ties to even (42_arithmetic.md R181, the default of
`FloatOps`): an infinity from `overflowBound` on, below it finite, with no finite magnitude closer, and where another is as
close the one whose last bit is 0. -/
def RoundsTo (neg : Bool) (num den : Nat) (y : Word) : Prop :=
  signBit y = neg ∧ (overflowBound * den ≤ num → isInf y = true) ∧
    (num < overflowBound * den → IsFinite y ∧ ∀ z : Word, IsFinite z → magnitude z ≠ magnitude y →
      distance (magnitude y * den) num < distance (magnitude z * den) num ∨
      (distance (magnitude y * den) num = distance (magnitude z * den) num ∧ y.getLsbD 0 = false))

/-! ## Outcomes -/

/-- The outcome with its next state changed. -/
def mapNext (g : State → State) : Result → Result
  | .next t => .next (g t)
  | .fault f => .fault f
  | .refused r => .refused r

/-- `s` with other contents of the registers user mode cannot name or read (10_state.md R36, R41). -/
def State.withKernelRegisters (s : State) (kspr : Word) (imr : BitVec 16) (period : Word) : State :=
  { s with kspr := kspr, imr := imr, timerPeriod := period }

/-- Both forms of a jump complete: to the target where `taken`, to the next instruction where not; nothing but `pc` changes.
`op` is the opcode of the literal form, the register form's is the next (44_flow_control.md R260, R278). -/
def State.JumpsWhen (s : State) (op : Byte) (la : Word → Instr) (ra : Ref → Instr) (taken : Bool) : Prop :=
  (∀ target : Word, encode (la target) = op :: bytesOfWord target ∧
    exec (la target) s = .next { s with pc := if taken then target else s.pc + 5 }) ∧
  (∀ i : Fin 8, encode (ra (.r i)) = [op + 1, BitVec.ofNat 8 i.val] ∧
    exec (ra (.r i)) s = .next { s with pc := if taken then s.r.get i else s.pc + 2 })

/-- `t` is `s` after an integer COMPARE of n bytes of value1 `a` with value2 `b`: the flags of b - a, and no register but
`pc` changes (44_flow_control.md R262; 10_state.md R30). -/
def State.AfterCompare (s t : State) (n : Nat) {w : Nat} (a b : BitVec w) : Prop :=
  t = { s with flags := t.flags, pc := s.pc + BitVec.ofNat 32 n } ∧
    t.flagZ = decide (a = b) ∧ t.flagN = (b - a).msb ∧ t.flagC = decide (b.toNat < a.toNat) ∧
    t.flagO = BitVec.ssubOverflow b a ∧ t.flags.extractLsb' 4 11 = s.flags.extractLsb' 4 11

/-- `t` is `s` after the service of interrupt n: kernel mode, the 8 bytes of the frame below KSPR (IMR, the next address, FLAGS
with the mode in bit 15), IMR and the latch cleared, not paused, `pc` read from the vector (60_exceptions.md R306, R307, R308). -/
def State.AfterEntry (s t : State) (n : Irq) : Prop :=
  t = { s with
        mode := .kernel, kspr := s.kspr - 8, imr := 0, latch := s.latch.set n false, paused := false,
        mem := t.mem, pc := t.valueAt 32 (BitVec.ofNat 32 (4 * n.number)) } ∧
    t.bytesAt (addrs (s.kspr - 8) 8) =
      toBytes s.imr ++ toBytes s.pc ++ toBytes (BitVec.ofBool (decide (s.mode = .kernel)) ++ s.flags : BitVec 16) ∧
    s.SameMemoryOutside t (addrs (s.kspr - 8) 8)

/-- `s` after an instruction of n bytes that raises interrupt k and has no other effect (60_exceptions.md R309, R317). -/
def State.trapped (s : State) (k : Irq) (n : Nat) : State :=
  { s with latch := s.latch.set k true, pc := s.pc + BitVec.ofNat 32 n }

/-- The outcome is `s` with latch 4 set and nothing else changed but `pc`, which is free (60_exceptions.md R309, R312; log 9). -/
def State.PageFaulted (s : State) (out : Result) : Prop :=
  ∃ pc : Word, out = .next { s with latch := s.latch.set .pageFault true, pc := pc, draws := s.draws + 1 }

/-- `t` is `s` after an integer instruction of n bytes with result `v` in `rd`, carry `c` and overflow `o` (10_state.md
R28 to R30): the register, the four flags and `pc` change, and nothing else. -/
def State.AfterAlu (s t : State) (n : Nat) (rd : Ref) (v : BitVec rd.width) (c o : Bool) : Prop :=
  t = { s.setX rd v with flags := t.flags, pc := s.pc + BitVec.ofNat 32 n } ∧
    t.flagZ = decide (v = 0) ∧ t.flagN = v.msb ∧ t.flagC = c ∧ t.flagO = o ∧
    t.flags.extractLsb' 4 11 = s.flags.extractLsb' 4 11

/-- `t` is `s` after a float instruction of n bytes with result `v` in f<i>; `anyNaN` where an operand or the result is a
NaN (42_arithmetic.md R194; with a NaN Z and N are unspecified and a free value is drawn, log 12). -/
def State.AfterFloat (s t : State) (n : Nat) (i : Fin 8) (v : Word) (anyNaN : Bool) : Prop :=
  t = { s with f := s.f.set i v, flags := t.flags, draws := t.draws, pc := s.pc + BitVec.ofNat 32 n } ∧
    t.flagC = false ∧ t.flagO = false ∧ t.flags.extractLsb' 4 11 = s.flags.extractLsb' 4 11 ∧
    (anyNaN = false → t.flagZ = decide (v = 0x00000000 ∨ v = 0x80000000) ∧
      t.flagN = (v.msb && decide (v ≠ 0x80000000)) ∧ t.draws = s.draws)

/-- The literal and the register form of `OP rd value` complete: for every value b of the second operand and the length n
of the form, exec answers a next state t with `P b n t`. `source` says which registers the form accepts besides `rd`. -/
def State.BothForms (s : State) (rd : Ref) (source : Ref → Prop) (vl : Lit → Instr) (rr : Ref → Instr)
    (P : BitVec rd.width → Nat → State → Prop) : Prop :=
  (∀ lit, Lit.fits rd lit = true →
    ∃ t, exec (vl lit) s = .next t ∧ P (literalValue rd.width lit) (2 + bytesOf rd) t) ∧
  (∀ rs, source rs → rs.width = rd.width →
    ∃ t, exec (rr rs) s = .next t ∧ P ((s.x rs).setWidth rd.width) 3 t)

/-- The literal-count and the byte-register-count form of `OP rd n` complete, with every count n (43_bitwise.md R225). -/
def State.BothCounts (s : State) (lb : Byte → Instr) (rb : Ref → Instr) (P : Nat → State → Prop) : Prop :=
  (∀ n : Byte, ∃ t, exec (lb n) s = .next t ∧ P n.toNat t) ∧
  (∀ i : Fin 8, ∃ t, exec (rb (.b i)) s = .next t ∧ P ((s.r.get i).toNat % 256) t)

end Sys2Proof.Machine
end

