-- ==== Sys2Proof/Certificates/Slice0/Obligations.lean ====
section
/-!
DEFINITION. The statements for the provers, from the numbered rules of spec/. Where a clause rests on a decision of the
spec (92_eei_decisions.md D<n>) or on a choice of the model (notes/assumptions), the docstring says so.
-/

open Sys2Proof Sys2Proof.Machine

/-! ## Encoding -/

/-- Decoding the bytes of a well-formed instruction gives it back, with what follows it (30_encoding.md R90, R94, R95, R97,
R105). -/
def Obligations.DecodeEncodeRoundTrip : Prop :=
  ∀ (i : Instr) (rest : List Byte), i.wf = true → decode (encode i ++ rest) = .ok (i, rest)

/-- What the decoder reads is a well-formed instruction and exactly its bytes: no bit of an encoding is dropped (R106). -/
def Obligations.DecodeReadsExactEncodings : Prop :=
  ∀ (bs rest : List Byte) (i : Instr), decode bs = .ok (i, rest) → i.wf = true ∧ bs = encode i ++ rest

/-- An encoding has the length R98 gives it, 1 to 13 bytes (2 are read where the length is undefined, log 22), and no proper
prefix of one is an instruction. -/
def Obligations.EncodedLength : Prop :=
  ∀ i : Instr, i.wf = true →
    (encode i).length = i.length.getD 2 ∧ 1 ≤ (encode i).length ∧ (encode i).length ≤ 13 ∧
      ∀ bs : List Byte, bs <+: encode i → bs ≠ encode i → decode bs = .error .truncated

/-- A word of each family, written out from 30_encoding.md R92, R94, R95, R105, decodes to its instruction; literals lie most
significant byte first by the spec's decision D2. -/
def Obligations.SampleEncodingsDecode : Prop :=
  decode [0x02, 0x00, 0x00, 0x03, 0xE8] = .ok (.timerLw 1000, []) ∧
  decode [0x06, 0x0B, 0x00, 0x00, 0x20, 0x00] = .ok (.loadLa (.h 3) 0x2000, []) ∧
  decode [0x08, 0x00, 0x00, 0x30, 0x00, 0x12] = .ok (.storeLa 0x3000 (.b 2), []) ∧
  decode [0x0A, 0x24, 0x00, 0x7F] = .ok (.copyVl .imr (.half 0x7F), []) ∧
  decode [0x15, 0x02, 0x00, 0x00, 0x50, 0x00, 0x01] = .ok (.blockcopyRwLaRa (.r 2) 0x5000 (.r 1), []) ∧
  decode [0x1A, 0x18, 0x19] = .ok (.addRr (.f 0) (.f 1), []) ∧
  decode [0x2C, 0x00, 0x00, 0x00, 0xFF, 0x00] = .ok (.andVl (.r 0) (.word 0xFF00), []) ∧
  decode [0x3D, 0x08, 0x17] = .ok (.lrotcarryRb (.h 0) (.b 7), []) ∧
  decode [0x48, 0x12, 0x34, 0x56, 0x78] = .ok (.jgreaterLa 0x12345678, []) ∧
  decode [0x5E] = .ok (.ret, []) ∧
  decode [0x60] = .ok (.unmapped60 0, []) ∧ decode [0xFF] = .ok (.unmapped80 0x7F, [])

/-! ## The step: check, entry, return -/

/-- With nothing to service and not paused, a step executes the instruction whose bytes lie at `pc`, in the state after the
asynchronous sources have acted, once and right before the check (60_exceptions.md R303, R304; 20_memory.md R71; that they
act there is log 7, that the bytes are read with the access kind fetch in user mode log 6, that all of them are read before any
check log 21). -/
def Obligations.StepRunsDecodedInstruction : Prop :=
  ∀ (s : State) (i : Instr) (pl : List Word), s.halted = false → s.paused = false → s.sample.choose = none →
    i.wf = true → s.sample.Reaches .fetch (addrs s.pc (encode i).length) pl → s.Readable pl →
    s.sample.bytesAt pl = encode i →
    step s = exec i s.sample

/-- After HALT no step of any kind; while paused with nothing to service the processor waits (R304, 40_privileged.md R130,
R131). -/
def Obligations.HaltedStopsPausedWaits : Prop :=
  (∀ s : State, s.halted = true → step s = .fault .halted) ∧
  (∀ s : State, s.halted = false → s.paused = true → s.sample.choose = none → step s = .next s.sample)

/-- The check chooses an interrupt that is latched and enabled, the highest-numbered one, and none only where there is none
(R302, R304; that the order descends from 7 is the spec's decision D27, log 20). -/
def Obligations.CheckChoosesHighest : Prop :=
  ∀ s : State,
    (∀ n : Irq, s.choose = some n ↔
      (s.imr.getLsbD n.number = true ∧ s.latch.get n = true ∧
        ∀ k : Irq, s.imr.getLsbD k.number = true → s.latch.get k = true → k.number ≤ n.number)) ∧
    (s.choose = none ↔ ∀ k : Irq, ¬(s.imr.getLsbD k.number = true ∧ s.latch.get k = true))

/-- The turn of the asynchronous sources before a check. Each one that acts sets its latch, the keyboard 1, Disk A 2, Disk B
3, the timer 7 while its period is not 0; no latch is cleared and no other set (60_exceptions.md R303, R320). A ram byte
holds what a device last stored there, every other byte keeps its value; nothing else changes. That there is one turn before
each check is log 7; that the devices' stores fall in it and reach ram alone is log 8 (00_scope.md R6, R322, 20_memory.md R74
leave them to DeviceOracle). -/
def Obligations.SourcesLatchAndDevicesStore : Prop :=
  ∀ s : State,
    s.sample = { s with latch := s.sample.latch, mem := s.sample.mem, arrivals := s.arrivals.later } ∧
    (s.sample.latch.get .keyboard = true ↔ s.latch.get .keyboard = true ∨ s.arrivals.now.keyboard = true) ∧
    (s.sample.latch.get .diskA = true ↔ s.latch.get .diskA = true ∨ s.arrivals.now.diskA = true) ∧
    (s.sample.latch.get .diskB = true ↔ s.latch.get .diskB = true ∨ s.arrivals.now.diskB = true) ∧
    (s.sample.latch.get .timer = true ↔
      s.latch.get .timer = true ∨ (s.timerPeriod ≠ 0 ∧ s.arrivals.now.timer = true)) ∧
    (∀ n : Irq, n ≠ .keyboard → n ≠ .diskA → n ≠ .diskB → n ≠ .timer → s.sample.latch.get n = s.latch.get n) ∧
    (s.Inv → ∀ p : Word,
      (s.kindOf p ≠ .ram → s.sample.mem.read p.toNat = s.mem.read p.toNat) ∧
      ((∀ w ∈ s.arrivals.now.writes, w.1 ≠ p) → s.sample.mem.read p.toNat = s.mem.read p.toNat) ∧
      (s.kindOf p = .ram → ∀ (before after : List (Word × Byte)) (b : Byte),
        s.arrivals.now.writes = before ++ (p, b) :: after → (∀ w ∈ after, w.1 ≠ p) →
        s.sample.mem.read p.toNat = b))

/-- Servicing an interrupt: kernel mode, the frame of FLAGS with the mode in bit 15, the next address and IMR on the kernel
stack, IMR cleared, the chosen latch cleared (R308, the spec's decision D28), and `pc` read from the vector (R306, R307). -/
def Obligations.InterruptEntryBuildsFrame : Prop :=
  ∀ (s : State) (n : Irq), s.Inv → s.halted = false → s.sample.choose = some n →
    s.AllRam (addrs (s.kspr - 8) 8) → s.Readable (addrs (BitVec.ofNat 32 (4 * n.number)) 4) →
    ∃ t : State, step s = .next t ∧ s.sample.AfterEntry t n

/-- IRETURN right after an entry undoes it: mode, FLAGS, IMR, `pc`, KSPR and every register are those of the interrupted
program; only the serviced latch, `paused` and the bytes of the frame differ (40_privileged.md R134, R306, R316). -/
def Obligations.EntryThenReturnRestores : Prop :=
  ∀ (s t : State) (n : Irq), s.Inv → s.halted = false → s.sample.choose = some n →
    s.AllRam (addrs (s.kspr - 8) 8) → step s = .next t →
    exec .ireturn t =
      .next { s.sample with latch := s.sample.latch.set n false, paused := false, mem := t.mem }

/-! ## Privileged instructions -/

/-- IRETURN in kernel mode pops IMR, the next address and FLAGS, and enters user mode where bit 15 of the popped FLAGS was 0
(40_privileged.md R134; that bit 15 = 1 stays in kernel mode is the spec's decision D40). -/
def Obligations.IreturnCompletes : Prop :=
  ∀ s : State, s.mode = .kernel → s.Readable (addrs s.kspr 8) →
    exec .ireturn s = .next { s with
      imr := s.valueAt 16 s.kspr, pc := s.valueAt 32 (s.kspr + 2),
      flags := (s.valueAt 16 (s.kspr + 6)).setWidth 15, kspr := s.kspr + 8,
      mode := if (s.valueAt 16 (s.kspr + 6)).msb then .kernel else .user }

/-- HALT, PAUSE, both forms of TIMER, and USERMODE complete in kernel mode; USERMODE pops its target, clears FLAGS, enters
user mode and jumps (40_privileged.md R130 to R133; the `pc` after HALT is the spec's decision D31). -/
def Obligations.KernelInstructionsComplete : Prop :=
  ∀ s : State, s.mode = .kernel →
    exec .halt s = .next { s with halted := true, pc := s.pc + 1 } ∧
    exec .pause s = .next { s with paused := true, pc := s.pc + 1 } ∧
    (∀ ms : Word, exec (.timerLw ms) s = .next { s with timerPeriod := ms, pc := s.pc + 5 }) ∧
    (∀ i : Fin 8, exec (.timerRw (.r i)) s = .next { s with timerPeriod := s.r.get i, pc := s.pc + 2 }) ∧
    (s.Readable (addrs s.kspr 4) → exec .usermode s = .next { s with
      pc := s.valueAt 32 s.kspr, kspr := s.kspr + 4, flags := 0, mode := .user })

/-- In user mode each privileged opcode does nothing but raise IllegalOperation, whatever its operand (40_privileged.md R135);
an unmapped opcode does the same in both modes, whatever its low bits (30_encoding.md R102). `pc` by the spec's decision D15,
parameter FAULT_PC at its default, log 20. -/
def Obligations.PrivilegedAndUnmappedOpcodesTrap : Prop :=
  (∀ s : State, s.mode = .user →
    exec .halt s = .next (s.trapped .illegalOperation 1) ∧
    exec .pause s = .next (s.trapped .illegalOperation 1) ∧
    (∀ ms : Word, exec (.timerLw ms) s = .next (s.trapped .illegalOperation 5)) ∧
    (∀ rr : Ref, exec (.timerRw rr) s = .next (s.trapped .illegalOperation 2)) ∧
    exec .usermode s = .next (s.trapped .illegalOperation 1) ∧
    exec .ireturn s = .next (s.trapped .illegalOperation 1)) ∧
  ∀ s : State,
    (∀ low : BitVec 5, exec (.unmapped60 low) s = .next (s.trapped .illegalOperation 1)) ∧
    (∀ low : BitVec 7, exec (.unmapped80 low) s = .next (s.trapped .illegalOperation 1))

/-! ## Illegal operations -/

/-- A register reference outside the set its operand accepts raises IllegalOperation and has no other effect, in every
instruction and both modes; `pc` is the successor where the length is defined (30_encoding.md R103 and 60_exceptions.md R309,
the spec's decisions D7 and D15, parameter FAULT_PC at its default, log 20; the narrow sets of R96 are its decision D6; where
the length is undefined `pc` is free, log 9). -/
def Obligations.IllegalReferencesTrap : Prop :=
  ∀ (i : Instr) (s : State) (c : RefClass) (ref : Ref), (c, ref) ∈ refsOf i → OutsideClass c ref →
    ∃ t : State, exec i s = .next t ∧
      t = { s with latch := s.latch.set .illegalOperation true, pc := t.pc, draws := t.draws } ∧
      ∀ n : Nat, i.length = some n → t.pc = s.pc + BitVec.ofNat 32 n ∧ t.draws = s.draws

/-- In user mode a reference to KSPR, PDPR or IMR in any operand raises IllegalOperation and has no other effect (10_state.md
R36, 30_encoding.md R101; the consequence is the spec's decision D8; `pc` by its decision D15, parameter FAULT_PC at its
default, log 20). -/
def Obligations.PrivilegedRegistersTrap : Prop :=
  ∀ (i : Instr) (s : State) (c : RefClass) (ref : Ref), s.mode = .user → (c, ref) ∈ refsOf i →
    ref = .kspr ∨ ref = .pdpr ∨ ref = .imr →
    ∃ n : Nat, i.length = some n ∧ exec i s = .next (s.trapped .illegalOperation n)

/-- Two references of unspecified length whose widths differ, and for arithmetic and COMPARE whose kinds differ, raise
IllegalOperation and have no other effect (30_encoding.md R99, R100; for the kinds the spec's decision D9; `pc` by its
decision D15, parameter FAULT_PC at its default, log 20). -/
def Obligations.MismatchedOperandsTrap : Prop :=
  ∀ (i : Instr) (s : State) (a b : Ref),
    (pairOf i = some (a, b) → a.width ≠ b.width → exec i s = .next (s.trapped .illegalOperation 3)) ∧
    (kindPairOf i = some (a, b) → (IsFloat a ↔ ¬IsFloat b) → exec i s = .next (s.trapped .illegalOperation 3))

/-- Interrupt 0 is raised by SYSCALL and nothing else (60_exceptions.md R313): SYSCALL sets latch 0; an instruction that finds
it clear leaves it set exactly if it is SYSCALL; and a step that finds it clear and leaves it set serviced no interrupt, did
not wait, and fetched and executed a SYSCALL, in the state after the asynchronous sources have acted (once and right before
the check: log 7). -/
def Obligations.SyscallRaisedOnlyBySyscall : Prop :=
  (∀ s : State, ∃ t : State, exec .syscall s = .next t ∧ t.latch.get .syscall = true) ∧
  (∀ (i : Instr) (s t : State), exec i s = .next t → s.latch.get .syscall = false →
    (t.latch.get .syscall = true ↔ i = .syscall)) ∧
  ∀ s t : State, step s = .next t → s.latch.get .syscall = false → t.latch.get .syscall = true →
    s.sample.choose = none ∧ s.paused = false ∧ s.sample.fetch = .ok .syscall ∧ exec .syscall s.sample = .next t

/-- SYSCALL, the byte 5F: latch 0 is set and `pc` moves past it; nothing else changes, in both modes (44_flow_control.md
R277). Whenever latch 0 is set, IMR[0] = 1 and no other interrupt is pending, the step services interrupt 0 and pushes `pc`,
right after the SYSCALL the address after it: the entry of 60_exceptions.md R306, R307, with the latch cleared (R308, the
spec's decision D28). With IMR[0] = 0 the latch stays set and the next instruction runs (R314, its decision D29). Both
speak of the state after the asynchronous sources have acted, once and right before the check (log 7). -/
def Obligations.SyscallLatchesInterruptZero : Prop :=
  encode .syscall = [0x5F] ∧
  (∀ s : State, exec .syscall s =
    .next { s with latch := { s.latch with syscall := true }, pc := s.pc + 1 }) ∧
  ∀ s : State, s.latch.syscall = true → s.halted = false →
    (∀ k : Irq, k ≠ .syscall → ¬(s.imr.getLsbD k.number = true ∧ s.sample.latch.get k = true)) →
    (s.imr.getLsbD 0 = true → s.Inv → s.AllRam (addrs (s.kspr - 8) 8) → s.Readable (addrs 0 4) →
      ∃ t : State, step s = .next t ∧ s.sample.AfterEntry t .syscall) ∧
    (s.imr.getLsbD 0 = false → (s.paused = false → step s = runInstruction s.sample) ∧
      ∀ t : State, step s = .next t → t.latch.syscall = true)

/-- SDIV, SREM, UDIV and UREM of integers by zero raise DivideByZero and change nothing else (42_arithmetic.md R195, the
spec's decisions D14, D18 and D15, parameter FAULT_PC at its default, log 20; with FLAGS the destination log 25). -/
def Obligations.DivisionByZeroTraps : Prop :=
  ∀ (s : State) (rd rs : Ref) (lit : Lit), s.Allows rd → ¬IsFloat rd →
    (Lit.fits rd lit = true → literalValue rd.width lit = 0 →
      exec (.sdivVl rd lit) s = .next (s.trapped .divideByZero (2 + bytesOf rd)) ∧
      exec (.sremVl rd lit) s = .next (s.trapped .divideByZero (2 + bytesOf rd)) ∧
      (IsGeneral rd →
        exec (.udivVl rd lit) s = .next (s.trapped .divideByZero (2 + bytesOf rd)) ∧
        exec (.uremVl rd lit) s = .next (s.trapped .divideByZero (2 + bytesOf rd)))) ∧
    (s.Allows rs → ¬IsFloat rs → rs.width = rd.width → s.x rs = 0 →
      exec (.sdivRr rd rs) s = .next (s.trapped .divideByZero 3) ∧
      exec (.sremRr rd rs) s = .next (s.trapped .divideByZero 3) ∧
      (IsGeneral rd → IsGeneral rs →
        exec (.udivRr rd rs) s = .next (s.trapped .divideByZero 3) ∧
        exec (.uremRr rd rs) s = .next (s.trapped .divideByZero 3)))

/-- STORE, PUSH, SWAP and CALL into a read-only byte raise IllegalOperation; no register and no byte of memory changes, also
where the first push of CALL reached ram and the second is refused (20_memory.md R63, R65, 44_flow_control.md R275, the
spec's decision D45; `pc` by its decision D15, parameter FAULT_PC at its default, log 20). -/
def Obligations.ReadOnlyStoresTrap : Prop :=
  ∀ (s : State) (rr : Ref) (i : Fin 8) (a : Word),
    (s.Allows rr → s.WriteRefused (addrs a (bytesOf rr)) →
      exec (.storeLa a rr) s = .next (s.trapped .illegalOperation 6) ∧
      (s.r.get i = a → exec (.storeRa (.r i) rr) s = .next (s.trapped .illegalOperation 3)) ∧
      ∀ pl : List Word, s.Reaches .read (addrs a (bytesOf rr)) pl → s.Readable pl →
        exec (.swapLa rr a) s = .next (s.trapped .illegalOperation 6) ∧
        (s.r.get i = a → exec (.swapRa rr (.r i)) s = .next (s.trapped .illegalOperation 3))) ∧
    (s.Allows rr → s.WriteRefused (addrs (s.sp - BitVec.ofNat 32 (bytesOf rr)) (bytesOf rr)) →
      exec (.push rr) s = .next (s.trapped .illegalOperation 2)) ∧
    (s.WriteRefused (addrs (s.sp - 4) 4) →
      exec (.callLa a) s = .next (s.trapped .illegalOperation 5) ∧
      exec (.callRa (.r i)) s = .next (s.trapped .illegalOperation 2)) ∧
    (s.Steady → s.WriteRefused (addrs (s.sp - 6) 2) →
      ∀ pl : List Word, s.Reaches .write (addrs (s.sp - 4) 4) pl → s.AllRam pl →
        exec (.callLa a) s = .next (s.trapped .illegalOperation 5) ∧
        exec (.callRa (.r i)) s = .next (s.trapped .illegalOperation 2))

/-- A user-mode access whose translation faults raises PageFault and changes nothing else but `pc`, which is free
(60_exceptions.md R309, R312, log 9): a fetch, at any byte of the instruction, LOAD, STORE, SWAP at its read or at its write
alone, PUSH, POP, either push of CALL, either pop of RETURN. That a fetch asks the translation with the kind fetch is the
model's reading (log 6), and so is that all bytes of an instruction are fetched before any of its checks, so that a privileged
or illegal instruction whose fetch faults raises PageFault too and no IllegalOperation (log 21; R104 orders only what depends
on those bytes). BLOCKCOPY, which may have written bytes, is in BlockcopyPartwayFault. -/
def Obligations.UserAccessesPageFault : Prop :=
  ∀ s : State,
    (s.halted = false → s.paused = false → s.sample.choose = none →
      (s.sample.Faults .fetch [s.pc] → s.sample.PageFaulted (step s)) ∧
      ∀ (i : Instr) (k : Nat) (pl : List Word), i.wf = true → k < (encode i).length →
        s.sample.Reaches .fetch (addrs s.pc k) pl → s.Readable pl → s.sample.bytesAt pl = (encode i).take k →
        s.sample.Faults .fetch [s.pc + BitVec.ofNat 32 k] → s.sample.PageFaulted (step s)) ∧
    (∀ (rr : Ref) (i : Fin 8) (a : Word), s.Allows rr →
      (s.Faults .read (addrs a (bytesOf rr)) →
        s.PageFaulted (exec (.loadLa rr a) s) ∧ s.PageFaulted (exec (.swapLa rr a) s) ∧
        (s.r.get i = a → s.PageFaulted (exec (.loadRa rr (.r i)) s) ∧ s.PageFaulted (exec (.swapRa rr (.r i)) s))) ∧
      (s.Faults .write (addrs a (bytesOf rr)) →
        s.PageFaulted (exec (.storeLa a rr) s) ∧
        (s.r.get i = a → s.PageFaulted (exec (.storeRa (.r i) rr) s)) ∧
        ∀ pl : List Word, s.Reaches .read (addrs a (bytesOf rr)) pl → s.Readable pl →
          s.PageFaulted (exec (.swapLa rr a) s) ∧
          (s.r.get i = a → s.PageFaulted (exec (.swapRa rr (.r i)) s))) ∧
      (s.Faults .write (addrs (s.uspr - BitVec.ofNat 32 (bytesOf rr)) (bytesOf rr)) →
        s.PageFaulted (exec (.push rr) s)) ∧
      (s.Faults .read (addrs s.uspr (bytesOf rr)) → s.PageFaulted (exec (.pop rr) s))) ∧
    (∀ (i : Fin 8) (a : Word),
      (s.Faults .write (addrs (s.uspr - 4) 4) →
        s.PageFaulted (exec (.callLa a) s) ∧ s.PageFaulted (exec (.callRa (.r i)) s)) ∧
      (s.Steady → s.Faults .write (addrs (s.uspr - 6) 2) →
        ∀ pl : List Word, s.Reaches .write (addrs (s.uspr - 4) 4) pl → s.AllRam pl →
          s.PageFaulted (exec (.callLa a) s) ∧ s.PageFaulted (exec (.callRa (.r i)) s))) ∧
    (s.Faults .read (addrs s.uspr 2) → s.PageFaulted (exec .ret s)) ∧
    (s.Faults .read (addrs (s.uspr + 2) 4) →
      ∀ pl : List Word, s.Reaches .read (addrs s.uspr 2) pl → s.Readable pl → s.PageFaulted (exec .ret s))

/-! ## Registers -/

/-- A register write is read back, of FLAGS bits 14:0 with bit 15 reading 0. A write to r<i>h or r<i>b leaves the other bits of
r<i>, every other register and all other state (10_state.md R24 to R27; for the other bits of r<i> the spec's decision D10; that
r<i>h and r<i>b are the low bits of r<i> is in HalfAndByteRegistersAreViews). The active stack pointer is KSPR in kernel mode and USPR in user
mode, read and written (10_state.md R33, the spec's decision D24). -/
def Obligations.RegisterAndStackPointerWrites : Prop :=
  ∀ (s : State) (i : Fin 8),
    (∀ (ref : Ref) (v : BitVec ref.width), ref.named = true → ref ≠ .flags → (s.setX ref v).x ref = v) ∧
    (∀ v : BitVec 16, (s.setX .flags v).x .flags = v &&& 0x7FFF#16) ∧ (s.x .flags).msb = false ∧
    (∀ v : BitVec 16, (s.setX (.h i) v).x (.r i) = ((s.x (.r i) >>> 16) <<< 16 ||| v.setWidth 32 : BitVec 32)) ∧
    (∀ v : BitVec 8, (s.setX (.b i) v).x (.r i) = ((s.x (.r i) >>> 8) <<< 8 ||| v.setWidth 32 : BitVec 32)) ∧
    (∀ (ref : Ref) (v : BitVec ref.width), IsGeneral ref →
      s.setX ref v = { s with r := (s.setX ref v).r } ∧
      (ref ≠ .r i → ref ≠ .h i → ref ≠ .b i → (s.setX ref v).r.get i = s.r.get i)) ∧
    (∀ (j : Fin 8) (v : Word), s.setX (.f j) v = { s with f := (s.setX (.f j) v).f } ∧
      (j ≠ i → (s.setX (.f j) v).f.get i = s.f.get i)) ∧
    (∀ v : BitVec 16, s.setX .flags v = { s with flags := v.setWidth 15 } ∧ s.setX .imr v = { s with imr := v }) ∧
    (∀ v : Word, s.setX .uspr v = { s with uspr := v } ∧ s.setX .kspr v = { s with kspr := v } ∧
      s.setX .pdpr v = { s with pdpr := v }) ∧
    (s.mode = .kernel → s.sp = s.kspr ∧ ∀ v : Word, s.setSp v = { s with kspr := v }) ∧
    (s.mode = .user → s.sp = s.uspr ∧ ∀ v : Word, s.setSp v = { s with uspr := v })

/-- The half registers r<i>h, references 08 to 0F, and the byte registers r<i>b, references 10 to 17, are no storage of their
own: r<i>h is bits 15:0 of r<i> and r<i>b bits 7:0, whichever of the three is written, and no reference names other bits of
r<i> (10_state.md R21, R22). -/
def Obligations.HalfAndByteRegistersAreViews : Prop :=
  ∀ i : Fin 8, Ref.ofByte (BitVec.ofNat 8 (0x08 + i)) = .h i ∧ Ref.ofByte (BitVec.ofNat 8 (0x10 + i)) = .b i ∧
    ∀ s : State,
      s.x (.h i) = (s.r.get i).extractLsb' 0 16 ∧ s.x (.b i) = (s.r.get i).extractLsb' 0 8 ∧
      (∀ v : Word, (s.setX (.r i) v).x (.h i) = v.extractLsb' 0 16 ∧ (s.setX (.r i) v).x (.b i) = v.extractLsb' 0 8) ∧
      (∀ v : BitVec 16, ((s.setX (.h i) v).r.get i).extractLsb' 0 16 = v ∧
        s.setX (.h i) v = { s with r := s.r.set i ((s.setX (.h i) v).r.get i) }) ∧
      (∀ v : BitVec 8, ((s.setX (.b i) v).r.get i).extractLsb' 0 8 = v ∧
        s.setX (.b i) v = { s with r := s.r.set i ((s.setX (.b i) v).r.get i) }) ∧
      ∀ (v : Word) (ref : Ref), (s.setX (.r i) v).x ref ≠ s.x ref → ref = .r i ∨ ref = .h i ∨ ref = .b i

/-! ## Memory and data movement -/

/-- A value of 1, 2 or 4 bytes written in kernel mode lies most significant byte first, modulo 2^32, every other byte keeps
its value, and narrower reads see those bytes (20_memory.md R62, R63, R78, R79). -/
def Obligations.WritesAreBigEndian : Prop :=
  ∀ (s : State) (w : Nat) (v : BitVec w) (a : Word), w = 8 ∨ w = 16 ∨ w = 32 → s.Inv → s.mode = .kernel →
    s.AllRam (addrs a (w / 8)) →
    ∃ t : State, s.memWrite a v = .ok t ∧ t = { s with mem := t.mem } ∧ s.SameMemoryOutside t (addrs a (w / 8)) ∧
      (∀ k : Nat, k < w / 8 → t.mem.read (a + BitVec.ofNat 32 k).toNat = v.extractLsb' (8 * (w / 8 - 1 - k)) 8) ∧
      (∀ k u : Nat, u = 8 ∨ u = 16 ∨ u = 32 → k + u / 8 ≤ w / 8 →
        t.memRead u (a + BitVec.ofNat 32 k) = .ok (v.extractLsb' (w - 8 * k - u) u))

/-- LOAD completes for every register and both address forms (41_data_movement.md R150, R151, R159; the rest of a half or
byte register and the order of reads and writes: D10, D41, log 24). -/
def Obligations.LoadCompletes : Prop :=
  ∀ (s : State) (rr : Ref) (a : Word) (pl : List Word), s.Allows rr → s.Reaches .read (addrs a (bytesOf rr)) pl →
    s.Readable pl →
    exec (.loadLa rr a) s = .next { s.setX rr (ofBytes rr.width (s.bytesAt pl)) with pc := s.pc + 6 } ∧
    ∀ i : Fin 8, s.r.get i = a →
      exec (.loadRa rr (.r i)) s = .next { s.setX rr (ofBytes rr.width (s.bytesAt pl)) with pc := s.pc + 3 }

/-- STORE completes for every register and both address forms: the bytes of the register, nothing else but `pc`
(41_data_movement.md R150, R152). -/
def Obligations.StoreCompletes : Prop :=
  ∀ (s : State) (rr : Ref) (a : Word) (pl : List Word), s.Inv → s.Allows rr →
    s.Reaches .write (addrs a (bytesOf rr)) pl → s.AllRam pl →
    (∃ t : State, exec (.storeLa a rr) s = .next t ∧ t = { s with mem := t.mem, pc := s.pc + 6 } ∧
      s.Stores t pl (toBytes (s.x rr))) ∧
    ∀ i : Fin 8, s.r.get i = a →
      ∃ t : State, exec (.storeRa (.r i) rr) s = .next t ∧ t = { s with mem := t.mem, pc := s.pc + 3 } ∧
        s.Stores t pl (toBytes (s.x rr))

/-- COPY completes: of a literal, between registers of one width and one kind, and between a float register and a 32-bit
integer register, where it converts (41_data_movement.md R153, R154; the conversions are those of `floatOps`, log 13, 14; the
rest of a half or byte register and the order of reads and writes: D10, log 24). -/
def Obligations.CopyCompletes : Prop :=
  ∀ (s : State) (rd : Ref), s.Allows rd →
    (∀ lit : Lit, Lit.fits rd lit = true →
      exec (.copyVl rd lit) s =
        .next { s.setX rd (literalValue rd.width lit) with pc := s.pc + BitVec.ofNat 32 (2 + bytesOf rd) }) ∧
    (∀ rs : Ref, s.Allows rs → rs.width = rd.width → (IsFloat rd ↔ IsFloat rs) →
      exec (.copyRr rd rs) s = .next { s.setX rd ((s.x rs).setWidth rd.width) with pc := s.pc + 3 }) ∧
    (¬IsFloat rd → rd.width = 32 → ∀ i : Fin 8,
      exec (.copyRr (.f i) rd) s =
        .next { s with f := s.f.set i (fromInt32 ((s.x rd).setWidth 32)), pc := s.pc + 3 } ∧
      exec (.copyRr rd (.f i)) s =
        .next { s.setX rd ((toInt32 (s.f.get i)).setWidth rd.width) with pc := s.pc + 3 })

/-- Every integer converts to the binary32 value nearest to it, ties to even, those of magnitude up to 2^24 exactly (in units
of 2^-149) and back; a float whose truncated value is in range converts to it (41_data_movement.md R154, the spec's decision
D22, log 14). -/
def Obligations.ConversionsAreExact : Prop :=
  (∀ a : Word, RoundsTo (decide (a.toInt < 0)) (a.toInt.natAbs * 2 ^ 149) 1 (fromInt32 a)) ∧
  (∀ a : Word, a.toInt.natAbs ≤ 2 ^ 24 →
    IsFinite (fromInt32 a) ∧ exactValue (fromInt32 a) = a.toInt * 2 ^ 149 ∧ toInt32 (fromInt32 a) = a) ∧
  (∀ x : Word, IsFinite x →
    -(2 ^ 31) ≤ (exactValue x).tdiv (2 ^ 149) → (exactValue x).tdiv (2 ^ 149) ≤ 2 ^ 31 - 1 →
    (toInt32 x).toInt = (exactValue x).tdiv (2 ^ 149))

/-- SWAP completes for every register and both address forms: the old memory value in the register, the old register value in
memory (41_data_movement.md R155; the rest of a half or byte register and the order of reads and writes: D10, D41, log 24).
-/
def Obligations.SwapCompletes : Prop :=
  ∀ (s : State) (rr : Ref) (a : Word) (pl pw : List Word), s.Inv → s.Allows rr →
    s.Reaches .read (addrs a (bytesOf rr)) pl → s.Readable pl →
    s.Reaches .write (addrs a (bytesOf rr)) pw → s.AllRam pw →
    (∃ t : State, exec (.swapLa rr a) s = .next t ∧
      t = { s.setX rr (ofBytes rr.width (s.bytesAt pl)) with mem := t.mem, pc := s.pc + 6 } ∧
      s.Stores t pw (toBytes (s.x rr))) ∧
    ∀ i : Fin 8, s.r.get i = a →
      ∃ t : State, exec (.swapRa rr (.r i)) s = .next t ∧
        t = { s.setX rr (ofBytes rr.width (s.bytesAt pl)) with mem := t.mem, pc := s.pc + 3 } ∧
        s.Stores t pw (toBytes (s.x rr))

/-- PUSH completes: the stack pointer falls by the width, and the register, read after that, is stored there
(41_data_movement.md R156; the reading of a pushed stack pointer is the spec's decision D23). -/
def Obligations.PushCompletes : Prop :=
  ∀ (s : State) (rr : Ref) (pl : List Word), s.Inv → s.Allows rr →
    s.Reaches .write (addrs (s.sp - BitVec.ofNat 32 (bytesOf rr)) (bytesOf rr)) pl → s.AllRam pl →
    ∃ t : State, exec (.push rr) s = .next t ∧
      t = { s.setSp (s.sp - BitVec.ofNat 32 (bytesOf rr)) with mem := t.mem, pc := s.pc + 2 } ∧
      s.Stores t pl (toBytes ((s.setSp (s.sp - BitVec.ofNat 32 (bytesOf rr))).x rr))

/-- POP completes: the register is written, then the stack pointer, read again, rises by the width (41_data_movement.md R157;
for a popped stack pointer the spec's decision D23; the rest of a half or byte register and the order of reads and writes:
D10, log 24). -/
def Obligations.PopCompletes : Prop :=
  ∀ (s t : State) (rr : Ref) (pl : List Word), s.Allows rr → s.Reaches .read (addrs s.sp (bytesOf rr)) pl →
    s.Readable pl → t = s.setX rr (ofBytes rr.width (s.bytesAt pl)) →
    exec (.pop rr) s = .next { t.setSp (t.sp + BitVec.ofNat 32 (bytesOf rr)) with pc := s.pc + 2 }

/-- A PUSH and a POP of the same width, in either mode and of any register but the active stack pointer, move the value and
leave the stack pointer as it was (20_memory.md R66; 41_data_movement.md R156, R157). In user mode the stack is read where it
was written, and its bytes are distinct. -/
def Obligations.PushThenPopMovesValue : Prop :=
  ∀ (s : State) (a b : Ref) (pl : List Word), s.Inv → s.Steady → s.Allows a → s.Allows b → a ≠ s.activeStack →
    b ≠ s.activeStack → a.width = b.width → s.Reaches .write (addrs (s.sp - BitVec.ofNat 32 (bytesOf a)) (bytesOf a)) pl →
    s.Reaches .read (addrs (s.sp - BitVec.ofNat 32 (bytesOf a)) (bytesOf a)) pl → pl.Nodup → s.AllRam pl →
    ∃ t : State, exec (.push a) s = .next t ∧
      exec (.pop b) t = .next { s.setX b ((s.x a).setWidth b.width) with mem := t.mem, pc := s.pc + 4 }

/-- BLOCKCOPY between ranges that share no byte copies every byte and changes nothing else, in all eight forms; the operand
registers keep their values (41_data_movement.md R158). -/
def Obligations.BlockcopyDisjoint : Prop :=
  ∀ (s : State) (i : Instr) (n : Nat) (len d src : Word) (ps pd : List Word), s.Inv → s.Steady →
    s.blockcopyOf i = some (len, d, src) → i.length = some n →
    s.Reaches .read (addrs src len.toNat) ps → s.Readable ps →
    s.Reaches .write (addrs d len.toNat) pd → s.AllRam pd →
    (∀ v ∈ addrs d len.toNat, v ∉ addrs src len.toNat) → (∀ p ∈ pd, p ∉ ps) → pd.Nodup →
    ∃ t : State, exec i s = .next t ∧ t = { s with mem := t.mem, pc := s.pc + BitVec.ofNat 32 n } ∧
      t.bytesAt pd = s.bytesAt ps ∧ s.SameMemoryOutside t pd

/-- BLOCKCOPY onto itself leaves memory unchanged; onto a range that overlaps with another start it completes, and only bytes
of the destination range may change, to values the spec leaves unspecified (41_data_movement.md R158, the spec's decision
D25; log 15). -/
def Obligations.BlockcopyOverlapping : Prop :=
  ∀ (s : State) (i : Instr) (n : Nat) (len d src : Word) (ps pd : List Word), s.Inv → s.Steady →
    s.blockcopyOf i = some (len, d, src) → i.length = some n →
    s.Reaches .read (addrs src len.toNat) ps → s.Readable ps →
    s.Reaches .write (addrs d len.toNat) pd → s.AllRam pd →
    (d = src → ps = pd → ∃ t : State, exec i s = .next t ∧
      t = { s with mem := t.mem, pc := s.pc + BitVec.ofNat 32 n } ∧ ∀ a : Nat, t.mem.read a = s.mem.read a) ∧
    (d ≠ src → (∃ v ∈ addrs d len.toNat, v ∈ addrs src len.toNat) → ∃ t : State, exec i s = .next t ∧
      t = { s with mem := t.mem, pc := s.pc + BitVec.ofNat 32 n, draws := s.draws + 1 } ∧
      s.SameMemoryOutside t pd)

/-- A BLOCKCOPY that meets, at a byte k whose forerunners can be copied, a source byte whose translation faults or a
destination byte whose translation faults raises PageFault, `pc` free (log 9); one that meets a read-only destination byte,
in either mode, raises IllegalOperation, `pc` by parameter FAULT_PC at its default (D15, log 20). No register changes, and of
memory only ram bytes the destination range reaches may, also where k = 0 and where d = s (41_data_movement.md R158, the
spec's decision D25; log 16). -/
def Obligations.BlockcopyPartwayFault : Prop :=
  ∀ (s : State) (i : Instr) (n : Nat) (len d src : Word), s.Inv → s.blockcopyOf i = some (len, d, src) →
    i.length = some n →
    (s.Steady → ∀ (k : Nat) (ps pd : List Word), k < len.toNat →
      s.Reaches .read (addrs src k) ps → s.Readable ps → s.Reaches .write (addrs d k) pd → s.AllRam pd →
      (s.Faults .read [src + BitVec.ofNat 32 k] →
        ∃ t : State, exec i s = .next t ∧ s.OnlyWritable t (addrs d len.toNat) ∧
          t = { s with latch := s.latch.set .pageFault true, mem := t.mem, pc := t.pc, draws := s.draws + 2 }) ∧
      ∀ p : Word, s.Reaches .read [src + BitVec.ofNat 32 k] [p] → s.Readable [p] →
        (s.Faults .write [d + BitVec.ofNat 32 k] →
          ∃ t : State, exec i s = .next t ∧ s.OnlyWritable t (addrs d len.toNat) ∧
            t = { s with latch := s.latch.set .pageFault true, mem := t.mem, pc := t.pc, draws := s.draws + 2 }) ∧
        (s.WriteRefused [d + BitVec.ofNat 32 k] →
          ∃ t : State, exec i s = .next t ∧ s.OnlyWritable t (addrs d len.toNat) ∧
            t = { s.trapped .illegalOperation n with mem := t.mem, draws := s.draws + 1 })) ∧
    (s.mode = .kernel → s.Readable (addrs src len.toNat) → s.Readable (addrs d len.toNat) →
      (∃ p ∈ addrs d len.toNat, s.kindOf p = .readOnly) →
      ∃ t : State, exec i s = .next t ∧
        t = { s.trapped .illegalOperation n with mem := t.mem, draws := s.draws + 1 } ∧
        s.SameMemoryOutside t ((addrs d len.toNat).filter fun p => decide (s.kindOf p = .ram)))

/-! ## Integer arithmetic -/

/-- ADD, SUB, ADDCARRY and SUBBORROW of integers: result modulo 2^W, carry or borrow out of the top bit, signed overflow, Z
and N of the result; ADDCARRY and SUBBORROW with the C flag before the instruction (42_arithmetic.md R180, R182, R183, R185
to R188). The operands are read before the result is written (the spec's decision D41, log 24), and a half or byte result
leaves the other bits of its register (its decision D10). -/
def Obligations.AdditionAndSubtraction : Prop :=
  ∀ (s : State) (rd : Ref),
    (s.Allows rd → ¬IsFloat rd → rd ≠ .flags →
      (s.BothForms rd (fun rs => s.Allows rs ∧ ¬IsFloat rs) (.addVl rd) (.addRr rd) fun b n t =>
        s.AfterAlu t n rd (s.x rd + b) (BitVec.uaddOverflow (s.x rd) b) (BitVec.saddOverflow (s.x rd) b)) ∧
      (s.BothForms rd (fun rs => s.Allows rs ∧ ¬IsFloat rs) (.subVl rd) (.subRr rd) fun b n t =>
        s.AfterAlu t n rd (s.x rd - b) (BitVec.usubOverflow (s.x rd) b) (BitVec.ssubOverflow (s.x rd) b))) ∧
    (IsGeneral rd →
      (s.BothForms rd IsGeneral (.addcarryVl rd) (.addcarryRr rd) fun b n t =>
        s.AfterAlu t n rd (s.x rd + b + (BitVec.ofBool s.flagC).setWidth rd.width)
          (decide (2 ^ rd.width ≤ (s.x rd).toNat + b.toNat + s.flagC.toNat))
          (decide (¬(-(2 ^ (rd.width - 1)) ≤ (s.x rd).toInt + b.toInt + s.flagC.toNat ∧
            (s.x rd).toInt + b.toInt + s.flagC.toNat ≤ 2 ^ (rd.width - 1) - 1)))) ∧
      (s.BothForms rd IsGeneral (.subborrowVl rd) (.subborrowRr rd) fun b n t =>
        s.AfterAlu t n rd (s.x rd - b - (BitVec.ofBool s.flagC).setWidth rd.width)
          (decide ((s.x rd).toNat < b.toNat + s.flagC.toNat))
          (decide (¬(-(2 ^ (rd.width - 1)) ≤ (s.x rd).toInt - b.toInt - s.flagC.toNat ∧
            (s.x rd).toInt - b.toInt - s.flagC.toNat ≤ 2 ^ (rd.width - 1) - 1)))))

/-- ADD of the low halves and ADDCARRY of the high halves add 64-bit numbers, C the carry out (42_arithmetic.md R185, R186;
operands read first: D41, log 24). -/
def Obligations.WideAddition : Prop :=
  ∀ (s t u : State) (lo hi lo' hi' : Fin 8), lo ≠ hi → lo ≠ hi' →
    exec (.addRr (.r lo) (.r lo')) s = .next t → exec (.addcarryRr (.r hi) (.r hi')) t = .next u →
    (u.r.get hi ++ u.r.get lo : BitVec 64) =
      (s.r.get hi ++ s.r.get lo : BitVec 64) + (t.r.get hi' ++ s.r.get lo' : BitVec 64) ∧
    u.flagC = BitVec.uaddOverflow (s.r.get hi ++ s.r.get lo : BitVec 64) (t.r.get hi' ++ s.r.get lo' : BitVec 64)

/-- MULT of integers: the low bits of the product (42_arithmetic.md R189; that C and O say whether the unsigned and the
signed product fit is the spec's decision D17; the rest of a half or byte register and the order of reads and writes: D10,
D41, log 24). -/
def Obligations.MultInteger : Prop :=
  ∀ (s : State) (rd : Ref), s.Allows rd → ¬IsFloat rd → rd ≠ .flags →
    s.BothForms rd (fun rs => s.Allows rs ∧ ¬IsFloat rs) (.multVl rd) (.multRr rd) fun b n t =>
      s.AfterAlu t n rd (s.x rd * b) (BitVec.umulOverflow (s.x rd) b) (BitVec.smulOverflow (s.x rd) b)

/-- SDIV and SREM of integers by a divisor that is not 0: truncating quotient and its remainder (42_arithmetic.md R190, R192;
the flags and the overflow case are the spec's decision D18; the rest of a half or byte register and the order of reads and
writes: D10, D41, log 24). -/
def Obligations.SignedDivision : Prop :=
  ∀ (s : State) (rd : Ref), s.Allows rd → ¬IsFloat rd → rd ≠ .flags →
    (s.BothForms rd (fun rs => s.Allows rs ∧ ¬IsFloat rs ∧ s.x rs ≠ 0) (.sdivVl rd) (.sdivRr rd) fun b n t =>
      b ≠ 0 → s.AfterAlu t n rd ((s.x rd).sdiv b) false (decide (s.x rd = BitVec.intMin rd.width ∧ b = -1))) ∧
    (s.BothForms rd (fun rs => s.Allows rs ∧ ¬IsFloat rs ∧ s.x rs ≠ 0) (.sremVl rd) (.sremRr rd) fun b n t =>
      b ≠ 0 → s.AfterAlu t n rd ((s.x rd).srem b) false false)

/-- UDIV and UREM by a divisor that is not 0 (42_arithmetic.md R191, R193; the rest of a half or byte register and the order
of reads and writes: D10, D41, log 24). -/
def Obligations.UnsignedDivision : Prop :=
  ∀ (s : State) (rd : Ref), IsGeneral rd →
    (s.BothForms rd (fun rs => IsGeneral rs ∧ s.x rs ≠ 0) (.udivVl rd) (.udivRr rd) fun b n t =>
      b ≠ 0 → s.AfterAlu t n rd (s.x rd / b) false false) ∧
    (s.BothForms rd (fun rs => IsGeneral rs ∧ s.x rs ≠ 0) (.uremVl rd) (.uremRr rd) fun b n t =>
      b ≠ 0 → s.AfterAlu t n rd (s.x rd % b) false false)

/-- NEGATE of an integer: 0 - a, C where a is not 0, O for the most negative value (42_arithmetic.md R184, its flags the
spec's decision D16; the rest of a half or byte register and the order of reads and writes: D10, log 24). -/
def Obligations.NegateInteger : Prop :=
  ∀ (s : State) (rd : Ref), s.Allows rd → ¬IsFloat rd → rd ≠ .flags →
    ∃ t : State, exec (.negate rd) s = .next t ∧
      s.AfterAlu t 2 rd (-s.x rd) (decide (s.x rd ≠ 0)) (decide (s.x rd = BitVec.intMin rd.width))

/-- The MODEL's choice (log 10; the spec gives no result, 42_arithmetic.md R180, U2): with FLAGS the destination, NEGATE,
ADD, SUB, MULT, and SDIV, SREM by a divisor that is not 0, complete; FLAGS[14:0] is free and nothing else changes. -/
def Obligations.FlagsDestinationIsFree : Prop :=
  ∀ (s : State) (i : Instr),
    (i = .negate .flags ∨
      (∃ b : BitVec 16, i ∈ [.addVl .flags (.half b), .subVl .flags (.half b), .multVl .flags (.half b)] ∨
        (b ≠ 0 ∧ i ∈ [.sdivVl .flags (.half b), .sremVl .flags (.half b)])) ∨
      (∃ rs : Ref, s.Allows rs ∧ ¬IsFloat rs ∧ rs.width = 16 ∧
        (i ∈ [.addRr .flags rs, .subRr .flags rs, .multRr .flags rs] ∨
          (s.x rs ≠ 0 ∧ i ∈ [.sdivRr .flags rs, .sremRr .flags rs])))) →
    ∃ (t : State) (n : Nat), i.length = some n ∧ exec i s = .next t ∧
      t = { s with flags := t.flags, draws := s.draws + 1, pc := s.pc + BitVec.ofNat 32 n }

/-! ## Floating point -/

/-- The binary32 forms of ADD, SUB, MULT, SDIV, SREM and NEGATE complete with the value of `floatOps`, never raise, and set
the flags from it: Z for a zero, N for a number below zero, C and O 0; Z and N are free with a NaN (42_arithmetic.md R181,
R194, the spec's decision D21; log 11, 12, 14). -/
def Obligations.FloatArithmetic : Prop :=
  ∀ (s : State) (i : Fin 8),
    (∀ (vl : Ref → Lit → Instr) (rr : Ref → Ref → Instr) (op : Word → Word → Word),
      (vl, rr, op) ∈ [(Instr.addVl, Instr.addRr, addFloat), (.subVl, .subRr, subFloat), (.multVl, .multRr, mulFloat),
        (.sdivVl, .sdivRr, divFloat), (.sremVl, .sremRr, remFloat)] →
      s.BothForms (.f i) IsFloat (vl (.f i)) (rr (.f i)) fun b n t =>
        s.AfterFloat t n i (op (s.f.get i) b) (isNaN (s.f.get i) || isNaN b || isNaN (op (s.f.get i) b))) ∧
    ∃ t : State, exec (.negate (.f i)) s = .next t ∧
      s.AfterFloat t 2 i (s.f.get i ^^^ 0x80000000) (isNaN (s.f.get i))

/-- The five binary32 functions by their operands (42_arithmetic.md R181: the default of `FloatOps`, general knowledge by the
spec's own mark; log 14). Finite operands: the exact sum, difference, product or quotient (values in units of 2^-149) rounded
to nearest, ties to even, an infinity where its magnitude is past the largest finite value, with the IEEE 754 sign; the
remainder of the truncating division exactly. The rest: NaNs (their patterns log 11), infinities and zero divisors as IEEE
754 has them. -/
def Obligations.FloatResultsAreNearest : Prop :=
  ∀ a b : Word,
    (IsFinite a → IsFinite b →
      RoundsTo (if exactValue a + exactValue b = 0 then signBit a && signBit b
          else decide (exactValue a + exactValue b < 0))
        (exactValue a + exactValue b).natAbs 1 (addFloat a b) ∧
      RoundsTo (if exactValue a - exactValue b = 0 then signBit a && !signBit b
          else decide (exactValue a - exactValue b < 0))
        (exactValue a - exactValue b).natAbs 1 (subFloat a b) ∧
      RoundsTo (signBit a != signBit b) (magnitude a * magnitude b) (2 ^ 149) (mulFloat a b) ∧
      (isZero b = false →
        RoundsTo (signBit a != signBit b) (magnitude a * 2 ^ 149) (magnitude b) (divFloat a b) ∧
        IsFinite (remFloat a b) ∧ exactValue (remFloat a b) = (exactValue a).tmod (exactValue b)) ∧
      (isZero b = true → isNaN (remFloat a b) = true ∧
        (isZero a = true → isNaN (divFloat a b) = true) ∧
        (isZero a = false → IsInfinity (signBit a != signBit b) (divFloat a b)))) ∧
    (isNaN a = true ∨ isNaN b = true → ∀ op ∈ [addFloat, subFloat, mulFloat, divFloat, remFloat],
      isNaN (op a b) = true) ∧
    (isInf a = true → IsFinite b →
      IsInfinity (signBit a) (addFloat a b) ∧ IsInfinity (signBit a) (subFloat a b) ∧
      (isZero b = true → isNaN (mulFloat a b) = true) ∧
      (isZero b = false → IsInfinity (signBit a != signBit b) (mulFloat a b)) ∧
      IsInfinity (signBit a != signBit b) (divFloat a b) ∧ isNaN (remFloat a b) = true) ∧
    (IsFinite a → isInf b = true →
      IsInfinity (signBit b) (addFloat a b) ∧ IsInfinity (!signBit b) (subFloat a b) ∧
      (isZero a = true → isNaN (mulFloat a b) = true) ∧
      (isZero a = false → IsInfinity (signBit a != signBit b) (mulFloat a b)) ∧
      RoundsTo (signBit a != signBit b) 0 1 (divFloat a b) ∧
      IsFinite (remFloat a b) ∧ exactValue (remFloat a b) = exactValue a) ∧
    (isInf a = true → isInf b = true →
      (signBit a = signBit b → IsInfinity (signBit a) (addFloat a b) ∧ isNaN (subFloat a b) = true) ∧
      (signBit a ≠ signBit b → isNaN (addFloat a b) = true ∧ IsInfinity (signBit a) (subFloat a b)) ∧
      IsInfinity (signBit a != signBit b) (mulFloat a b) ∧
      isNaN (divFloat a b) = true ∧ isNaN (remFloat a b) = true)

/-! ## Bitwise -/

/-- NOT, AND, OR and XOR (43_bitwise.md R220 to R224; C and O written 0 is the spec's decision D16; the rest of a half or
byte register and the order of reads and writes: D10, D41, log 24). -/
def Obligations.LogicOperations : Prop :=
  ∀ (s : State) (rd : Ref), IsGeneral rd →
    (∃ t : State, exec (.notR rd) s = .next t ∧ s.AfterAlu t 2 rd (~~~s.x rd) false false) ∧
    (s.BothForms rd IsGeneral (.andVl rd) (.andRr rd) fun b n t => s.AfterAlu t n rd (s.x rd &&& b) false false) ∧
    (s.BothForms rd IsGeneral (.orVl rd) (.orRr rd) fun b n t => s.AfterAlu t n rd (s.x rd ||| b) false false) ∧
    (s.BothForms rd IsGeneral (.xorVl rd) (.xorRr rd) fun b n t => s.AfterAlu t n rd (s.x rd ^^^ b) false false)

/-- LSHIFT, RSHIFTL and RSHIFTA by every count 0 to 255; C is the last bit shifted out (43_bitwise.md R225 to R228; the
unmasked count and C are the spec's decision D19, log 20; the rest of a half or byte register and the order of reads and
writes: D10, D41, log 24). -/
def Obligations.Shifts : Prop :=
  ∀ (s : State) (rd : Ref), IsGeneral rd →
    (s.BothCounts (.lshiftLb rd) (.lshiftRb rd) fun n t =>
      s.AfterAlu t 3 rd (s.x rd <<< n) (decide (1 ≤ n ∧ n ≤ rd.width) && (s.x rd).getLsbD (rd.width - n)) false) ∧
    (s.BothCounts (.rshiftlLb rd) (.rshiftlRb rd) fun n t =>
      s.AfterAlu t 3 rd (s.x rd >>> n) (decide (1 ≤ n) && (s.x rd).getLsbD (n - 1)) false) ∧
    (s.BothCounts (.rshiftaLb rd) (.rshiftaRb rd) fun n t =>
      s.AfterAlu t 3 rd ((s.x rd).sshiftRight n) (decide (1 ≤ n) && ((s.x rd).sshiftRight (n - 1)).getLsbD 0) false)

/-- LROT and RROT by every count, C written 0; LROTCARRY and RROTCARRY by every count, C the bit left, or right, of the
register in a rotation of width + 1 bits (43_bitwise.md R225, R229 to R232; counts and flags are the spec's decision D20; the
rest of a half or byte register and the order of reads and writes: D10, D41, log 24). -/
def Obligations.Rotates : Prop :=
  ∀ (s : State) (rd : Ref), IsGeneral rd →
    (s.BothCounts (.lrotLb rd) (.lrotRb rd) fun n t => s.AfterAlu t 3 rd ((s.x rd).rotateLeft n) false false) ∧
    (s.BothCounts (.rrotLb rd) (.rrotRb rd) fun n t => s.AfterAlu t 3 rd ((s.x rd).rotateRight n) false false) ∧
    (s.BothCounts (.lrotcarryLb rd) (.lrotcarryRb rd) fun n t =>
      s.AfterAlu t 3 rd (((BitVec.cons s.flagC (s.x rd)).rotateLeft n).setWidth rd.width)
        ((BitVec.cons s.flagC (s.x rd)).rotateLeft n).msb false) ∧
    (s.BothCounts (.rrotcarryLb rd) (.rrotcarryRb rd) fun n t =>
      s.AfterAlu t 3 rd ((((s.x rd).concat s.flagC).rotateRight n).extractLsb' 1 rd.width)
        ((((s.x rd).concat s.flagC).rotateRight n).getLsbD 0) false)

/-! ## Flow control -/

/-- COMPARE of integers, any register but a float, and of floats: the flags of value2 - value1, and no register changes
(44_flow_control.md R262; 42_arithmetic.md R183; for floats R194, the spec's decision D21, log 12). -/
def Obligations.CompareCompletes : Prop :=
  (∀ (s : State) (r1 : Ref), s.Allows r1 → ¬IsFloat r1 →
    s.BothForms r1 (fun r2 => s.Allows r2 ∧ ¬IsFloat r2) (.compareVl r1) (.compareRr r1) fun b n t =>
      s.AfterCompare t n (s.x r1) b) ∧
  (∀ (s : State) (i : Fin 8),
    s.BothForms (.f i) IsFloat (.compareVl (.f i)) (.compareRr (.f i)) fun b n t =>
      t = { s with flags := t.flags, draws := t.draws, pc := s.pc + BitVec.ofNat 32 n } ∧
      t.flagC = false ∧ t.flagO = false ∧ t.flags.extractLsb' 4 11 = s.flags.extractLsb' 4 11 ∧
      (isNaN (s.f.get i) = false → isNaN b = false → isNaN (subFloat b (s.f.get i)) = false →
        t.flagZ = isZero (subFloat b (s.f.get i)) ∧ t.flagN = isNegative (subFloat b (s.f.get i)) ∧
        t.draws = s.draws))

/-- After a COMPARE of integers the ten conditional jumps decide the order of its operands, signed and unsigned, at every
width (44_flow_control.md R262, R278). -/
def Obligations.CompareDecidesJumps : Prop :=
  ∀ (s : State) (r1 : Ref), s.Allows r1 → ¬IsFloat r1 →
    s.BothForms r1 (fun r2 => s.Allows r2 ∧ ¬IsFloat r2) (.compareVl r1) (.compareRr r1) fun b _ t =>
      t.JumpsWhen 0x44 .jequalLa .jequalRa (decide (s.x r1 = b)) ∧
      t.JumpsWhen 0x46 .jnotequalLa .jnotequalRa (decide (s.x r1 ≠ b)) ∧
      t.JumpsWhen 0x48 .jgreaterLa .jgreaterRa ((s.x r1).slt b) ∧
      t.JumpsWhen 0x4A .jgreatereqLa .jgreatereqRa ((s.x r1).sle b) ∧
      t.JumpsWhen 0x4C .jaboveLa .jaboveRa ((s.x r1).ult b) ∧
      t.JumpsWhen 0x4E .jaboveeqLa .jaboveeqRa ((s.x r1).ule b) ∧
      t.JumpsWhen 0x50 .jlesserLa .jlesserRa (b.slt (s.x r1)) ∧
      t.JumpsWhen 0x52 .jlessereqLa .jlessereqRa (b.sle (s.x r1)) ∧
      t.JumpsWhen 0x54 .jbelowLa .jbelowRa (b.ult (s.x r1)) ∧
      t.JumpsWhen 0x56 .jbeloweqLa .jbeloweqRa (b.ule (s.x r1))

/-- JUMP and the twelve conditional jumps, both forms: to the target where the condition on FLAGS holds, else to the next
instruction; nothing but `pc` changes (44_flow_control.md R261, R263 to R274). -/
def Obligations.JumpsComplete : Prop :=
  ∀ (s : State) (z n c o : Bool), s.flags.getLsbD 0 = z → s.flags.getLsbD 1 = n → s.flags.getLsbD 2 = c →
    s.flags.getLsbD 3 = o →
    s.JumpsWhen 0x40 .jumpLa .jumpRa true ∧
    s.JumpsWhen 0x44 .jequalLa .jequalRa (z = true) ∧
    s.JumpsWhen 0x46 .jnotequalLa .jnotequalRa (z = false) ∧
    s.JumpsWhen 0x48 .jgreaterLa .jgreaterRa (n = o ∧ z = false) ∧
    s.JumpsWhen 0x4A .jgreatereqLa .jgreatereqRa (n = o ∨ z = true) ∧
    s.JumpsWhen 0x4C .jaboveLa .jaboveRa (c = false ∧ z = false) ∧
    s.JumpsWhen 0x4E .jaboveeqLa .jaboveeqRa (c = false ∨ z = true) ∧
    s.JumpsWhen 0x50 .jlesserLa .jlesserRa (n ≠ o) ∧
    s.JumpsWhen 0x52 .jlessereqLa .jlessereqRa (n ≠ o ∨ z = true) ∧
    s.JumpsWhen 0x54 .jbelowLa .jbelowRa (c = true) ∧
    s.JumpsWhen 0x56 .jbeloweqLa .jbeloweqRa (c = true ∨ z = true) ∧
    s.JumpsWhen 0x58 .joverflowLa .joverflowRa (o = true) ∧
    s.JumpsWhen 0x5A .jnotoverflowLa .jnotoverflowRa (o = false)

/-- CALL pushes the address of the next instruction and then FLAGS with bit 15 = 0 on the mode's stack, and jumps
(44_flow_control.md R275). -/
def Obligations.CallCompletes : Prop :=
  ∀ (s : State) (target : Word) (pl : List Word), s.Inv → s.Steady →
    s.Reaches .write (addrs (s.sp - 6) 6) pl → s.AllRam pl →
    (∃ t : State, exec (.callLa target) s = .next t ∧
      t = { s.setSp (s.sp - 6) with mem := t.mem, pc := target } ∧
      s.Stores t pl (toBytes (s.flags.setWidth 16) ++ toBytes (s.pc + 5))) ∧
    ∀ i : Fin 8, s.r.get i = target →
      ∃ t : State, exec (.callRa (.r i)) s = .next t ∧
        t = { s.setSp (s.sp - 6) with mem := t.mem, pc := target } ∧
        s.Stores t pl (toBytes (s.flags.setWidth 16) ++ toBytes (s.pc + 2))

/-- RETURN pops FLAGS and then the address from the mode's stack, and jumps; bit 15 of the popped word has no effect
(44_flow_control.md R276). -/
def Obligations.ReturnCompletes : Prop :=
  ∀ (s : State) (pl : List Word), s.Reaches .read (addrs s.sp 6) pl → s.Readable pl →
    exec .ret s = .next { s.setSp (s.sp + 6) with
      flags := (ofBytes 16 ((s.bytesAt pl).take 2)).setWidth 15, pc := ofBytes 32 ((s.bytesAt pl).drop 2) }

/-- A RETURN right after a CALL, of either form and in either mode, continues after the CALL with the caller's FLAGS and stack
(44_flow_control.md R275, R276). In user mode the stack is read where it was written, and its bytes are distinct. -/
def Obligations.CallThenReturn : Prop :=
  ∀ (s : State) (pl : List Word), s.Inv → s.Steady → s.Reaches .write (addrs (s.sp - 6) 6) pl →
    s.Reaches .read (addrs (s.sp - 6) 6) pl → pl.Nodup → s.AllRam pl →
    (∀ target : Word, ∃ t : State, exec (.callLa target) s = .next t ∧
      exec .ret t = .next { s with mem := t.mem, pc := s.pc + 5 }) ∧
    ∀ i : Fin 8, ∃ t : State, exec (.callRa (.r i)) s = .next t ∧
      exec .ret t = .next { s with mem := t.mem, pc := s.pc + 2 }

/-! ## The whole machine -/

/-- The reset values the spec fixes (70_reset_and_hazards.md R350, the spec's decision D33): kernel mode, IMR 0, no latch,
not halted, not paused, the timer off; and the invariant holds. -/
def Obligations.ResetState : Prop :=
  State.reset.mode = .kernel ∧ State.reset.imr = 0 ∧ (∀ n : Irq, State.reset.latch.get n = false) ∧
    State.reset.halted = false ∧ State.reset.paused = false ∧ State.reset.timerPeriod = 0 ∧ State.reset.Inv

/-- Every step keeps the canonical form of memory and the platform's parameters, whatever the devices store. The canonical
form is the model's own (log 3: an unlisted address reads as 0); that PhysMap and Translate (00_scope.md R6, 20_memory.md
R68, R70) stand in State and no step changes them is log 5 and log 6; the devices' stores are log 8. -/
def Obligations.StepKeepsInvariant : Prop :=
  ∀ s t : State, s.Inv → step s = .next t → t.Inv ∧ s.SamePlatform t

/-- No step changes a read-only byte (20_memory.md R68), nor does a device (log 8). -/
def Obligations.ReadOnlyBytesNeverChange : Prop :=
  ∀ (s t : State) (p : Word), s.Inv → s.kindOf p = .readOnly → step s = .next t →
    t.mem.read p.toNat = s.mem.read p.toNat

/-- The mode changes only by interrupt entry, to kernel, by USERMODE, to user, and by IRETURN with bit 15 of the popped FLAGS
image 0, to user: said of every instruction, and of every step, whether it services, waits, executes or faults in its fetch
(60_exceptions.md R319; 10_state.md R38). That IRETURN with bit 15 = 1 stays in kernel mode is the spec's decision D40; that
the sources act once before each check is log 7. That USERMODE and IRETURN do enter user mode is said in
KernelInstructionsComplete and IreturnCompletes. -/
def Obligations.ModeTransitions : Prop :=
  (∀ (i : Instr) (s t : State), exec i s = .next t → t.mode ≠ s.mode →
    s.mode = .kernel ∧ t.mode = .user ∧
      (i = .usermode ∨ (i = .ireturn ∧ (s.valueAt 16 (s.kspr + 6)).msb = false))) ∧
  (∀ s t : State, step s = .next t → s.mode = .user → t.mode = .kernel → ∃ n : Irq, s.sample.choose = some n) ∧
  (∀ (s t : State) (n : Irq), step s = .next t → s.sample.choose = some n → t.mode = .kernel) ∧
  (∀ s t : State, step s = .next t → s.mode = .kernel → t.mode = .user →
    s.sample.choose = none ∧ s.paused = false ∧ ∃ i : Instr, s.sample.fetch = .ok i ∧ exec i s.sample = .next t ∧
      (i = .usermode ∨ (i = .ireturn ∧ (s.sample.valueAt 16 (s.kspr + 6)).msb = false)))

/-- A user-mode step either services an interrupt or leaves the mode, KSPR, PDPR, IMR, the timer, `halted` and `paused` as
they are (60_exceptions.md R318, R325; 10_state.md R36). -/
def Obligations.UserModeConfined : Prop :=
  ∀ s t : State, s.mode = .user → step s = .next t → s.sample.choose = none → s.SamePrivileged t

/-- A user-mode instruction does the same whatever KSPR, IMR and the timer period hold, and leaves them (10_state.md R36,
R41). -/
def Obligations.KernelRegistersInvisibleToUser : Prop :=
  ∀ (i : Instr) (s : State) (k : Word) (m : BitVec 16) (p : Word), s.mode = .user →
    exec i (s.withKernelRegisters k m p) = mapNext (fun t => t.withKernelRegisters k m p) (exec i s)

/-- No instruction clears a latch; a step clears that of the interrupt it services and no other (10_state.md R39;
60_exceptions.md R308, the spec's decision D28). An instruction sets one latch at most, no device or timer latch, latch 0 if
it is a SYSCALL and only then (R313), latch 4 only in user mode where the translation of a byte it loads or stores faults
(R312), latch 5 only dividing integers by 0 (R311), latch 6 only for a cause of R310. Faults and refusals of CALL and BLOCKCOPY
are judged over a memory the instruction passes, for its stores may change the translation (20_memory.md R70). A step that
executes nothing sets latch 4 alone, where a byte of the instruction faults (R312), asked for with the kind fetch (log 6). What
is said of R310's causes includes the spec's decisions D7 to D9, and the turn of the sources before each check is log 7. -/
def Obligations.LatchesFollowTheirCauses : Prop :=
  (∀ (s t : State) (n : Irq), step s = .next t → s.latch.get n = true → s.sample.choose ≠ some n →
    t.latch.get n = true) ∧
  (∀ (s t : State) (n : Irq), step s = .next t → s.sample.choose = some n → t.latch = s.sample.latch.set n false) ∧
  (∀ s t : State, step s = .next t → s.sample.choose = none →
    t.latch = s.sample.latch ∨
    (∃ i : Instr, s.sample.fetch = .ok i ∧ exec i s.sample = .next t) ∨
    (t.latch = s.sample.latch.set .pageFault true ∧
      ∃ k : Nat, k < 13 ∧ s.sample.Faults .fetch [s.pc + BitVec.ofNat 32 k])) ∧
  ∀ (i : Instr) (s t : State), exec i s = .next t →
    (i = .syscall → t.latch = s.latch.set .syscall true) ∧
    (i ≠ .syscall → t.latch = s.latch ∨ ∃ c : Cause, s.MayRaise i c ∧ t.latch = s.latch.set c.irq true)
end

