-- ==== Sys2Proof/Laws/State.lean ====
section
/-!
SUPPORT. What each update of the state writes and leaves: one lemma per field per update.
-/

namespace Sys2Proof.Machine

variable (s : State)

/-! ### setPc -/

@[simp] theorem State.setPc_r (v : Word) : (s.setPc v).r = s.r := rfl
@[simp] theorem State.setPc_f (v : Word) : (s.setPc v).f = s.f := rfl
@[simp] theorem State.setPc_flags (v : Word) : (s.setPc v).flags = s.flags := rfl
@[simp] theorem State.setPc_uspr (v : Word) : (s.setPc v).uspr = s.uspr := rfl
@[simp] theorem State.setPc_kspr (v : Word) : (s.setPc v).kspr = s.kspr := rfl
@[simp] theorem State.setPc_pdpr (v : Word) : (s.setPc v).pdpr = s.pdpr := rfl
@[simp] theorem State.setPc_imr (v : Word) : (s.setPc v).imr = s.imr := rfl
@[simp] theorem State.setPc_pc (v : Word) : (s.setPc v).pc = v := rfl
@[simp] theorem State.setPc_mode (v : Word) : (s.setPc v).mode = s.mode := rfl
@[simp] theorem State.setPc_latch (v : Word) : (s.setPc v).latch = s.latch := rfl
@[simp] theorem State.setPc_halted (v : Word) : (s.setPc v).halted = s.halted := rfl
@[simp] theorem State.setPc_paused (v : Word) : (s.setPc v).paused = s.paused := rfl
@[simp] theorem State.setPc_timerPeriod (v : Word) : (s.setPc v).timerPeriod = s.timerPeriod := rfl
@[simp] theorem State.setPc_mem (v : Word) : (s.setPc v).mem = s.mem := rfl
@[simp] theorem State.setPc_physMap (v : Word) : (s.setPc v).physMap = s.physMap := rfl
@[simp] theorem State.setPc_mmu (v : Word) : (s.setPc v).mmu = s.mmu := rfl
@[simp] theorem State.setPc_arrivals (v : Word) : (s.setPc v).arrivals = s.arrivals := rfl
@[simp] theorem State.setPc_draws (v : Word) : (s.setPc v).draws = s.draws := rfl

/-! ### setMode -/

@[simp] theorem State.setMode_r (m : Mode) : (s.setMode m).r = s.r := rfl
@[simp] theorem State.setMode_f (m : Mode) : (s.setMode m).f = s.f := rfl
@[simp] theorem State.setMode_flags (m : Mode) : (s.setMode m).flags = s.flags := rfl
@[simp] theorem State.setMode_uspr (m : Mode) : (s.setMode m).uspr = s.uspr := rfl
@[simp] theorem State.setMode_kspr (m : Mode) : (s.setMode m).kspr = s.kspr := rfl
@[simp] theorem State.setMode_pdpr (m : Mode) : (s.setMode m).pdpr = s.pdpr := rfl
@[simp] theorem State.setMode_imr (m : Mode) : (s.setMode m).imr = s.imr := rfl
@[simp] theorem State.setMode_pc (m : Mode) : (s.setMode m).pc = s.pc := rfl
@[simp] theorem State.setMode_mode (m : Mode) : (s.setMode m).mode = m := rfl
@[simp] theorem State.setMode_latch (m : Mode) : (s.setMode m).latch = s.latch := rfl
@[simp] theorem State.setMode_halted (m : Mode) : (s.setMode m).halted = s.halted := rfl
@[simp] theorem State.setMode_paused (m : Mode) : (s.setMode m).paused = s.paused := rfl
@[simp] theorem State.setMode_timerPeriod (m : Mode) : (s.setMode m).timerPeriod = s.timerPeriod := rfl
@[simp] theorem State.setMode_mem (m : Mode) : (s.setMode m).mem = s.mem := rfl
@[simp] theorem State.setMode_physMap (m : Mode) : (s.setMode m).physMap = s.physMap := rfl
@[simp] theorem State.setMode_mmu (m : Mode) : (s.setMode m).mmu = s.mmu := rfl
@[simp] theorem State.setMode_arrivals (m : Mode) : (s.setMode m).arrivals = s.arrivals := rfl
@[simp] theorem State.setMode_draws (m : Mode) : (s.setMode m).draws = s.draws := rfl

/-! ### setImr -/

@[simp] theorem State.setImr_r (v : BitVec 16) : (s.setImr v).r = s.r := rfl
@[simp] theorem State.setImr_f (v : BitVec 16) : (s.setImr v).f = s.f := rfl
@[simp] theorem State.setImr_flags (v : BitVec 16) : (s.setImr v).flags = s.flags := rfl
@[simp] theorem State.setImr_uspr (v : BitVec 16) : (s.setImr v).uspr = s.uspr := rfl
@[simp] theorem State.setImr_kspr (v : BitVec 16) : (s.setImr v).kspr = s.kspr := rfl
@[simp] theorem State.setImr_pdpr (v : BitVec 16) : (s.setImr v).pdpr = s.pdpr := rfl
@[simp] theorem State.setImr_imr (v : BitVec 16) : (s.setImr v).imr = v := rfl
@[simp] theorem State.setImr_pc (v : BitVec 16) : (s.setImr v).pc = s.pc := rfl
@[simp] theorem State.setImr_mode (v : BitVec 16) : (s.setImr v).mode = s.mode := rfl
@[simp] theorem State.setImr_latch (v : BitVec 16) : (s.setImr v).latch = s.latch := rfl
@[simp] theorem State.setImr_halted (v : BitVec 16) : (s.setImr v).halted = s.halted := rfl
@[simp] theorem State.setImr_paused (v : BitVec 16) : (s.setImr v).paused = s.paused := rfl
@[simp] theorem State.setImr_timerPeriod (v : BitVec 16) : (s.setImr v).timerPeriod = s.timerPeriod := rfl
@[simp] theorem State.setImr_mem (v : BitVec 16) : (s.setImr v).mem = s.mem := rfl
@[simp] theorem State.setImr_physMap (v : BitVec 16) : (s.setImr v).physMap = s.physMap := rfl
@[simp] theorem State.setImr_mmu (v : BitVec 16) : (s.setImr v).mmu = s.mmu := rfl
@[simp] theorem State.setImr_arrivals (v : BitVec 16) : (s.setImr v).arrivals = s.arrivals := rfl
@[simp] theorem State.setImr_draws (v : BitVec 16) : (s.setImr v).draws = s.draws := rfl

/-! ### setMem -/

@[simp] theorem State.setMem_r (m : Memory) : (s.setMem m).r = s.r := rfl
@[simp] theorem State.setMem_f (m : Memory) : (s.setMem m).f = s.f := rfl
@[simp] theorem State.setMem_flags (m : Memory) : (s.setMem m).flags = s.flags := rfl
@[simp] theorem State.setMem_uspr (m : Memory) : (s.setMem m).uspr = s.uspr := rfl
@[simp] theorem State.setMem_kspr (m : Memory) : (s.setMem m).kspr = s.kspr := rfl
@[simp] theorem State.setMem_pdpr (m : Memory) : (s.setMem m).pdpr = s.pdpr := rfl
@[simp] theorem State.setMem_imr (m : Memory) : (s.setMem m).imr = s.imr := rfl
@[simp] theorem State.setMem_pc (m : Memory) : (s.setMem m).pc = s.pc := rfl
@[simp] theorem State.setMem_mode (m : Memory) : (s.setMem m).mode = s.mode := rfl
@[simp] theorem State.setMem_latch (m : Memory) : (s.setMem m).latch = s.latch := rfl
@[simp] theorem State.setMem_halted (m : Memory) : (s.setMem m).halted = s.halted := rfl
@[simp] theorem State.setMem_paused (m : Memory) : (s.setMem m).paused = s.paused := rfl
@[simp] theorem State.setMem_timerPeriod (m : Memory) : (s.setMem m).timerPeriod = s.timerPeriod := rfl
@[simp] theorem State.setMem_mem (m : Memory) : (s.setMem m).mem = m := rfl
@[simp] theorem State.setMem_physMap (m : Memory) : (s.setMem m).physMap = s.physMap := rfl
@[simp] theorem State.setMem_mmu (m : Memory) : (s.setMem m).mmu = s.mmu := rfl
@[simp] theorem State.setMem_arrivals (m : Memory) : (s.setMem m).arrivals = s.arrivals := rfl
@[simp] theorem State.setMem_draws (m : Memory) : (s.setMem m).draws = s.draws := rfl

/-! ### setHalted -/

@[simp] theorem State.setHalted_r (b : Bool) : (s.setHalted b).r = s.r := rfl
@[simp] theorem State.setHalted_f (b : Bool) : (s.setHalted b).f = s.f := rfl
@[simp] theorem State.setHalted_flags (b : Bool) : (s.setHalted b).flags = s.flags := rfl
@[simp] theorem State.setHalted_uspr (b : Bool) : (s.setHalted b).uspr = s.uspr := rfl
@[simp] theorem State.setHalted_kspr (b : Bool) : (s.setHalted b).kspr = s.kspr := rfl
@[simp] theorem State.setHalted_pdpr (b : Bool) : (s.setHalted b).pdpr = s.pdpr := rfl
@[simp] theorem State.setHalted_imr (b : Bool) : (s.setHalted b).imr = s.imr := rfl
@[simp] theorem State.setHalted_pc (b : Bool) : (s.setHalted b).pc = s.pc := rfl
@[simp] theorem State.setHalted_mode (b : Bool) : (s.setHalted b).mode = s.mode := rfl
@[simp] theorem State.setHalted_latch (b : Bool) : (s.setHalted b).latch = s.latch := rfl
@[simp] theorem State.setHalted_halted (b : Bool) : (s.setHalted b).halted = b := rfl
@[simp] theorem State.setHalted_paused (b : Bool) : (s.setHalted b).paused = s.paused := rfl
@[simp] theorem State.setHalted_timerPeriod (b : Bool) : (s.setHalted b).timerPeriod = s.timerPeriod := rfl
@[simp] theorem State.setHalted_mem (b : Bool) : (s.setHalted b).mem = s.mem := rfl
@[simp] theorem State.setHalted_physMap (b : Bool) : (s.setHalted b).physMap = s.physMap := rfl
@[simp] theorem State.setHalted_mmu (b : Bool) : (s.setHalted b).mmu = s.mmu := rfl
@[simp] theorem State.setHalted_arrivals (b : Bool) : (s.setHalted b).arrivals = s.arrivals := rfl
@[simp] theorem State.setHalted_draws (b : Bool) : (s.setHalted b).draws = s.draws := rfl

/-! ### setPaused -/

@[simp] theorem State.setPaused_r (b : Bool) : (s.setPaused b).r = s.r := rfl
@[simp] theorem State.setPaused_f (b : Bool) : (s.setPaused b).f = s.f := rfl
@[simp] theorem State.setPaused_flags (b : Bool) : (s.setPaused b).flags = s.flags := rfl
@[simp] theorem State.setPaused_uspr (b : Bool) : (s.setPaused b).uspr = s.uspr := rfl
@[simp] theorem State.setPaused_kspr (b : Bool) : (s.setPaused b).kspr = s.kspr := rfl
@[simp] theorem State.setPaused_pdpr (b : Bool) : (s.setPaused b).pdpr = s.pdpr := rfl
@[simp] theorem State.setPaused_imr (b : Bool) : (s.setPaused b).imr = s.imr := rfl
@[simp] theorem State.setPaused_pc (b : Bool) : (s.setPaused b).pc = s.pc := rfl
@[simp] theorem State.setPaused_mode (b : Bool) : (s.setPaused b).mode = s.mode := rfl
@[simp] theorem State.setPaused_latch (b : Bool) : (s.setPaused b).latch = s.latch := rfl
@[simp] theorem State.setPaused_halted (b : Bool) : (s.setPaused b).halted = s.halted := rfl
@[simp] theorem State.setPaused_paused (b : Bool) : (s.setPaused b).paused = b := rfl
@[simp] theorem State.setPaused_timerPeriod (b : Bool) : (s.setPaused b).timerPeriod = s.timerPeriod := rfl
@[simp] theorem State.setPaused_mem (b : Bool) : (s.setPaused b).mem = s.mem := rfl
@[simp] theorem State.setPaused_physMap (b : Bool) : (s.setPaused b).physMap = s.physMap := rfl
@[simp] theorem State.setPaused_mmu (b : Bool) : (s.setPaused b).mmu = s.mmu := rfl
@[simp] theorem State.setPaused_arrivals (b : Bool) : (s.setPaused b).arrivals = s.arrivals := rfl
@[simp] theorem State.setPaused_draws (b : Bool) : (s.setPaused b).draws = s.draws := rfl

/-! ### setTimerPeriod -/

@[simp] theorem State.setTimerPeriod_r (v : Word) : (s.setTimerPeriod v).r = s.r := rfl
@[simp] theorem State.setTimerPeriod_f (v : Word) : (s.setTimerPeriod v).f = s.f := rfl
@[simp] theorem State.setTimerPeriod_flags (v : Word) : (s.setTimerPeriod v).flags = s.flags := rfl
@[simp] theorem State.setTimerPeriod_uspr (v : Word) : (s.setTimerPeriod v).uspr = s.uspr := rfl
@[simp] theorem State.setTimerPeriod_kspr (v : Word) : (s.setTimerPeriod v).kspr = s.kspr := rfl
@[simp] theorem State.setTimerPeriod_pdpr (v : Word) : (s.setTimerPeriod v).pdpr = s.pdpr := rfl
@[simp] theorem State.setTimerPeriod_imr (v : Word) : (s.setTimerPeriod v).imr = s.imr := rfl
@[simp] theorem State.setTimerPeriod_pc (v : Word) : (s.setTimerPeriod v).pc = s.pc := rfl
@[simp] theorem State.setTimerPeriod_mode (v : Word) : (s.setTimerPeriod v).mode = s.mode := rfl
@[simp] theorem State.setTimerPeriod_latch (v : Word) : (s.setTimerPeriod v).latch = s.latch := rfl
@[simp] theorem State.setTimerPeriod_halted (v : Word) : (s.setTimerPeriod v).halted = s.halted := rfl
@[simp] theorem State.setTimerPeriod_paused (v : Word) : (s.setTimerPeriod v).paused = s.paused := rfl
@[simp] theorem State.setTimerPeriod_timerPeriod (v : Word) : (s.setTimerPeriod v).timerPeriod = v := rfl
@[simp] theorem State.setTimerPeriod_mem (v : Word) : (s.setTimerPeriod v).mem = s.mem := rfl
@[simp] theorem State.setTimerPeriod_physMap (v : Word) : (s.setTimerPeriod v).physMap = s.physMap := rfl
@[simp] theorem State.setTimerPeriod_mmu (v : Word) : (s.setTimerPeriod v).mmu = s.mmu := rfl
@[simp] theorem State.setTimerPeriod_arrivals (v : Word) : (s.setTimerPeriod v).arrivals = s.arrivals := rfl
@[simp] theorem State.setTimerPeriod_draws (v : Word) : (s.setTimerPeriod v).draws = s.draws := rfl

/-! ### setLatch -/

@[simp] theorem State.setLatch_r (n : Irq) (v : Bool) : (s.setLatch n v).r = s.r := rfl
@[simp] theorem State.setLatch_f (n : Irq) (v : Bool) : (s.setLatch n v).f = s.f := rfl
@[simp] theorem State.setLatch_flags (n : Irq) (v : Bool) : (s.setLatch n v).flags = s.flags := rfl
@[simp] theorem State.setLatch_uspr (n : Irq) (v : Bool) : (s.setLatch n v).uspr = s.uspr := rfl
@[simp] theorem State.setLatch_kspr (n : Irq) (v : Bool) : (s.setLatch n v).kspr = s.kspr := rfl
@[simp] theorem State.setLatch_pdpr (n : Irq) (v : Bool) : (s.setLatch n v).pdpr = s.pdpr := rfl
@[simp] theorem State.setLatch_imr (n : Irq) (v : Bool) : (s.setLatch n v).imr = s.imr := rfl
@[simp] theorem State.setLatch_pc (n : Irq) (v : Bool) : (s.setLatch n v).pc = s.pc := rfl
@[simp] theorem State.setLatch_mode (n : Irq) (v : Bool) : (s.setLatch n v).mode = s.mode := rfl
@[simp] theorem State.setLatch_latch (n : Irq) (v : Bool) : (s.setLatch n v).latch = s.latch.set n v := rfl
@[simp] theorem State.setLatch_halted (n : Irq) (v : Bool) : (s.setLatch n v).halted = s.halted := rfl
@[simp] theorem State.setLatch_paused (n : Irq) (v : Bool) : (s.setLatch n v).paused = s.paused := rfl
@[simp] theorem State.setLatch_timerPeriod (n : Irq) (v : Bool) : (s.setLatch n v).timerPeriod = s.timerPeriod := rfl
@[simp] theorem State.setLatch_mem (n : Irq) (v : Bool) : (s.setLatch n v).mem = s.mem := rfl
@[simp] theorem State.setLatch_physMap (n : Irq) (v : Bool) : (s.setLatch n v).physMap = s.physMap := rfl
@[simp] theorem State.setLatch_mmu (n : Irq) (v : Bool) : (s.setLatch n v).mmu = s.mmu := rfl
@[simp] theorem State.setLatch_arrivals (n : Irq) (v : Bool) : (s.setLatch n v).arrivals = s.arrivals := rfl
@[simp] theorem State.setLatch_draws (n : Irq) (v : Bool) : (s.setLatch n v).draws = s.draws := rfl

/-! ### setFlags -/

@[simp] theorem State.setFlags_r (v : BitVec 15) : (s.setFlags v).r = s.r := rfl
@[simp] theorem State.setFlags_f (v : BitVec 15) : (s.setFlags v).f = s.f := rfl
@[simp] theorem State.setFlags_flags (v : BitVec 15) : (s.setFlags v).flags = v := rfl
@[simp] theorem State.setFlags_uspr (v : BitVec 15) : (s.setFlags v).uspr = s.uspr := rfl
@[simp] theorem State.setFlags_kspr (v : BitVec 15) : (s.setFlags v).kspr = s.kspr := rfl
@[simp] theorem State.setFlags_pdpr (v : BitVec 15) : (s.setFlags v).pdpr = s.pdpr := rfl
@[simp] theorem State.setFlags_imr (v : BitVec 15) : (s.setFlags v).imr = s.imr := rfl
@[simp] theorem State.setFlags_pc (v : BitVec 15) : (s.setFlags v).pc = s.pc := rfl
@[simp] theorem State.setFlags_mode (v : BitVec 15) : (s.setFlags v).mode = s.mode := rfl
@[simp] theorem State.setFlags_latch (v : BitVec 15) : (s.setFlags v).latch = s.latch := rfl
@[simp] theorem State.setFlags_halted (v : BitVec 15) : (s.setFlags v).halted = s.halted := rfl
@[simp] theorem State.setFlags_paused (v : BitVec 15) : (s.setFlags v).paused = s.paused := rfl
@[simp] theorem State.setFlags_timerPeriod (v : BitVec 15) : (s.setFlags v).timerPeriod = s.timerPeriod := rfl
@[simp] theorem State.setFlags_mem (v : BitVec 15) : (s.setFlags v).mem = s.mem := rfl
@[simp] theorem State.setFlags_physMap (v : BitVec 15) : (s.setFlags v).physMap = s.physMap := rfl
@[simp] theorem State.setFlags_mmu (v : BitVec 15) : (s.setFlags v).mmu = s.mmu := rfl
@[simp] theorem State.setFlags_arrivals (v : BitVec 15) : (s.setFlags v).arrivals = s.arrivals := rfl
@[simp] theorem State.setFlags_draws (v : BitVec 15) : (s.setFlags v).draws = s.draws := rfl

/-! ### setZNCO -/

@[simp] theorem State.setZNCO_r (z n c o : Bool) : (s.setZNCO z n c o).r = s.r := rfl
@[simp] theorem State.setZNCO_f (z n c o : Bool) : (s.setZNCO z n c o).f = s.f := rfl
@[simp] theorem State.setZNCO_flags (z n c o : Bool) : (s.setZNCO z n c o).flags = withZNCO s.flags z n c o := rfl
@[simp] theorem State.setZNCO_uspr (z n c o : Bool) : (s.setZNCO z n c o).uspr = s.uspr := rfl
@[simp] theorem State.setZNCO_kspr (z n c o : Bool) : (s.setZNCO z n c o).kspr = s.kspr := rfl
@[simp] theorem State.setZNCO_pdpr (z n c o : Bool) : (s.setZNCO z n c o).pdpr = s.pdpr := rfl
@[simp] theorem State.setZNCO_imr (z n c o : Bool) : (s.setZNCO z n c o).imr = s.imr := rfl
@[simp] theorem State.setZNCO_pc (z n c o : Bool) : (s.setZNCO z n c o).pc = s.pc := rfl
@[simp] theorem State.setZNCO_mode (z n c o : Bool) : (s.setZNCO z n c o).mode = s.mode := rfl
@[simp] theorem State.setZNCO_latch (z n c o : Bool) : (s.setZNCO z n c o).latch = s.latch := rfl
@[simp] theorem State.setZNCO_halted (z n c o : Bool) : (s.setZNCO z n c o).halted = s.halted := rfl
@[simp] theorem State.setZNCO_paused (z n c o : Bool) : (s.setZNCO z n c o).paused = s.paused := rfl
@[simp] theorem State.setZNCO_timerPeriod (z n c o : Bool) : (s.setZNCO z n c o).timerPeriod = s.timerPeriod := rfl
@[simp] theorem State.setZNCO_mem (z n c o : Bool) : (s.setZNCO z n c o).mem = s.mem := rfl
@[simp] theorem State.setZNCO_physMap (z n c o : Bool) : (s.setZNCO z n c o).physMap = s.physMap := rfl
@[simp] theorem State.setZNCO_mmu (z n c o : Bool) : (s.setZNCO z n c o).mmu = s.mmu := rfl
@[simp] theorem State.setZNCO_arrivals (z n c o : Bool) : (s.setZNCO z n c o).arrivals = s.arrivals := rfl
@[simp] theorem State.setZNCO_draws (z n c o : Bool) : (s.setZNCO z n c o).draws = s.draws := rfl

/-! ### advance -/

@[simp] theorem State.advance_r (n : Nat) : (s.advance n).r = s.r := rfl
@[simp] theorem State.advance_f (n : Nat) : (s.advance n).f = s.f := rfl
@[simp] theorem State.advance_flags (n : Nat) : (s.advance n).flags = s.flags := rfl
@[simp] theorem State.advance_uspr (n : Nat) : (s.advance n).uspr = s.uspr := rfl
@[simp] theorem State.advance_kspr (n : Nat) : (s.advance n).kspr = s.kspr := rfl
@[simp] theorem State.advance_pdpr (n : Nat) : (s.advance n).pdpr = s.pdpr := rfl
@[simp] theorem State.advance_imr (n : Nat) : (s.advance n).imr = s.imr := rfl
@[simp] theorem State.advance_pc (n : Nat) : (s.advance n).pc = s.pc + BitVec.ofNat 32 n := rfl
@[simp] theorem State.advance_mode (n : Nat) : (s.advance n).mode = s.mode := rfl
@[simp] theorem State.advance_latch (n : Nat) : (s.advance n).latch = s.latch := rfl
@[simp] theorem State.advance_halted (n : Nat) : (s.advance n).halted = s.halted := rfl
@[simp] theorem State.advance_paused (n : Nat) : (s.advance n).paused = s.paused := rfl
@[simp] theorem State.advance_timerPeriod (n : Nat) : (s.advance n).timerPeriod = s.timerPeriod := rfl
@[simp] theorem State.advance_mem (n : Nat) : (s.advance n).mem = s.mem := rfl
@[simp] theorem State.advance_physMap (n : Nat) : (s.advance n).physMap = s.physMap := rfl
@[simp] theorem State.advance_mmu (n : Nat) : (s.advance n).mmu = s.mmu := rfl
@[simp] theorem State.advance_arrivals (n : Nat) : (s.advance n).arrivals = s.arrivals := rfl
@[simp] theorem State.advance_draws (n : Nat) : (s.advance n).draws = s.draws := rfl

/-! ### draw -/

@[simp] theorem State.draw_r : (s.draw).r = s.r := rfl
@[simp] theorem State.draw_f : (s.draw).f = s.f := rfl
@[simp] theorem State.draw_flags : (s.draw).flags = s.flags := rfl
@[simp] theorem State.draw_uspr : (s.draw).uspr = s.uspr := rfl
@[simp] theorem State.draw_kspr : (s.draw).kspr = s.kspr := rfl
@[simp] theorem State.draw_pdpr : (s.draw).pdpr = s.pdpr := rfl
@[simp] theorem State.draw_imr : (s.draw).imr = s.imr := rfl
@[simp] theorem State.draw_pc : (s.draw).pc = s.pc := rfl
@[simp] theorem State.draw_mode : (s.draw).mode = s.mode := rfl
@[simp] theorem State.draw_latch : (s.draw).latch = s.latch := rfl
@[simp] theorem State.draw_halted : (s.draw).halted = s.halted := rfl
@[simp] theorem State.draw_paused : (s.draw).paused = s.paused := rfl
@[simp] theorem State.draw_timerPeriod : (s.draw).timerPeriod = s.timerPeriod := rfl
@[simp] theorem State.draw_mem : (s.draw).mem = s.mem := rfl
@[simp] theorem State.draw_physMap : (s.draw).physMap = s.physMap := rfl
@[simp] theorem State.draw_mmu : (s.draw).mmu = s.mmu := rfl
@[simp] theorem State.draw_arrivals : (s.draw).arrivals = s.arrivals := rfl
@[simp] theorem State.draw_draws : (s.draw).draws = s.draws + 1 := rfl

/-! ### freePc -/

@[simp] theorem State.freePc_r : (s.freePc).r = s.r := rfl
@[simp] theorem State.freePc_f : (s.freePc).f = s.f := rfl
@[simp] theorem State.freePc_flags : (s.freePc).flags = s.flags := rfl
@[simp] theorem State.freePc_uspr : (s.freePc).uspr = s.uspr := rfl
@[simp] theorem State.freePc_kspr : (s.freePc).kspr = s.kspr := rfl
@[simp] theorem State.freePc_pdpr : (s.freePc).pdpr = s.pdpr := rfl
@[simp] theorem State.freePc_imr : (s.freePc).imr = s.imr := rfl
@[simp] theorem State.freePc_pc : (s.freePc).pc = Config.freeWord s.draws := rfl
@[simp] theorem State.freePc_mode : (s.freePc).mode = s.mode := rfl
@[simp] theorem State.freePc_latch : (s.freePc).latch = s.latch := rfl
@[simp] theorem State.freePc_halted : (s.freePc).halted = s.halted := rfl
@[simp] theorem State.freePc_paused : (s.freePc).paused = s.paused := rfl
@[simp] theorem State.freePc_timerPeriod : (s.freePc).timerPeriod = s.timerPeriod := rfl
@[simp] theorem State.freePc_mem : (s.freePc).mem = s.mem := rfl
@[simp] theorem State.freePc_physMap : (s.freePc).physMap = s.physMap := rfl
@[simp] theorem State.freePc_mmu : (s.freePc).mmu = s.mmu := rfl
@[simp] theorem State.freePc_arrivals : (s.freePc).arrivals = s.arrivals := rfl
@[simp] theorem State.freePc_draws : (s.freePc).draws = s.draws + 1 := rfl

/-! ### freeFlags -/

@[simp] theorem State.freeFlags_r : (s.freeFlags).r = s.r := rfl
@[simp] theorem State.freeFlags_f : (s.freeFlags).f = s.f := rfl
@[simp] theorem State.freeFlags_flags : (s.freeFlags).flags = (Config.freeWord s.draws).setWidth 15 := rfl
@[simp] theorem State.freeFlags_uspr : (s.freeFlags).uspr = s.uspr := rfl
@[simp] theorem State.freeFlags_kspr : (s.freeFlags).kspr = s.kspr := rfl
@[simp] theorem State.freeFlags_pdpr : (s.freeFlags).pdpr = s.pdpr := rfl
@[simp] theorem State.freeFlags_imr : (s.freeFlags).imr = s.imr := rfl
@[simp] theorem State.freeFlags_pc : (s.freeFlags).pc = s.pc := rfl
@[simp] theorem State.freeFlags_mode : (s.freeFlags).mode = s.mode := rfl
@[simp] theorem State.freeFlags_latch : (s.freeFlags).latch = s.latch := rfl
@[simp] theorem State.freeFlags_halted : (s.freeFlags).halted = s.halted := rfl
@[simp] theorem State.freeFlags_paused : (s.freeFlags).paused = s.paused := rfl
@[simp] theorem State.freeFlags_timerPeriod : (s.freeFlags).timerPeriod = s.timerPeriod := rfl
@[simp] theorem State.freeFlags_mem : (s.freeFlags).mem = s.mem := rfl
@[simp] theorem State.freeFlags_physMap : (s.freeFlags).physMap = s.physMap := rfl
@[simp] theorem State.freeFlags_mmu : (s.freeFlags).mmu = s.mmu := rfl
@[simp] theorem State.freeFlags_arrivals : (s.freeFlags).arrivals = s.arrivals := rfl
@[simp] theorem State.freeFlags_draws : (s.freeFlags).draws = s.draws + 1 := rfl

/-! ### freeZN -/

@[simp] theorem State.freeZN_r : (s.freeZN).r = s.r := rfl
@[simp] theorem State.freeZN_f : (s.freeZN).f = s.f := rfl
@[simp] theorem State.freeZN_flags : (s.freeZN).flags = withZNCO s.flags ((Config.freeWord s.draws).getLsbD 0) ((Config.freeWord s.draws).getLsbD 1) false false := rfl
@[simp] theorem State.freeZN_uspr : (s.freeZN).uspr = s.uspr := rfl
@[simp] theorem State.freeZN_kspr : (s.freeZN).kspr = s.kspr := rfl
@[simp] theorem State.freeZN_pdpr : (s.freeZN).pdpr = s.pdpr := rfl
@[simp] theorem State.freeZN_imr : (s.freeZN).imr = s.imr := rfl
@[simp] theorem State.freeZN_pc : (s.freeZN).pc = s.pc := rfl
@[simp] theorem State.freeZN_mode : (s.freeZN).mode = s.mode := rfl
@[simp] theorem State.freeZN_latch : (s.freeZN).latch = s.latch := rfl
@[simp] theorem State.freeZN_halted : (s.freeZN).halted = s.halted := rfl
@[simp] theorem State.freeZN_paused : (s.freeZN).paused = s.paused := rfl
@[simp] theorem State.freeZN_timerPeriod : (s.freeZN).timerPeriod = s.timerPeriod := rfl
@[simp] theorem State.freeZN_mem : (s.freeZN).mem = s.mem := rfl
@[simp] theorem State.freeZN_physMap : (s.freeZN).physMap = s.physMap := rfl
@[simp] theorem State.freeZN_mmu : (s.freeZN).mmu = s.mmu := rfl
@[simp] theorem State.freeZN_arrivals : (s.freeZN).arrivals = s.arrivals := rfl
@[simp] theorem State.freeZN_draws : (s.freeZN).draws = s.draws + 1 := rfl

/-! ### sample -/

@[simp] theorem State.sample_r : (s.sample).r = s.r := rfl
@[simp] theorem State.sample_f : (s.sample).f = s.f := rfl
@[simp] theorem State.sample_flags : (s.sample).flags = s.flags := rfl
@[simp] theorem State.sample_uspr : (s.sample).uspr = s.uspr := rfl
@[simp] theorem State.sample_kspr : (s.sample).kspr = s.kspr := rfl
@[simp] theorem State.sample_pdpr : (s.sample).pdpr = s.pdpr := rfl
@[simp] theorem State.sample_imr : (s.sample).imr = s.imr := rfl
@[simp] theorem State.sample_pc : (s.sample).pc = s.pc := rfl
@[simp] theorem State.sample_mode : (s.sample).mode = s.mode := rfl
@[simp] theorem State.sample_latch : (s.sample).latch = latchArrivals s.latch s.timerPeriod s.arrivals.now := rfl
@[simp] theorem State.sample_halted : (s.sample).halted = s.halted := rfl
@[simp] theorem State.sample_paused : (s.sample).paused = s.paused := rfl
@[simp] theorem State.sample_timerPeriod : (s.sample).timerPeriod = s.timerPeriod := rfl
@[simp] theorem State.sample_mem : (s.sample).mem = s.mem.deviceWrites s.physMap s.arrivals.now.writes := rfl
@[simp] theorem State.sample_physMap : (s.sample).physMap = s.physMap := rfl
@[simp] theorem State.sample_mmu : (s.sample).mmu = s.mmu := rfl
@[simp] theorem State.sample_arrivals : (s.sample).arrivals = s.arrivals.later := rfl
@[simp] theorem State.sample_draws : (s.sample).draws = s.draws := rfl

/-! ### setX and setSp: the fields no register reference and no stack pointer names -/

@[simp] theorem State.setX_pc (ref : Ref) (v : BitVec ref.width) : (s.setX ref v).pc = s.pc := by cases ref <;> rfl
@[simp] theorem State.setX_mode (ref : Ref) (v : BitVec ref.width) : (s.setX ref v).mode = s.mode := by cases ref <;> rfl
@[simp] theorem State.setX_latch (ref : Ref) (v : BitVec ref.width) : (s.setX ref v).latch = s.latch := by cases ref <;> rfl
@[simp] theorem State.setX_halted (ref : Ref) (v : BitVec ref.width) : (s.setX ref v).halted = s.halted := by cases ref <;> rfl
@[simp] theorem State.setX_paused (ref : Ref) (v : BitVec ref.width) : (s.setX ref v).paused = s.paused := by cases ref <;> rfl
@[simp] theorem State.setX_timerPeriod (ref : Ref) (v : BitVec ref.width) : (s.setX ref v).timerPeriod = s.timerPeriod := by cases ref <;> rfl
@[simp] theorem State.setX_mem (ref : Ref) (v : BitVec ref.width) : (s.setX ref v).mem = s.mem := by cases ref <;> rfl
@[simp] theorem State.setX_physMap (ref : Ref) (v : BitVec ref.width) : (s.setX ref v).physMap = s.physMap := by cases ref <;> rfl
@[simp] theorem State.setX_mmu (ref : Ref) (v : BitVec ref.width) : (s.setX ref v).mmu = s.mmu := by cases ref <;> rfl
@[simp] theorem State.setX_arrivals (ref : Ref) (v : BitVec ref.width) : (s.setX ref v).arrivals = s.arrivals := by cases ref <;> rfl
@[simp] theorem State.setX_draws (ref : Ref) (v : BitVec ref.width) : (s.setX ref v).draws = s.draws := by cases ref <;> rfl
@[simp] theorem State.setSp_r (v : Word) : (s.setSp v).r = s.r := by unfold State.setSp; cases s.mode <;> rfl
@[simp] theorem State.setSp_f (v : Word) : (s.setSp v).f = s.f := by unfold State.setSp; cases s.mode <;> rfl
@[simp] theorem State.setSp_flags (v : Word) : (s.setSp v).flags = s.flags := by unfold State.setSp; cases s.mode <;> rfl
@[simp] theorem State.setSp_pdpr (v : Word) : (s.setSp v).pdpr = s.pdpr := by unfold State.setSp; cases s.mode <;> rfl
@[simp] theorem State.setSp_imr (v : Word) : (s.setSp v).imr = s.imr := by unfold State.setSp; cases s.mode <;> rfl
@[simp] theorem State.setSp_pc (v : Word) : (s.setSp v).pc = s.pc := by unfold State.setSp; cases s.mode <;> rfl
@[simp] theorem State.setSp_mode (v : Word) : (s.setSp v).mode = s.mode := by unfold State.setSp; cases s.mode <;> rfl
@[simp] theorem State.setSp_latch (v : Word) : (s.setSp v).latch = s.latch := by unfold State.setSp; cases s.mode <;> rfl
@[simp] theorem State.setSp_halted (v : Word) : (s.setSp v).halted = s.halted := by unfold State.setSp; cases s.mode <;> rfl
@[simp] theorem State.setSp_paused (v : Word) : (s.setSp v).paused = s.paused := by unfold State.setSp; cases s.mode <;> rfl
@[simp] theorem State.setSp_timerPeriod (v : Word) : (s.setSp v).timerPeriod = s.timerPeriod := by unfold State.setSp; cases s.mode <;> rfl
@[simp] theorem State.setSp_mem (v : Word) : (s.setSp v).mem = s.mem := by unfold State.setSp; cases s.mode <;> rfl
@[simp] theorem State.setSp_physMap (v : Word) : (s.setSp v).physMap = s.physMap := by unfold State.setSp; cases s.mode <;> rfl
@[simp] theorem State.setSp_mmu (v : Word) : (s.setSp v).mmu = s.mmu := by unfold State.setSp; cases s.mode <;> rfl
@[simp] theorem State.setSp_arrivals (v : Word) : (s.setSp v).arrivals = s.arrivals := by unfold State.setSp; cases s.mode <;> rfl
@[simp] theorem State.setSp_draws (v : Word) : (s.setSp v).draws = s.draws := by unfold State.setSp; cases s.mode <;> rfl

@[simp] theorem State.setSp_sp (v : Word) : (s.setSp v).sp = v := by
  unfold State.sp State.setSp
  cases h : s.mode <;> simp_all

theorem State.sp_kernel (h : s.mode = .kernel) : s.sp = s.kspr := by simp [State.sp, h]

theorem State.sp_user (h : s.mode = .user) : s.sp = s.uspr := by simp [State.sp, h]

theorem State.setSp_kernel (h : s.mode = .kernel) (v : Word) : s.setSp v = { s with kspr := v } := by
  simp [State.setSp, h]

theorem State.setSp_user (h : s.mode = .user) (v : Word) : s.setSp v = { s with uspr := v } := by
  simp [State.setSp, h]

/-! ### Which physical memory map and translation an update leaves in force -/

@[simp] theorem State.kindOf_setMem (m : Memory) (a : Word) : (s.setMem m).kindOf a = s.kindOf a := rfl

@[simp] theorem State.kindOf_setPc (v a : Word) : (s.setPc v).kindOf a = s.kindOf a := rfl

@[simp] theorem State.kindOf_setSp (v a : Word) : (s.setSp v).kindOf a = s.kindOf a := by
  simp [State.kindOf]

@[simp] theorem State.kindOf_setX (ref : Ref) (v : BitVec ref.width) (a : Word) :
    (s.setX ref v).kindOf a = s.kindOf a := by
  simp [State.kindOf]

end Sys2Proof.Machine
end

