-- ==== Sys2Proof/Laws/Memory.lean ====
section
/-!
SUPPORT. Memory: read after write, what a write leaves, and the canonical form (20_memory.md R62, R68).
-/

namespace Sys2Proof.Machine

theorem Memory.wfFrom_cons (lo k : Nat) (v : Byte) (m : Memory) :
    Memory.wfFrom lo ((k, v) :: m) = true ↔
      lo ≤ k ∧ k < 2 ^ 32 ∧ v ≠ unlistedByte ∧ Memory.wfFrom (k + 1) m = true := by
  simp [Memory.wfFrom, and_assoc]

theorem Memory.wfFrom_mono {lo lo' : Nat} (m : Memory) (h : lo' ≤ lo) (hm : Memory.wfFrom lo m = true) :
    Memory.wfFrom lo' m = true := by
  cases m with
  | nil => rfl
  | cons c m =>
    obtain ⟨k, v⟩ := c
    rw [Memory.wfFrom_cons] at hm ⊢
    exact ⟨Nat.le_trans h hm.1, hm.2⟩

/-- Below its bound a memory in canonical form lists nothing. -/
theorem Memory.read_below (m : Memory) (lo a : Nat) (hm : Memory.wfFrom lo m = true) (h : a < lo) :
    Memory.read m a = unlistedByte := by
  cases m with
  | nil => rfl
  | cons c m =>
    obtain ⟨k, v⟩ := c
    rw [Memory.wfFrom_cons] at hm
    have hk : a < k := Nat.lt_of_lt_of_le h hm.1
    simp [Memory.read, Nat.ne_of_lt hk, hk]

theorem Memory.wfFrom_consCell (lo a : Nat) (b : Byte) (m : Memory) (hlo : lo ≤ a) (ha : a < 2 ^ 32)
    (hm : Memory.wfFrom (a + 1) m = true) : Memory.wfFrom lo (Memory.cons a b m) = true := by
  unfold Memory.cons
  split
  · exact Memory.wfFrom_mono m (by omega) hm
  · rw [Memory.wfFrom_cons]; exact ⟨hlo, ha, ‹_›, hm⟩

theorem Memory.wfFrom_write (m : Memory) (lo a : Nat) (b : Byte) (hlo : lo ≤ a) (ha : a < 2 ^ 32)
    (hm : Memory.wfFrom lo m = true) : Memory.wfFrom lo (m.write a b) = true := by
  induction m generalizing lo with
  | nil => exact Memory.wfFrom_consCell lo a b [] hlo ha rfl
  | cons c m ih =>
    obtain ⟨k, v⟩ := c
    have hc := (Memory.wfFrom_cons lo k v m).1 hm
    unfold Memory.write
    split
    · subst_vars; exact Memory.wfFrom_consCell lo _ b m hlo ha hc.2.2.2
    · split
      · refine Memory.wfFrom_consCell lo a b _ hlo ha ?_
        rw [Memory.wfFrom_cons]; exact ⟨by omega, hc.2⟩
      · rw [Memory.wfFrom_cons]; exact ⟨hc.1, hc.2.1, hc.2.2.1, ih (k + 1) (by omega) hc.2.2.2⟩

/-- A byte write keeps the canonical form. -/
theorem Memory.wf_write (m : Memory) (a : Nat) (b : Byte) (ha : a < 2 ^ 32) (hm : m.wf = true) :
    (m.write a b).wf = true :=
  Memory.wfFrom_write m 0 a b (Nat.zero_le a) ha hm

theorem Memory.wf_writeAll (m : Memory) (l : List Word) (bs : List Byte) (hm : m.wf = true) :
    (m.writeAll l bs).wf = true := by
  induction l generalizing m bs with
  | nil => cases bs <;> exact hm
  | cons a l ih =>
    cases bs with
    | nil => exact hm
    | cons b bs => exact ih _ _ (Memory.wf_write m a.toNat b a.isLt hm)

theorem Memory.read_consCell (lo a c : Nat) (b : Byte) (m : Memory) (hm : Memory.wfFrom lo m = true) (ha : a < lo) :
    Memory.read (Memory.cons a b m) c = if c = a then b else Memory.read m c := by
  unfold Memory.cons
  by_cases hb : b = unlistedByte
  · simp only [hb, if_true]
    split
    · subst_vars; exact Memory.read_below m lo _ hm ha
    · rfl
  · simp only [hb, if_false, Memory.read]
    split
    · rfl
    · split
      · exact (Memory.read_below m lo c hm (by omega)).symm
      · rfl

theorem Memory.read_write_from (m : Memory) (lo a c : Nat) (b : Byte) (hm : Memory.wfFrom lo m = true) :
    (m.write a b).read c = if c = a then b else m.read c := by
  induction m generalizing lo with
  | nil => exact Memory.read_consCell (a + 1) a c b [] rfl (Nat.lt_succ_self a)
  | cons d m ih =>
    obtain ⟨k, v⟩ := d
    have hc := (Memory.wfFrom_cons lo k v m).1 hm
    unfold Memory.write
    split
    · subst_vars
      rw [Memory.read_consCell (k + 1) k c b m hc.2.2.2 (Nat.lt_succ_self k)]
      split
      · rfl
      · rename_i hck
        simp only [Memory.read, hck, if_false]
        split
        · exact Memory.read_below m (k + 1) c hc.2.2.2 (by omega)
        · rfl
    · split
      · rename_i hak
        refine Memory.read_consCell k a c b _ ?_ hak
        rw [Memory.wfFrom_cons]; exact ⟨Nat.le_refl k, hc.2⟩
      · rename_i hne hlt
        simp only [Memory.read]
        split
        · have : c ≠ a := by omega
          simp [this]
        · split
          · have : c ≠ a := by omega
            simp [this]
          · exact ih (k + 1) hc.2.2.2

/-- A read after a byte write: the byte written at its address, every other address as before. -/
theorem Memory.read_write (m : Memory) (a c : Nat) (b : Byte) (hm : m.wf = true) :
    (m.write a b).read c = if c = a then b else m.read c :=
  Memory.read_write_from m 0 a c b hm

@[simp] theorem Memory.read_write_same (m : Memory) (a : Nat) (b : Byte) (hm : m.wf = true) : (m.write a b).read a = b := by
  simp [Memory.read_write m a a b hm]

theorem Memory.read_write_other (m : Memory) (a c : Nat) (b : Byte) (hm : m.wf = true) (h : c ≠ a) :
    (m.write a b).read c = m.read c := by
  simp [Memory.read_write m a c b hm, h]

/-- A write of several bytes leaves every address outside its list. -/
theorem Memory.read_writeAll_outside (m : Memory) (l : List Word) (bs : List Byte) (c : Nat) (hm : m.wf = true)
    (h : ∀ p ∈ l, c ≠ p.toNat) : (m.writeAll l bs).read c = m.read c := by
  induction l generalizing m bs with
  | nil => cases bs <;> rfl
  | cons a l ih =>
    cases bs with
    | nil => rfl
    | cons b bs =>
      have hne : c ≠ a.toNat := h a (by simp)
      rw [Memory.writeAll, ih _ _ (Memory.wf_write m _ b a.isLt hm) (fun p hp => h p (by simp [hp])),
        Memory.read_write_other m _ c b hm hne]

/-- At distinct addresses the bytes written are read back in order. -/
theorem Memory.read_writeAll (m : Memory) (l : List Word) (bs : List Byte) (hm : m.wf = true) (hl : l.Nodup)
    (hlen : l.length = bs.length) : l.map (fun a => (m.writeAll l bs).read a.toNat) = bs := by
  induction l generalizing m bs with
  | nil => cases bs <;> simp_all
  | cons a l ih =>
    cases bs with
    | nil => simp at hlen
    | cons b bs =>
      obtain ⟨ha, hl⟩ := List.nodup_cons.1 hl
      have hwf := Memory.wf_write m a.toNat b a.isLt hm
      have hout : ∀ p ∈ l, a.toNat ≠ p.toNat := fun p hp he => ha (BitVec.eq_of_toNat_eq he ▸ hp)
      simp only [Memory.writeAll, List.map_cons, List.cons.injEq]
      exact ⟨by rw [Memory.read_writeAll_outside _ l bs _ hwf hout, Memory.read_write_same m _ b hm],
        ih _ _ hwf hl (by simpa using hlen)⟩

/-- Two writes one after the other are one write of both lists. -/
theorem Memory.writeAll_append (m : Memory) (l l' : List Word) (bs bs' : List Byte) (h : l.length = bs.length) :
    (m.writeAll l bs).writeAll l' bs' = m.writeAll (l ++ l') (bs ++ bs') := by
  induction l generalizing m bs with
  | nil => cases bs <;> simp_all [Memory.writeAll]
  | cons a l ih =>
    cases bs with
    | nil => simp at h
    | cons b bs => exact ih _ _ (by simpa using h)

/-! ## What devices store -/

theorem Memory.wf_deviceWrites (m : Memory) (map : List Region) (l : List (Word × Byte)) (hm : m.wf = true) :
    (m.deviceWrites map l).wf = true := by
  induction l generalizing m with
  | nil => exact hm
  | cons w rest ih =>
    refine ih _ ?_
    split
    · exact Memory.wf_write _ _ _ w.1.isLt hm
    · exact hm

/-- A byte that is not ram keeps its value (20_memory.md R68). -/
theorem Memory.read_deviceWrites_not_ram (m : Memory) (map : List Region) (l : List (Word × Byte)) (p : Word)
    (hm : m.wf = true) (hp : kindAt map p.toNat ≠ .ram) : (m.deviceWrites map l).read p.toNat = m.read p.toNat := by
  induction l generalizing m with
  | nil => rfl
  | cons w rest ih =>
    simp only [Memory.deviceWrites]
    split
    · rename_i hw
      rw [ih _ (Memory.wf_write _ _ _ w.1.isLt hm), Memory.read_write_other _ _ _ _ hm]
      intro h
      exact hp (by rw [h]; exact hw)
    · exact ih _ hm

/-- A byte no device stores to keeps its value. -/
theorem Memory.read_deviceWrites_none (m : Memory) (map : List Region) (l : List (Word × Byte)) (p : Word)
    (hm : m.wf = true) (hl : ∀ w ∈ l, w.1 ≠ p) : (m.deviceWrites map l).read p.toNat = m.read p.toNat := by
  induction l generalizing m with
  | nil => rfl
  | cons w rest ih =>
    have hn : p.toNat ≠ w.1.toNat := fun h => hl w (List.mem_cons_self ..) (BitVec.eq_of_toNat_eq h).symm
    have hw : (if kindAt map w.1.toNat = .ram then m.write w.1.toNat w.2 else m).read p.toNat = m.read p.toNat := by
      split
      · exact Memory.read_write_other _ _ _ _ hm hn
      · rfl
    rw [Memory.deviceWrites, ih _ (by split; exacts [Memory.wf_write _ _ _ w.1.isLt hm, hm])
      fun v hv => hl v (List.mem_cons_of_mem _ hv), hw]

/-- A byte of ram holds the last byte a device stored there (20_memory.md R74). -/
theorem Memory.read_deviceWrites_last (m : Memory) (map : List Region) (before after : List (Word × Byte)) (p : Word)
    (b : Byte) (hm : m.wf = true) (hp : kindAt map p.toNat = .ram) (hl : ∀ w ∈ after, w.1 ≠ p) :
    (m.deviceWrites map (before ++ (p, b) :: after)).read p.toNat = b := by
  induction before generalizing m with
  | nil =>
    rw [List.nil_append, Memory.deviceWrites, if_pos hp,
      Memory.read_deviceWrites_none _ _ _ _ (Memory.wf_write _ _ _ p.isLt hm) hl, Memory.read_write_same _ _ _ hm]
  | cons w rest ih =>
    exact ih _ (by split; exacts [Memory.wf_write _ _ _ w.1.isLt hm, hm])

end Sys2Proof.Machine
end

