-- ==== Sys2Proof/Laws/Registers.lean ====
section
/-!
SUPPORT. Register files, latches and the register read and write (10_state.md R24, R25, R39).
-/

namespace Sys2Proof.Machine

@[simp] theorem Bank.get_set_same (b : Bank) (i : Fin 8) (v : Word) : (b.set i v).get i = v := by
  fin_cases i <;> rfl

theorem Bank.get_set_other (b : Bank) (i j : Fin 8) (v : Word) (h : j ≠ i) : (b.set i v).get j = b.get j := by
  fin_cases i <;> fin_cases j <;> first | rfl | exact absurd rfl h

theorem Bank.get_set (b : Bank) (i j : Fin 8) (v : Word) : (b.set i v).get j = if j = i then v else b.get j := by
  by_cases h : j = i
  · subst h; simp
  · simp [h, Bank.get_set_other b i j v h]

@[simp] theorem Latches.get_set_same (l : Latches) (n : Irq) (v : Bool) : (l.set n v).get n = v := by
  cases n <;> rfl

theorem Latches.get_set_other (l : Latches) (n k : Irq) (v : Bool) (h : k ≠ n) : (l.set n v).get k = l.get k := by
  cases n <;> cases k <;> first | rfl | exact absurd rfl h

theorem Latches.get_set (l : Latches) (n k : Irq) (v : Bool) :
    (l.set n v).get k = if k = n then v else l.get k := by
  by_cases h : k = n
  · subst h; simp
  · simp [h, Latches.get_set_other l n k v h]

@[simp] theorem State.x_flags (s : State) : s.x .flags = (0#1 ++ s.flags : BitVec 16) := rfl

/-- Every register is a whole number of bytes, at most 4 (R95). -/
theorem Ref.width_bytes (ref : Ref) : ref.width % 8 = 0 ∧ ref.width ≤ 32 := by
  cases ref <;> simp [Ref.width]

/-- R27: bit 15 of FLAGS reads 0. -/
theorem State.flags_image (s : State) : (0#1 ++ s.flags : BitVec 16) = s.flags.setWidth 16 := by
  ext i hi
  rw [BitVec.getElem_setWidth, ← BitVec.getLsbD_eq_getElem]
  erw [BitVec.getLsbD_append]
  split
  · rfl
  · rename_i h
    rw [BitVec.getLsbD_of_ge s.flags i (by omega)]; simp

@[simp] theorem State.x_r (s : State) (i : Fin 8) : s.x (.r i) = s.r.get i := rfl

@[simp] theorem State.x_h (s : State) (i : Fin 8) : s.x (.h i) = (s.r.get i).extractLsb' 0 16 := rfl

@[simp] theorem State.x_b (s : State) (i : Fin 8) : s.x (.b i) = (s.r.get i).extractLsb' 0 8 := rfl

@[simp] theorem State.x_f (s : State) (i : Fin 8) : s.x (.f i) = s.f.get i := rfl

/-- The register reads depend on the register fields alone. -/
theorem State.x_congr {s t : State} (hr : t.r = s.r) (hf : t.f = s.f) (hfl : t.flags = s.flags) (hu : t.uspr = s.uspr)
    (hk : t.kspr = s.kspr) (hp : t.pdpr = s.pdpr) (hi : t.imr = s.imr) (ref : Ref) : t.x ref = s.x ref := by
  cases ref <;> simp [State.x, *]

end Sys2Proof.Machine
end

