-- ==== Sys2Proof/Laws/Ops.lean ====
section
/-!
SUPPORT. One lemma for each shared operation that says what it can do: memory access, stack, raising, how an instruction
ends. Provers cite these instead of unfolding.
-/

namespace Sys2Proof.Machine

/-! ## Addresses -/

@[simp] theorem addrs_length (a : Word) (n : Nat) : (addrs a n).length = n := by
  induction n generalizing a with
  | zero => rfl
  | succ n ih => simp [addrs, ih]

theorem addrs_append (a : Word) (m n : Nat) : addrs a (m + n) = addrs a m ++ addrs (a + BitVec.ofNat 32 m) n := by
  induction m generalizing a with
  | zero => simp [addrs]
  | succ m ih =>
    rw [show m + 1 + n = (m + n) + 1 by omega, addrs, addrs, ih]
    have : a + 1 + BitVec.ofNat 32 m = a + BitVec.ofNat 32 (m + 1) := by
      rw [BitVec.add_assoc]; congr 1
      apply BitVec.eq_of_toNat_eq; simp [Nat.add_comm]
    rw [this, List.cons_append]

/-- The three items of an interrupt frame (60_exceptions.md R307). -/
theorem addrs_frame (a : Word) : addrs a 8 = addrs a 2 ++ (addrs (a + 2) 4 ++ addrs (a + 6) 2) := by
  rw [show 8 = 2 + (4 + 2) from rfl, addrs_append, addrs_append, BitVec.add_assoc]; rfl

/-- The two items CALL pushes (44_flow_control.md R275). -/
theorem addrs_call (a : Word) : addrs a 6 = addrs a 2 ++ addrs (a + 2) 4 := by
  rw [show 6 = 2 + 4 from rfl, addrs_append]; rfl

theorem mem_addrs (a v : Word) (n : Nat) (hn : n ≤ 2 ^ 32) : v ∈ addrs a n ↔ (v - a).toNat < n := by
  induction n generalizing a with
  | zero => simp [addrs]
  | succ n ih =>
    rw [addrs, List.mem_cons, ih (a + 1) (by omega)]
    by_cases h : v = a
    · subst h; simp
    · have hne : (v - a).toNat ≠ 0 := by
        intro h0
        exact h (by bv_omega)
      have : (v - (a + 1)).toNat = (v - a).toNat - 1 := by bv_omega
      simp only [h, false_or, this]
      omega

theorem nodup_addrs (a : Word) (n : Nat) (hn : n ≤ 2 ^ 32) : (addrs a n).Nodup := by
  induction n generalizing a with
  | zero => simp [addrs]
  | succ n ih =>
    rw [addrs, List.nodup_cons, mem_addrs _ _ _ (by omega)]
    refine ⟨?_, ih _ (by omega)⟩
    have : (a - (a + 1)).toNat = 2 ^ 32 - 1 := by bv_omega
    omega

theorem addrs_getElem (a : Word) (n k : Nat) (h : k < (addrs a n).length) :
    (addrs a n)[k] = a + BitVec.ofNat 32 k := by
  induction n generalizing a k with
  | zero => simp [addrs] at h
  | succ n ih =>
    cases k with
    | zero => simp [addrs]
    | succ k =>
      simp only [addrs, List.getElem_cons_succ]
      rw [ih]
      rw [BitVec.add_assoc]; congr 1
      apply BitVec.eq_of_toNat_eq; simp [Nat.add_comm]

/-! ## The bytes of a value -/

@[simp] theorem bytesOfNat_length (n v : Nat) : (bytesOfNat n v).length = n := by
  induction n with
  | zero => rfl
  | succ n ih => simp [bytesOfNat, ih]

@[simp] theorem toBytes_length {w : Nat} (v : BitVec w) : (toBytes v).length = w / 8 := bytesOfNat_length _ _

theorem valueOfBytes_append (l l' : List Byte) (acc : Nat) :
    valueOfBytes (l ++ l') acc = valueOfBytes l' (valueOfBytes l acc) := by
  induction l generalizing acc with
  | nil => rfl
  | cons b l ih => simp [valueOfBytes, ih]

theorem valueOfBytes_bytesOfNat (n v acc : Nat) :
    valueOfBytes (bytesOfNat n v) acc = acc * 256 ^ n + v % 256 ^ n := by
  induction n generalizing acc with
  | zero => simp [bytesOfNat, valueOfBytes, Nat.mod_one]
  | succ n ih =>
    have h : v % 256 ^ (n + 1) = v / 256 ^ n % 256 * 256 ^ n + v % 256 ^ n := by
      rw [pow_succ, Nat.mod_mul]; ring
    simp only [bytesOfNat, valueOfBytes, ih, BitVec.toNat_ofNat, h]
    ring

/-- A value of whole bytes is read back from its bytes (20_memory.md R62). -/
theorem ofBytes_toBytes {w : Nat} (hw : w % 8 = 0) (v : BitVec w) : ofBytes w (toBytes v) = v := by
  have h : 256 ^ (w / 8) = 2 ^ w := by
    rw [show (256 : Nat) = 2 ^ 8 from rfl, ← pow_mul]; congr 1; omega
  apply BitVec.eq_of_toNat_eq
  simp [ofBytes, toBytes, valueOfBytes_bytesOfNat, h, Nat.mod_eq_of_lt v.isLt]

/-- Byte k of a value (20_memory.md R62). -/
theorem bytesOfNat_getElem (n v k : Nat) (h : k < (bytesOfNat n v).length) :
    (bytesOfNat n v)[k] = BitVec.ofNat 8 (v / 256 ^ (n - 1 - k)) := by
  induction n generalizing k with
  | zero => simp [bytesOfNat] at h
  | succ n ih =>
    cases k with
    | zero => simp [bytesOfNat]
    | succ k =>
      simp only [bytesOfNat, List.getElem_cons_succ]
      rw [ih]
      congr 3; omega

/-! ## Which addresses an access reaches -/

theorem State.reaches_kernel {s : State} {acc : Access} {l pl : List Word} (h : s.mode = .kernel) :
    s.Reaches acc l pl ↔ pl = l := by
  simp [State.Reaches, h]

theorem State.reaches_user {s : State} {acc : Access} {l pl : List Word} (h : s.mode = .user) :
    s.Reaches acc l pl ↔ (l.map fun v => s.translate v acc) = pl.map Translation.ok := by
  simp [State.Reaches, h]

theorem State.Reaches.length {s : State} {acc : Access} {l pl : List Word} (h : s.Reaches acc l pl) :
    pl.length = l.length := by
  cases hm : s.mode with
  | kernel => rw [State.reaches_kernel hm] at h; rw [h]
  | user =>
    rw [State.reaches_user hm] at h
    have := congrArg List.length h
    simpa using this.symm

/-- An access to two lists of addresses one after the other reaches two lists. -/
theorem State.reaches_append {s : State} {acc : Access} {l l' pl : List Word} :
    s.Reaches acc (l ++ l') pl ↔ ∃ p p', pl = p ++ p' ∧ s.Reaches acc l p ∧ s.Reaches acc l' p' := by
  cases hm : s.mode with
  | kernel =>
    simp only [State.reaches_kernel hm]
    exact ⟨fun h => ⟨l, l', h, rfl, rfl⟩, by rintro ⟨_, _, h, rfl, rfl⟩; exact h⟩
  | user =>
    simp only [State.reaches_user hm, List.map_append]
    constructor
    · intro h
      obtain ⟨p, p', h1, h2, h3⟩ := List.map_eq_append_iff.1 h.symm
      exact ⟨p, p', h1, h2.symm, h3.symm⟩
    · rintro ⟨p, p', rfl, h1, h2⟩
      rw [h1, h2, List.map_append]

theorem filterMap_ok (pl : List Word) :
    (pl.map Translation.ok).filterMap Translation.address = pl := by
  induction pl with
  | nil => rfl
  | cons p pl ih => simp [Translation.address, ih]

theorem all_ok_of_no_fault (ts : List Translation) (hf : (ts.any fun t => decide (t = .fault)) = false)
    (hr : (ts.any fun t => decide (t = .readOnly)) = false) :
    ts = (ts.filterMap Translation.address).map Translation.ok := by
  induction ts with
  | nil => rfl
  | cons t ts ih =>
    simp only [List.any_cons, Bool.or_eq_false_iff] at hf hr
    cases t with
    | ok p => simpa [Translation.address] using ih hf.2 hr.2
    | fault => simp at hf
    | readOnly => simp at hr

/-- `resolve` answers exactly the addresses the access reaches. -/
theorem State.resolve_eq_ok {s : State} {acc : Access} {l pl : List Word} :
    s.resolve acc l = .ok pl ↔ s.Reaches acc l pl := by
  cases hm : s.mode with
  | kernel =>
    rw [State.reaches_kernel hm]
    simp only [State.resolve, hm, Except.ok.injEq]
    exact eq_comm
  | user =>
    rw [State.reaches_user hm]
    simp only [State.resolve, hm]
    constructor
    · intro h
      split at h
      · exact absurd h (by simp)
      · split at h
        · exact absurd h (by simp)
        · rename_i h1 h2
          rw [Except.ok.injEq] at h
          exact (all_ok_of_no_fault _ (by simpa using h1) (by simpa using h2)).trans (by rw [h])
    · intro h
      rw [h]
      have h1 : ((pl.map Translation.ok).any fun t => decide (t = .fault)) = false := by simp
      have h2 : ((pl.map Translation.ok).any fun t => decide (t = .readOnly)) = false := by simp
      simp only [h1, h2, Bool.false_eq_true, if_false, filterMap_ok]

theorem State.resolve_kernel {s : State} (h : s.mode = .kernel) (acc : Access) (l : List Word) :
    s.resolve acc l = .ok l := by
  simp [State.resolve, h]

/-- A translation that faults raises PageFault. -/
theorem State.resolve_of_faults {s : State} {acc : Access} {l : List Word} (h : s.Faults acc l) :
    s.resolve acc l = .error (.raise .pageFault) := by
  obtain ⟨hm, v, hv, hf⟩ := h
  have : ((l.map fun a => s.translate a acc).any fun t => decide (t = .fault)) = true := by
    simp only [List.any_map, List.any_eq_true]; exact ⟨v, hv, by simp [hf]⟩
  simp only [State.resolve, hm, this, if_true]

/-- What `resolve` can fail with: in user mode a page fault or, on a write, an illegal operation. -/
theorem State.resolve_eq_error {s : State} {acc : Access} {l : List Word} {e : Stop} (h : s.resolve acc l = .error e) :
    s.mode = .user ∧ (e = .raise .pageFault ∨ e = .raise .illegalOperation) := by
  unfold State.resolve at h
  cases hm : s.mode with
  | kernel => simp [hm] at h
  | user =>
    simp only [hm] at h
    refine ⟨rfl, ?_⟩
    split at h
    · exact .inl (by simpa using h.symm)
    · split at h
      · exact .inr (by simpa using h.symm)
      · simp at h

/-! ## Access to physical memory -/

theorem State.AllRam.readable {s : State} {l : List Word} (h : s.AllRam l) : s.Readable l :=
  fun p hp => .inl (h p hp)

theorem State.readable_append {s : State} {l l' : List Word} :
    s.Readable (l ++ l') ↔ s.Readable l ∧ s.Readable l' :=
  List.forall_mem_append

theorem State.allRam_append {s : State} {l l' : List Word} : s.AllRam (l ++ l') ↔ s.AllRam l ∧ s.AllRam l' :=
  List.forall_mem_append

theorem State.bytesAt_append (s : State) (l l' : List Word) : s.bytesAt (l ++ l') = s.bytesAt l ++ s.bytesAt l' :=
  List.map_append

theorem State.accessible_eq_ok {s : State} {l : List Word} : s.accessible l = .ok () ↔ s.Readable l := by
  have key : ∀ k : RegionKind, k ≠ .absent ∧ k ≠ .device ↔ k = .ram ∨ k = .readOnly := by
    intro k; cases k <;> simp
  have h2 : s.accessible l = .ok () ↔ ∀ p ∈ l, s.kindOf p ≠ .absent ∧ s.kindOf p ≠ .device := by
    unfold State.accessible
    split
    · rename_i h
      simp only [List.any_eq_true, decide_eq_true_eq] at h
      obtain ⟨p, hp, hk⟩ := h
      simp only [reduceCtorEq, false_iff]
      exact fun hc => (hc p hp).1 hk
    · split
      · rename_i h1 h
        simp only [List.any_eq_true, decide_eq_true_eq] at h
        obtain ⟨p, hp, hk⟩ := h
        simp only [reduceCtorEq, false_iff]
        exact fun hc => (hc p hp).2 hk
      · rename_i h1 h
        simp only [List.any_eq_true, decide_eq_true_eq, not_exists, not_and] at h1 h
        simp only [true_iff]
        exact fun p hp => ⟨h1 p hp, h p hp⟩
  rw [h2]
  exact forall₂_congr fun p _ => key _

theorem State.accessible_eq_error {s : State} {l : List Word} {e : Stop} (h : s.accessible l = .error e) :
    e = .fault .absentAddress ∨ e = .refuse .deviceAccess := by
  unfold State.accessible at h
  split at h
  · exact .inl (by simpa using h.symm)
  · split at h
    · exact .inr (by simpa using h.symm)
    · simp at h

theorem State.physRead_eq_ok {s : State} {l : List Word} {bs : List Byte} :
    s.physRead l = .ok bs ↔ s.Readable l ∧ bs = s.bytesAt l := by
  rw [← State.accessible_eq_ok]
  unfold State.physRead State.bytesAt
  cases h : s.accessible l with
  | error e => simp [bind, Except.bind]
  | ok u => simp [bind, Except.bind, eq_comm]

theorem State.physWrite_eq_ok {s t : State} {l : List Word} {bs : List Byte} :
    s.physWrite l bs = .ok t ↔ s.AllRam l ∧ t = s.setMem (s.mem.writeAll l bs) := by
  unfold State.physWrite
  split
  · rename_i h
    simp only [List.any_eq_true, decide_eq_true_eq] at h
    obtain ⟨p, hp, hk⟩ := h
    simp only [reduceCtorEq, false_iff]
    exact fun hc => by simpa [hk] using hc.1 p hp
  · rename_i h
    simp only [List.any_eq_true, decide_eq_true_eq, not_exists, not_and] at h
    have hr : s.Readable l ↔ s.AllRam l := by
      refine forall₂_congr fun p hp => ?_
      simp [h p hp]
    rw [← hr, ← State.accessible_eq_ok]
    cases h : s.accessible l with
    | error e => simp [bind, Except.bind]
    | ok u => simp [bind, Except.bind, eq_comm]

theorem State.physWrite_readOnly {s : State} {l : List Word} {bs : List Byte} (h : ∃ p ∈ l, s.kindOf p = .readOnly) :
    s.physWrite l bs = .error (.raise .illegalOperation) := by
  have : (l.any fun a => decide (s.kindOf a = .readOnly)) = true := by simpa using h
  simp only [State.physWrite, this, if_true]

/-- `MemRead` answers a value exactly where the access reaches readable addresses: the big-endian value there (R64). -/
theorem State.memRead_eq_ok {s : State} {w : Nat} {a : Word} {v : BitVec w} :
    s.memRead w a = .ok v ↔
      ∃ pl, s.Reaches .read (addrs a (w / 8)) pl ∧ s.Readable pl ∧ v = ofBytes w (s.bytesAt pl) := by
  unfold State.memRead
  cases h : s.resolve .read (addrs a (w / 8)) with
  | error e =>
    have : ∀ pl, ¬s.Reaches .read (addrs a (w / 8)) pl := fun pl hr => by
      rw [← State.resolve_eq_ok, h] at hr; simp at hr
    simp [bind, Except.bind, this]
  | ok pl =>
    have hr : ∀ pl', s.Reaches .read (addrs a (w / 8)) pl' ↔ pl' = pl := fun pl' => by
      rw [← State.resolve_eq_ok, h, Except.ok.injEq]; exact eq_comm
    simp only [hr, exists_eq_left]
    cases h2 : s.physRead pl with
    | error e =>
      have : ¬s.Readable pl := fun hc => by
        have := State.physRead_eq_ok.2 ⟨hc, rfl⟩
        rw [h2] at this; simp at this
      simp [bind, Except.bind, h2, this]
    | ok bs =>
      obtain ⟨h3, rfl⟩ := State.physRead_eq_ok.1 h2
      simp [bind, Except.bind, h2, h3, eq_comm]

theorem State.memRead_of {s : State} {w : Nat} {a : Word} {pl : List Word}
    (h : s.Reaches .read (addrs a (w / 8)) pl) (hr : s.Readable pl) :
    s.memRead w a = .ok (ofBytes w (s.bytesAt pl)) :=
  State.memRead_eq_ok.2 ⟨pl, h, hr, rfl⟩

theorem State.memRead_kernel {s : State} {w : Nat} {a : Word} (hm : s.mode = .kernel)
    (hr : s.Readable (addrs a (w / 8))) : s.memRead w a = .ok (s.valueAt w a) :=
  State.memRead_of ((State.reaches_kernel hm).2 rfl) hr

/-- `MemWrite` completes exactly where the access reaches ram alone, and stores the bytes there (R65). -/
theorem State.memWrite_eq_ok {s t : State} {w : Nat} {a : Word} {v : BitVec w} :
    s.memWrite a v = .ok t ↔
      ∃ pl, s.Reaches .write (addrs a (w / 8)) pl ∧ s.AllRam pl ∧ t = s.setMem (s.mem.writeAll pl (toBytes v)) := by
  unfold State.memWrite
  cases h : s.resolve .write (addrs a (w / 8)) with
  | error e =>
    have : ∀ pl, ¬s.Reaches .write (addrs a (w / 8)) pl := fun pl hr => by
      rw [← State.resolve_eq_ok, h] at hr; simp at hr
    simp [bind, Except.bind, this]
  | ok pl =>
    have hr : ∀ pl', s.Reaches .write (addrs a (w / 8)) pl' ↔ pl' = pl := fun pl' => by
      rw [← State.resolve_eq_ok, h, Except.ok.injEq]; exact eq_comm
    simp only [hr, exists_eq_left, bind, Except.bind]
    exact State.physWrite_eq_ok

theorem State.memWrite_of {s : State} {w : Nat} {a : Word} {v : BitVec w} {pl : List Word}
    (h : s.Reaches .write (addrs a (w / 8)) pl) (hr : s.AllRam pl) :
    s.memWrite a v = .ok (s.setMem (s.mem.writeAll pl (toBytes v))) :=
  State.memWrite_eq_ok.2 ⟨pl, h, hr, rfl⟩

/-- A read raises an interrupt in user mode alone (60_exceptions.md R312). -/
theorem State.memRead_eq_raise {s : State} {w : Nat} {a : Word} {c : Cause} (h : s.memRead w a = .error (.raise c)) :
    s.mode = .user := by
  unfold State.memRead at h
  cases hr : s.resolve .read (addrs a (w / 8)) with
  | error e => exact (State.resolve_eq_error hr).1
  | ok pl =>
    simp only [hr, bind, Except.bind, State.physRead] at h
    cases ha : s.accessible pl with
    | ok u => simp [ha] at h
    | error e =>
      simp only [ha] at h
      rcases State.accessible_eq_error ha with rfl | rfl <;> simp at h

theorem State.memRead_of_faults {s : State} {w : Nat} {a : Word} (h : s.Faults .read (addrs a (w / 8))) :
    s.memRead w a = .error (.raise .pageFault) := by
  simp [State.memRead, State.resolve_of_faults h, bind, Except.bind]

theorem State.memWrite_of_faults {s : State} {w : Nat} {a : Word} {v : BitVec w}
    (h : s.Faults .write (addrs a (w / 8))) : s.memWrite a v = .error (.raise .pageFault) := by
  simp [State.memWrite, State.resolve_of_faults h, bind, Except.bind]

/-- A write that meets a read-only byte raises IllegalOperation (R63, R65). -/
theorem State.memWrite_of_refused {s : State} {w : Nat} {a : Word} {v : BitVec w}
    (h : s.WriteRefused (addrs a (w / 8))) : s.memWrite a v = .error (.raise .illegalOperation) := by
  unfold State.WriteRefused at h
  cases hm : s.mode with
  | kernel =>
    simp only [hm] at h
    simp [State.memWrite, State.resolve_kernel hm, bind, Except.bind, State.physWrite_readOnly h]
  | user =>
    simp only [hm] at h
    obtain ⟨hnf, v', hv, hro⟩ := h
    cases hres : s.resolve .write (addrs a (w / 8)) with
    | error e =>
      rcases (State.resolve_eq_error hres).2 with rfl | rfl
      · exfalso
        simp only [State.resolve, hm] at hres
        split at hres
        · rename_i hany
          simp only [List.any_map, List.any_eq_true, Function.comp, decide_eq_true_eq] at hany
          obtain ⟨x, hx, hxf⟩ := hany
          exact hnf x hx hxf
        · split at hres
          · simp at hres
          · simp at hres
      · simp [State.memWrite, hres, bind, Except.bind]
    | ok pl =>
      have hr := (State.reaches_user hm).1 (State.resolve_eq_ok.1 hres)
      simp only [State.memWrite, hres, bind, Except.bind]
      refine State.physWrite_readOnly ?_
      have hmem : s.translate v' .write ∈ pl.map Translation.ok := hr ▸ List.mem_map_of_mem hv
      obtain ⟨p, hp, hpe⟩ := List.mem_map.1 hmem
      rcases hro with h1 | ⟨p', h1, h2⟩
      · rw [h1] at hpe; simp at hpe
      · rw [h1] at hpe
        obtain rfl : p = p' := by simpa using hpe
        exact ⟨p, hp, h2⟩

/-! ## What accesses depend on -/

theorem State.translate_congr {s t : State} (hm : t.mem = s.mem) (hu : t.mmu = s.mmu) (hp : t.pdpr = s.pdpr)
    (v : Word) (acc : Access) : t.translate v acc = s.translate v acc := by
  simp [State.translate, hm, hu, hp]

theorem State.kindOf_congr {s t : State} (h : t.physMap = s.physMap) (a : Word) : t.kindOf a = s.kindOf a := by
  simp [State.kindOf, h]

theorem State.reaches_congr {s t : State} (hmo : t.mode = s.mode)
    (ht : s.mode = .user → ∀ v acc, t.translate v acc = s.translate v acc) (acc : Access) (l pl : List Word) :
    t.Reaches acc l pl ↔ s.Reaches acc l pl := by
  cases h : s.mode with
  | kernel => rw [State.reaches_kernel h, State.reaches_kernel (hmo.trans h)]
  | user => rw [State.reaches_user h, State.reaches_user (hmo.trans h)]; simp [ht h]

theorem State.readable_congr {s t : State} (h : t.physMap = s.physMap) (l : List Word) : t.Readable l ↔ s.Readable l := by
  simp [State.Readable, State.kindOf, h]

theorem State.allRam_congr {s t : State} (h : t.physMap = s.physMap) (l : List Word) : t.AllRam l ↔ s.AllRam l := by
  simp [State.AllRam, State.kindOf, h]

theorem State.bytesAt_congr {s t : State} (h : t.mem = s.mem) (l : List Word) : t.bytesAt l = s.bytesAt l := by
  simp [State.bytesAt, h]

/-- What a write of the bytes to the addresses leaves (for `State.Stores`). -/
theorem State.stores_writeAll {s t : State} {l : List Word} {bs : List Byte} (hs : s.Inv) (hlen : l.length = bs.length)
    (ht : t.mem = s.mem.writeAll l bs) : s.Stores t l bs := by
  refine ⟨fun hn => ?_, fun a ha => ?_⟩
  · rw [State.bytesAt, ht]; exact Memory.read_writeAll s.mem l bs hs hn hlen
  · rw [ht]; exact Memory.read_writeAll_outside s.mem l bs a hs ha

/-- Two writes, the second in front of the first in the list: the bytes of both (44_flow_control.md R275). -/
theorem State.stores_two {s t : State} {l l' : List Word} {bs bs' : List Byte} (hs : s.Inv)
    (hlen : l.length = bs.length) (hlen' : l'.length = bs'.length)
    (ht : t.mem = (s.mem.writeAll l' bs').writeAll l bs) : s.Stores t (l ++ l') (bs ++ bs') := by
  rw [Memory.writeAll_append _ _ _ _ _ hlen'] at ht
  obtain ⟨h1, h2⟩ := State.stores_writeAll (bs := bs' ++ bs) hs (by simp [hlen, hlen']) ht
  refine ⟨fun hn => ?_, fun a ha => h2 a fun p hp => ha p (by rw [List.mem_append] at hp ⊢; exact hp.symm)⟩
  have h := h1 (List.perm_append_comm.nodup_iff.1 hn)
  rw [State.bytesAt_append] at h ⊢
  obtain ⟨r1, r2⟩ := List.append_inj h (by simp [State.bytesAt, hlen'])
  rw [r1, r2]

/-! ## The stack -/

@[simp] theorem State.sp_setSp (s : State) (v : Word) : (s.setSp v).sp = v := by
  unfold State.setSp State.sp
  cases h : s.mode <;> simp

theorem State.reaches_setSp {s : State} {v : Word} {acc : Access} {l pl : List Word} :
    (s.setSp v).Reaches acc l pl ↔ s.Reaches acc l pl :=
  State.reaches_congr (by simp) (fun _ v acc => State.translate_congr (by simp) (by simp) (by simp) v acc) acc l pl

theorem State.allRam_setSp {s : State} {v : Word} {l : List Word} : (s.setSp v).AllRam l ↔ s.AllRam l :=
  State.allRam_congr (by simp) l

theorem State.readable_setSp {s : State} {v : Word} {l : List Word} : (s.setSp v).Readable l ↔ s.Readable l :=
  State.readable_congr (by simp) l

/-- `Push` where the bytes below the stack pointer are ram (R66). -/
theorem State.push_of {s : State} {w : Nat} {v : BitVec w} {pl : List Word}
    (h : s.Reaches .write (addrs (s.sp - BitVec.ofNat 32 (w / 8)) (w / 8)) pl) (hr : s.AllRam pl) :
    s.push v = .ok ((s.setSp (s.sp - BitVec.ofNat 32 (w / 8))).setMem (s.mem.writeAll pl (toBytes v))) := by
  simp only [State.push, State.sp_setSp]
  rw [State.memWrite_of (State.reaches_setSp.2 h) (State.allRam_setSp.2 hr), State.setSp_mem]

/-- `Pop` where the bytes at the stack pointer can be read (R66). -/
theorem State.pop_of {s : State} {w : Nat} {pl : List Word} (h : s.Reaches .read (addrs s.sp (w / 8)) pl)
    (hr : s.Readable pl) :
    s.pop w = .ok (ofBytes w (s.bytesAt pl), s.setSp (s.sp + BitVec.ofNat 32 (w / 8))) := by
  simp [State.pop, State.memRead_of h hr, bind, Except.bind]

/-- `Push` in kernel mode, on KSPR (R33, R66). -/
theorem State.push_kernel {s : State} (h : s.mode = .kernel) {w : Nat} (v : BitVec w)
    (hr : s.AllRam (addrs (s.kspr - BitVec.ofNat 32 (w / 8)) (w / 8))) :
    s.push v = .ok { s with
      kspr := s.kspr - BitVec.ofNat 32 (w / 8),
      mem := s.mem.writeAll (addrs (s.kspr - BitVec.ofNat 32 (w / 8)) (w / 8)) (toBytes v) } := by
  rw [State.push_of ((State.reaches_kernel h).2 rfl) (by rwa [State.sp_kernel s h]), State.sp_kernel s h,
    State.setSp_kernel s h]
  rfl

/-- `Pop` in kernel mode, on KSPR (R33, R66). -/
theorem State.pop_kernel {s : State} (h : s.mode = .kernel) (w : Nat) (hr : s.Readable (addrs s.kspr (w / 8))) :
    s.pop w = .ok (s.valueAt w s.kspr, { s with kspr := s.kspr + BitVec.ofNat 32 (w / 8) }) := by
  rw [State.pop_of ((State.reaches_kernel h).2 rfl) (by rwa [State.sp_kernel s h]), State.sp_kernel s h,
    State.setSp_kernel s h]
  rfl

/-! ## Faults and refusals in related states -/

theorem State.Faults.mono {s : State} {acc : Access} {l l' : List Word} (h : s.Faults acc l) (hl : ∀ v ∈ l, v ∈ l') :
    s.Faults acc l' := by
  obtain ⟨hu, v, hv, hf⟩ := h
  exact ⟨hu, v, hl v hv, hf⟩

/-- Two states with one mode and one translation fault on the same addresses. -/
theorem State.faults_congr {s t : State} (hmo : t.mode = s.mode)
    (ht : s.mode = .user → ∀ v acc, t.translate v acc = s.translate v acc) (acc : Access) (l : List Word) :
    t.Faults acc l ↔ s.Faults acc l := by
  cases h : s.mode with
  | kernel => simp [State.Faults, h, hmo]
  | user => simp [State.Faults, hmo, ht h]

theorem State.writeRefused_congr {s t : State} (hmo : t.mode = s.mode) (hp : t.physMap = s.physMap)
    (ht : s.mode = .user → ∀ v acc, t.translate v acc = s.translate v acc) (l : List Word) :
    t.WriteRefused l ↔ s.WriteRefused l := by
  cases h : s.mode with
  | kernel => simp [State.WriteRefused, h, hmo, State.kindOf_congr hp]
  | user => simp [State.WriteRefused, h, hmo, ht h, State.kindOf_congr hp]

theorem State.translate_setSp {s : State} {a : Word} (v : Word) (acc : Access) :
    (s.setSp a).translate v acc = s.translate v acc :=
  State.translate_congr (by simp) (by simp) (by simp) v acc

theorem State.faults_setSp {s : State} {v : Word} {acc : Access} {l : List Word} :
    (s.setSp v).Faults acc l ↔ s.Faults acc l :=
  State.faults_congr (by simp) (fun _ v acc => State.translate_setSp v acc) acc l

theorem State.writeRefused_setSp {s : State} {v : Word} {l : List Word} :
    (s.setSp v).WriteRefused l ↔ s.WriteRefused l :=
  State.writeRefused_congr (by simp) (by simp) (fun _ v acc => State.translate_setSp v acc) l

theorem State.translate_setMem_setSp {s : State} {a : Word} {m : Memory} (v : Word) (acc : Access) :
    ((s.setSp a).setMem m).translate v acc = (s.setMem m).translate v acc :=
  State.translate_congr (s := s.setMem m) (t := (s.setSp a).setMem m) rfl (State.setSp_mmu _ _) (State.setSp_pdpr _ _) v acc

theorem State.faults_setMem_setSp {s : State} {a : Word} {m : Memory} {acc : Access} {l : List Word} :
    ((s.setSp a).setMem m).Faults acc l ↔ (s.setMem m).Faults acc l :=
  State.faults_congr (s := s.setMem m) (t := (s.setSp a).setMem m) (State.setSp_mode _ _)
    (fun _ => State.translate_setMem_setSp) acc l

theorem State.writeRefused_setMem_setSp {s : State} {a : Word} {m : Memory} {l : List Word} :
    ((s.setSp a).setMem m).WriteRefused l ↔ (s.setMem m).WriteRefused l :=
  State.writeRefused_congr (s := s.setMem m) (t := (s.setSp a).setMem m) (State.setSp_mode _ _)
    (State.setSp_physMap _ _) (fun _ => State.translate_setMem_setSp) l

theorem State.faults_setMem {s : State} (hs : s.Steady) (m : Memory) (acc : Access) (l : List Word) :
    (s.setMem m).Faults acc l ↔ s.Faults acc l :=
  State.faults_congr (s := s) (t := s.setMem m) rfl (fun hu v acc => hs hu m v acc) acc l

theorem State.writeRefused_setMem {s : State} (hs : s.Steady) (m : Memory) (l : List Word) :
    (s.setMem m).WriteRefused l ↔ s.WriteRefused l :=
  State.writeRefused_congr (s := s) (t := s.setMem m) rfl rfl (fun hu v acc => hs hu m v acc) l

theorem State.steady_setSp {s : State} {a : Word} (hs : s.Steady) : (s.setSp a).Steady := by
  intro hu m v acc
  rw [State.translate_setSp, ← hs (by simpa using hu) m v acc, State.translate_setMem_setSp]

/-! ## How an instruction ends -/

@[simp] theorem settle_ok (len : Option Nat) (s t : State) : settle len s (.ok t) = .next t := rfl

@[simp] theorem settle_raise (len : Option Nat) (s : State) (c : Cause) :
    settle len s (.error (.raise c)) = .next (s.raise c len) := rfl

@[simp] theorem completes_ok (len : Option Nat) (s t : State) :
    completes len s (.ok t) = .next (t.advance (len.getD 0)) := rfl

@[simp] theorem completes_error (len : Option Nat) (s : State) (e : Stop) :
    completes len s (.error e) = settle len s (.error e) := rfl

/-- A next state comes from the body or from an interrupt it raises. -/
theorem settle_eq_next {len : Option Nat} {s t : State} {body : Exec State} (h : settle len s body = .next t) :
    body = .ok t ∨ ∃ c, body = .error (.raise c) ∧ t = s.raise c len := by
  unfold settle at h
  split at h
  · exact .inl (by simpa using h)
  · exact .inr ⟨_, rfl, by simpa using h.symm⟩
  · simp at h
  · simp at h

theorem completes_eq_next {len : Option Nat} {s t : State} {body : Exec State} (h : completes len s body = .next t) :
    (∃ u, body = .ok u ∧ t = u.advance (len.getD 0)) ∨ ∃ c, body = .error (.raise c) ∧ t = s.raise c len := by
  cases body with
  | ok u => exact .inl ⟨u, rfl, by simpa using h.symm⟩
  | error e =>
    have h' : settle len s (.error e) = .next t := h
    rcases settle_eq_next h' with h' | ⟨c, h', ht⟩
    · simp at h'
    · exact .inr ⟨c, h', ht⟩

/-- An interrupt raised by an instruction of known length, a page fault apart: the latch and `pc` (R309). -/
theorem State.raise_some {s : State} {c : Cause} (hc : c ≠ .pageFault) (n : Nat) :
    s.raise c (some n) = s.trapped c.irq n := by
  cases c <;> first | exact absurd rfl hc | rfl

theorem State.raise_pageFault (s : State) (len : Option Nat) :
    s.raise .pageFault len =
      { s with latch := s.latch.set .pageFault true, pc := Config.freeWord s.draws, draws := s.draws + 1 } := rfl

/-- Whatever is raised: the latch is set, `pc` and the count of free values may change, nothing else. -/
theorem State.raise_eq (s : State) (c : Cause) (len : Option Nat) :
    s.raise c len = { s with latch := s.latch.set c.irq true, pc := (s.raise c len).pc, draws := (s.raise c len).draws } := by
  cases c <;> cases len <;> rfl

@[simp] theorem need_true : need true = .ok () := rfl

@[simp] theorem need_false : need false = .error (.raise .illegalOperation) := rfl

theorem need_eq_ok {b : Bool} : need b = .ok () ↔ b = true := by
  cases b <;> simp [need]

theorem need_eq_error {b : Bool} {e : Stop} (h : need b = .error e) : b = false ∧ e = .raise .illegalOperation := by
  cases b
  · exact ⟨rfl, by simpa [need] using h.symm⟩
  · simp [need] at h

/-! ## The end of an instruction, as an update of fields -/

theorem State.advance_eq (s : State) (n : Nat) : s.advance n = { s with pc := s.pc + BitVec.ofNat 32 n } := rfl

theorem State.advance_of_pc {s : State} {p : Word} (h : s.pc = p) (n : Nat) :
    s.advance n = { s with pc := p + BitVec.ofNat 32 n } := by
  subst h; rfl

theorem State.advance_setX (s : State) (ref : Ref) (v : BitVec ref.width) (n : Nat) :
    (s.setX ref v).advance n = { s.setX ref v with pc := s.pc + BitVec.ofNat 32 n } := by
  cases ref <;> rfl

theorem State.advance_setX_setMem (s : State) (ref : Ref) (v : BitVec ref.width) (m : Memory) (n : Nat) :
    ((s.setMem m).setX ref v).advance n = { s.setX ref v with mem := m, pc := s.pc + BitVec.ofNat 32 n } := by
  cases ref <;> rfl

/-! ## Legality -/

theorem State.needKernel_kernel {s : State} (h : s.mode = .kernel) : s.needKernel = .ok () := by
  simp [State.needKernel, h]

theorem State.needKernel_user {s : State} (h : s.mode = .user) :
    s.needKernel = .error (.raise .illegalOperation) := by
  simp [State.needKernel, h]

theorem State.legal_any {s : State} {ref : Ref} : s.legal .any ref = true ↔ s.Allows ref := by
  unfold State.legal State.Allows RefClass.accepts
  cases ref <;> cases s.mode <;> simp [isPrivilegedRef, Ref.named]

theorem State.legal_integer {s : State} {ref : Ref} : s.legal .integer ref = true ↔ IsGeneral ref := by
  unfold State.legal IsGeneral RefClass.accepts
  cases ref <;> cases s.mode <;> simp [isPrivilegedRef, regclassWide]

@[simp] theorem State.legal_address_r (s : State) (i : Fin 8) : s.legal .address (.r i) = true := by
  simp [State.legal, RefClass.accepts, isPrivilegedRef]

@[simp] theorem State.legal_byte_b (s : State) (i : Fin 8) : s.legal .byte (.b i) = true := by
  simp [State.legal, RefClass.accepts, isPrivilegedRef]

theorem State.legal_address {s : State} {ref : Ref} (h : s.legal .address ref = true) : ∃ i, ref = .r i := by
  cases ref <;> simp_all [State.legal, RefClass.accepts, regclassWide]

theorem State.legal_byte {s : State} {ref : Ref} (h : s.legal .byte ref = true) : ∃ i, ref = .b i := by
  cases ref <;> simp_all [State.legal, RefClass.accepts]

@[simp] theorem isFloatRef_iff {ref : Ref} : isFloatRef ref = true ↔ IsFloat ref := by
  cases ref <;> simp [isFloatRef, IsFloat]

theorem isFloatRef_eq_false {ref : Ref} : isFloatRef ref = false ↔ ¬IsFloat ref := by
  rw [← isFloatRef_iff, Bool.not_eq_true]

theorem isFloatRef_congr {a b : Ref} (h : IsFloat a ↔ IsFloat b) : isFloatRef a = isFloatRef b := by
  rw [Bool.eq_iff_iff]; simpa using h

theorem IsGeneral.named {ref : Ref} (h : IsGeneral ref) : ref.named = true := by
  obtain ⟨i, rfl | rfl | rfl⟩ := h <;> rfl

theorem IsGeneral.not_flags {ref : Ref} (h : IsGeneral ref) : ref ≠ .flags := by
  obtain ⟨i, rfl | rfl | rfl⟩ := h <;> simp

@[simp] theorem State.addressIn_r (s : State) (i : Fin 8) : s.addressIn (.r i) = s.r.get i := by
  simp [State.addressIn, State.xAs]

theorem vlLength_named {rd : Ref} (h : rd.named = true) : vlLength rd = some (2 + bytesOf rd) := by
  simp [vlLength, h, bytesOf]

end Sys2Proof.Machine
end

