-- ==== Sys2Proof/Laws/Blockcopy.lean ====
section
/-!
SUPPORT. What the loops of BLOCKCOPY do to memory (41_data_movement.md R158), where every byte of both ranges can be
accessed and the translation does not depend on what they write.
-/

namespace Sys2Proof.Machine

/-- Bytes copied one after the other between two lists of addresses. -/
def Memory.copyEach (m : Memory) : List Word → List Word → Memory
  | q :: pd, p :: ps => Memory.copyEach (m.write q.toNat (m.read p.toNat)) pd ps
  | _, _ => m

/-- The free bytes of draw `draw` from index k on. -/
def freeBytes (draw k : Nat) : Nat → List Byte
  | 0 => []
  | n + 1 => Config.freeByte draw k :: freeBytes draw (k + 1) n

@[simp] theorem freeBytes_length (draw k n : Nat) : (freeBytes draw k n).length = n := by
  induction n generalizing k with
  | zero => rfl
  | succ n ih => simp [freeBytes, ih]

theorem Memory.wf_copyEach (m : Memory) (pd ps : List Word) (hm : m.wf = true) : (m.copyEach pd ps).wf = true := by
  induction pd generalizing m ps with
  | nil => exact hm
  | cons q pd ih =>
    cases ps with
    | nil => exact hm
    | cons p ps => exact ih _ _ (Memory.wf_write _ _ _ q.isLt hm)

theorem Memory.read_copyEach_outside (m : Memory) (pd ps : List Word) (a : Nat) (hm : m.wf = true)
    (h : ∀ q ∈ pd, a ≠ q.toNat) : (m.copyEach pd ps).read a = m.read a := by
  induction pd generalizing m ps with
  | nil => rfl
  | cons q pd ih =>
    cases ps with
    | nil => rfl
    | cons p ps =>
      rw [Memory.copyEach, ih _ _ (Memory.wf_write _ _ _ q.isLt hm) fun r hr => h r (List.mem_cons_of_mem _ hr)]
      exact Memory.read_write_other _ _ _ _ hm (h q (List.mem_cons_self ..))

/-- Copied onto itself memory reads as before. -/
theorem Memory.read_copyEach_self (m : Memory) (pd : List Word) (a : Nat) (hm : m.wf = true) :
    (m.copyEach pd pd).read a = m.read a := by
  induction pd generalizing m with
  | nil => rfl
  | cons q pd ih =>
    rw [Memory.copyEach, ih _ (Memory.wf_write _ _ _ q.isLt hm), Memory.read_write _ _ _ _ hm]
    split
    · rename_i h; rw [h]
    · rfl

/-- Copied between lists that share no address every byte arrives. -/
theorem Memory.read_copyEach (m : Memory) (pd ps : List Word) (hm : m.wf = true) (hl : pd.length = ps.length)
    (hd : ∀ p ∈ pd, p ∉ ps) (hn : pd.Nodup) :
    (pd.map fun q => (m.copyEach pd ps).read q.toNat) = ps.map fun p => m.read p.toNat := by
  induction pd generalizing m ps with
  | nil =>
    obtain rfl : ps = [] := List.length_eq_zero_iff.1 (by simpa using hl.symm)
    rfl
  | cons q pd ih =>
    cases ps with
    | nil => simp at hl
    | cons p ps =>
      have hw := Memory.wf_write m q.toNat (m.read p.toNat) q.isLt hm
      rw [List.nodup_cons] at hn
      have hne : ∀ r : Word, r ≠ q → r.toNat ≠ q.toNat := fun r hr he => hr (BitVec.eq_of_toNat_eq he)
      simp only [List.map_cons, Memory.copyEach]
      congr 1
      · rw [Memory.read_copyEach_outside _ _ _ _ hw fun r hr he => hn.1 (by
          have : q = r := BitVec.eq_of_toNat_eq he
          rw [this]; exact hr)]
        exact Memory.read_write_same _ _ _ hm
      · rw [ih _ _ hw (by simpa using hl) (fun r hr hs => hd r (List.mem_cons_of_mem _ hr) (List.mem_cons_of_mem _ hs)) hn.2]
        refine List.map_congr_left fun r hr => ?_
        exact Memory.read_write_other _ _ _ _ hm (hne r fun he =>
          hd q (List.mem_cons_self ..) (by rw [← he]; exact List.mem_cons_of_mem _ hr))

/-! ## The loops -/

theorem State.memRead_byte {s : State} {a p : Word} (h : s.Reaches .read [a] [p]) (hr : s.Readable [p]) :
    s.memRead 8 a = .ok (s.mem.read p.toNat) := by
  rw [State.memRead_of (w := 8) h hr]
  congr 1
  apply BitVec.eq_of_toNat_eq
  simp [ofBytes, State.bytesAt, valueOfBytes]

theorem State.memWrite_byte {s : State} {a p : Word} (b : Byte) (h : s.Reaches .write [a] [p]) (hr : s.AllRam [p]) :
    s.memWrite a b = .ok (s.setMem (s.mem.write p.toNat b)) := by
  rw [State.memWrite_of (w := 8) h hr]
  simp [toBytes, bytesOfNat, Memory.writeAll]

/-- The reach of an access after memory alone has changed. -/
theorem State.reaches_setMem {s : State} (hs : s.Steady) (m : Memory) (acc : Access) (l pl : List Word) :
    (s.setMem m).Reaches acc l pl ↔ s.Reaches acc l pl :=
  State.reaches_congr (s := s) (t := s.setMem m) rfl (fun hu v acc => hs hu m v acc) acc l pl

theorem State.reaches_cons {s : State} {acc : Access} {a : Word} {l pl : List Word} (h : s.Reaches acc (a :: l) pl) :
    ∃ p pl', pl = p :: pl' ∧ s.Reaches acc [a] [p] ∧ s.Reaches acc l pl' := by
  have h' : s.Reaches acc ([a] ++ l) pl := h
  obtain ⟨p1, p2, rfl, h1, h2⟩ := State.reaches_append.1 h'
  obtain ⟨p, rfl⟩ : ∃ p, p1 = [p] := List.length_eq_one_iff.1 (by simpa using h1.length)
  exact ⟨p, p2, rfl, h1, h2⟩

theorem addrs_step (a : Word) (k n : Nat) :
    addrs (a + BitVec.ofNat 32 k) (n + 1) = (a + BitVec.ofNat 32 k) :: addrs (a + BitVec.ofNat 32 (k + 1)) n := by
  rw [addrs]
  congr 2
  rw [BitVec.add_assoc]; congr 1
  apply BitVec.eq_of_toNat_eq; simp

/-- The copying loop without overlap: byte after byte. -/
theorem State.copyBytes_of {s : State} (hs : s.Steady) (dst src : Word) (m : Memory) (k n : Nat) (pd ps : List Word)
    (h1 : s.Reaches .read (addrs (src + BitVec.ofNat 32 k) n) ps) (h2 : s.Readable ps)
    (h3 : s.Reaches .write (addrs (dst + BitVec.ofNat 32 k) n) pd) (h4 : s.AllRam pd) :
    (s.setMem m).copyBytes dst src none k n = .ok (s.setMem (m.copyEach pd ps)) := by
  induction n generalizing m k pd ps with
  | zero =>
    obtain rfl : pd = [] := List.length_eq_zero_iff.1 (by simpa using h3.length)
    rfl
  | succ n ih =>
    rw [addrs_step] at h1 h3
    obtain ⟨p, ps, rfl, r1, r2⟩ := State.reaches_cons h1
    obtain ⟨q, pd, rfl, w1, w2⟩ := State.reaches_cons h3
    have hp := State.memRead_byte ((State.reaches_setMem hs m _ _ _).2 r1)
      (fun x hx => h2 x (by simp at hx; simp [hx]))
    have hq := State.memWrite_byte (m.read p.toNat) ((State.reaches_setMem hs m _ _ _).2 w1)
      (fun x hx => h4 x (by simp at hx; simp [hx]))
    simp only [State.copyBytes, bind, Except.bind, hp]
    have hq' : (s.setMem m).memWrite (dst + BitVec.ofNat 32 k) ((s.setMem m).mem.read p.toNat) =
        .ok (s.setMem (m.write q.toNat (m.read p.toNat))) := hq
    rw [hq']
    exact ih _ (k + 1) pd ps r2 (fun x hx => h2 x (List.mem_cons_of_mem _ hx)) w2
      fun x hx => h4 x (List.mem_cons_of_mem _ hx)

/-- The copying loop with overlap: free bytes at the destination (U7). -/
theorem State.copyBytes_free_of {s : State} (hs : s.Steady) (dst src : Word) (draw : Nat) (m : Memory) (k n : Nat)
    (pd ps : List Word)
    (h1 : s.Reaches .read (addrs (src + BitVec.ofNat 32 k) n) ps) (h2 : s.Readable ps)
    (h3 : s.Reaches .write (addrs (dst + BitVec.ofNat 32 k) n) pd) (h4 : s.AllRam pd) :
    (s.setMem m).copyBytes dst src (some draw) k n = .ok (s.setMem (m.writeAll pd (freeBytes draw k n))) := by
  induction n generalizing m k pd ps with
  | zero =>
    obtain rfl : pd = [] := List.length_eq_zero_iff.1 (by simpa using h3.length)
    rfl
  | succ n ih =>
    rw [addrs_step] at h1 h3
    obtain ⟨p, ps, rfl, r1, r2⟩ := State.reaches_cons h1
    obtain ⟨q, pd, rfl, w1, w2⟩ := State.reaches_cons h3
    have hp := State.memRead_byte ((State.reaches_setMem hs m _ _ _).2 r1)
      (fun x hx => h2 x (by simp at hx; simp [hx]))
    have hq := State.memWrite_byte (Config.freeByte draw k) ((State.reaches_setMem hs m _ _ _).2 w1)
      (fun x hx => h4 x (by simp at hx; simp [hx]))
    simp only [State.copyBytes, bind, Except.bind, hp, hq]
    exact ih _ (k + 1) pd ps r2 (fun x hx => h2 x (List.mem_cons_of_mem _ hx)) w2
      fun x hx => h4 x (List.mem_cons_of_mem _ hx)

/-- What the loop over the destination of a copy that faulted leaves: memory alone, at writable bytes alone. -/
theorem State.scramble_kernel {s : State} (hm : s.mode = .kernel) (dst : Word) (draw k n : Nat) (hs : s.Inv) :
    s.scramble dst draw k n = s.setMem (s.scramble dst draw k n).mem ∧
      s.SameMemoryOutside (s.scramble dst draw k n)
        ((addrs (dst + BitVec.ofNat 32 k) n).filter fun p => decide (s.kindOf p = .ram)) := by
  induction n generalizing s k with
  | zero => exact ⟨rfl, fun _ _ => rfl⟩
  | succ n ih =>
    rw [addrs_step]
    simp only [State.scramble]
    split
    · rename_i t hw
      obtain ⟨pl, r1, r2, rfl⟩ := State.memWrite_eq_ok.1 hw
      rw [State.reaches_kernel hm] at r1
      obtain rfl : pl = [dst + BitVec.ofNat 32 k] := r1
      obtain ⟨e1, e2⟩ := ih (s := s.setMem (s.mem.writeAll [dst + BitVec.ofNat 32 k] (toBytes (Config.freeByte draw k)))) hm (k + 1) (Memory.wf_writeAll _ _ _ hs)
      refine ⟨e1, fun a ha => ?_⟩
      have hram : s.kindOf (dst + BitVec.ofNat 32 k) = .ram := r2 _ (List.mem_singleton.2 rfl)
      rw [e2 a fun p hp => ha p ?_]
      · refine Memory.read_writeAll_outside _ _ _ _ hs fun q hq => ha q ?_
        obtain rfl := List.mem_singleton.1 hq
        simp [hram]
      · rw [List.filter_cons]
        simp only [hram, decide_true, if_true]
        exact List.mem_cons_of_mem _ hp
    · obtain ⟨e1, e2⟩ := ih (s := s) hm (k + 1) hs
      refine ⟨e1, fun a ha => e2 a fun p hp => ha p ?_⟩
      rw [List.filter_cons]
      split
      · exact List.mem_cons_of_mem _ hp
      · exact hp

/-- The same in any mode where the translation does not depend on memory: ram bytes the destination range reaches. -/
theorem State.scramble_writable {s : State} (hs : s.Steady) (dst : Word) (draw : Nat) (m : Memory) (k n : Nat)
    (hm : m.wf = true) :
    ∃ m' : Memory, (s.setMem m).scramble dst draw k n = s.setMem m' ∧
      ∀ a : Nat, (∀ p : Word, s.Writable (addrs (dst + BitVec.ofNat 32 k) n) p → a ≠ p.toNat) →
        m'.read a = m.read a := by
  induction n generalizing m k with
  | zero => exact ⟨m, rfl, fun _ _ => rfl⟩
  | succ n ih =>
    have tail : ∀ p : Word, s.Writable (addrs (dst + BitVec.ofNat 32 (k + 1)) n) p →
        s.Writable (addrs (dst + BitVec.ofNat 32 k) (n + 1)) p := by
      rintro p ⟨hp, v, hv, hr⟩
      exact ⟨hp, v, by rw [addrs_step]; exact List.mem_cons_of_mem _ hv, hr⟩
    simp only [State.scramble]
    split
    · rename_i t hw
      obtain ⟨pl, r1, r2, rfl⟩ := State.memWrite_eq_ok.1 hw
      have r1' := (State.reaches_setMem hs m _ _ _).1 r1
      obtain ⟨q, rfl⟩ : ∃ q, pl = [q] := List.length_eq_one_iff.1 (by simpa using r1'.length)
      obtain ⟨m', e1, e2⟩ := ih (m.writeAll [q] (toBytes (Config.freeByte draw k))) (k + 1) (Memory.wf_writeAll _ _ _ hm)
      refine ⟨m', e1, fun a ha => ?_⟩
      rw [e2 a fun p hp => ha p (tail p hp)]
      refine Memory.read_writeAll_outside _ _ _ _ hm fun p hp => ha p ?_
      obtain rfl := List.mem_singleton.1 hp
      exact ⟨r2 _ (List.mem_singleton.2 rfl), _, by rw [addrs_step]; exact List.mem_cons_self .., r1'⟩
    · obtain ⟨m', e1, e2⟩ := ih m (k + 1) hm
      exact ⟨m', e1, fun a ha => e2 a fun p hp => ha p (tail p hp)⟩

/-- The copying loop stops with what stops byte k, the k bytes before it copied. -/
theorem State.copyBytes_stops {s : State} (hs : s.Steady) (dst src : Word) (free : Option Nat) (c : Cause) (m : Memory)
    (j k n : Nat) (pd ps : List Word) (hk : k < n)
    (h1 : s.Reaches .read (addrs (src + BitVec.ofNat 32 j) k) ps) (h2 : s.Readable ps)
    (h3 : s.Reaches .write (addrs (dst + BitVec.ofNat 32 j) k) pd) (h4 : s.AllRam pd)
    (h : ∀ m : Memory, (s.setMem m).memRead 8 (src + BitVec.ofNat 32 (j + k)) = .error (.raise c) ∨
      ((∃ b, (s.setMem m).memRead 8 (src + BitVec.ofNat 32 (j + k)) = .ok b) ∧
        ∀ v : Byte, (s.setMem m).memWrite (dst + BitVec.ofNat 32 (j + k)) v = .error (.raise c))) :
    (s.setMem m).copyBytes dst src free j n = .error (.raise c) := by
  induction k generalizing m j n pd ps with
  | zero =>
    obtain ⟨n, rfl⟩ := Nat.exists_eq_add_of_lt hk
    rw [Nat.zero_add]
    simp only [State.copyBytes, bind, Except.bind]
    rcases h m with hr | ⟨⟨b, hr⟩, hw⟩
    · rw [Nat.add_zero] at hr
      rw [hr]
    · rw [Nat.add_zero] at hr hw
      rw [hr]
      simp only [hw]
  | succ k ih =>
    obtain ⟨n, rfl⟩ := Nat.exists_eq_add_of_lt hk
    rw [addrs_step] at h1 h3
    obtain ⟨p, ps, rfl, r1, r2⟩ := State.reaches_cons h1
    obtain ⟨q, pd, rfl, w1, w2⟩ := State.reaches_cons h3
    have hp := State.memRead_byte ((State.reaches_setMem hs m _ _ _).2 r1) (fun x hx => h2 x (by simp at hx; simp [hx]))
    have hq := fun v => State.memWrite_byte v ((State.reaches_setMem hs m _ _ _).2 w1)
      (fun x hx => h4 x (by simp at hx; simp [hx]))
    simp only [State.copyBytes, bind, Except.bind, hp, hq]
    exact ih _ (j + 1) (k + 1 + n) pd ps (by omega) r2 (fun x hx => h2 x (List.mem_cons_of_mem _ hx)) w2
      (fun x hx => h4 x (List.mem_cons_of_mem _ hx)) (by rwa [show j + 1 + k = j + (k + 1) by omega])

end Sys2Proof.Machine
end

