-- ==== Sys2Proof/Laws/Encoding.lean ====
section
/-!
SUPPORT. The parts of the encoding round trip: register references, literals, the variable literal, and each reader of
the decoder on the bytes the encoder writes (30_encoding.md R92 to R97).
-/

namespace Sys2Proof

/-! ## Register references -/

theorem Ref.toByte_ofByte (c : Byte) : (Ref.ofByte c).toByte = c := by
  revert c; decide +kernel

theorem Ref.ofByte_wf (c : Byte) : (Ref.ofByte c).wf = true := by
  revert c; decide +kernel

/-- A reference an encoding can hold is read back (R95). -/
theorem Ref.ofByte_toByte {ref : Ref} (h : ref.wf = true) : Ref.ofByte ref.toByte = ref := by
  cases ref with
  | invalid c => revert c; decide +kernel
  | r i => revert i; decide
  | h i => revert i; decide
  | b i => revert i; decide
  | f i => revert i; decide
  | flags => rfl
  | uspr => rfl
  | kspr => rfl
  | pdpr => rfl
  | imr => rfl

/-! ## Literals -/

/-- The four bytes of a word make the word again (R94). -/
theorem wordOfBytes_bytes (w : Word) :
    wordOfBytes (w.extractLsb' 24 8) (w.extractLsb' 16 8) (w.extractLsb' 8 8) (w.extractLsb' 0 8) = w := by
  apply BitVec.eq_of_toNat_eq
  simp only [wordOfBytes, BitVec.toNat_append, BitVec.extractLsb'_toNat, Nat.shiftRight_eq_div_pow]
  have := w.isLt
  rw [← Nat.shiftLeft_add_eq_or_of_lt (by omega), ← Nat.shiftLeft_add_eq_or_of_lt (by omega),
    ← Nat.shiftLeft_add_eq_or_of_lt (by omega)]
  simp only [Nat.shiftLeft_eq]
  omega

/-- The two bytes of a half make the half again (R94). -/
theorem halfOfBytes_bytes (h : Half) : halfOfBytes (h.extractLsb' 8 8) (h.extractLsb' 0 8) = h := by
  apply BitVec.eq_of_toNat_eq
  simp only [halfOfBytes, BitVec.toNat_append, BitVec.extractLsb'_toNat, Nat.shiftRight_eq_div_pow]
  have := h.isLt
  rw [← Nat.shiftLeft_add_eq_or_of_lt (by omega)]
  simp only [Nat.shiftLeft_eq]
  omega

theorem bytesOfHalf_halfOfBytes (b1 b0 : Byte) : bytesOfHalf (halfOfBytes b1 b0) = [b1, b0] := by
  have h : halfOfBytes b1 b0 = b1 ++ b0 := rfl
  simp only [bytesOfHalf, List.cons.injEq, and_true]
  constructor
  · exact BitVec.extractLsb'_append_eq_left
  · exact BitVec.extractLsb'_append_eq_right

theorem bytesOfWord_wordOfBytes (b3 b2 b1 b0 : Byte) : bytesOfWord (wordOfBytes b3 b2 b1 b0) = [b3, b2, b1, b0] := by
  simp only [bytesOfWord, wordOfBytes, List.cons.injEq, and_true]
  refine ⟨?_, ?_, ?_, ?_⟩ <;>
    (ext i hi; simp only [BitVec.getElem_extractLsb', BitVec.getLsbD_append]; rw [← BitVec.getLsbD_eq_getElem])
  · simp [show ¬ 24 + i < 8 by omega, show ¬ 24 + i - 8 < 8 by omega, show ¬ 24 + i - 8 - 8 < 8 by omega,
      show 24 + i - 8 - 8 - 8 = i by omega]
  · simp [show ¬ 16 + i < 8 by omega, show ¬ 16 + i - 8 < 8 by omega, show 16 + i - 8 - 8 = i by omega, hi]
  · simp [show ¬ 8 + i < 8 by omega, hi]
  · simp [hi]

@[simp] theorem bytesOfWord_length (w : Word) : (bytesOfWord w).length = 4 := rfl

@[simp] theorem bytesOfHalf_length (h : Half) : (bytesOfHalf h).length = 2 := rfl

/-! ## The readers on written bytes -/

@[simp] theorem readW_append (mk : Word → Instr) (w : Word) (rest : List Byte) :
    readW mk (bytesOfWord w ++ rest) = .ok (mk w, rest) := by
  simp [bytesOfWord, readW, wordOfBytes_bytes]

/-- The variable literal after its register (R97). -/
theorem readLit_append (mk : Lit → Instr) {rd : Ref} {lit : Lit} (h : Lit.fits rd lit = true) (rest : List Byte) :
    readLit mk rd (lit.bytes ++ rest) = .ok (mk lit, rest) := by
  cases rd <;> cases lit <;>
    first
    | (simp [readLit, Lit.bytes, bytesOfHalf, bytesOfWord, wordOfBytes_bytes, halfOfBytes_bytes]; done)
    | simp [Lit.fits] at h

theorem readRL_append (mk : Ref → Lit → Instr) {rd : Ref} {lit : Lit} (hr : rd.wf = true) (h : Lit.fits rd lit = true)
    (rest : List Byte) : readRL mk (rd.toByte :: (lit.bytes ++ rest)) = .ok (mk rd lit, rest) := by
  simp only [readRL, Ref.ofByte_toByte hr]
  exact readLit_append (mk rd) h rest

/-- A variable literal has the length of its register (R97). -/
theorem Lit.fits_length {rd : Ref} {lit : Lit} (h : Lit.fits rd lit = true) : lit.bytes.length = rd.width / 8 := by
  cases rd <;> cases lit <;> first | (simp [Lit.bytes, Ref.width]; done) | simp [Lit.fits] at h

/-! ## What each reader answers -/

theorem readW_eq_ok {mk : Word → Instr} {bs rest : List Byte} {i : Instr} (h : readW mk bs = .ok (i, rest)) :
    ∃ (w0 : Word), i = mk w0 ∧ bs = bytesOfWord w0 ++ rest := by
  unfold readW at h
  split at h
  · obtain ⟨rfl, rfl⟩ := Prod.mk.inj (Except.ok.inj h)
    exact ⟨_, rfl, by simp [bytesOfWord_wordOfBytes]⟩
  · simp at h

theorem readR_append (mk : Ref → Instr) (r0 : Ref) (hr0 : r0.wf = true) (rest : List Byte) :
    readR mk (r0.toByte :: rest) = .ok (mk r0, rest) := by
  simp [readR, Ref.ofByte_toByte hr0]

theorem readR_eq_ok {mk : Ref → Instr} {bs rest : List Byte} {i : Instr} (h : readR mk bs = .ok (i, rest)) :
    ∃ (r0 : Ref), i = mk r0 ∧ bs = r0.toByte :: rest ∧ r0.wf = true := by
  unfold readR at h
  split at h
  · obtain ⟨rfl, rfl⟩ := Prod.mk.inj (Except.ok.inj h)
    exact ⟨_, rfl, by simp [Ref.toByte_ofByte], Ref.ofByte_wf _⟩
  · simp at h

theorem readRW_append (mk : Ref → Word → Instr) (r0 : Ref) (w1 : Word) (hr0 : r0.wf = true) (rest : List Byte) :
    readRW mk (r0.toByte :: (bytesOfWord w1 ++ rest)) = .ok (mk r0 w1, rest) := by
  simp [readRW, bytesOfWord, wordOfBytes_bytes, Ref.ofByte_toByte hr0]

theorem readRW_eq_ok {mk : Ref → Word → Instr} {bs rest : List Byte} {i : Instr} (h : readRW mk bs = .ok (i, rest)) :
    ∃ (r0 : Ref) (w1 : Word), i = mk r0 w1 ∧ bs = r0.toByte :: (bytesOfWord w1 ++ rest) ∧ r0.wf = true := by
  unfold readRW at h
  split at h
  · obtain ⟨rfl, rfl⟩ := Prod.mk.inj (Except.ok.inj h)
    exact ⟨_, _, rfl, by simp [bytesOfWord_wordOfBytes, Ref.toByte_ofByte], Ref.ofByte_wf _⟩
  · simp at h

theorem readRR_append (mk : Ref → Ref → Instr) (r0 : Ref) (r1 : Ref) (hr0 : r0.wf = true) (hr1 : r1.wf = true) (rest : List Byte) :
    readRR mk (r0.toByte :: (r1.toByte :: rest)) = .ok (mk r0 r1, rest) := by
  simp [readRR, Ref.ofByte_toByte hr0, Ref.ofByte_toByte hr1]

theorem readRR_eq_ok {mk : Ref → Ref → Instr} {bs rest : List Byte} {i : Instr} (h : readRR mk bs = .ok (i, rest)) :
    ∃ (r0 : Ref) (r1 : Ref), i = mk r0 r1 ∧ bs = r0.toByte :: (r1.toByte :: rest) ∧ r0.wf = true ∧ r1.wf = true := by
  unfold readRR at h
  split at h
  · obtain ⟨rfl, rfl⟩ := Prod.mk.inj (Except.ok.inj h)
    exact ⟨_, _, rfl, by simp [Ref.toByte_ofByte], Ref.ofByte_wf _, Ref.ofByte_wf _⟩
  · simp at h

theorem readWR_append (mk : Word → Ref → Instr) (w0 : Word) (r1 : Ref) (hr1 : r1.wf = true) (rest : List Byte) :
    readWR mk (bytesOfWord w0 ++ (r1.toByte :: rest)) = .ok (mk w0 r1, rest) := by
  simp [readWR, bytesOfWord, wordOfBytes_bytes, Ref.ofByte_toByte hr1]

theorem readWR_eq_ok {mk : Word → Ref → Instr} {bs rest : List Byte} {i : Instr} (h : readWR mk bs = .ok (i, rest)) :
    ∃ (w0 : Word) (r1 : Ref), i = mk w0 r1 ∧ bs = bytesOfWord w0 ++ (r1.toByte :: rest) ∧ r1.wf = true := by
  unfold readWR at h
  split at h
  · obtain ⟨rfl, rfl⟩ := Prod.mk.inj (Except.ok.inj h)
    exact ⟨_, _, rfl, by simp [bytesOfWord_wordOfBytes, Ref.toByte_ofByte], Ref.ofByte_wf _⟩
  · simp at h

theorem readWWW_append (mk : Word → Word → Word → Instr) (w0 : Word) (w1 : Word) (w2 : Word)  (rest : List Byte) :
    readWWW mk (bytesOfWord w0 ++ (bytesOfWord w1 ++ (bytesOfWord w2 ++ rest))) = .ok (mk w0 w1 w2, rest) := by
  simp [readWWW, bytesOfWord, wordOfBytes_bytes]

theorem readWWW_eq_ok {mk : Word → Word → Word → Instr} {bs rest : List Byte} {i : Instr} (h : readWWW mk bs = .ok (i, rest)) :
    ∃ (w0 : Word) (w1 : Word) (w2 : Word), i = mk w0 w1 w2 ∧ bs = bytesOfWord w0 ++ (bytesOfWord w1 ++ (bytesOfWord w2 ++ rest)) := by
  unfold readWWW at h
  split at h
  · obtain ⟨rfl, rfl⟩ := Prod.mk.inj (Except.ok.inj h)
    exact ⟨_, _, _, rfl, by simp [bytesOfWord_wordOfBytes]⟩
  · simp at h

theorem readWWR_append (mk : Word → Word → Ref → Instr) (w0 : Word) (w1 : Word) (r2 : Ref) (hr2 : r2.wf = true) (rest : List Byte) :
    readWWR mk (bytesOfWord w0 ++ (bytesOfWord w1 ++ (r2.toByte :: rest))) = .ok (mk w0 w1 r2, rest) := by
  simp [readWWR, bytesOfWord, wordOfBytes_bytes, Ref.ofByte_toByte hr2]

theorem readWWR_eq_ok {mk : Word → Word → Ref → Instr} {bs rest : List Byte} {i : Instr} (h : readWWR mk bs = .ok (i, rest)) :
    ∃ (w0 : Word) (w1 : Word) (r2 : Ref), i = mk w0 w1 r2 ∧ bs = bytesOfWord w0 ++ (bytesOfWord w1 ++ (r2.toByte :: rest)) ∧ r2.wf = true := by
  unfold readWWR at h
  split at h
  · obtain ⟨rfl, rfl⟩ := Prod.mk.inj (Except.ok.inj h)
    exact ⟨_, _, _, rfl, by simp [bytesOfWord_wordOfBytes, Ref.toByte_ofByte], Ref.ofByte_wf _⟩
  · simp at h

theorem readWRW_append (mk : Word → Ref → Word → Instr) (w0 : Word) (r1 : Ref) (w2 : Word) (hr1 : r1.wf = true) (rest : List Byte) :
    readWRW mk (bytesOfWord w0 ++ (r1.toByte :: (bytesOfWord w2 ++ rest))) = .ok (mk w0 r1 w2, rest) := by
  simp [readWRW, bytesOfWord, wordOfBytes_bytes, Ref.ofByte_toByte hr1]

theorem readWRW_eq_ok {mk : Word → Ref → Word → Instr} {bs rest : List Byte} {i : Instr} (h : readWRW mk bs = .ok (i, rest)) :
    ∃ (w0 : Word) (r1 : Ref) (w2 : Word), i = mk w0 r1 w2 ∧ bs = bytesOfWord w0 ++ (r1.toByte :: (bytesOfWord w2 ++ rest)) ∧ r1.wf = true := by
  unfold readWRW at h
  split at h
  · obtain ⟨rfl, rfl⟩ := Prod.mk.inj (Except.ok.inj h)
    exact ⟨_, _, _, rfl, by simp [bytesOfWord_wordOfBytes, Ref.toByte_ofByte], Ref.ofByte_wf _⟩
  · simp at h

theorem readWRR_append (mk : Word → Ref → Ref → Instr) (w0 : Word) (r1 : Ref) (r2 : Ref) (hr1 : r1.wf = true) (hr2 : r2.wf = true) (rest : List Byte) :
    readWRR mk (bytesOfWord w0 ++ (r1.toByte :: (r2.toByte :: rest))) = .ok (mk w0 r1 r2, rest) := by
  simp [readWRR, bytesOfWord, wordOfBytes_bytes, Ref.ofByte_toByte hr1, Ref.ofByte_toByte hr2]

theorem readWRR_eq_ok {mk : Word → Ref → Ref → Instr} {bs rest : List Byte} {i : Instr} (h : readWRR mk bs = .ok (i, rest)) :
    ∃ (w0 : Word) (r1 : Ref) (r2 : Ref), i = mk w0 r1 r2 ∧ bs = bytesOfWord w0 ++ (r1.toByte :: (r2.toByte :: rest)) ∧ r1.wf = true ∧ r2.wf = true := by
  unfold readWRR at h
  split at h
  · obtain ⟨rfl, rfl⟩ := Prod.mk.inj (Except.ok.inj h)
    exact ⟨_, _, _, rfl, by simp [bytesOfWord_wordOfBytes, Ref.toByte_ofByte], Ref.ofByte_wf _, Ref.ofByte_wf _⟩
  · simp at h

theorem readRWW_append (mk : Ref → Word → Word → Instr) (r0 : Ref) (w1 : Word) (w2 : Word) (hr0 : r0.wf = true) (rest : List Byte) :
    readRWW mk (r0.toByte :: (bytesOfWord w1 ++ (bytesOfWord w2 ++ rest))) = .ok (mk r0 w1 w2, rest) := by
  simp [readRWW, bytesOfWord, wordOfBytes_bytes, Ref.ofByte_toByte hr0]

theorem readRWW_eq_ok {mk : Ref → Word → Word → Instr} {bs rest : List Byte} {i : Instr} (h : readRWW mk bs = .ok (i, rest)) :
    ∃ (r0 : Ref) (w1 : Word) (w2 : Word), i = mk r0 w1 w2 ∧ bs = r0.toByte :: (bytesOfWord w1 ++ (bytesOfWord w2 ++ rest)) ∧ r0.wf = true := by
  unfold readRWW at h
  split at h
  · obtain ⟨rfl, rfl⟩ := Prod.mk.inj (Except.ok.inj h)
    exact ⟨_, _, _, rfl, by simp [bytesOfWord_wordOfBytes, Ref.toByte_ofByte], Ref.ofByte_wf _⟩
  · simp at h

theorem readRWR_append (mk : Ref → Word → Ref → Instr) (r0 : Ref) (w1 : Word) (r2 : Ref) (hr0 : r0.wf = true) (hr2 : r2.wf = true) (rest : List Byte) :
    readRWR mk (r0.toByte :: (bytesOfWord w1 ++ (r2.toByte :: rest))) = .ok (mk r0 w1 r2, rest) := by
  simp [readRWR, bytesOfWord, wordOfBytes_bytes, Ref.ofByte_toByte hr0, Ref.ofByte_toByte hr2]

theorem readRWR_eq_ok {mk : Ref → Word → Ref → Instr} {bs rest : List Byte} {i : Instr} (h : readRWR mk bs = .ok (i, rest)) :
    ∃ (r0 : Ref) (w1 : Word) (r2 : Ref), i = mk r0 w1 r2 ∧ bs = r0.toByte :: (bytesOfWord w1 ++ (r2.toByte :: rest)) ∧ r0.wf = true ∧ r2.wf = true := by
  unfold readRWR at h
  split at h
  · obtain ⟨rfl, rfl⟩ := Prod.mk.inj (Except.ok.inj h)
    exact ⟨_, _, _, rfl, by simp [bytesOfWord_wordOfBytes, Ref.toByte_ofByte], Ref.ofByte_wf _, Ref.ofByte_wf _⟩
  · simp at h

theorem readRRW_append (mk : Ref → Ref → Word → Instr) (r0 : Ref) (r1 : Ref) (w2 : Word) (hr0 : r0.wf = true) (hr1 : r1.wf = true) (rest : List Byte) :
    readRRW mk (r0.toByte :: (r1.toByte :: (bytesOfWord w2 ++ rest))) = .ok (mk r0 r1 w2, rest) := by
  simp [readRRW, bytesOfWord, wordOfBytes_bytes, Ref.ofByte_toByte hr0, Ref.ofByte_toByte hr1]

theorem readRRW_eq_ok {mk : Ref → Ref → Word → Instr} {bs rest : List Byte} {i : Instr} (h : readRRW mk bs = .ok (i, rest)) :
    ∃ (r0 : Ref) (r1 : Ref) (w2 : Word), i = mk r0 r1 w2 ∧ bs = r0.toByte :: (r1.toByte :: (bytesOfWord w2 ++ rest)) ∧ r0.wf = true ∧ r1.wf = true := by
  unfold readRRW at h
  split at h
  · obtain ⟨rfl, rfl⟩ := Prod.mk.inj (Except.ok.inj h)
    exact ⟨_, _, _, rfl, by simp [bytesOfWord_wordOfBytes, Ref.toByte_ofByte], Ref.ofByte_wf _, Ref.ofByte_wf _⟩
  · simp at h

theorem readRRR_append (mk : Ref → Ref → Ref → Instr) (r0 : Ref) (r1 : Ref) (r2 : Ref) (hr0 : r0.wf = true) (hr1 : r1.wf = true) (hr2 : r2.wf = true) (rest : List Byte) :
    readRRR mk (r0.toByte :: (r1.toByte :: (r2.toByte :: rest))) = .ok (mk r0 r1 r2, rest) := by
  simp [readRRR, Ref.ofByte_toByte hr0, Ref.ofByte_toByte hr1, Ref.ofByte_toByte hr2]

theorem readRRR_eq_ok {mk : Ref → Ref → Ref → Instr} {bs rest : List Byte} {i : Instr} (h : readRRR mk bs = .ok (i, rest)) :
    ∃ (r0 : Ref) (r1 : Ref) (r2 : Ref), i = mk r0 r1 r2 ∧ bs = r0.toByte :: (r1.toByte :: (r2.toByte :: rest)) ∧ r0.wf = true ∧ r1.wf = true ∧ r2.wf = true := by
  unfold readRRR at h
  split at h
  · obtain ⟨rfl, rfl⟩ := Prod.mk.inj (Except.ok.inj h)
    exact ⟨_, _, _, rfl, by simp [Ref.toByte_ofByte], Ref.ofByte_wf _, Ref.ofByte_wf _, Ref.ofByte_wf _⟩
  · simp at h

theorem readRB_append (mk : Ref → Byte → Instr) (r0 : Ref) (n1 : Byte) (hr0 : r0.wf = true) (rest : List Byte) :
    readRB mk (r0.toByte :: (n1 :: rest)) = .ok (mk r0 n1, rest) := by
  simp [readRB, Ref.ofByte_toByte hr0]

theorem readRB_eq_ok {mk : Ref → Byte → Instr} {bs rest : List Byte} {i : Instr} (h : readRB mk bs = .ok (i, rest)) :
    ∃ (r0 : Ref) (n1 : Byte), i = mk r0 n1 ∧ bs = r0.toByte :: (n1 :: rest) ∧ r0.wf = true := by
  unfold readRB at h
  split at h
  · obtain ⟨rfl, rfl⟩ := Prod.mk.inj (Except.ok.inj h)
    exact ⟨_, _, rfl, by simp [Ref.toByte_ofByte], Ref.ofByte_wf _⟩
  · simp at h

theorem readRL_eq_ok {mk : Ref → Lit → Instr} {bs rest : List Byte} {i : Instr} (h : readRL mk bs = .ok (i, rest)) :
    ∃ (rd : Ref) (lit : Lit), i = mk rd lit ∧ bs = rd.toByte :: (lit.bytes ++ rest) ∧ rd.wf = true ∧
      Lit.fits rd lit = true := by
  unfold readRL at h
  split at h
  · rename_i r0 bs'
    have hb := Ref.toByte_ofByte r0
    have hw := Ref.ofByte_wf r0
    generalize Ref.ofByte r0 = rd at *
    unfold readLit at h
    split at h
    · rename_i hwd
      obtain ⟨rfl, rfl⟩ := Prod.mk.inj (Except.ok.inj h)
      refine ⟨rd, .byte _, rfl, by simp [hb, Lit.bytes], hw, ?_⟩
      cases rd <;> first | rfl | simp [Ref.width] at hwd
    · rename_i hwd
      obtain ⟨rfl, rfl⟩ := Prod.mk.inj (Except.ok.inj h)
      refine ⟨rd, .half _, rfl, by simp [hb, Lit.bytes, bytesOfHalf_halfOfBytes], hw, ?_⟩
      cases rd <;> first | rfl | simp [Ref.width] at hwd
    · rename_i hwd
      obtain ⟨rfl, rfl⟩ := Prod.mk.inj (Except.ok.inj h)
      refine ⟨rd, .word _, rfl, by simp [hb, Lit.bytes, bytesOfWord_wordOfBytes], hw, ?_⟩
      cases rd <;> first | rfl | simp [Ref.width] at hwd
    · rename_i hwd
      obtain ⟨rfl, rfl⟩ := Prod.mk.inj (Except.ok.inj h)
      refine ⟨rd, .noLength, rfl, by simp [hb, Lit.bytes], hw, ?_⟩
      cases rd <;> first | rfl | simp [Ref.width] at hwd
    · simp at h
  · simp at h

/-! ## Well-formed operands -/

theorem checkRef_ok {ref : Ref} : checkRef ref = .ok () ↔ ref.wf = true := by
  unfold checkRef; split <;> simp_all

theorem checkRefs_ok {a b : Ref} : checkRefs a b = .ok () ↔ a.wf = true ∧ b.wf = true := by
  unfold checkRefs; split <;> simp_all

theorem checkRefs3_ok {a b c : Ref} : checkRefs3 a b c = .ok () ↔ (a.wf = true ∧ b.wf = true) ∧ c.wf = true := by
  unfold checkRefs3; split <;> simp_all

theorem checkLit_ok {rd : Ref} {lit : Lit} : checkLit rd lit = .ok () ↔ rd.wf = true ∧ Lit.fits rd lit = true := by
  unfold checkLit; split
  · split <;> simp_all
  · simp_all

theorem Instr.wf_iff {i : Instr} : i.wf = true ↔ i.check = .ok () := by
  unfold Instr.wf; split <;> simp_all

end Sys2Proof
end

