-- ==== Sys2Proof/Laws/Fetch.lean ====
section
/-!
SUPPORT. What the fetch of an instruction answers: the bytes at `pc`, in which order they are read, and the instruction
they encode (20_memory.md R71, 30_encoding.md R98).
-/

namespace Sys2Proof.Machine

/-! ## The bytes of the stream -/

theorem State.fetchByte_of {s : State} {k : Nat} {p : Word}
    (h : s.Reaches .fetch [s.pc + BitVec.ofNat 32 k] [p]) (hr : s.Readable [p]) :
    s.fetchByte k = .ok [s.mem.read p.toNat] := by
  have h1 := State.resolve_eq_ok.2 h
  simp only [State.fetchByte, h1, bind, Except.bind]
  exact State.physRead_eq_ok.2 ⟨hr, rfl⟩

/-- `n` bytes from the k-th on, where the fetch reaches them. -/
theorem State.fetchFrom_of {s : State} {k n : Nat} {pl : List Word}
    (h : s.Reaches .fetch (addrs (s.pc + BitVec.ofNat 32 k) n) pl) (hr : s.Readable pl) :
    s.fetchFrom k n = .ok (s.bytesAt pl) := by
  induction n generalizing k pl with
  | zero =>
    have := h.length
    obtain rfl : pl = [] := by simpa using this
    rfl
  | succ n ih =>
    have h' : s.Reaches .fetch ([s.pc + BitVec.ofNat 32 k] ++ addrs (s.pc + BitVec.ofNat 32 (k + 1)) n) pl := by
      have e : s.pc + BitVec.ofNat 32 k + 1 = s.pc + BitVec.ofNat 32 (k + 1) := by
        rw [BitVec.add_assoc]; congr 1
        apply BitVec.eq_of_toNat_eq; simp
      rw [addrs, e] at h; exact h
    obtain ⟨p1, p2, rfl, h1, h2⟩ := State.reaches_append.1 h'
    obtain ⟨p, rfl⟩ : ∃ p, p1 = [p] := List.length_eq_one_iff.1 (by simpa using h1.length)
    rw [State.readable_append] at hr
    simp only [State.fetchFrom, State.fetchByte_of h1 hr.1, ih h2 hr.2, bind, Except.bind, State.bytesAt_append]
    rfl

/-- A later byte whose translation faults stops the fetch with a page fault, the ones before it read. -/
theorem State.fetchFrom_of_faults {s : State} {j k n : Nat} {pl : List Word} (hk : k < n)
    (h : s.Reaches .fetch (addrs (s.pc + BitVec.ofNat 32 j) k) pl) (hr : s.Readable pl)
    (hf : s.Faults .fetch [s.pc + BitVec.ofNat 32 (j + k)]) : s.fetchFrom j n = .error (.raise .pageFault) := by
  induction k generalizing j n pl with
  | zero =>
    obtain ⟨n, rfl⟩ := Nat.exists_eq_add_of_lt hk
    rw [Nat.zero_add]
    simp only [State.fetchFrom, State.fetchByte, State.resolve_of_faults (l := [s.pc + BitVec.ofNat 32 j]) hf, bind,
      Except.bind]
  | succ k ih =>
    obtain ⟨n, rfl⟩ := Nat.exists_eq_add_of_lt hk
    have e : s.pc + BitVec.ofNat 32 j + 1 = s.pc + BitVec.ofNat 32 (j + 1) := by
      rw [BitVec.add_assoc]; congr 1
      apply BitVec.eq_of_toNat_eq; simp
    rw [addrs, e] at h
    have h' : s.Reaches .fetch ([s.pc + BitVec.ofNat 32 j] ++ addrs (s.pc + BitVec.ofNat 32 (j + 1)) k) pl := h
    obtain ⟨p1, p2, rfl, h1, h2⟩ := State.reaches_append.1 h'
    obtain ⟨p, rfl⟩ : ∃ p, p1 = [p] := List.length_eq_one_iff.1 (by simpa using h1.length)
    rw [State.readable_append] at hr
    have hrec := ih (n := k + 1 + n) (by omega) h2 hr.2 (by rwa [show j + 1 + k = j + (k + 1) by omega])
    simp only [State.fetchFrom, State.fetchByte_of h1 hr.1, hrec, bind, Except.bind]

/-- A first byte whose translation faults stops the fetch with a page fault. -/
theorem State.fetch_of_faults {s : State} (h : s.Faults .fetch [s.pc]) : s.fetch = .error (.raise .pageFault) := by
  have h' : s.Faults .fetch [s.pc + BitVec.ofNat 32 0] := by
    have e : s.pc + BitVec.ofNat 32 0 = s.pc := BitVec.add_zero _
    rw [e]; exact h
  have h1 : s.fetchFrom 0 1 = .error (.raise .pageFault) := by
    simp only [State.fetchFrom, State.fetchByte, State.resolve_of_faults h', bind, Except.bind]
  simp only [State.fetch, h1, bind, Except.bind]

end Sys2Proof.Machine
end

