-- ==== Sys2Proof/Laws/Float.lean ====
section
/-!
SUPPORT. What the rounding of `FloatOps` does: fields and magnitude of a packed pattern, and that `roundFloat` rounds to nearest,
ties to even (42_arithmetic.md R181).
-/

namespace Sys2Proof.Machine

/-! ## Patterns -/

/-- The magnitude of bits 30:0, in units of 2^-149. -/
def magnitudeOfBits (bits : Nat) : Nat :=
  if bits / 2 ^ 23 = 0 then bits % 2 ^ 23 else (2 ^ 23 + bits % 2 ^ 23) * 2 ^ (bits / 2 ^ 23 - 1)

theorem packFloat_toNat (neg : Bool) {bits : Nat} (h : bits < 2 ^ 31) :
    (packFloat neg bits).toNat = neg.toNat * 2 ^ 31 + bits := by
  rw [packFloat, BitVec.toNat_append, BitVec.toNat_ofNat, BitVec.toNat_ofBool, Nat.mod_eq_of_lt h,
    ← Nat.shiftLeft_add_eq_or_of_lt h, Nat.shiftLeft_eq]

theorem signBit_packFloat (neg : Bool) (bits : Nat) : signBit (packFloat neg bits) = neg := by
  simp only [signBit, packFloat, BitVec.getLsbD_append]
  cases neg <;> rfl

theorem expField_eq (x : Word) : expField x = x.toNat / 2 ^ 23 % 2 ^ 8 := by
  rw [expField, BitVec.extractLsb'_toNat, Nat.shiftRight_eq_div_pow]

theorem fracField_eq (x : Word) : fracField x = x.toNat % 2 ^ 23 := by
  rw [fracField, BitVec.extractLsb'_toNat, Nat.shiftRight_eq_div_pow, pow_zero, Nat.div_one]

theorem expField_packFloat (neg : Bool) {bits : Nat} (h : bits < 2 ^ 31) :
    expField (packFloat neg bits) = bits / 2 ^ 23 := by
  rw [expField_eq, packFloat_toNat neg h]
  cases neg <;> simp only [Bool.toNat_false, Bool.toNat_true] <;> omega

theorem fracField_packFloat (neg : Bool) {bits : Nat} (h : bits < 2 ^ 31) :
    fracField (packFloat neg bits) = bits % 2 ^ 23 := by
  rw [fracField_eq, packFloat_toNat neg h]
  cases neg <;> simp only [Bool.toNat_false, Bool.toNat_true] <;> omega

theorem isInf_packFloat_infBits (neg : Bool) : isInf (packFloat neg infBits) = true := by
  cases neg <;> decide

/-- Bits 30:0 below those of an infinity are of a number. -/
theorem isFinite_packFloat (neg : Bool) {bits : Nat} (h : bits < infBits) : IsFinite (packFloat neg bits) := by
  have h31 : bits < 2 ^ 31 := lt_trans h (by decide)
  have he := expField_packFloat neg h31
  have : bits / 2 ^ 23 ≠ 255 := by simp only [infBits] at h; omega
  constructor
  · simp only [isNaN, he, beq_eq_false_iff_ne.2 this, Bool.false_and]
  · simp only [isInf, he, beq_eq_false_iff_ne.2 this, Bool.false_and]

theorem magnitude_packFloat (neg : Bool) {bits : Nat} (h : bits < 2 ^ 31) :
    magnitude (packFloat neg bits) = magnitudeOfBits bits := by
  simp only [magnitude, magnitudeOfBits, expField_packFloat neg h, fracField_packFloat neg h]

/-- A significand of 24 bits at the exponent k, normal or k = 0: a carry to 2^24 runs into the exponent. -/
theorem magnitudeOfBits_scaled {k q : Nat} (hq : q ≤ 2 ^ 24) (hn : k = 0 ∨ 2 ^ 23 ≤ q) :
    magnitudeOfBits (k * 2 ^ 23 + q) = q * 2 ^ k := by
  unfold magnitudeOfBits
  rcases Nat.lt_or_ge q (2 ^ 23) with h | h
  · obtain rfl : k = 0 := by omega
    rw [if_pos (by omega)]
    rw [show 0 * 2 ^ 23 + q = q by omega, Nat.mod_eq_of_lt h, pow_zero, Nat.mul_one]
  · rcases Nat.lt_or_ge q (2 ^ 24) with h' | h'
    · have hd : (k * 2 ^ 23 + q) / 2 ^ 23 = k + 1 := by omega
      have hm : (k * 2 ^ 23 + q) % 2 ^ 23 = q - 2 ^ 23 := by omega
      rw [hd, hm, if_neg (by omega), Nat.add_sub_cancel, Nat.add_sub_cancel' h]
    · have hq : q = 2 ^ 24 := by omega
      have hd : (k * 2 ^ 23 + q) / 2 ^ 23 = k + 2 := by omega
      have hm : (k * 2 ^ 23 + q) % 2 ^ 23 = 0 := by omega
      rw [hd, hm, if_neg (by omega), hq, show k + 2 - 1 = k + 1 by omega, Nat.add_zero, pow_succ' 2 k, ← Nat.mul_assoc,
        show 2 ^ 23 * 2 = 2 ^ 24 from rfl]

/-- A finite magnitude is a significand below 2^24 times a power of two, normal or of exponent 0. -/
theorem magnitude_scaled {z : Word} (hz : IsFinite z) :
    ∃ k m, magnitude z = m * 2 ^ k ∧ m < 2 ^ 24 ∧ (k = 0 ∨ 2 ^ 23 ≤ m) ∧ k ≤ 253 := by
  have he : expField z < 2 ^ 8 := BitVec.isLt _
  have hf : fracField z < 2 ^ 23 := BitVec.isLt _
  have hne : expField z ≠ 255 := by
    intro h
    have h1 := hz.1
    have h2 := hz.2
    simp only [isNaN, isInf, h] at h1 h2
    simp_all
  unfold magnitude
  split
  · exact ⟨0, fracField z, by simp, by omega, .inl rfl, by omega⟩
  · exact ⟨expField z - 1, 2 ^ 23 + fracField z, rfl, by omega, .inr (by omega), by omega⟩

/-! ## Rounding -/

/-- Rounding num/d to the quotient or its successor, ties to even: no natural number is closer, and where another is as
close the result is even. -/
theorem roundQuotient_nearest {num d q' : Nat} (hd : 0 < d)
    (hq' : q' = if d < 2 * (num % d) ∨ (2 * (num % d) = d ∧ num / d % 2 = 1) then num / d + 1 else num / d) (m : Nat)
    (hm : m ≠ q') :
    distance (q' * d) num < distance (m * d) num ∨
      (distance (q' * d) num = distance (m * d) num ∧ q' % 2 = 0) := by
  have hdm := Nat.div_add_mod num d
  have hr := Nat.mod_lt num hd
  generalize num / d = q at *
  generalize num % d = r at *
  subst hdm
  have key : ∀ j : Nat, (q + 1 + j) * d = d * q + d + j * d := by intro j; ring
  unfold distance
  split at hq'
  · rename_i hc
    subst hq'
    rw [show (q + 1) * d = d * q + d by ring]
    rcases Nat.lt_trichotomy m (q + 1) with h | h | h
    · obtain ⟨j, rfl⟩ := Nat.exists_eq_add_of_le (show m ≤ q by omega)
      rw [show (m + j) = m + j from rfl, show d * (m + j) = m * d + j * d by ring]
      rcases Nat.eq_zero_or_pos j with rfl | hj
      · rcases hc with hc | ⟨hc, hc2⟩
        · left; omega
        · right; constructor <;> omega
      · have : d ≤ j * d := Nat.le_mul_of_pos_left d hj
        left; omega
    · exact absurd h hm
    · obtain ⟨j, rfl⟩ := Nat.exists_eq_add_of_lt h
      rw [show (q + 1 + j + 1) * d = d * q + d + (j * d + d) by ring]
      left
      have := Nat.zero_le (j * d)
      omega
  · rename_i hc
    rw [not_or, not_and] at hc
    subst hq'
    rw [show q' * d = d * q' by ring]
    rcases Nat.lt_trichotomy m q' with h | h | h
    · obtain ⟨j, rfl⟩ := Nat.exists_eq_add_of_lt h
      rw [show d * (m + j + 1) = m * d + (j * d + d) by ring]
      have := Nat.zero_le (j * d)
      left; omega
    · exact absurd h hm
    · obtain ⟨j, rfl⟩ := Nat.exists_eq_add_of_lt h
      rw [show (q' + j + 1) * d = d * q' + (j * d + d) by ring]
      have := Nat.zero_le (j * d)
      rcases Nat.lt_or_ge (2 * r) d with h2 | h2
      · left; omega
      · have h3 : 2 * r = d := by omega
        have h4 := hc.2 h3
        rcases Nat.eq_zero_or_pos j with rfl | hj
        · right; constructor <;> omega
        · have : d ≤ j * d := Nat.le_mul_of_pos_left d hj
          left; omega

/-- Where `roundFloat` cuts: the quotient by den * 2^k has at most 24 bits, and exactly 24 but at the exponent 0. -/
theorem scale_bounds (num den : Nat) {k : Nat} (hk : k = Nat.log2 (num / den) - 23) :
    num / (den * 2 ^ k) < 2 ^ 24 ∧ (k = 0 ∨ 2 ^ 23 ≤ num / (den * 2 ^ k)) := by
  rw [← Nat.div_div_eq_div_mul]
  generalize num / den = n at *
  have hp : 0 < 2 ^ k := Nat.two_pow_pos k
  rcases Nat.eq_zero_or_pos n with rfl | hn
  · rw [Nat.zero_div]
    exact ⟨by decide, .inl (by rw [hk]; rfl)⟩
  have hlt : n < 2 ^ (n.log2 + 1) := (Nat.log2_lt (by omega)).1 (Nat.lt_succ_self _)
  have hle : 2 ^ n.log2 ≤ n := Nat.log2_self_le (by omega)
  constructor
  · rw [Nat.div_lt_iff_lt_mul hp, ← pow_add]
    exact lt_of_lt_of_le hlt (Nat.pow_le_pow_right (by omega) (by omega))
  · rcases Nat.eq_zero_or_pos k with h | h
    · exact .inl h
    · right
      rw [Nat.le_div_iff_mul_le hp, ← pow_add, show 23 + k = n.log2 by omega]
      exact hle

/-- `roundFloat` rounds to nearest, ties to even (R181). -/
theorem roundFloat_roundsTo (neg : Bool) (num den : Nat) (hden : 0 < den) :
    RoundsTo neg num den (roundFloat neg num den) := by
  obtain ⟨k, hk⟩ : ∃ k, k = Nat.log2 (num / den) - 23 := ⟨_, rfl⟩
  obtain ⟨d, hd⟩ : ∃ d, d = den * 2 ^ k := ⟨_, rfl⟩
  obtain ⟨q', hq'⟩ : ∃ q', q' = if d < 2 * (num % d) ∨ (2 * (num % d) = d ∧ num / d % 2 = 1) then num / d + 1
    else num / d := ⟨_, rfl⟩
  have hr : roundFloat neg num den =
      packFloat neg (if infBits ≤ k * 2 ^ 23 + q' then infBits else k * 2 ^ 23 + q') := by
    subst hq'; subst hd; subst hk; rfl
  have hdpos : 0 < d := hd ▸ Nat.mul_pos hden (Nat.two_pow_pos k)
  obtain ⟨b1, b2⟩ := scale_bounds num den hk
  rw [← hd] at b1 b2
  have hdm := Nat.div_add_mod num d
  have hlt := Nat.mod_lt num hdpos
  have near := roundQuotient_nearest hdpos hq'
  generalize hqv : num / d = q at *
  generalize num % d = r at *
  have c1 : q' ≤ 2 ^ 24 := by rw [hq']; split <;> omega
  have c2 : k = 0 ∨ 2 ^ 23 ≤ q' := b2.imp id fun h => by rw [hq']; split <;> omega
  have big : infBits ≤ k * 2 ^ 23 + q' ↔ overflowBound * den ≤ num := by
    obtain ⟨D, hDe⟩ : ∃ D, D = den * 2 ^ 252 := ⟨_, rfl⟩
    have e : ∀ j, k = 252 + j → d = D * 2 ^ j := by
      intro j hj; rw [hd, hj, pow_add, hDe, Nat.mul_assoc]
    have ob : overflowBound * den = (2 ^ 25 - 1) * D := by
      rw [overflowBound, hDe, Nat.mul_comm den, Nat.mul_assoc]
    rw [ob]
    have hD : 0 < D := hDe ▸ Nat.mul_pos hden (Nat.two_pow_pos 252)
    have hsmall : k < 252 → d ≤ D := by
      intro h; rw [hd, hDe]; exact Nat.mul_le_mul_left _ (Nat.pow_le_pow_right (by omega) (by omega))
    have hi : infBits = 255 * 2 ^ 23 := rfl
    rw [hi]
    rcases Nat.lt_or_ge k 253 with h | h
    · have hdD : d ≤ D := by
        rcases Nat.lt_or_ge k 252 with h' | h'
        · exact hsmall h'
        · have := e 0 (by omega); rw [pow_zero, Nat.mul_one] at this; omega
      have : d * q ≤ D * (2 ^ 24 - 1) := Nat.mul_le_mul hdD (by omega)
      constructor <;> intro hh <;> omega
    · rcases Nat.lt_or_ge k 254 with h' | h'
      · have hd2 : d = D * 2 := by have := e 1 (by omega); rwa [pow_one] at this
        rcases Nat.lt_or_ge q (2 ^ 24 - 1) with hq | hq
        · have : d * q ≤ d * (2 ^ 24 - 2) := Nat.mul_le_mul_left _ (by omega)
          have : q' ≤ 2 ^ 24 - 1 := by rw [hq']; split <;> omega
          constructor <;> intro hh <;> omega
        · have hqe : q = 2 ^ 24 - 1 := by omega
          rw [hqe] at hdm
          rw [hqe] at hq'
          split at hq' <;> constructor <;> intro hh <;> omega
      · have h4 : 4 ≤ 2 ^ (k - 252) := le_trans (by decide) (Nat.pow_le_pow_right (by omega) (show 2 ≤ k - 252 by omega))
        have : D * 4 ≤ d := by rw [e (k - 252) (by omega)]; exact Nat.mul_le_mul_left _ h4
        have : D * 4 * 2 ^ 23 ≤ d * q := Nat.mul_le_mul this (by omega)
        clear h4
        have h1 : (2 ^ 25 - 1) * D ≤ num := by omega
        have h2 : 255 * 2 ^ 23 ≤ k * 2 ^ 23 + q' := by
          rcases c2 with h0 | h0
          · rw [h0] at h'; exact absurd h' (by decide)
          · calc 255 * 2 ^ 23 = 254 * 2 ^ 23 + 2 ^ 23 := rfl
              _ ≤ k * 2 ^ 23 + q' := Nat.add_le_add (Nat.mul_le_mul_right _ h') h0
        exact ⟨fun _ => h1, fun _ => h2⟩
  rw [hr]
  refine ⟨signBit_packFloat _ _, fun h => ?_, fun h => ?_⟩
  · rw [if_pos (big.2 h)]; exact isInf_packFloat_infBits neg
  · have hn : ¬infBits ≤ k * 2 ^ 23 + q' := by rw [big]; exact Nat.not_le_of_lt h
    rw [if_neg hn]
    have hlt' : k * 2 ^ 23 + q' < infBits := by omega
    have h31 : k * 2 ^ 23 + q' < 2 ^ 31 := lt_trans hlt' (by decide)
    have hmag : magnitude (packFloat neg (k * 2 ^ 23 + q')) = q' * 2 ^ k := by
      rw [magnitude_packFloat neg h31, magnitudeOfBits_scaled c1 c2]
    refine ⟨isFinite_packFloat neg hlt', fun z hz hne => ?_⟩
    rw [hmag] at hne ⊢
    obtain ⟨kz, mz, hzm, hm24, hz0, _⟩ := magnitude_scaled hz
    have hyd : q' * 2 ^ k * den = q' * d := by rw [hd]; ring
    rw [hyd]
    rcases Nat.lt_or_ge kz k with hkz | hkz
    · left
      have h23 : 2 ^ 23 ≤ q := by rcases b2 with h0 | h0 <;> omega
      have hle : mz * 2 ^ kz * den < 2 ^ 23 * d := by
        have h1 : mz * 2 ^ kz < 2 ^ 24 * 2 ^ kz := Nat.mul_lt_mul_of_pos_right hm24 (Nat.two_pow_pos kz)
        have h2 : 2 ^ 24 * 2 ^ kz ≤ 2 ^ 23 * 2 ^ k := by
          rw [← pow_add, ← pow_add]; exact Nat.pow_le_pow_right (by omega) (by omega)
        calc mz * 2 ^ kz * den < 2 ^ 23 * 2 ^ k * den := Nat.mul_lt_mul_of_pos_right (by omega) hden
          _ = 2 ^ 23 * d := by rw [hd]; ring
      have hqd : 2 ^ 23 * d ≤ q * d := Nat.mul_le_mul_right d h23
      have hcomm : d * q = q * d := Nat.mul_comm _ _
      have hself : distance (q' * d) num ≤ r := by
        unfold distance
        rw [hq']
        split
        · rw [Nat.add_mul, Nat.one_mul]; omega
        · omega
      rw [hzm]
      unfold distance at hself ⊢
      omega
    · have hM : magnitude z * den = mz * 2 ^ (kz - k) * d := by
        rw [hzm, hd]
        conv_lhs => rw [show kz = k + (kz - k) by omega, pow_add]
        ring
      have hMne : mz * 2 ^ (kz - k) ≠ q' := by
        intro h'
        apply hne
        rw [hzm, ← h']
        conv_lhs => rw [show kz = k + (kz - k) by omega, pow_add]
        ring
      rw [hM]
      refine (near _ hMne).imp id fun h' => ⟨h'.1, ?_⟩
      have hx : (packFloat neg (k * 2 ^ 23 + q')).toNat % 2 = 0 := by
        rw [packFloat_toNat neg h31]
        have := h'.2
        omega
      rw [BitVec.getLsbD, Nat.testBit_zero, hx]
      rfl

/-! ## Exact results -/

/-- A significand below 2^24 times a power of two in range is a finite magnitude. -/
theorem exists_magnitude (m k : Nat) (hm : m < 2 ^ 24) (hk : k ≤ 253) : ∃ z, IsFinite z ∧ magnitude z = m * 2 ^ k := by
  induction k generalizing m with
  | zero =>
    have h : 0 * 2 ^ 23 + m < infBits := by simp only [infBits]; omega
    refine ⟨packFloat false (0 * 2 ^ 23 + m), isFinite_packFloat false h, ?_⟩
    rw [magnitude_packFloat false (lt_trans h (by decide)), magnitudeOfBits_scaled (by omega) (.inl rfl)]
  | succ k ih =>
    rcases Nat.lt_or_ge m (2 ^ 23) with h | h
    · obtain ⟨z, hz, hzm⟩ := ih (m * 2) (by omega) (by omega)
      exact ⟨z, hz, by rw [hzm, pow_succ' 2 k, Nat.mul_assoc]⟩
    · have hb : (k + 1) * 2 ^ 23 + m < infBits := by simp only [infBits]; omega
      refine ⟨packFloat false ((k + 1) * 2 ^ 23 + m), isFinite_packFloat false hb, ?_⟩
      rw [magnitude_packFloat false (lt_trans hb (by decide)), magnitudeOfBits_scaled (by omega) (.inr h)]

/-- A finite magnitude is below the overflow bound. -/
theorem magnitude_lt_overflow {z : Word} (hz : IsFinite z) : magnitude z < overflowBound := by
  obtain ⟨k, m, h, hm, _, hk⟩ := magnitude_scaled hz
  rw [h]
  calc m * 2 ^ k ≤ (2 ^ 24 - 1) * 2 ^ 253 := Nat.mul_le_mul (by omega) (Nat.pow_le_pow_right (by omega) hk)
    _ < overflowBound := by decide

/-- A finite magnitude rounds to itself. -/
theorem RoundsTo.exact {neg : Bool} {y z : Word} (hz : IsFinite z) (h : RoundsTo neg (magnitude z) 1 y) :
    IsFinite y ∧ magnitude y = magnitude z := by
  obtain ⟨hy, hn⟩ := h.2.2 (by rw [Nat.mul_one]; exact magnitude_lt_overflow hz)
  refine ⟨hy, ?_⟩
  by_contra hne
  have h0 := hn z hz (Ne.symm hne)
  simp only [Nat.mul_one, distance] at h0
  omega

/-- The remainder of two finite magnitudes is a finite magnitude (R181: `rem` is exact). -/
theorem exists_magnitude_mod {a b : Word} (ha : IsFinite a) (hb : IsFinite b) (h0 : 0 < magnitude b) :
    ∃ z, IsFinite z ∧ magnitude z = magnitude a % magnitude b := by
  obtain ⟨ka, ma, ea, ha24, _, hka⟩ := magnitude_scaled ha
  obtain ⟨kb, mb, eb, hb24, _, hkb⟩ := magnitude_scaled hb
  have hlt := Nat.mod_lt (magnitude a) h0
  have hle := Nat.mod_le (magnitude a) (magnitude b)
  obtain ⟨e, he⟩ : ∃ e, e = min ka kb := ⟨_, rfl⟩
  have hda : 2 ^ e ∣ magnitude a := ea ▸ Dvd.dvd.mul_left (pow_dvd_pow 2 (by omega)) _
  have hdb : 2 ^ e ∣ magnitude b := eb ▸ Dvd.dvd.mul_left (pow_dvd_pow 2 (by omega)) _
  obtain ⟨m, hm⟩ := (Nat.dvd_mod_iff hdb).2 hda
  have hpos := Nat.two_pow_pos e
  have hsmall : magnitude a % magnitude b < 2 ^ e * 2 ^ 24 := by
    rcases Nat.le_total ka kb with h | h
    · have : e = ka := by omega
      calc magnitude a % magnitude b ≤ ma * 2 ^ ka := ea ▸ hle
        _ < 2 ^ e * 2 ^ 24 := by rw [this, Nat.mul_comm]; exact Nat.mul_lt_mul_of_pos_left ha24 (Nat.two_pow_pos ka)
    · have : e = kb := by omega
      calc magnitude a % magnitude b < mb * 2 ^ kb := eb ▸ hlt
        _ ≤ 2 ^ e * 2 ^ 24 := by rw [this, Nat.mul_comm]; exact Nat.mul_le_mul_left _ (by omega)
  obtain ⟨z, hz, hzm⟩ := exists_magnitude m e (by rw [hm] at hsmall; exact Nat.lt_of_mul_lt_mul_left hsmall) (by omega)
  exact ⟨z, hz, by rw [hzm, hm, Nat.mul_comm]⟩

/-! ## Kinds of operands -/

theorem magnitude_of_isZero {x : Word} (h : isZero x = true) : magnitude x = 0 := by
  simp only [isZero, Bool.and_eq_true, beq_iff_eq] at h
  simp [magnitude, h.1, h.2]

theorem magnitude_pos {x : Word} (h : isZero x = false) : 0 < magnitude x := by
  simp only [isZero, Bool.and_eq_false_iff, beq_eq_false_iff_ne] at h
  unfold magnitude
  split
  · rename_i h0
    rcases h with h | h
    · exact absurd h0 h
    · omega
  · positivity

theorem isZero_of_isInf {x : Word} (h : isInf x = true) : isZero x = false := by
  simp only [isInf, Bool.and_eq_true, beq_iff_eq] at h
  simp [isZero, h.1]

theorem isNaN_of_isInf {x : Word} (h : isInf x = true) : isNaN x = false := by
  simp only [isInf, Bool.and_eq_true, beq_iff_eq] at h
  simp [isNaN, h.1, h.2]

@[simp] theorem isNaN_freeNaN (fn : FloatFn) (a b : Word) : isNaN (freeNaN fn a b) = true := by
  unfold freeNaN
  dsimp only
  split
  · assumption
  · decide

/-- What flipping bit 31 changes and keeps (R181). -/
theorem negFloat_props (b : Word) : isNaN (negFloat b) = isNaN b ∧ isInf (negFloat b) = isInf b ∧
    isZero (negFloat b) = isZero b ∧ magnitude (negFloat b) = magnitude b ∧ signBit (negFloat b) = !signBit b := by
  have low : ∀ k < 31, (0x80000000#32).getLsbD k = false := by decide
  have he : expField (negFloat b) = expField b := by
    unfold expField negFloat
    congr 1
    ext i hi
    simp [BitVec.getLsbD_xor, low (23 + i) (by omega)]
  have hf : fracField (negFloat b) = fracField b := by
    unfold fracField negFloat
    congr 1
    ext i hi
    simp [BitVec.getLsbD_xor, low i (by omega)]
  exact ⟨by simp [isNaN, he, hf], by simp [isInf, he, hf], by simp [isZero, he, hf], by simp [magnitude, he, hf],
    by simp [signBit, negFloat]⟩

theorem exactValue_negFloat (b : Word) : exactValue (negFloat b) = -exactValue b := by
  obtain ⟨_, _, _, hm, hs⟩ := negFloat_props b
  unfold exactValue
  rw [hm, hs]
  cases signBit b <;> simp

end Sys2Proof.Machine
end

