-- ==== Sys2Proof/Laws/Interrupts.lean ====
section
/-!
SUPPORT. The interrupt check, interrupt entry and the return, each said once (60_exceptions.md R303 to R308, 40_privileged.md
R134).
-/

namespace Sys2Proof.Machine

theorem Irq.number_injective {n k : Irq} (h : n.number = k.number) : n = k := by
  cases n <;> cases k <;> first | rfl | (exact absurd h (by decide))

theorem mem_priorityOrder (n : Irq) : n ∈ priorityOrder := by
  cases n <;> decide

theorem priorityOrder_descends : priorityOrder.Pairwise fun a b => b.number < a.number := by
  decide

theorem State.pending_iff (s : State) (n : Irq) :
    s.pending n = true ↔ s.imr.getLsbD n.number = true ∧ s.latch.get n = true := by
  simp [State.pending, State.enabled]

/-- The check chooses the pending interrupt of highest number. -/
theorem State.choose_eq_some (s : State) (n : Irq) :
    s.choose = some n ↔ s.pending n = true ∧ ∀ k, s.pending k = true → k.number ≤ n.number := by
  have max : ∀ m, s.choose = some m → s.pending m = true ∧ ∀ k, s.pending k = true → k.number ≤ m.number := by
    intro m hm
    obtain ⟨hp, as, bs, hl, has⟩ := List.find?_eq_some_iff_append.1 hm
    refine ⟨hp, fun k hk => ?_⟩
    have hmem := mem_priorityOrder k
    have hpw := priorityOrder_descends
    rw [hl] at hmem hpw
    rcases List.mem_append.1 hmem with h | h
    · have := has k h; simp [hk] at this
    · rcases List.mem_cons.1 h with rfl | h
      · exact Nat.le_refl _
      · exact Nat.le_of_lt ((List.pairwise_cons.1 (List.pairwise_append.1 hpw).2.1).1 k h)
  refine ⟨max n, fun ⟨hp, hmax⟩ => ?_⟩
  cases hc : s.choose with
  | none => exact absurd hp (by simpa using List.find?_eq_none.1 hc n (mem_priorityOrder n))
  | some m =>
    obtain ⟨hpm, hm⟩ := max m hc
    rw [Irq.number_injective (Nat.le_antisymm (hmax m hpm) (hm n hp))]

theorem State.choose_eq_none (s : State) : s.choose = none ↔ ∀ k, s.pending k = false := by
  unfold State.choose
  rw [List.find?_eq_none]
  exact ⟨fun h k => by simpa using h k (mem_priorityOrder k), fun h k _ => by simp [h k]⟩

/-! ## The sources -/

/-- Between two steps the sources set latches and store bytes, nothing else (R303; 20_memory.md R74). -/
theorem State.sample_eq (s : State) :
    s.sample = { s with
      latch := latchArrivals s.latch s.timerPeriod s.arrivals.now
      mem := s.mem.deviceWrites s.physMap s.arrivals.now.writes
      arrivals := s.arrivals.later } := rfl

theorem State.sample_inv {s : State} (h : s.Inv) : s.sample.Inv := Memory.wf_deviceWrites _ _ _ h

/-- The devices leave every byte that is not ram (20_memory.md R68). -/
theorem State.sample_not_ram {s : State} (h : s.Inv) {p : Word} (hp : s.kindOf p ≠ .ram) :
    s.sample.mem.read p.toNat = s.mem.read p.toNat := Memory.read_deviceWrites_not_ram _ _ _ p h hp

/-- The sources clear no latch (R39). -/
theorem State.sample_latchesKept (s : State) : s.LatchesKept s.sample := by
  intro n hn
  cases n <;> simp_all [State.sample, latchArrivals, Latches.get]

/-! ## Entry and return -/

/-- The FLAGS image an interrupt entry pushes (R306). -/
def State.image (s : State) : BitVec 16 := BitVec.ofBool (decide (s.mode = .kernel)) ++ s.flags

theorem State.image_flags (s : State) : s.image.setWidth 15 = s.flags := by
  ext i hi
  simp only [State.image, BitVec.getElem_setWidth, BitVec.getLsbD_append, hi, if_true]
  exact BitVec.getLsbD_eq_getElem hi

theorem State.image_msb (s : State) : s.image.msb = decide (s.mode = .kernel) := by
  simp only [State.image]
  rw [BitVec.msb_append]
  cases s.mode <;> rfl

/-- Memory after the three pushes of an entry: the 8 bytes below KSPR (R306, R307). -/
def State.entryMem (s : State) : Memory :=
  ((s.mem.writeAll (addrs (s.kspr - 2) 2) (toBytes s.image)).writeAll (addrs (s.kspr - 6) 4) (toBytes s.pc)).writeAll
    (addrs (s.kspr - 8) 2) (toBytes s.imr)

/-- The frame an entry leaves (R307): read back, and nothing outside it written. -/
theorem State.entryMem_frame {s : State} (hs : s.Inv) :
    (addrs (s.kspr - 8) 8).map (fun p => s.entryMem.read p.toNat) = toBytes s.imr ++ toBytes s.pc ++ toBytes s.image ∧
      (∀ a : Nat, (∀ p ∈ addrs (s.kspr - 8) 8, a ≠ p.toNat) → s.entryMem.read a = s.mem.read a) ∧
      s.entryMem.wf = true := by
  have a6 : s.kspr - 8 + 2 = s.kspr - 6 := by bv_omega
  have a2 : s.kspr - 8 + 6 = s.kspr - 2 := by bv_omega
  have hl : addrs (s.kspr - 8) 8 = addrs (s.kspr - 8) 2 ++ (addrs (s.kspr - 6) 4 ++ addrs (s.kspr - 2) 2) := by
    rw [addrs_frame, a6, a2]
  have hn := nodup_addrs (s.kspr - 8) 8 (by omega)
  have hm : s.entryMem = s.mem.writeAll (addrs (s.kspr - 2) 2 ++ (addrs (s.kspr - 6) 4 ++ addrs (s.kspr - 8) 2))
      (toBytes s.image ++ (toBytes s.pc ++ toBytes s.imr)) := by
    rw [← Memory.writeAll_append _ _ _ _ _ (by simp), ← Memory.writeAll_append _ _ _ _ _ (by simp)]; rfl
  have hperm : (addrs (s.kspr - 2) 2 ++ (addrs (s.kspr - 6) 4 ++ addrs (s.kspr - 8) 2)).Perm (addrs (s.kspr - 8) 8) := by
    rw [hl]
    refine List.perm_append_comm.trans ?_
    rw [List.append_assoc]
    refine (List.perm_append_comm_assoc _ _ _).trans ?_
    exact List.Perm.refl _
  have hread := Memory.read_writeAll s.mem (addrs (s.kspr - 2) 2 ++ (addrs (s.kspr - 6) 4 ++ addrs (s.kspr - 8) 2))
    (toBytes s.image ++ (toBytes s.pc ++ toBytes s.imr)) hs (hperm.nodup_iff.2 hn) (by simp)
  rw [← hm, List.map_append, List.map_append] at hread
  obtain ⟨r1, hread⟩ := List.append_inj hread (by simp)
  obtain ⟨r2, r3⟩ := List.append_inj hread (by simp)
  refine ⟨?_, fun a ha => ?_, ?_⟩
  · rw [hl, List.map_append, List.map_append, r1, r2, r3, List.append_assoc]
  · rw [hm]
    exact Memory.read_writeAll_outside s.mem _ _ a hs fun p hp => ha p (hperm.mem_iff.1 hp)
  · rw [hm]; exact Memory.wf_writeAll _ _ _ hs

@[simp] theorem entryPush_ok (t : State) : entryPush (.ok t) = .ok t := rfl

/-- The state of an interrupt entry before its last step, the vector read (R306). -/
def State.entered (s : State) (n : Irq) : State :=
  { s with
    mode := .kernel, kspr := s.kspr - 8, imr := 0, latch := s.latch.set n false, mem := s.entryMem }

/-- Interrupt entry with room for the frame in ram: only the vector read can still stop it (R306). -/
theorem State.service_of_ram {s : State} (n : Irq) (hf : s.AllRam (addrs (s.kspr - 8) 8)) :
    s.service n = (do
      let handler ← (s.entered n).memRead 32 (BitVec.ofNat 32 (4 * n.number))
      .ok { s.entered n with paused := false, pc := handler }) := by
  have e6 : s.kspr - 2 - 4 = s.kspr - 6 := by rw [BitVec.sub_sub]; rfl
  have e8 : s.kspr - 6 - 2 = s.kspr - 8 := by rw [BitVec.sub_sub]; rfl
  have a6 : s.kspr - 8 + 2 = s.kspr - 6 := by rw [← e8, BitVec.sub_add_cancel]
  have a2 : s.kspr - 8 + 6 = s.kspr - 2 := by
    have : s.kspr - 8 = s.kspr - 2 - 6 := by rw [BitVec.sub_sub]; rfl
    rw [this, BitVec.sub_add_cancel]
  rw [addrs_frame, State.allRam_append, State.allRam_append, a6, a2] at hf
  obtain ⟨h8, h6, h2⟩ := hf
  obtain ⟨s1, hs1⟩ : ∃ t : State, t = { s with
    mode := .kernel, kspr := s.kspr - 2, mem := s.mem.writeAll (addrs (s.kspr - 2) 2) (toBytes s.image) } := ⟨_, rfl⟩
  have p1 : (s.setMode .kernel).push s.image = .ok s1 := by
    rw [hs1]; exact State.push_kernel (s := s.setMode .kernel) rfl s.image h2
  obtain ⟨s2, hs2⟩ : ∃ t : State, t = { s1 with
    kspr := s.kspr - 6, mem := s1.mem.writeAll (addrs (s.kspr - 6) 4) (toBytes s.pc) } := ⟨_, rfl⟩
  have p2 : s1.push s.pc = .ok s2 := by
    rw [hs2, ← e6]; subst hs1
    exact State.push_kernel rfl s.pc (by show s.AllRam (addrs (s.kspr - 2 - 4) 4); rw [e6]; exact h6)
  obtain ⟨s3, hs3⟩ : ∃ t : State, t = { s2 with
    kspr := s.kspr - 8, mem := s2.mem.writeAll (addrs (s.kspr - 8) 2) (toBytes s.imr) } := ⟨_, rfl⟩
  have p3 : s2.push s.imr = .ok s3 := by
    rw [hs3, ← e8]; subst hs2; subst hs1
    exact State.push_kernel rfl s.imr (by show s.AllRam (addrs (s.kspr - 6 - 2) 2); rw [e8]; exact h8)
  have hm3 : s3 = { s with mode := .kernel, kspr := s.kspr - 8, mem := s.entryMem } := by
    subst hs3; subst hs2; subst hs1; rfl
  have he : (s3.setImr 0).setLatch n false = s.entered n := by rw [hm3]; rfl
  simp only [State.service]
  rw [show (BitVec.ofBool (decide (s.mode = .kernel)) ++ s.flags : BitVec 16) = s.image from rfl]
  simp only [p1, p2, p3, he, entryPush_ok, bind, Except.bind]
  rfl

/-- Interrupt entry with room for the frame in ram and a readable vector (R306). -/
theorem State.service_of {s : State} (n : Irq) (hf : s.AllRam (addrs (s.kspr - 8) 8))
    (hv : s.Readable (addrs (BitVec.ofNat 32 (4 * n.number)) 4)) :
    s.service n = .ok { s.entered n with
      paused := false, pc := (s.entered n).valueAt 32 (BitVec.ofNat 32 (4 * n.number)) } := by
  rw [State.service_of_ram n hf]
  have p4 := State.memRead_kernel (s := s.entered n) (w := 32) (a := BitVec.ofNat 32 (4 * n.number)) rfl hv
  simp only [p4, bind, Except.bind]

/-- The return from an interrupt in kernel mode (40_privileged.md R134). -/
theorem State.interruptReturn_kernel {s : State} (hm : s.mode = .kernel) (hr : s.Readable (addrs s.kspr 8)) :
    s.interruptReturn = .ok { s with
      imr := s.valueAt 16 s.kspr, pc := s.valueAt 32 (s.kspr + 2),
      flags := (s.valueAt 16 (s.kspr + 6)).setWidth 15, kspr := s.kspr + 8,
      mode := if (s.valueAt 16 (s.kspr + 6)).msb then .kernel else .user } := by
  rw [addrs_frame, State.readable_append, State.readable_append] at hr
  obtain ⟨hA, hB, hC⟩ := hr
  have p1 := State.pop_kernel hm 16 hA
  have p2 := State.pop_kernel (s := { s with kspr := s.kspr + BitVec.ofNat 32 (16 / 8) }) hm 32 hB
  have e : s.kspr + BitVec.ofNat 32 (16 / 8) + BitVec.ofNat 32 (32 / 8) = s.kspr + 6 := by
    rw [BitVec.add_assoc]; rfl
  have e8 : s.kspr + 6 + BitVec.ofNat 32 (16 / 8) = s.kspr + 8 := by
    rw [BitVec.add_assoc]; rfl
  simp only [e] at p2
  have p3 := State.pop_kernel (s := { s with kspr := s.kspr + 6 }) hm 16 hC
  simp only [e8] at p3
  simp only [State.interruptReturn, bind, Except.bind, p1, p2, p3]
  have hb : (State.valueAt { s with kspr := s.kspr + 6 } 16 (s.kspr + 6)).getLsbD 15 =
      (s.valueAt 16 (s.kspr + 6)).msb := by
    rw [BitVec.msb_eq_getLsbD_last]; rfl
  rw [hb, BitVec.setWidth_eq_extractLsb' (by omega)]
  split
  · rw [← hm]; rfl
  · rfl

end Sys2Proof.Machine
end

