-- ==== Sys2Proof/Laws/Operands.lean ====
section
/-!
SUPPORT. What the shared shapes of the two-operand instructions, the shifts and the float operations answer
(42_arithmetic.md R180, R194; 43_bitwise.md R220, R225).
-/

namespace Sys2Proof.Machine

/-! ## The flags a state is left with -/

theorem State.setX_flags_of_ne {s : State} {rd : Ref} (h : rd ≠ .flags) (v : BitVec rd.width) :
    (s.setX rd v).flags = s.flags := by
  cases rd <;> first | rfl | exact absurd rfl h

theorem withZNCO_bits (fl : BitVec 15) (z n c o : Bool) :
    (withZNCO fl z n c o).getLsbD 0 = z ∧ (withZNCO fl z n c o).getLsbD 1 = n ∧ (withZNCO fl z n c o).getLsbD 2 = c ∧
      (withZNCO fl z n c o).getLsbD 3 = o ∧ (withZNCO fl z n c o).extractLsb' 4 11 = fl.extractLsb' 4 11 := by
  refine ⟨?_, ?_, ?_, ?_, ?_⟩
  · cases z <;> simp only [withZNCO, BitVec.getLsbD_append] <;> rfl
  · cases n <;> simp only [withZNCO, BitVec.getLsbD_append] <;> rfl
  · cases c <;> simp only [withZNCO, BitVec.getLsbD_append] <;> rfl
  · cases o <;> simp only [withZNCO, BitVec.getLsbD_append] <;> rfl
  · ext i hi
    simp only [withZNCO, BitVec.getElem_extractLsb', BitVec.getLsbD_append]
    simp [show ¬ 4 + i < 1 by omega, hi]

/-- The result, its flags and `pc`; nothing else (R28 to R30). -/
theorem State.afterAlu_writeAlu {s : State} {rd : Ref} (h : rd ≠ .flags) (out : Alu rd.width) (n : Nat) :
    s.AfterAlu ((s.writeAlu rd out).advance n) n rd out.val out.c out.o := by
  have hf := State.setX_flags_of_ne (s := s) h out.val
  obtain ⟨h1, h2, h3, h4, h5⟩ := withZNCO_bits s.flags out.z out.n out.c out.o
  have e : s.writeAlu rd out = (s.setX rd out.val).setFlags (withZNCO s.flags out.z out.n out.c out.o) := by
    simp only [State.writeAlu, h, if_false, State.setZNCO, hf]
  have hfl : (s.writeAlu rd out).flags = withZNCO s.flags out.z out.n out.c out.o := by rw [e]; rfl
  refine ⟨?_, ?_, ?_, ?_, ?_, ?_⟩
  · rw [e]; simp [State.advance, State.setPc, State.setFlags]
  · show (s.writeAlu rd out).flags.getLsbD 0 = _
    rw [hfl, h1]; rfl
  · show (s.writeAlu rd out).flags.getLsbD 1 = _
    rw [hfl, h2]; exact (BitVec.msb_eq_getMsbD_zero out.val).symm
  · show (s.writeAlu rd out).flags.getLsbD 2 = _
    rw [hfl, h3]
  · show (s.writeAlu rd out).flags.getLsbD 3 = _
    rw [hfl, h4]
  · show (s.writeAlu rd out).flags.extractLsb' 4 11 = _
    rw [hfl, h5]

/-! ## The two forms -/

theorem State.widthsMatch_iff {a b : Ref} : widthsMatch a b = true ↔ a.width = b.width := by simp [widthsMatch]

/-- Both forms of an instruction of both kinds, on integers (R180). -/
theorem State.bothForms_arithmetic {s : State} {rd : Ref} {op : IntOp} {fop : Word → Word → Word} {vl : Lit → Instr}
    {rr : Ref → Instr} {source : Ref → Prop} {P : BitVec rd.width → Nat → State → Prop}
    (hvl : ∀ lit, exec (vl lit) s = s.arithmeticVl op fop rd lit)
    (hrr : ∀ rs, exec (rr rs) s = s.arithmeticRr op fop rd rs) (ha : s.Allows rd) (hf : ¬IsFloat rd)
    (hsrc : ∀ rs, source rs → s.Allows rs ∧ ¬IsFloat rs)
    (hV : ∀ (b : BitVec rd.width) (n : Nat), ∃ t, completes (some n) s (s.integerOp op rd b) = .next t ∧ P b n t)
    (hR : ∀ rs, source rs → rs.width = rd.width → ∃ t,
      completes (some 3) s (s.integerOp op rd ((s.x rs).setWidth rd.width)) = .next t ∧ P ((s.x rs).setWidth rd.width) 3 t) :
    s.BothForms rd source vl rr P := by
  have hl : s.legal .any rd = true := State.legal_any.2 ha
  have hb : isFloatRef rd = false := isFloatRef_eq_false.2 hf
  refine ⟨fun lit _ => ?_, fun rs hs hw => ?_⟩
  · obtain ⟨t, h1, h2⟩ := hV (literalValue rd.width lit) (2 + bytesOf rd)
    refine ⟨t, ?_, h2⟩
    rw [hvl, ← h1]
    simp [State.arithmeticVl, State.checkVl, hl, bind, Except.bind, State.arithmeticOp, hb, vlLength_named ha.1]
  · obtain ⟨t, h1, h2⟩ := hR rs hs hw
    refine ⟨t, ?_, h2⟩
    have hl' : s.legal .any rs = true := State.legal_any.2 (hsrc rs hs).1
    have hb' : isFloatRef rs = false := isFloatRef_eq_false.2 (hsrc rs hs).2
    rw [hrr, ← h1]
    simp [State.arithmeticRr, State.checkRr, hl, hl', bind, Except.bind, State.arithmeticOp, hb, hb', kindsMatch,
      widthsMatch, hw, State.xAs]

/-- Both forms of an instruction on integers only (R180, R220). -/
theorem State.bothForms_integer {s : State} {rd : Ref} {op : IntOp} {vl : Lit → Instr} {rr : Ref → Instr}
    {source : Ref → Prop} {P : BitVec rd.width → Nat → State → Prop}
    (hvl : ∀ lit, exec (vl lit) s = s.integerVl op rd lit) (hrr : ∀ rs, exec (rr rs) s = s.integerRr op rd rs)
    (hg : IsGeneral rd) (hsrc : ∀ rs, source rs → IsGeneral rs)
    (hV : ∀ (b : BitVec rd.width) (n : Nat), ∃ t, completes (some n) s (s.integerOp op rd b) = .next t ∧ P b n t)
    (hR : ∀ rs, source rs → rs.width = rd.width → ∃ t,
      completes (some 3) s (s.integerOp op rd ((s.x rs).setWidth rd.width)) = .next t ∧ P ((s.x rs).setWidth rd.width) 3 t) :
    s.BothForms rd source vl rr P := by
  have hl : s.legal .integer rd = true := State.legal_integer.2 hg
  refine ⟨fun lit _ => ?_, fun rs hs hw => ?_⟩
  · obtain ⟨t, h1, h2⟩ := hV (literalValue rd.width lit) (2 + bytesOf rd)
    refine ⟨t, ?_, h2⟩
    rw [hvl, ← h1]
    simp [State.integerVl, State.checkIntVl, hl, bind, Except.bind, vlLength_named hg.named]
  · obtain ⟨t, h1, h2⟩ := hR rs hs hw
    refine ⟨t, ?_, h2⟩
    have hl' : s.legal .integer rs = true := State.legal_integer.2 (hsrc rs hs)
    rw [hrr, ← h1]
    simp [State.integerRr, State.checkIntRr, hl, hl', bind, Except.bind, widthsMatch, hw, State.xAs]

/-- An operation that raises nothing leaves its result and flags. -/
theorem State.completes_integerOp {s : State} {rd : Ref} (h : rd ≠ .flags) {op : IntOp} {b : BitVec rd.width}
    {out : Alu rd.width} (ho : op rd.width (s.x rd) b = .ok out) (n : Nat) :
    ∃ t, completes (some n) s (s.integerOp op rd b) = .next t ∧ s.AfterAlu t n rd out.val out.c out.o :=
  ⟨(s.writeAlu rd out).advance n, by simp [State.integerOp, ho, bind, Except.bind], State.afterAlu_writeAlu h out n⟩

/-- Both count forms of a shift or rotate (R225). -/
theorem State.bothCounts_of {s : State} {rd : Ref} {op : (w : Nat) → BitVec w → Nat → Alu w} {lb : Byte → Instr}
    {rb : Ref → Instr} {P : Nat → State → Prop} (hlb : ∀ n, exec (lb n) s = s.shiftLb op rd n)
    (hrb : ∀ r, exec (rb r) s = s.shiftRb op rd r) (hg : IsGeneral rd)
    (h : ∀ n t, s.AfterAlu t 3 rd (op rd.width (s.x rd) n).val (op rd.width (s.x rd) n).c (op rd.width (s.x rd) n).o →
      P n t) : s.BothCounts lb rb P := by
  have hl : s.legal .integer rd = true := State.legal_integer.2 hg
  refine ⟨fun n => ⟨_, ?_, h _ _ (State.afterAlu_writeAlu hg.not_flags (op rd.width (s.x rd) n.toNat) 3)⟩,
    fun i => ⟨_, ?_, h _ _ (State.afterAlu_writeAlu hg.not_flags (op rd.width (s.x rd) ((s.r.get i).toNat % 256)) 3)⟩⟩
  · rw [hlb]; simp [State.shiftLb, hl, bind, Except.bind]
  · rw [hrb]
    have hc : s.countIn (.b i) = (s.r.get i).toNat % 256 := by
      exact BitVec.extractLsb'_toNat _ _ _
    simp [State.shiftRb, hl, bind, Except.bind, hc]

end Sys2Proof.Machine
end

