-- ==== Sys2Proof/Laws/Local.lean ====
section
/-!
SUPPORT. What every operation inside an instruction leaves alone: the canonical form of memory, the platform, read-only
bytes, the mode, the timer and the run state, and in user mode the privileged registers (10_state.md R36; 20_memory.md R68;
60_exceptions.md R318, R319). Proved once for each shared operation, then composed.
-/

namespace Sys2Proof.Machine

/-! ## Local changes -/

/-- A change an instruction may make without leaving its mode; the latches are not spoken of. -/
structure State.Local (s t : State) : Prop where
  inv : s.Inv → t.Inv
  platform : s.SamePlatform t
  readOnly : s.Inv → ∀ p, s.kindOf p = .readOnly → t.mem.read p.toNat = s.mem.read p.toNat
  mode : t.mode = s.mode
  timerPeriod : t.timerPeriod = s.timerPeriod
  halted : t.halted = s.halted
  paused : t.paused = s.paused
  privileged : s.mode = .user → t.kspr = s.kspr ∧ t.pdpr = s.pdpr ∧ t.imr = s.imr

/-- A local change that sets no latch. -/
structure State.Quiet (s t : State) : Prop where
  isLocal : s.Local t
  latch : t.latch = s.latch

theorem State.Local.refl (s : State) : s.Local s :=
  ⟨id, ⟨rfl, rfl⟩, fun _ _ _ => rfl, rfl, rfl, rfl, rfl, fun _ => ⟨rfl, rfl, rfl⟩⟩

theorem State.Local.trans {s t u : State} (h : s.Local t) (k : t.Local u) : s.Local u where
  inv hs := k.inv (h.inv hs)
  platform := ⟨k.platform.1.trans h.platform.1, k.platform.2.trans h.platform.2⟩
  readOnly hs p hp := by
    rw [k.readOnly (h.inv hs) p (by rw [State.kindOf_congr h.platform.1]; exact hp), h.readOnly hs p hp]
  mode := k.mode.trans h.mode
  timerPeriod := k.timerPeriod.trans h.timerPeriod
  halted := k.halted.trans h.halted
  paused := k.paused.trans h.paused
  privileged hu := by
    obtain ⟨a, b, c⟩ := h.privileged hu
    obtain ⟨a', b', c'⟩ := k.privileged (h.mode.trans hu)
    exact ⟨a'.trans a, b'.trans b, c'.trans c⟩

theorem State.Quiet.refl (s : State) : s.Quiet s := ⟨.refl s, rfl⟩

theorem State.Quiet.trans {s t u : State} (h : s.Quiet t) (k : t.Quiet u) : s.Quiet u :=
  ⟨h.isLocal.trans k.isLocal, k.latch.trans h.latch⟩

/-- A change of `r`, `f`, FLAGS, USPR, `pc` and the count of free values. -/
theorem State.quiet_of_eq {s t : State} (hm : t.mem = s.mem) (hp : t.physMap = s.physMap) (hu : t.mmu = s.mmu)
    (hmo : t.mode = s.mode) (ht : t.timerPeriod = s.timerPeriod) (hh : t.halted = s.halted) (hpa : t.paused = s.paused)
    (hk : t.kspr = s.kspr) (hpd : t.pdpr = s.pdpr) (hi : t.imr = s.imr) (hl : t.latch = s.latch) : s.Quiet t :=
  ⟨⟨fun h => by rw [State.Inv, hm]; exact h, ⟨hp, hu⟩, fun _ _ _ => by rw [hm], hmo, ht, hh, hpa, fun _ => ⟨hk, hpd, hi⟩⟩, hl⟩

theorem State.quiet_setPc (s : State) (v : Word) : s.Quiet (s.setPc v) :=
  State.quiet_of_eq rfl rfl rfl rfl rfl rfl rfl rfl rfl rfl rfl

theorem State.quiet_advance (s : State) (n : Nat) : s.Quiet (s.advance n) := s.quiet_setPc _

theorem State.quiet_draw (s : State) : s.Quiet s.draw :=
  State.quiet_of_eq rfl rfl rfl rfl rfl rfl rfl rfl rfl rfl rfl

theorem State.quiet_setFlags (s : State) (v : BitVec 15) : s.Quiet (s.setFlags v) :=
  State.quiet_of_eq rfl rfl rfl rfl rfl rfl rfl rfl rfl rfl rfl

theorem State.quiet_setZNCO (s : State) (z n c o : Bool) : s.Quiet (s.setZNCO z n c o) := s.quiet_setFlags _

theorem State.quiet_freeFlags (s : State) : s.Quiet s.freeFlags := (s.quiet_setFlags _).trans (State.quiet_draw _)

theorem State.quiet_floatFlags (s : State) (b : Bool) (r : Word) : s.Quiet (s.floatFlags b r) := by
  unfold State.floatFlags
  split
  · exact (s.quiet_setZNCO _ _ _ _).trans (State.quiet_draw _)
  · exact s.quiet_setZNCO _ _ _ _

/-- The active stack pointer: in user mode USPR. -/
theorem State.quiet_setSp (s : State) (v : Word) : s.Quiet (s.setSp v) := by
  refine ⟨⟨fun h => by rw [State.Inv, State.setSp_mem]; exact h, ⟨State.setSp_physMap _ _, State.setSp_mmu _ _⟩,
    fun _ _ _ => by rw [State.setSp_mem], State.setSp_mode _ _, State.setSp_timerPeriod _ _, State.setSp_halted _ _,
    State.setSp_paused _ _, fun hu => ?_⟩, State.setSp_latch _ _⟩
  rw [State.setSp_user s hu]
  exact ⟨rfl, rfl, rfl⟩

/-- A write of a register the mode may name. -/
theorem State.quiet_setX {s : State} {ref : Ref} (h : s.mode = .user → ref ≠ .kspr ∧ ref ≠ .pdpr ∧ ref ≠ .imr)
    (v : BitVec ref.width) : s.Quiet (s.setX ref v) := by
  refine ⟨⟨fun hs => ?_, ?_, fun _ _ _ => ?_, ?_, ?_, ?_, ?_, fun hu => ?_⟩, ?_⟩
  case refine_8 =>
    obtain ⟨h1, h2, h3⟩ := h hu
    cases ref <;> first | exact ⟨rfl, rfl, rfl⟩ | exact absurd rfl h1 | exact absurd rfl h2 | exact absurd rfl h3
  all_goals cases ref <;> first | exact hs | exact ⟨rfl, rfl⟩ | rfl

/-- A legal reference is one the mode may name. -/
theorem State.legal_not_privileged {s : State} {c : RefClass} {ref : Ref} (h : s.legal c ref = true) :
    s.mode = .user → ref ≠ .kspr ∧ ref ≠ .pdpr ∧ ref ≠ .imr := by
  intro hu
  refine ⟨?_, ?_, ?_⟩ <;> rintro rfl <;> simp [State.legal, hu, isPrivilegedRef] at h

theorem State.quiet_writeAlu {s : State} {rd : Ref} (h : s.mode = .user → rd ≠ .kspr ∧ rd ≠ .pdpr ∧ rd ≠ .imr)
    (out : Alu rd.width) : s.Quiet (s.writeAlu rd out) := by
  unfold State.writeAlu
  split
  · exact s.quiet_freeFlags
  · exact (State.quiet_setX h _).trans (State.quiet_setZNCO _ _ _ _ _)

/-- A store to ram leaves the canonical form and every read-only byte. -/
theorem State.quiet_writeAll {s : State} {l : List Word} {bs : List Byte} (h : s.AllRam l) :
    s.Quiet (s.setMem (s.mem.writeAll l bs)) := by
  refine ⟨⟨fun hs => Memory.wf_writeAll _ _ _ hs, ⟨rfl, rfl⟩, fun hs p hp => ?_, rfl, rfl, rfl, rfl, fun _ => ⟨rfl, rfl, rfl⟩⟩,
    rfl⟩
  refine Memory.read_writeAll_outside _ _ _ _ hs fun q hq he => ?_
  have : p = q := BitVec.eq_of_toNat_eq he
  subst this
  rw [h p hq] at hp
  cases hp

theorem State.quiet_memWrite {s t : State} {w : Nat} {a : Word} {v : BitVec w} (h : s.memWrite a v = .ok t) :
    s.Quiet t := by
  obtain ⟨pl, _, h2, rfl⟩ := State.memWrite_eq_ok.1 h
  exact State.quiet_writeAll h2

theorem State.quiet_push {s t : State} {w : Nat} {v : BitVec w} (h : s.push v = .ok t) : s.Quiet t :=
  (s.quiet_setSp _).trans (State.quiet_memWrite h)

/-- What `Pop` answers (R66). -/
theorem State.pop_eq_ok {s t : State} {w : Nat} {v : BitVec w} (h : s.pop w = .ok (v, t)) :
    s.memRead w s.sp = .ok v ∧ t = s.setSp (s.sp + BitVec.ofNat 32 (w / 8)) := by
  unfold State.pop at h
  cases hr : s.memRead w s.sp with
  | error e => simp [hr, bind, Except.bind] at h
  | ok u =>
    simp only [hr, bind, Except.bind, Except.ok.injEq, Prod.mk.injEq] at h
    exact ⟨congrArg _ h.1, h.2.symm⟩

theorem State.quiet_pop {s t : State} {w : Nat} {v : BitVec w} (h : s.pop w = .ok (v, t)) : s.Quiet t := by
  rw [(State.pop_eq_ok h).2]; exact s.quiet_setSp _

/-! ## What an operation raises -/

/-- The answer read_only is for a write (20_memory.md R70). -/
theorem State.translate_readOnly {s : State} {v : Word} {acc : Access} (h : s.translate v acc = .readOnly) :
    acc = .write := by
  have list : ∀ es : List PageEntry, lookupPage es s.pdpr v acc = .readOnly → acc = .write := by
    intro es
    induction es with
    | nil => intro h; cases h
    | cons e es ih =>
      intro h
      simp only [lookupPage] at h
      split at h
      · split at h
        · cases h
        · split at h
          · rename_i hw; exact hw.1
          · cases h
      · exact ih h
  unfold State.translate at h
  split at h
  · unfold Translation.restrict at h
    split at h
    · split at h
      · assumption
      · cases h
    · rename_i hne; exact absurd h hne
  · exact list _ h

/-- A failing `resolve` says why (20_memory.md R64, R65). -/
theorem State.resolve_raises {s : State} {acc : Access} {l : List Word} {e : Stop} (h : s.resolve acc l = .error e) :
    (e = .raise .pageFault ∧ s.Faults acc l) ∨
      (e = .raise .illegalOperation ∧ acc = .write ∧ s.WriteRefused l) := by
  have hu := (State.resolve_eq_error h).1
  simp only [State.resolve, hu] at h
  split at h
  · rename_i hf
    simp only [List.any_map, List.any_eq_true, Function.comp, decide_eq_true_eq] at hf
    exact .inl ⟨by simpa using h.symm, hu, hf⟩
  · rename_i hf
    simp only [List.any_map, List.any_eq_true, Function.comp, decide_eq_true_eq, not_exists, not_and] at hf
    split at h
    · rename_i hr
      simp only [List.any_map, List.any_eq_true, Function.comp, decide_eq_true_eq] at hr
      obtain ⟨v, hv, hr⟩ := hr
      obtain rfl := State.translate_readOnly hr
      refine .inr ⟨by simpa using h.symm, rfl, ?_⟩
      simp only [State.WriteRefused, hu]
      exact ⟨hf, v, hv, .inl hr⟩
    · cases h

/-- What a read raises: a page fault, where the translation of a byte faults (60_exceptions.md R312). -/
theorem State.memRead_raises {s : State} {w : Nat} {a : Word} {c : Cause} (h : s.memRead w a = .error (.raise c)) :
    c = .pageFault ∧ s.Faults .read (addrs a (w / 8)) := by
  unfold State.memRead at h
  cases hr : s.resolve .read (addrs a (w / 8)) with
  | error e =>
    simp only [hr, bind, Except.bind, Except.error.injEq] at h
    subst h
    rcases State.resolve_raises hr with ⟨hc, hf⟩ | ⟨_, hw, _⟩
    · exact ⟨by simpa using hc, hf⟩
    · cases hw
  | ok pl =>
    simp only [hr, bind, Except.bind, State.physRead] at h
    cases ha : s.accessible pl with
    | ok u => simp [ha] at h
    | error e =>
      simp only [ha] at h
      rcases State.accessible_eq_error ha with rfl | rfl <;> simp at h

/-- What a write raises: a page fault where a translation faults, IllegalOperation where it meets a read-only byte
(60_exceptions.md R310 (d), R312). -/
theorem State.memWrite_raises {s : State} {w : Nat} {a : Word} {v : BitVec w} {c : Cause}
    (h : s.memWrite a v = .error (.raise c)) :
    (c = .pageFault ∧ s.Faults .write (addrs a (w / 8))) ∨
      (c = .illegalOperation ∧ s.WriteRefused (addrs a (w / 8))) := by
  unfold State.memWrite at h
  cases hr : s.resolve .write (addrs a (w / 8)) with
  | error e =>
    simp only [hr, bind, Except.bind, Except.error.injEq] at h
    subst h
    rcases State.resolve_raises hr with ⟨hc, hf⟩ | ⟨hc, _, hf⟩
    · exact .inl ⟨by simpa using hc, hf⟩
    · exact .inr ⟨by simpa using hc, hf⟩
  | ok pl =>
    simp only [hr, bind, Except.bind, State.physWrite] at h
    split at h
    · rename_i hro
      simp only [List.any_eq_true, decide_eq_true_eq] at hro
      obtain ⟨p, hp, hk⟩ := hro
      simp only [Except.error.injEq, Stop.raise.injEq] at h
      refine .inr ⟨h.symm, ?_⟩
      have hre := State.resolve_eq_ok.1 hr
      cases hm : s.mode with
      | kernel =>
        rw [State.reaches_kernel hm] at hre
        simp only [State.WriteRefused, hm]
        exact ⟨p, hre ▸ hp, hk⟩
      | user =>
        rw [State.reaches_user hm] at hre
        simp only [State.WriteRefused, hm]
        have key : ∀ v ∈ addrs a (w / 8), ∃ q, s.translate v .write = .ok q := by
          intro v hv
          have : s.translate v .write ∈ pl.map Translation.ok := hre ▸ List.mem_map_of_mem hv
          obtain ⟨q, _, hq⟩ := List.mem_map.1 this
          exact ⟨q, hq.symm⟩
        refine ⟨fun v hv hf => ?_, ?_⟩
        · obtain ⟨q, hq⟩ := key v hv
          rw [hf] at hq; cases hq
        · have : Translation.ok p ∈ (addrs a (w / 8)).map fun v => s.translate v .write := hre ▸ List.mem_map_of_mem hp
          obtain ⟨v, hv, hvp⟩ := List.mem_map.1 this
          exact ⟨v, hv, .inr ⟨p, hvp, hk⟩⟩
    · cases ha : s.accessible pl with
      | ok u => simp [ha] at h
      | error e =>
        simp only [ha] at h
        rcases State.accessible_eq_error ha with rfl | rfl <;> simp at h

/-- A refused write meets one refused address (20_memory.md R65). -/
theorem State.writeRefused_iff {s : State} {l : List Word} (h : s.WriteRefused l) : ∃ v ∈ l, s.WriteRefused [v] := by
  unfold State.WriteRefused at h
  cases hm : s.mode with
  | kernel =>
    simp only [hm] at h
    obtain ⟨p, hp, hk⟩ := h
    exact ⟨p, hp, by simp [State.WriteRefused, hm, hk]⟩
  | user =>
    simp only [hm] at h
    obtain ⟨hf, v, hv, hr⟩ := h
    exact ⟨v, hv, by simp [State.WriteRefused, hm, hf v hv, hr]⟩

/-- What `Push` raises (R66). -/
theorem State.push_raises {s : State} {w : Nat} {v : BitVec w} {c : Cause} (h : s.push v = .error (.raise c)) :
    (c = .pageFault ∧ s.Faults .write (addrs (s.sp - BitVec.ofNat 32 (w / 8)) (w / 8))) ∨
      (c = .illegalOperation ∧ s.WriteRefused (addrs (s.sp - BitVec.ofNat 32 (w / 8)) (w / 8))) := by
  unfold State.push at h
  simpa only [State.sp_setSp, State.faults_setSp, State.writeRefused_setSp] using State.memWrite_raises h

/-- What `Pop` raises (R66). -/
theorem State.pop_raises {s : State} {w : Nat} {c : Cause} (h : s.pop w = .error (.raise c)) :
    c = .pageFault ∧ s.Faults .read (addrs s.sp (w / 8)) := by
  unfold State.pop at h
  cases hr : s.memRead w s.sp with
  | error e =>
    simp only [hr, bind, Except.bind, Except.error.injEq] at h
    subst h; exact State.memRead_raises hr
  | ok u => simp [hr, bind, Except.bind] at h

/-! ## Illegal operands -/

/-- A register operand that fails its check (60_exceptions.md R310 (f), (g)). -/
theorem State.legal_eq_false {s : State} {c : RefClass} {ref : Ref} (h : s.legal c ref = false) :
    OutsideClass c ref ∨ (s.mode = .user ∧ (ref = .kspr ∨ ref = .pdpr ∨ ref = .imr)) := by
  have outside : c.accepts ref = false → OutsideClass c ref := by
    intro h
    unfold OutsideClass RefClass.firstLast
    cases c <;> cases ref <;> simp_all [RefClass.accepts, Ref.named, regclassWide, Ref.toByte] <;> omega
  cases ha : c.accepts ref with
  | false => exact .inl (outside ha)
  | true =>
    right
    simp only [State.legal, ha, Bool.true_and, Bool.or_eq_false_iff, decide_eq_false_iff_not, Bool.not_eq_false'] at h
    refine ⟨?_, ?_⟩
    · cases hm : s.mode with
      | kernel => exact absurd hm h.1
      | user => rfl
    · cases ref <;> simp_all [isPrivilegedRef]

/-- An operand of the instruction that fails its check is a cause of Illegal Operation. -/
theorem State.illegal_operand {s : State} {i : Instr} {c : RefClass} {ref : Ref} (hm : (c, ref) ∈ refsOf i)
    (h : s.legal c ref = false) : s.MayRaise i .illegalOperation :=
  (State.legal_eq_false h).elim (.reference c ref hm) fun ⟨hu, h⟩ => .register c ref hu hm h

theorem State.illegal_operands {s : State} {i : Instr} {c c' : RefClass} {ref ref' : Ref} (hm : (c, ref) ∈ refsOf i)
    (hm' : (c', ref') ∈ refsOf i) (h : (s.legal c ref && s.legal c' ref') = false) : s.MayRaise i .illegalOperation := by
  rcases Bool.and_eq_false_iff.1 h with h | h
  · exact State.illegal_operand hm h
  · exact State.illegal_operand hm' h

/-! ## Faults and refusals of an access -/

/-- An access over the memory the instruction finds. -/
theorem State.mayRaise_read {s : State} {i : Instr} (h : s.Faults .read (s.loadsFrom i)) : s.MayRaise i .pageFault :=
  ⟨s.mem, .start, .inl h⟩

theorem State.mayRaise_write {s : State} {i : Instr} (h : s.Faults .write (s.storesTo i)) : s.MayRaise i .pageFault :=
  ⟨s.mem, .start, .inr h⟩

/-- A refused write, over a memory the instruction passes. -/
theorem State.mayRaise_refused {s : State} {i : Instr} {m : Memory} {l : List Word} (hm : s.Passes i m)
    (hl : ∀ v ∈ l, v ∈ s.storesTo i) (h : (s.setMem m).WriteRefused l) : s.MayRaise i .illegalOperation := by
  obtain ⟨v, hv, h⟩ := State.writeRefused_iff h
  exact .readOnly v m (hl v hv) hm h

/-! ## Instructions -/

/-- `t` is reached from `s` by a local change and at most one latch set, for a cause in `A`. -/
structure State.Ends (s : State) (A : Cause → Prop) (t : State) : Prop where
  isLocal : s.Local t
  latch : t.latch = s.latch ∨ ∃ c, A c ∧ t.latch = s.latch.set c.irq true

theorem State.Quiet.ends {s t : State} {A : Cause → Prop} (h : s.Quiet t) : s.Ends A t := ⟨h.isLocal, .inl h.latch⟩

theorem State.Ends.quiet {s t u : State} {A : Cause → Prop} (h : s.Ends A t) (k : t.Quiet u) : s.Ends A u :=
  ⟨h.isLocal.trans k.isLocal, by rw [k.latch]; exact h.latch⟩

/-- Raising is a local change and one latch. -/
theorem State.raise_ends {s : State} {A : Cause → Prop} {c : Cause} (h : A c) (len : Option Nat) :
    s.Ends A (s.raise c len) := by
  rw [State.raise_eq]
  exact ⟨⟨id, ⟨rfl, rfl⟩, fun _ _ _ => rfl, rfl, rfl, rfl, rfl, fun _ => ⟨rfl, rfl, rfl⟩⟩, .inr ⟨c, h, rfl⟩⟩

/-- The body of an instruction: local where it answers, and raising for a cause in `A`. -/
structure State.Body (s : State) (A : Cause → Prop) (body : Exec State) : Prop where
  ok : ∀ t, body = .ok t → s.Ends A t
  raises : ∀ c, body = .error (.raise c) → A c

theorem State.body_ok {s t : State} {A : Cause → Prop} (h : s.Quiet t) : s.Body A (.ok t) :=
  ⟨fun u hu => by obtain rfl := Except.ok.inj hu; exact h.ends, fun _ hc => by simp at hc⟩

theorem State.body_bind {α : Type} {s : State} {A : Cause → Prop} {m : Exec α} {f : α → Exec State}
    (he : ∀ c, m = .error (.raise c) → A c) (hf : ∀ a, m = .ok a → s.Body A (f a)) : s.Body A (m >>= f) := by
  cases m with
  | error e =>
    refine ⟨fun t ht => by simp [bind, Except.bind] at ht, fun c hc => ?_⟩
    simp only [bind, Except.bind, Except.error.injEq] at hc
    exact he c (by rw [hc])
  | ok a => exact hf a rfl

theorem need_raises {b : Bool} {A : Cause → Prop} {c : Cause} (hn : b = false → A .illegalOperation)
    (h : need b = .error (.raise c)) : A c := by
  obtain ⟨hb, he⟩ := need_eq_error h
  obtain rfl : c = .illegalOperation := by simpa using he
  exact hn hb

theorem State.body_need {s : State} {A : Cause → Prop} {b : Bool} {f : Unit → Exec State}
    (hn : b = false → A .illegalOperation) (hf : b = true → s.Body A (f ())) : s.Body A (need b >>= f) :=
  State.body_bind (fun _ => need_raises hn) fun _ h => hf (need_eq_ok.1 h)

theorem State.Body.settle {s t : State} {A : Cause → Prop} {body : Exec State} {len : Option Nat} (h : s.Body A body)
    (ht : Machine.settle len s body = .next t) : s.Ends A t := by
  rcases settle_eq_next ht with ht | ⟨c, hc, rfl⟩
  · exact h.ok t ht
  · exact State.raise_ends (h.raises c hc) len

theorem State.Body.completes {s t : State} {A : Cause → Prop} {body : Exec State} {len : Option Nat} (h : s.Body A body)
    (ht : Machine.completes len s body = .next t) : s.Ends A t := by
  rcases completes_eq_next ht with ⟨u, hu, rfl⟩ | ⟨c, hc, rfl⟩
  · exact (h.ok u hu).quiet (u.quiet_advance _)
  · exact State.raise_ends (h.raises c hc) len

/-! ## Small facts -/

theorem IsGeneral.not_float {ref : Ref} (h : IsGeneral ref) : ¬IsFloat ref := by
  obtain ⟨i, rfl | rfl | rfl⟩ := h <;> simp [IsFloat]

theorem State.xAs_eq_zero {s : State} {w : Nat} {rs : Ref} (hw : rs.width = w) (h : s.xAs w rs = 0) : s.x rs = 0 := by
  subst hw
  simpa [State.xAs] using h

/-! ## The shared shapes -/

/-- An operation that raises, if anything, DivideByZero, and that for the divisor 0 alone where `d` says so. -/
def IntOp.Raises (op : IntOp) (d : Bool) : Prop :=
  ∀ (w : Nat) (a b : BitVec w) (c : Cause), op w a b = .error (.raise c) → c = .divideByZero ∧ d = true ∧ b = 0

theorem IntOp.raises_of_ok {op : IntOp} (d : Bool) (h : ∀ w a b, ∃ out, op w a b = .ok out) : op.Raises d := by
  intro w a b c hc
  obtain ⟨out, ho⟩ := h w a b
  rw [ho] at hc; cases hc

theorem IntOp.raises_dividing (op : (w : Nat) → BitVec w → BitVec w → Alu w) : (dividing op).Raises true := by
  intro w a b c hc
  unfold dividing at hc
  split at hc
  · rename_i hb
    simp only [Except.error.injEq, Stop.raise.injEq] at hc
    exact ⟨hc.symm, rfl, hb⟩
  · cases hc

theorem State.body_integerOp {s : State} {A : Cause → Prop} {d : Bool} {op : IntOp} {rd : Ref} {b : BitVec rd.width}
    (h : s.mode = .user → rd ≠ .kspr ∧ rd ≠ .pdpr ∧ rd ≠ .imr) (ho : op.Raises d)
    (hz : d = true → b = 0 → A .divideByZero) : s.Body A (s.integerOp op rd b) :=
  State.body_bind (fun c hc => by obtain ⟨rfl, hd, hb⟩ := ho _ _ _ c hc; exact hz hd hb)
    fun out _ => State.body_ok (State.quiet_writeAlu h out)

theorem State.body_arithmeticOp {s : State} {A : Cause → Prop} {d : Bool} {op : IntOp} {fop : Word → Word → Word}
    {rd : Ref} {b : BitVec rd.width} (h : s.mode = .user → rd ≠ .kspr ∧ rd ≠ .pdpr ∧ rd ≠ .imr) (ho : op.Raises d)
    (hz : ¬IsFloat rd → d = true → b = 0 → A .divideByZero) : s.Body A (s.arithmeticOp op fop rd b) := by
  unfold State.arithmeticOp
  split
  · exact State.body_ok ((State.quiet_setX h _).trans (State.quiet_floatFlags _ _ _))
  · rename_i hf
    exact State.body_integerOp h ho (hz fun hi => hf (isFloatRef_iff.2 hi))

theorem State.ends_arithmeticVl {s t : State} {i : Instr} {d : Bool} {op : IntOp} {fop : Word → Word → Word} {rd : Ref}
    {lit : Lit} (ho : op.Raises d) (hr : (RefClass.any, rd) ∈ refsOf i)
    (hz : ¬IsFloat rd → d = true → literalValue rd.width lit = 0 → s.ZeroDivisor i)
    (h : s.arithmeticVl op fop rd lit = .next t) : s.Ends (s.MayRaise i) t :=
  State.Body.completes (State.body_need (State.illegal_operand hr) fun hl =>
    State.body_arithmeticOp (State.legal_not_privileged hl) ho hz) h

/-- Checks of format R_R: what fails them, and what they give (R99, R100, R103). -/
theorem State.checkRr_raises {s : State} {i : Instr} {rd rs : Ref} {c : Cause} (hr : (RefClass.any, rd) ∈ refsOf i)
    (hs : (RefClass.any, rs) ∈ refsOf i) (hp : pairOf i = some (rd, rs)) (hk : kindPairOf i = some (rd, rs))
    (h : s.checkRr rd rs = .error (.raise c)) : s.MayRaise i c := by
  unfold State.checkRr at h
  simp only [bind, Except.bind] at h
  split at h
  · rename_i e he
    obtain rfl := Except.error.inj h
    exact need_raises (A := s.MayRaise i) (State.illegal_operands hr hs) he
  · split at h
    · rename_i e he
      obtain rfl := Except.error.inj h
      exact need_raises (A := s.MayRaise i) (fun hw => .lengths rd rs hp (by simpa [widthsMatch] using hw)) he
    · refine need_raises (A := s.MayRaise i) (fun hw => .kinds rd rs hk ?_) h
      simp only [kindsMatch, beq_eq_false_iff_ne, ne_eq] at hw
      rw [← isFloatRef_iff, ← isFloatRef_iff]
      cases ha : isFloatRef rd <;> cases hb : isFloatRef rs <;> simp_all

theorem State.checkRr_ok {s : State} {rd rs : Ref} (h : s.checkRr rd rs = .ok ()) :
    s.legal .any rd = true ∧ rs.width = rd.width := by
  unfold State.checkRr at h
  cases h1 : s.legal .any rd && s.legal .any rs <;> cases h2 : widthsMatch rd rs <;>
    simp [h1, h2, bind, Except.bind] at h
  exact ⟨(Bool.and_eq_true_iff.1 h1).1, (by simpa [widthsMatch] using h2 : rd.width = rs.width).symm⟩

theorem State.ends_arithmeticRr {s t : State} {i : Instr} {d : Bool} {op : IntOp} {fop : Word → Word → Word}
    {rd rs : Ref} (ho : op.Raises d) (hr : (RefClass.any, rd) ∈ refsOf i) (hs : (RefClass.any, rs) ∈ refsOf i)
    (hp : pairOf i = some (rd, rs)) (hk : kindPairOf i = some (rd, rs))
    (hz : ¬IsFloat rd → d = true → rs.width = rd.width → s.x rs = 0 → s.ZeroDivisor i)
    (h : s.arithmeticRr op fop rd rs = .next t) : s.Ends (s.MayRaise i) t :=
  State.Body.completes (State.body_bind (fun _ => State.checkRr_raises hr hs hp hk) fun _ hc =>
    State.body_arithmeticOp (State.legal_not_privileged (State.checkRr_ok hc).1) ho fun hf hd hb =>
      hz hf hd (State.checkRr_ok hc).2 (State.xAs_eq_zero (State.checkRr_ok hc).2 hb)) h

theorem State.ends_integerVl {s t : State} {i : Instr} {d : Bool} {op : IntOp} {rd : Ref} {lit : Lit}
    (ho : op.Raises d) (hr : (RefClass.integer, rd) ∈ refsOf i)
    (hz : ¬IsFloat rd → d = true → literalValue rd.width lit = 0 → s.ZeroDivisor i)
    (h : s.integerVl op rd lit = .next t) : s.Ends (s.MayRaise i) t :=
  State.Body.completes (State.body_need (State.illegal_operand hr) fun hl =>
    State.body_integerOp (State.legal_not_privileged hl) ho (hz (State.legal_integer.1 hl).not_float)) h

theorem State.ends_integerRr {s t : State} {i : Instr} {d : Bool} {op : IntOp} {rd rs : Ref} (ho : op.Raises d)
    (hr : (RefClass.integer, rd) ∈ refsOf i) (hs : (RefClass.integer, rs) ∈ refsOf i) (hp : pairOf i = some (rd, rs))
    (hz : ¬IsFloat rd → d = true → rs.width = rd.width → s.x rs = 0 → s.ZeroDivisor i)
    (h : s.integerRr op rd rs = .next t) : s.Ends (s.MayRaise i) t := by
  refine State.Body.completes (State.body_bind (fun c hc => ?_) fun _ hc => ?_) h
  · unfold State.checkIntRr at hc
    simp only [bind, Except.bind] at hc
    split at hc
    · rename_i e he
      obtain rfl := Except.error.inj hc
      exact need_raises (A := s.MayRaise i) (State.illegal_operands hr hs) he
    · exact need_raises (A := s.MayRaise i) (fun hw => .lengths rd rs hp (by simpa [widthsMatch] using hw)) hc
  · have hb : s.legal .integer rd = true ∧ rs.width = rd.width := by
      unfold State.checkIntRr at hc
      cases h1 : s.legal .integer rd && s.legal .integer rs <;> simp [h1, bind, Except.bind] at hc
      have h2 := need_eq_ok.1 hc
      exact ⟨(Bool.and_eq_true_iff.1 h1).1, (by simpa [widthsMatch] using h2 : rd.width = rs.width).symm⟩
    exact State.body_integerOp (State.legal_not_privileged hb.1) ho fun hd hv =>
      hz (State.legal_integer.1 hb.1).not_float hd hb.2 (State.xAs_eq_zero hb.2 hv)

theorem State.ends_shiftLb {s t : State} {i : Instr} {op : (w : Nat) → BitVec w → Nat → Alu w} {rd : Ref} {n : Byte}
    (hr : (RefClass.integer, rd) ∈ refsOf i) (h : s.shiftLb op rd n = .next t) : s.Ends (s.MayRaise i) t :=
  State.Body.completes (State.body_need (State.illegal_operand hr) fun hl =>
    State.body_ok (State.quiet_writeAlu (State.legal_not_privileged hl) _)) h

theorem State.ends_shiftRb {s t : State} {i : Instr} {op : (w : Nat) → BitVec w → Nat → Alu w} {rd rb : Ref}
    (hr : (RefClass.integer, rd) ∈ refsOf i) (hb : (RefClass.byte, rb) ∈ refsOf i) (h : s.shiftRb op rd rb = .next t) :
    s.Ends (s.MayRaise i) t :=
  State.Body.completes (State.body_need (State.illegal_operands hr hb) fun hl => State.body_ok
    (State.quiet_writeAlu (State.legal_not_privileged (Bool.and_eq_true_iff.1 hl).1) _)) h

theorem State.ends_jumpLiteral {s t : State} {A : Cause → Prop} {b : Bool} {a : Word} (h : s.jumpLiteral b a = .next t) :
    s.Ends A t := by
  refine State.Body.settle (State.body_ok ?_) h
  split
  · exact s.quiet_setPc _
  · exact s.quiet_advance _

theorem State.ends_jumpRegister {s t : State} {i : Instr} {b : Bool} {ra : Ref}
    (hr : (RefClass.address, ra) ∈ refsOf i) (h : s.jumpRegister b ra = .next t) : s.Ends (s.MayRaise i) t := by
  refine State.Body.settle (State.body_need (State.illegal_operand hr) fun _ => State.body_ok ?_) h
  split
  · exact s.quiet_setPc _
  · exact s.quiet_advance _

/-! ## Memory, the stack, BLOCKCOPY -/

theorem State.body_loadInto {s : State} {A : Cause → Prop} {rr : Ref} (h : s.legal .any rr = true) (a : Word)
    (hf : s.Faults .read (addrs a (bytesOf rr)) → A .pageFault) : s.Body A (s.loadInto rr a) :=
  State.body_bind (fun _ hc => by obtain ⟨rfl, h⟩ := State.memRead_raises hc; exact hf h) fun _ _ =>
    State.body_ok (State.quiet_setX (State.legal_not_privileged h) _)

/-- A write raises for what stops it. -/
theorem State.memWrite_cause {s : State} {A : Cause → Prop} {w : Nat} {a : Word} {v : BitVec w} {c : Cause}
    (hf : s.Faults .write (addrs a (w / 8)) → A .pageFault)
    (hr : s.WriteRefused (addrs a (w / 8)) → A .illegalOperation) (h : s.memWrite a v = .error (.raise c)) : A c := by
  rcases State.memWrite_raises h with ⟨rfl, h'⟩ | ⟨rfl, h'⟩
  · exact hf h'
  · exact hr h'

theorem State.body_storeFrom {s : State} {A : Cause → Prop} {rr : Ref} {a : Word}
    (hf : s.Faults .write (addrs a (bytesOf rr)) → A .pageFault)
    (hr : s.WriteRefused (addrs a (bytesOf rr)) → A .illegalOperation) : s.Body A (s.storeFrom rr a) :=
  ⟨fun _ ht => (State.quiet_memWrite ht).ends, fun _ => State.memWrite_cause hf hr⟩

theorem State.body_swapWith {s : State} {A : Cause → Prop} {rr : Ref} (h : s.legal .any rr = true) {a : Word}
    (hl : s.Faults .read (addrs a (bytesOf rr)) → A .pageFault)
    (hf : s.Faults .write (addrs a (bytesOf rr)) → A .pageFault)
    (hr : s.WriteRefused (addrs a (bytesOf rr)) → A .illegalOperation) : s.Body A (s.swapWith rr a) := by
  refine State.body_bind (fun _ hc => by obtain ⟨rfl, h⟩ := State.memRead_raises hc; exact hl h) fun m _ =>
    State.body_bind (fun _ => State.memWrite_cause hf hr) fun t ht => State.body_ok ?_
  have hq := State.quiet_memWrite ht
  exact hq.trans (State.quiet_setX (fun hu => State.legal_not_privileged h (hq.isLocal.mode ▸ hu)) _)

theorem State.quiet_copyInto {s : State} {rd rs : Ref} (h : s.legal .any rd = true) : s.Quiet (s.copyInto rd rs) := by
  unfold State.copyInto
  split
  · exact State.quiet_setX (State.legal_not_privileged h) _
  · split <;> exact State.quiet_setX (State.legal_not_privileged h) _

theorem State.quiet_negateIn {s : State} {rd : Ref} (h : s.legal .any rd = true) : s.Quiet (s.negateIn rd) := by
  unfold State.negateIn
  split
  · exact (State.quiet_setX (State.legal_not_privileged h) _).trans (State.quiet_floatFlags _ _ _)
  · exact State.quiet_writeAlu (State.legal_not_privileged h) _

theorem State.quiet_compareWith (s : State) (r1 : Ref) (v : BitVec r1.width) : s.Quiet (s.compareWith r1 v) := by
  unfold State.compareWith
  split
  · exact State.quiet_floatFlags _ _ _
  · exact State.quiet_setZNCO _ _ _ _ _

/-- The copying loop of BLOCKCOPY. -/
theorem State.quiet_copyBytes {s t : State} {dst src : Word} {free : Option Nat} {k n : Nat}
    (h : s.copyBytes dst src free k n = .ok t) : s.Quiet t := by
  induction n generalizing s k with
  | zero => obtain rfl := Except.ok.inj h; exact .refl s
  | succ n ih =>
    simp only [State.copyBytes, bind, Except.bind] at h
    cases hr : s.memRead 8 (src + BitVec.ofNat 32 k) with
    | error e => simp [hr] at h
    | ok b =>
      simp only [hr] at h
      split at h
      · cases h
      · rename_i u hw
        exact (State.quiet_memWrite hw).trans (ih h)

theorem State.quiet_scramble (s : State) (dst : Word) (draw k n : Nat) : s.Quiet (s.scramble dst draw k n) := by
  induction n generalizing s k with
  | zero => exact .refl s
  | succ n ih =>
    simp only [State.scramble]
    split
    · rename_i t hw
      exact (State.quiet_memWrite hw).trans (ih t (k + 1))
    · exact ih s (k + 1)

/-- The copying loop changes memory alone. -/
theorem State.copyBytes_eq_ok {s t : State} {dst src : Word} {free : Option Nat} {k n : Nat}
    (h : s.copyBytes dst src free k n = .ok t) : t = s.setMem t.mem := by
  induction n generalizing s k with
  | zero => obtain rfl := Except.ok.inj h; rfl
  | succ n ih =>
    simp only [State.copyBytes, bind, Except.bind] at h
    cases hr : s.memRead 8 (src + BitVec.ofNat 32 k) with
    | error e => simp [hr] at h
    | ok b =>
      simp only [hr] at h
      split at h
      · cases h
      · rename_i u hw
        obtain ⟨pl, _, _, rfl⟩ := State.memWrite_eq_ok.1 hw
        exact (ih h :)

/-- What the copying loop raises, at byte k + j once the j bytes before it are copied (R158). -/
theorem State.copyBytes_raises {s : State} {dst src : Word} {free : Option Nat} {k n : Nat} {c : Cause}
    (h : s.copyBytes dst src free k n = .error (.raise c)) :
    ∃ (j : Nat) (t : State), j < n ∧ s.copyBytes dst src free k j = .ok t ∧
      ((c = .pageFault ∧ t.Faults .read [src + BitVec.ofNat 32 (k + j)]) ∨
       (c = .pageFault ∧ t.Faults .write [dst + BitVec.ofNat 32 (k + j)]) ∨
       (c = .illegalOperation ∧ t.WriteRefused [dst + BitVec.ofNat 32 (k + j)])) := by
  induction n generalizing s k with
  | zero => cases h
  | succ n ih =>
    simp only [State.copyBytes, bind, Except.bind] at h
    cases hr : s.memRead 8 (src + BitVec.ofNat 32 k) with
    | error e =>
      simp only [hr, Except.error.injEq] at h
      subst h
      exact ⟨0, s, by omega, rfl, .inl (State.memRead_raises hr)⟩
    | ok b =>
      simp only [hr] at h
      split at h
      · rename_i e hw
        simp only [Except.error.injEq] at h
        subst h
        exact ⟨0, s, by omega, rfl, .inr (State.memWrite_raises hw)⟩
      · rename_i u hw
        obtain ⟨j, t, h1, h2, h3⟩ := ih h
        refine ⟨j + 1, t, by omega, ?_, by rwa [show k + (j + 1) = k + 1 + j by omega]⟩
        simp only [State.copyBytes, hr, hw, bind, Except.bind, h2]

theorem mem_addrs_add (a : Word) {k n : Nat} (h : k < n) : a + BitVec.ofNat 32 k ∈ addrs a n := by
  rw [← addrs_getElem a n k (by simpa using h)]
  exact List.getElem_mem _

theorem State.body_blockcopy {s : State} {i : Instr} (bytes : Nat) {len dst src : Word}
    (hi : s.blockcopyOf i = some (len, dst, src)) (hl : s.loadsFrom i = addrs src len.toNat)
    (hd : s.storesTo i = addrs dst len.toNat) : s.Body (s.MayRaise i) (s.blockcopy bytes len dst src) := by
  have cause : ∀ c : Cause, s.copyBytes dst src (if rangesOverlap len dst src then some s.draws else none) 0 len.toNat =
      .error (.raise c) → s.MayRaise i c := by
    intro c hc
    obtain ⟨j, t, hj, ht, h⟩ := State.copyBytes_raises hc
    rw [Nat.zero_add, State.copyBytes_eq_ok ht] at h
    have hp : s.Passes i t.mem := .copied len dst src j t hi hj ht
    rcases h with ⟨rfl, h⟩ | ⟨rfl, h⟩ | ⟨rfl, h⟩
    · exact ⟨_, hp, .inl (h.mono (by simpa [hl] using mem_addrs_add src hj))⟩
    · exact ⟨_, hp, .inr (h.mono (by simpa [hd] using mem_addrs_add dst hj))⟩
    · exact State.mayRaise_refused hp (by simpa [hd] using mem_addrs_add dst hj) h
  unfold State.blockcopy
  constructor
  · intro t ht
    dsimp only at ht
    split at ht
    · rename_i u hu
      obtain rfl := Except.ok.inj ht
      refine State.Quiet.ends ((State.quiet_copyBytes hu).trans ?_)
      split
      · exact (State.quiet_draw _).trans (State.quiet_advance _ _)
      · exact State.quiet_advance _ _
    · rename_i c hc
      obtain rfl := Except.ok.inj ht
      have hq := (s.quiet_scramble dst s.draws 0 len.toNat).trans (State.quiet_draw _)
      have he := State.raise_ends (s := (s.scramble dst s.draws 0 len.toNat).draw) (cause c hc) (some bytes)
      refine ⟨hq.isLocal.trans he.isLocal, ?_⟩
      rcases he.latch with hl | ⟨c', hc', hl⟩
      · exact .inl (hl.trans hq.latch)
      · exact .inr ⟨c', hc', by rw [hl, hq.latch]⟩
    · cases ht
  · intro c hc
    dsimp only at hc
    split at hc
    · cases hc
    · cases hc
    · rename_i e hne _
      exact absurd (Except.error.inj hc) (hne c)

theorem addrs_stack (a : Word) : addrs (a - 6) 6 = addrs (a - 4 - 2) 2 ++ addrs (a - 4) 4 := by
  have e : a - 4 - 2 = a - 6 := by bv_omega
  have e' : a - 6 + 2 = a - 4 := by bv_omega
  rw [addrs_call, e, e']

theorem State.body_callTo {s : State} {i : Instr} (bytes : Nat) (target : Word)
    (hi : (∃ a, i = .callLa a) ∨ ∃ ra, i = .callRa ra) (hn : i.length = some bytes)
    (hd : s.storesTo i = addrs (s.sp - 6) 6) : s.Body (s.MayRaise i) (s.callTo bytes target) := by
  rw [addrs_stack] at hd
  refine State.body_bind (fun c hp => ?_) fun s1 h1 => State.body_bind (fun c hp => ?_) fun s2 h2 =>
    State.body_ok (((State.quiet_push h1).trans (State.quiet_push h2)).trans (State.quiet_setPc _ _))
  · rcases State.push_raises hp with ⟨rfl, h⟩ | ⟨rfl, h⟩
    · exact State.mayRaise_write (h.mono fun v hv => by rw [hd]; exact List.mem_append_right _ hv)
    · exact State.mayRaise_refused .start (fun v hv => by rw [hd]; exact List.mem_append_right _ hv) h
  · have hm : s.Passes i s1.mem := .pushed bytes s1 hi hn h1
    obtain ⟨pl, _, _, rfl⟩ := State.memWrite_eq_ok.1 h1
    have hsp : ∀ m, ((s.setSp (s.sp - 4)).setMem m).sp = s.sp - 4 := fun m => State.sp_setSp s _
    have hin : ∀ m, ∀ v ∈ addrs (((s.setSp (s.sp - 4)).setMem m).sp - 2) 2, v ∈ s.storesTo i := fun m v hv => by
      rw [hd, ← hsp m]; exact List.mem_append_left _ hv
    rcases State.push_raises hp with ⟨rfl, h⟩ | ⟨rfl, h⟩
    · exact ⟨_, hm, .inr ((State.faults_setMem_setSp.1 h).mono (hin _))⟩
    · exact State.mayRaise_refused hm (hin _) (State.writeRefused_setMem_setSp.1 h)

theorem State.body_returnFromCall (s : State) {A : Cause → Prop} (h : s.Faults .read (addrs s.sp 6) → A .pageFault) :
    s.Body A s.returnFromCall := by
  rw [addrs_call] at h
  refine State.body_bind (fun c hc => ?_) fun p1 h1 => State.body_bind (fun c hc => ?_) fun p2 h2 =>
    State.body_ok ((((State.quiet_pop h1).trans (State.quiet_pop h2)).trans (State.quiet_setFlags _ _)).trans
      (State.quiet_setPc _ _))
  · obtain ⟨rfl, hf⟩ := State.pop_raises hc
    exact h (hf.mono fun v hv => List.mem_append_left _ hv)
  · obtain ⟨rfl, hf⟩ := State.pop_raises hc
    rw [(State.pop_eq_ok h1).2, State.faults_setSp, State.sp_setSp] at hf
    exact h (hf.mono fun v hv => List.mem_append_right _ hv)

end Sys2Proof.Machine
end

