-- ==== Sys2Proof/Laws/PerInstr.lean ====
section
/-!
SUPPORT. Statements about every instruction as syntax, one lemma for each constructor of `Instr`.
`LengthBound`: where the length of an instruction is defined (30_encoding.md R98), it is 1 to 13 bytes (R90).
-/

namespace Sys2Proof.Laws.LengthBound

/-- R90, R98: a defined length is 1 to 13 bytes. -/
def Statement (i : Instr) : Prop := ∀ n : Nat, i.length = some n → 1 ≤ n ∧ n ≤ 13

/-- A fixed length within the bound. -/
theorem of_fixed {i : Instr} {k : Nat} (h : i.length = some k) (low : 1 ≤ k) (high : k ≤ 13) : Statement i := by
  intro n e
  rw [h] at e
  cases e
  exact ⟨low, high⟩

/-- A length that the width of the register before a variable literal gives. -/
theorem of_variable {i : Instr} {rd : Ref} (h : i.length = vlLength rd) : Statement i := by
  intro n e
  rw [h] at e
  cases rd <;> simp [vlLength, Ref.width, Ref.named] at e <;> omega

theorem halt : Statement .halt := of_fixed rfl (by decide) (by decide)

theorem pause : Statement .pause := of_fixed rfl (by decide) (by decide)

theorem timerLw (ms : Word) : Statement (.timerLw ms) := of_fixed rfl (by decide) (by decide)

theorem timerRw (rr : Ref) : Statement (.timerRw rr) := of_fixed rfl (by decide) (by decide)

theorem usermode : Statement .usermode := of_fixed rfl (by decide) (by decide)

theorem ireturn : Statement .ireturn := of_fixed rfl (by decide) (by decide)

theorem loadLa (rr : Ref) (addr : Word) : Statement (.loadLa rr addr) := of_fixed rfl (by decide) (by decide)

theorem loadRa (rr : Ref) (ra : Ref) : Statement (.loadRa rr ra) := of_fixed rfl (by decide) (by decide)

theorem storeLa (addr : Word) (rr : Ref) : Statement (.storeLa addr rr) := of_fixed rfl (by decide) (by decide)

theorem storeRa (ra : Ref) (rr : Ref) : Statement (.storeRa ra rr) := of_fixed rfl (by decide) (by decide)

theorem copyVl (rd : Ref) (lit : Lit) : Statement (.copyVl rd lit) := of_variable (rd := rd) rfl

theorem copyRr (rd : Ref) (rs : Ref) : Statement (.copyRr rd rs) := of_fixed rfl (by decide) (by decide)

theorem swapLa (rr : Ref) (addr : Word) : Statement (.swapLa rr addr) := of_fixed rfl (by decide) (by decide)

theorem swapRa (rr : Ref) (ra : Ref) : Statement (.swapRa rr ra) := of_fixed rfl (by decide) (by decide)

theorem push (rr : Ref) : Statement (.push rr) := of_fixed rfl (by decide) (by decide)

theorem pop (rr : Ref) : Statement (.pop rr) := of_fixed rfl (by decide) (by decide)

theorem blockcopyLwLaLa (len : Word) (dst : Word) (src : Word) : Statement (.blockcopyLwLaLa len dst src) := of_fixed rfl (by decide) (by decide)

theorem blockcopyLwLaRa (len : Word) (dst : Word) (rsrc : Ref) : Statement (.blockcopyLwLaRa len dst rsrc) := of_fixed rfl (by decide) (by decide)

theorem blockcopyLwRaLa (len : Word) (rdst : Ref) (src : Word) : Statement (.blockcopyLwRaLa len rdst src) := of_fixed rfl (by decide) (by decide)

theorem blockcopyLwRaRa (len : Word) (rdst : Ref) (rsrc : Ref) : Statement (.blockcopyLwRaRa len rdst rsrc) := of_fixed rfl (by decide) (by decide)

theorem blockcopyRwLaLa (rlen : Ref) (dst : Word) (src : Word) : Statement (.blockcopyRwLaLa rlen dst src) := of_fixed rfl (by decide) (by decide)

theorem blockcopyRwLaRa (rlen : Ref) (dst : Word) (rsrc : Ref) : Statement (.blockcopyRwLaRa rlen dst rsrc) := of_fixed rfl (by decide) (by decide)

theorem blockcopyRwRaLa (rlen : Ref) (rdst : Ref) (src : Word) : Statement (.blockcopyRwRaLa rlen rdst src) := of_fixed rfl (by decide) (by decide)

theorem blockcopyRwRaRa (rlen : Ref) (rdst : Ref) (rsrc : Ref) : Statement (.blockcopyRwRaRa rlen rdst rsrc) := of_fixed rfl (by decide) (by decide)

theorem negate (rd : Ref) : Statement (.negate rd) := of_fixed rfl (by decide) (by decide)

theorem addVl (rd : Ref) (lit : Lit) : Statement (.addVl rd lit) := of_variable (rd := rd) rfl

theorem addRr (rd : Ref) (rs : Ref) : Statement (.addRr rd rs) := of_fixed rfl (by decide) (by decide)

theorem addcarryVl (rd : Ref) (lit : Lit) : Statement (.addcarryVl rd lit) := of_variable (rd := rd) rfl

theorem addcarryRr (rd : Ref) (rs : Ref) : Statement (.addcarryRr rd rs) := of_fixed rfl (by decide) (by decide)

theorem subVl (rd : Ref) (lit : Lit) : Statement (.subVl rd lit) := of_variable (rd := rd) rfl

theorem subRr (rd : Ref) (rs : Ref) : Statement (.subRr rd rs) := of_fixed rfl (by decide) (by decide)

theorem subborrowVl (rd : Ref) (lit : Lit) : Statement (.subborrowVl rd lit) := of_variable (rd := rd) rfl

theorem subborrowRr (rd : Ref) (rs : Ref) : Statement (.subborrowRr rd rs) := of_fixed rfl (by decide) (by decide)

theorem multVl (rd : Ref) (lit : Lit) : Statement (.multVl rd lit) := of_variable (rd := rd) rfl

theorem multRr (rd : Ref) (rs : Ref) : Statement (.multRr rd rs) := of_fixed rfl (by decide) (by decide)

theorem sdivVl (rd : Ref) (lit : Lit) : Statement (.sdivVl rd lit) := of_variable (rd := rd) rfl

theorem sdivRr (rd : Ref) (rs : Ref) : Statement (.sdivRr rd rs) := of_fixed rfl (by decide) (by decide)

theorem udivVl (rd : Ref) (lit : Lit) : Statement (.udivVl rd lit) := of_variable (rd := rd) rfl

theorem udivRr (rd : Ref) (rs : Ref) : Statement (.udivRr rd rs) := of_fixed rfl (by decide) (by decide)

theorem sremVl (rd : Ref) (lit : Lit) : Statement (.sremVl rd lit) := of_variable (rd := rd) rfl

theorem sremRr (rd : Ref) (rs : Ref) : Statement (.sremRr rd rs) := of_fixed rfl (by decide) (by decide)

theorem uremVl (rd : Ref) (lit : Lit) : Statement (.uremVl rd lit) := of_variable (rd := rd) rfl

theorem uremRr (rd : Ref) (rs : Ref) : Statement (.uremRr rd rs) := of_fixed rfl (by decide) (by decide)

theorem notR (rd : Ref) : Statement (.notR rd) := of_fixed rfl (by decide) (by decide)

theorem andVl (rd : Ref) (lit : Lit) : Statement (.andVl rd lit) := of_variable (rd := rd) rfl

theorem andRr (rd : Ref) (rs : Ref) : Statement (.andRr rd rs) := of_fixed rfl (by decide) (by decide)

theorem orVl (rd : Ref) (lit : Lit) : Statement (.orVl rd lit) := of_variable (rd := rd) rfl

theorem orRr (rd : Ref) (rs : Ref) : Statement (.orRr rd rs) := of_fixed rfl (by decide) (by decide)

theorem xorVl (rd : Ref) (lit : Lit) : Statement (.xorVl rd lit) := of_variable (rd := rd) rfl

theorem xorRr (rd : Ref) (rs : Ref) : Statement (.xorRr rd rs) := of_fixed rfl (by decide) (by decide)

theorem lshiftLb (rd : Ref) (n : Byte) : Statement (.lshiftLb rd n) := of_fixed rfl (by decide) (by decide)

theorem lshiftRb (rd : Ref) (rb : Ref) : Statement (.lshiftRb rd rb) := of_fixed rfl (by decide) (by decide)

theorem rshiftlLb (rd : Ref) (n : Byte) : Statement (.rshiftlLb rd n) := of_fixed rfl (by decide) (by decide)

theorem rshiftlRb (rd : Ref) (rb : Ref) : Statement (.rshiftlRb rd rb) := of_fixed rfl (by decide) (by decide)

theorem rshiftaLb (rd : Ref) (n : Byte) : Statement (.rshiftaLb rd n) := of_fixed rfl (by decide) (by decide)

theorem rshiftaRb (rd : Ref) (rb : Ref) : Statement (.rshiftaRb rd rb) := of_fixed rfl (by decide) (by decide)

theorem lrotLb (rd : Ref) (n : Byte) : Statement (.lrotLb rd n) := of_fixed rfl (by decide) (by decide)

theorem lrotRb (rd : Ref) (rb : Ref) : Statement (.lrotRb rd rb) := of_fixed rfl (by decide) (by decide)

theorem rrotLb (rd : Ref) (n : Byte) : Statement (.rrotLb rd n) := of_fixed rfl (by decide) (by decide)

theorem rrotRb (rd : Ref) (rb : Ref) : Statement (.rrotRb rd rb) := of_fixed rfl (by decide) (by decide)

theorem lrotcarryLb (rd : Ref) (n : Byte) : Statement (.lrotcarryLb rd n) := of_fixed rfl (by decide) (by decide)

theorem lrotcarryRb (rd : Ref) (rb : Ref) : Statement (.lrotcarryRb rd rb) := of_fixed rfl (by decide) (by decide)

theorem rrotcarryLb (rd : Ref) (n : Byte) : Statement (.rrotcarryLb rd n) := of_fixed rfl (by decide) (by decide)

theorem rrotcarryRb (rd : Ref) (rb : Ref) : Statement (.rrotcarryRb rd rb) := of_fixed rfl (by decide) (by decide)

theorem jumpLa (target : Word) : Statement (.jumpLa target) := of_fixed rfl (by decide) (by decide)

theorem jumpRa (ra : Ref) : Statement (.jumpRa ra) := of_fixed rfl (by decide) (by decide)

theorem compareVl (r1 : Ref) (lit : Lit) : Statement (.compareVl r1 lit) := of_variable (rd := r1) rfl

theorem compareRr (r1 : Ref) (r2 : Ref) : Statement (.compareRr r1 r2) := of_fixed rfl (by decide) (by decide)

theorem jequalLa (target : Word) : Statement (.jequalLa target) := of_fixed rfl (by decide) (by decide)

theorem jequalRa (ra : Ref) : Statement (.jequalRa ra) := of_fixed rfl (by decide) (by decide)

theorem jnotequalLa (target : Word) : Statement (.jnotequalLa target) := of_fixed rfl (by decide) (by decide)

theorem jnotequalRa (ra : Ref) : Statement (.jnotequalRa ra) := of_fixed rfl (by decide) (by decide)

theorem jgreaterLa (target : Word) : Statement (.jgreaterLa target) := of_fixed rfl (by decide) (by decide)

theorem jgreaterRa (ra : Ref) : Statement (.jgreaterRa ra) := of_fixed rfl (by decide) (by decide)

theorem jgreatereqLa (target : Word) : Statement (.jgreatereqLa target) := of_fixed rfl (by decide) (by decide)

theorem jgreatereqRa (ra : Ref) : Statement (.jgreatereqRa ra) := of_fixed rfl (by decide) (by decide)

theorem jaboveLa (target : Word) : Statement (.jaboveLa target) := of_fixed rfl (by decide) (by decide)

theorem jaboveRa (ra : Ref) : Statement (.jaboveRa ra) := of_fixed rfl (by decide) (by decide)

theorem jaboveeqLa (target : Word) : Statement (.jaboveeqLa target) := of_fixed rfl (by decide) (by decide)

theorem jaboveeqRa (ra : Ref) : Statement (.jaboveeqRa ra) := of_fixed rfl (by decide) (by decide)

theorem jlesserLa (target : Word) : Statement (.jlesserLa target) := of_fixed rfl (by decide) (by decide)

theorem jlesserRa (ra : Ref) : Statement (.jlesserRa ra) := of_fixed rfl (by decide) (by decide)

theorem jlessereqLa (target : Word) : Statement (.jlessereqLa target) := of_fixed rfl (by decide) (by decide)

theorem jlessereqRa (ra : Ref) : Statement (.jlessereqRa ra) := of_fixed rfl (by decide) (by decide)

theorem jbelowLa (target : Word) : Statement (.jbelowLa target) := of_fixed rfl (by decide) (by decide)

theorem jbelowRa (ra : Ref) : Statement (.jbelowRa ra) := of_fixed rfl (by decide) (by decide)

theorem jbeloweqLa (target : Word) : Statement (.jbeloweqLa target) := of_fixed rfl (by decide) (by decide)

theorem jbeloweqRa (ra : Ref) : Statement (.jbeloweqRa ra) := of_fixed rfl (by decide) (by decide)

theorem joverflowLa (target : Word) : Statement (.joverflowLa target) := of_fixed rfl (by decide) (by decide)

theorem joverflowRa (ra : Ref) : Statement (.joverflowRa ra) := of_fixed rfl (by decide) (by decide)

theorem jnotoverflowLa (target : Word) : Statement (.jnotoverflowLa target) := of_fixed rfl (by decide) (by decide)

theorem jnotoverflowRa (ra : Ref) : Statement (.jnotoverflowRa ra) := of_fixed rfl (by decide) (by decide)

theorem callLa (target : Word) : Statement (.callLa target) := of_fixed rfl (by decide) (by decide)

theorem callRa (ra : Ref) : Statement (.callRa ra) := of_fixed rfl (by decide) (by decide)

theorem ret : Statement .ret := of_fixed rfl (by decide) (by decide)

theorem syscall : Statement .syscall := of_fixed rfl (by decide) (by decide)

theorem unmapped60 (low : BitVec 5) : Statement (.unmapped60 low) := of_fixed rfl (by decide) (by decide)

theorem unmapped80 (low : BitVec 7) : Statement (.unmapped80 low) := of_fixed rfl (by decide) (by decide)

end Sys2Proof.Laws.LengthBound
end

