-- ==== Sys2Proof/Laws/Step.lean ====
section
/-!
SUPPORT. The step taken apart (60_exceptions.md R304): what a fetch may raise, the outcomes of a step, and what an interrupt
service leaves alone.
-/

namespace Sys2Proof.Machine

/-! ## The fetch -/

/-- What a fetch raises: a page fault, at a byte whose translation faults (60_exceptions.md R312). -/
theorem State.fetchFrom_raises {s : State} {k n : Nat} {c : Cause} (h : s.fetchFrom k n = .error (.raise c)) :
    c = .pageFault ∧ ∃ j : Nat, j < k + n ∧ s.Faults .fetch [s.pc + BitVec.ofNat 32 j] := by
  induction n generalizing k with
  | zero => cases h
  | succ n ih =>
    simp only [State.fetchFrom, State.fetchByte, bind, Except.bind] at h
    cases hr : s.resolve .fetch [s.pc + BitVec.ofNat 32 k] with
    | error e =>
      simp only [hr, Except.error.injEq] at h
      subst h
      rcases State.resolve_raises hr with ⟨hc, hf⟩ | ⟨_, hw, _⟩
      · exact ⟨by simpa using hc, k, by omega, hf⟩
      · cases hw
    | ok l =>
      simp only [hr, State.physRead, bind, Except.bind] at h
      cases ha : s.accessible l with
      | error e =>
        simp only [ha] at h
        rcases State.accessible_eq_error ha with rfl | rfl <;> simp at h
      | ok u =>
        simp only [ha] at h
        cases hf : s.fetchFrom (k+1) n with
        | error e =>
          simp only [hf, Except.error.injEq] at h
          subst h
          obtain ⟨hc, j, hj, hf⟩ := ih hf
          exact ⟨hc, j, by omega, hf⟩
        | ok b => simp [hf] at h

/-- No instruction is longer than 13 bytes (30_encoding.md R98). -/
theorem headBytes_le (f : Format) : f.headBytes ≤ 13 := by cases f <;> decide

theorem bytesToFetch_le (head : List Byte) : bytesToFetch head ≤ 13 := by
  have hw : ∀ ref : Ref, ref.width ≤ 32 := by intro ref; cases ref <;> simp [Ref.width]
  have hb : ∀ f : Format, f.bytes ≤ 13 := by intro f; cases f <;> decide
  have := hw (Ref.ofByte (head.getD 1 0))
  unfold bytesToFetch Format.totalBytes
  split
  · omega
  · exact hb _

theorem State.fetch_raises {s : State} {c : Cause} (h : s.fetch = .error (.raise c)) :
    c = .pageFault ∧ ∃ j : Nat, j < 13 ∧ s.Faults .fetch [s.pc + BitVec.ofNat 32 j] := by
  have bound : ∀ n ≤ 13, s.fetchFrom 0 n = .error (.raise c) →
      c = .pageFault ∧ ∃ j : Nat, j < 13 ∧ s.Faults .fetch [s.pc + BitVec.ofNat 32 j] := by
    intro n hn h
    obtain ⟨hc, j, hj, hf⟩ := State.fetchFrom_raises h
    exact ⟨hc, j, by omega, hf⟩
  simp only [State.fetch, bind, Except.bind] at h
  cases h1 : s.fetchFrom 0 1 with
  | error e => simp only [h1, Except.error.injEq] at h; subst h; exact bound 1 (by omega) h1
  | ok b =>
    simp only [h1] at h
    cases h2 : s.fetchFrom 0 (formatOf (b.headD 0)).headBytes with
    | error e => simp only [h2, Except.error.injEq] at h; subst h; exact bound _ (headBytes_le _) h2
    | ok b2 =>
      simp only [h2] at h
      cases h3 : s.fetchFrom 0 (bytesToFetch b2) with
      | error e => simp only [h3, Except.error.injEq] at h; subst h; exact bound _ (bytesToFetch_le _) h3
      | ok b3 =>
        simp only [h3] at h
        split at h <;> cases h

/-! ## The step -/

/-- What a step that answers a next state did: it serviced the chosen interrupt, it waited, it executed the instruction it
fetched, or its fetch raised a page fault (R304, R312). -/
theorem step_eq_next {s t : State} (h : step s = .next t) : s.halted = false ∧
    ((∃ n, s.sample.choose = some n ∧ settle none s.sample (s.sample.service n) = .next t) ∨
     (s.sample.choose = none ∧ s.paused = true ∧ t = s.sample) ∨
     (s.sample.choose = none ∧ s.paused = false ∧ ∃ i, s.sample.fetch = .ok i ∧ exec i s.sample = .next t) ∨
     (s.sample.choose = none ∧ s.paused = false ∧ (∃ k : Nat, k < 13 ∧ s.sample.Faults .fetch [s.pc + BitVec.ofNat 32 k]) ∧
       t = s.sample.raise .pageFault none)) := by
  unfold step at h
  split at h
  · cases h
  · rename_i hh
    refine ⟨by simpa using hh, ?_⟩
    unfold checkAndRun at h
    split at h
    · rename_i n hn; exact .inl ⟨n, hn, h⟩
    · rename_i hn
      split at h
      · rename_i hp; exact .inr (.inl ⟨hn, hp, (Host.Outcome.next.inj h).symm⟩)
      · rename_i hp
        have hp' : s.paused = false := by simpa using hp
        right; right
        unfold runInstruction runFetched at h
        split at h
        · rename_i i hi; exact .inl ⟨hn, hp', i, hi, h⟩
        · rename_i e he
          rcases settle_eq_next h with h' | ⟨c, h', rfl⟩
          · cases h'
          · obtain rfl := Except.error.inj h'
            obtain ⟨rfl, hf⟩ := State.fetch_raises he
            exact .inr ⟨hn, hp', hf, rfl⟩

/-! ## Interrupt entry -/

theorem entryPush_eq_ok {e : Exec State} {t : State} (h : entryPush e = .ok t) : e = .ok t := by
  unfold entryPush at h; split at h
  · cases h
  · exact h

/-- What a service that answers a next state leaves: the canonical form, the platform, read-only bytes, and every latch but
its own; and kernel mode (R306, R308). -/
theorem State.service_eq_next {s t : State} {n : Irq} (h : settle none s (s.service n) = .next t) :
    (s.Inv → t.Inv) ∧ s.SamePlatform t ∧ (s.Inv → ∀ p, s.kindOf p = .readOnly → t.mem.read p.toNat = s.mem.read p.toNat) ∧
      t.latch = s.latch.set n false ∧ t.mode = .kernel := by
  have noraise : ∀ e : Exec State, ∀ c, entryPush e ≠ .error (.raise c) := by
    intro e c h; unfold entryPush at h; split at h
    · cases h
    · rename_i hne; exact hne _ h
  unfold State.service at h
  simp only [bind, Except.bind] at h
  have fin : ∀ e : Stop, settle none s (.error e) = .next t → ∃ c, e = .raise c := by
    intro e h
    rcases settle_eq_next h with h' | ⟨c, h', _⟩
    · cases h'
    · exact ⟨c, Except.error.inj h'⟩
  split at h
  · rename_i e he; obtain ⟨c, rfl⟩ := fin _ h; exact absurd he (noraise _ _)
  rename_i s1 h1
  split at h
  · rename_i e he; obtain ⟨c, rfl⟩ := fin _ h; exact absurd he (noraise _ _)
  rename_i s2 h2
  split at h
  · rename_i e he; obtain ⟨c, rfl⟩ := fin _ h; exact absurd he (noraise _ _)
  rename_i s3 h3
  have q1 := State.quiet_push (entryPush_eq_ok h1)
  have q2 := State.quiet_push (entryPush_eq_ok h2)
  have q3 := State.quiet_push (entryPush_eq_ok h3)
  have q := (q1.trans q2).trans q3
  have hm3 : s3.mode = .kernel := q.isLocal.mode.trans rfl
  split at h
  · rename_i e he; obtain ⟨c, rfl⟩ := fin _ h
    exact absurd (State.memRead_eq_raise he) (by show s3.mode ≠ .user; rw [hm3]; simp)
  obtain rfl := Host.Outcome.next.inj h
  refine ⟨fun hs => q.isLocal.inv hs, q.isLocal.platform, fun hs p hp => q.isLocal.readOnly hs p hp, ?_, hm3⟩
  show s3.latch.set n false = _
  rw [q.latch]; rfl

end Sys2Proof.Machine
end

