-- ==== Sys2Proof/Tests/Slice0.lean ====
section
/-!
SUPPORT. The tests: ill-formed terms the well-formedness check refuses; one word per constructor, written out from
30_encoding.md, and what it decodes to; one step of each instruction, from 95_test_vectors.md or a hand calculation from the
rule named; and for each statement with hypotheses a state and operands that meet them.
-/

namespace Sys2Proof.Tests

open Sys2Proof.Machine

/-! ## Well-formedness: an ill-formed term for each check -/

theorem test_wf_refuses_named_reference : (Instr.push (.invalid 0x24)).check = .error .namedReference := by rfl

theorem test_wf_refuses_named_reference_of_two :
    (Instr.addRr (.r 0) (.invalid 0x00)).check = .error .namedReference := by rfl

theorem test_wf_refuses_named_reference_of_three :
    (Instr.blockcopyRwRaRa (.r 0) (.r 1) (.invalid 0x07)).check = .error .namedReference := by rfl

theorem test_wf_refuses_named_reference_before_literal :
    (Instr.copyVl (.invalid 0x10) .noLength).check = .error .namedReference := by rfl

theorem test_wf_refuses_literal_length : (Instr.copyVl (.r 0) (.byte 0)).check = .error .literalLength := by rfl

theorem test_wf_refuses_missing_literal : (Instr.addVl .flags .noLength).check = .error .literalLength := by rfl

theorem test_wf_accepts_invalid_reference : (Instr.push (.invalid 0x25)).check = .ok () := by rfl

/-! ## Decoding: a word for every constructor (30_encoding.md R92, R94, R95, R97, R105) -/

/-- The decoder reads the instruction and leaves no byte. -/
def reads (bytes : List Byte) (i : Instr) : Bool :=
  match decode bytes with
  | .ok (j, []) => decide (j = i)
  | _ => false

theorem test_decode_halt : reads [0x00] (.halt) = true := by decide

theorem test_decode_pause : reads [0x01] (.pause) = true := by decide

theorem test_decode_timerLw : reads [0x02, 0x11, 0x12, 0x13, 0x14] (.timerLw 0x11121314) = true := by decide

theorem test_decode_timerRw : reads [0x03, 0x0B] (.timerRw (.h 3)) = true := by decide

theorem test_decode_usermode : reads [0x04] (.usermode) = true := by decide

theorem test_decode_ireturn : reads [0x05] (.ireturn) = true := by decide

theorem test_decode_loadLa : reads [0x06, 0x16, 0x41, 0x42, 0x43, 0x44] (.loadLa (.b 6) 0x41424344) = true := by decide

theorem test_decode_loadRa : reads [0x07, 0x20, 0x21] (.loadRa .flags .uspr) = true := by decide

theorem test_decode_storeLa : reads [0x08, 0x71, 0x72, 0x73, 0x74, 0x23] (.storeLa 0x71727374 .pdpr) = true := by decide

theorem test_decode_storeRa : reads [0x09, 0x24, 0x25] (.storeRa .imr (.invalid 0x25)) = true := by decide

theorem test_decode_copyVl : reads [0x0A, 0x0B, 0xC1, 0xC2] (.copyVl (.h 3) (.half 0xC1C2)) = true := by decide

theorem test_decode_copyRr : reads [0x0B, 0x16, 0x1F] (.copyRr (.b 6) (.f 7)) = true := by decide

theorem test_decode_swapLa : reads [0x0C, 0x20, 0x21, 0x22, 0x23, 0x24] (.swapLa .flags 0x21222324) = true := by decide

theorem test_decode_swapRa : reads [0x0D, 0x22, 0x23] (.swapRa .kspr .pdpr) = true := by decide

theorem test_decode_push : reads [0x0E, 0x24] (.push .imr) = true := by decide

theorem test_decode_pop : reads [0x0F, 0x25] (.pop (.invalid 0x25)) = true := by decide

theorem test_decode_blockcopyLwLaLa : reads [0x10, 0x71, 0x72, 0x73, 0x74, 0x81, 0x82, 0x83, 0x84, 0x91, 0x92, 0x93, 0x94] (.blockcopyLwLaLa 0x71727374 0x81828384 0x91929394) = true := by decide

theorem test_decode_blockcopyLwLaRa : reads [0x11, 0xA1, 0xA2, 0xA3, 0xA4, 0xB1, 0xB2, 0xB3, 0xB4, 0x21] (.blockcopyLwLaRa 0xA1A2A3A4 0xB1B2B3B4 .uspr) = true := by decide

theorem test_decode_blockcopyLwRaLa : reads [0x12, 0xD1, 0xD2, 0xD3, 0xD4, 0x23, 0x11, 0x12, 0x13, 0x14] (.blockcopyLwRaLa 0xD1D2D3D4 .pdpr 0x11121314) = true := by decide

theorem test_decode_blockcopyLwRaRa : reads [0x13, 0x21, 0x22, 0x23, 0x24, 0x05, 0x0B] (.blockcopyLwRaRa 0x21222324 (.r 5) (.h 3)) = true := by decide

theorem test_decode_blockcopyRwLaLa : reads [0x14, 0x16, 0x61, 0x62, 0x63, 0x64, 0x71, 0x72, 0x73, 0x74] (.blockcopyRwLaLa (.b 6) 0x61626364 0x71727374) = true := by decide

theorem test_decode_blockcopyRwLaRa : reads [0x15, 0x21, 0x91, 0x92, 0x93, 0x94, 0x23] (.blockcopyRwLaRa .uspr 0x91929394 .pdpr) = true := by decide

theorem test_decode_blockcopyRwRaLa : reads [0x16, 0x24, 0x25, 0xD1, 0xD2, 0xD3, 0xD4] (.blockcopyRwRaLa .imr (.invalid 0x25) 0xD1D2D3D4) = true := by decide

theorem test_decode_blockcopyRwRaRa : reads [0x17, 0x0B, 0x16, 0x1F] (.blockcopyRwRaRa (.h 3) (.b 6) (.f 7)) = true := by decide

theorem test_decode_negate : reads [0x18, 0x20] (.negate .flags) = true := by decide

theorem test_decode_addVl : reads [0x19, 0x05, 0x51, 0x52, 0x53, 0x54] (.addVl (.r 5) (.word 0x51525354)) = true := by decide

theorem test_decode_addRr : reads [0x1A, 0x23, 0x24] (.addRr .pdpr .imr) = true := by decide

theorem test_decode_addcarryVl : reads [0x1B, 0x20, 0x91, 0x92] (.addcarryVl .flags (.half 0x9192)) = true := by decide

theorem test_decode_addcarryRr : reads [0x1C, 0x0B, 0x16] (.addcarryRr (.h 3) (.b 6)) = true := by decide

theorem test_decode_subVl : reads [0x1D, 0x24, 0xD1, 0xD2] (.subVl .imr (.half 0xD1D2)) = true := by decide

theorem test_decode_subRr : reads [0x1E, 0x21, 0x22] (.subRr .uspr .kspr) = true := by decide

theorem test_decode_subborrowVl : reads [0x1F, 0x1F, 0x31, 0x32, 0x33, 0x34] (.subborrowVl (.f 7) (.word 0x31323334)) = true := by decide

theorem test_decode_subborrowRr : reads [0x20, 0x25, 0x05] (.subborrowRr (.invalid 0x25) (.r 5)) = true := by decide

theorem test_decode_multVl : reads [0x21, 0x23, 0x71, 0x72, 0x73, 0x74] (.multVl .pdpr (.word 0x71727374)) = true := by decide

theorem test_decode_multRr : reads [0x22, 0x1F, 0x20] (.multRr (.f 7) .flags) = true := by decide

theorem test_decode_sdivVl : reads [0x23, 0x16, 0xB1] (.sdivVl (.b 6) (.byte 0xB1)) = true := by decide

theorem test_decode_sdivRr : reads [0x24, 0x23, 0x24] (.sdivRr .pdpr .imr) = true := by decide

theorem test_decode_udivVl : reads [0x25, 0x22, 0x11, 0x12, 0x13, 0x14] (.udivVl .kspr (.word 0x11121314)) = true := by decide

theorem test_decode_udivRr : reads [0x26, 0x0B, 0x16] (.udivRr (.h 3) (.b 6)) = true := by decide

theorem test_decode_sremVl : reads [0x27, 0x0B, 0x51, 0x52] (.sremVl (.h 3) (.half 0x5152)) = true := by decide

theorem test_decode_sremRr : reads [0x28, 0x21, 0x22] (.sremRr .uspr .kspr) = true := by decide

theorem test_decode_uremVl : reads [0x29, 0x21, 0x91, 0x92, 0x93, 0x94] (.uremVl .uspr (.word 0x91929394)) = true := by decide

theorem test_decode_uremRr : reads [0x2A, 0x25, 0x05] (.uremRr (.invalid 0x25) (.r 5)) = true := by decide

theorem test_decode_notR : reads [0x2B, 0x0B] (.notR (.h 3)) = true := by decide

theorem test_decode_andVl : reads [0x2C, 0x0B, 0xE1, 0xE2] (.andVl (.h 3) (.half 0xE1E2)) = true := by decide

theorem test_decode_andRr : reads [0x2D, 0x20, 0x21] (.andRr .flags .uspr) = true := by decide

theorem test_decode_orVl : reads [0x2E, 0x21, 0x41, 0x42, 0x43, 0x44] (.orVl .uspr (.word 0x41424344)) = true := by decide

theorem test_decode_orRr : reads [0x2F, 0x24, 0x25] (.orRr .imr (.invalid 0x25)) = true := by decide

theorem test_decode_xorVl : reads [0x30, 0x05, 0x81, 0x82, 0x83, 0x84] (.xorVl (.r 5) (.word 0x81828384)) = true := by decide

theorem test_decode_xorRr : reads [0x31, 0x16, 0x1F] (.xorRr (.b 6) (.f 7)) = true := by decide

theorem test_decode_lshiftLb : reads [0x32, 0x20, 0xAF] (.lshiftLb .flags 0xAF) = true := by decide

theorem test_decode_lshiftRb : reads [0x33, 0x22, 0x23] (.lshiftRb .kspr .pdpr) = true := by decide

theorem test_decode_rshiftlLb : reads [0x34, 0x24, 0xA3] (.rshiftlLb .imr 0xA3) = true := by decide

theorem test_decode_rshiftlRb : reads [0x35, 0x05, 0x0B] (.rshiftlRb (.r 5) (.h 3)) = true := by decide

theorem test_decode_rshiftaLb : reads [0x36, 0x16, 0xA7] (.rshiftaLb (.b 6) 0xA7) = true := by decide

theorem test_decode_rshiftaRb : reads [0x37, 0x20, 0x21] (.rshiftaRb .flags .uspr) = true := by decide

theorem test_decode_lrotLb : reads [0x38, 0x22, 0xAB] (.lrotLb .kspr 0xAB) = true := by decide

theorem test_decode_lrotRb : reads [0x39, 0x24, 0x25] (.lrotRb .imr (.invalid 0x25)) = true := by decide

theorem test_decode_rrotLb : reads [0x3A, 0x05, 0xAF] (.rrotLb (.r 5) 0xAF) = true := by decide

theorem test_decode_rrotRb : reads [0x3B, 0x16, 0x1F] (.rrotRb (.b 6) (.f 7)) = true := by decide

theorem test_decode_lrotcarryLb : reads [0x3C, 0x20, 0xA3] (.lrotcarryLb .flags 0xA3) = true := by decide

theorem test_decode_lrotcarryRb : reads [0x3D, 0x22, 0x23] (.lrotcarryRb .kspr .pdpr) = true := by decide

theorem test_decode_rrotcarryLb : reads [0x3E, 0x24, 0xA7] (.rrotcarryLb .imr 0xA7) = true := by decide

theorem test_decode_rrotcarryRb : reads [0x3F, 0x05, 0x0B] (.rrotcarryRb (.r 5) (.h 3)) = true := by decide

theorem test_decode_jumpLa : reads [0x40, 0xB1, 0xB2, 0xB3, 0xB4] (.jumpLa 0xB1B2B3B4) = true := by decide

theorem test_decode_jumpRa : reads [0x41, 0x1F] (.jumpRa (.f 7)) = true := by decide

theorem test_decode_compareVl : reads [0x42, 0x23, 0xE1, 0xE2, 0xE3, 0xE4] (.compareVl .pdpr (.word 0xE1E2E3E4)) = true := by decide

theorem test_decode_compareRr : reads [0x43, 0x22, 0x23] (.compareRr .kspr .pdpr) = true := by decide

theorem test_decode_jequalLa : reads [0x44, 0x31, 0x32, 0x33, 0x34] (.jequalLa 0x31323334) = true := by decide

theorem test_decode_jequalRa : reads [0x45, 0x25] (.jequalRa (.invalid 0x25)) = true := by decide

theorem test_decode_jnotequalLa : reads [0x46, 0x51, 0x52, 0x53, 0x54] (.jnotequalLa 0x51525354) = true := by decide

theorem test_decode_jnotequalRa : reads [0x47, 0x0B] (.jnotequalRa (.h 3)) = true := by decide

theorem test_decode_jgreaterLa : reads [0x48, 0x71, 0x72, 0x73, 0x74] (.jgreaterLa 0x71727374) = true := by decide

theorem test_decode_jgreaterRa : reads [0x49, 0x1F] (.jgreaterRa (.f 7)) = true := by decide

theorem test_decode_jgreatereqLa : reads [0x4A, 0x91, 0x92, 0x93, 0x94] (.jgreatereqLa 0x91929394) = true := by decide

theorem test_decode_jgreatereqRa : reads [0x4B, 0x21] (.jgreatereqRa .uspr) = true := by decide

theorem test_decode_jaboveLa : reads [0x4C, 0xB1, 0xB2, 0xB3, 0xB4] (.jaboveLa 0xB1B2B3B4) = true := by decide

theorem test_decode_jaboveRa : reads [0x4D, 0x23] (.jaboveRa .pdpr) = true := by decide

theorem test_decode_jaboveeqLa : reads [0x4E, 0xD1, 0xD2, 0xD3, 0xD4] (.jaboveeqLa 0xD1D2D3D4) = true := by decide

theorem test_decode_jaboveeqRa : reads [0x4F, 0x25] (.jaboveeqRa (.invalid 0x25)) = true := by decide

theorem test_decode_jlesserLa : reads [0x50, 0x11, 0x12, 0x13, 0x14] (.jlesserLa 0x11121314) = true := by decide

theorem test_decode_jlesserRa : reads [0x51, 0x0B] (.jlesserRa (.h 3)) = true := by decide

theorem test_decode_jlessereqLa : reads [0x52, 0x31, 0x32, 0x33, 0x34] (.jlessereqLa 0x31323334) = true := by decide

theorem test_decode_jlessereqRa : reads [0x53, 0x1F] (.jlessereqRa (.f 7)) = true := by decide

theorem test_decode_jbelowLa : reads [0x54, 0x51, 0x52, 0x53, 0x54] (.jbelowLa 0x51525354) = true := by decide

theorem test_decode_jbelowRa : reads [0x55, 0x21] (.jbelowRa .uspr) = true := by decide

theorem test_decode_jbeloweqLa : reads [0x56, 0x71, 0x72, 0x73, 0x74] (.jbeloweqLa 0x71727374) = true := by decide

theorem test_decode_jbeloweqRa : reads [0x57, 0x23] (.jbeloweqRa .pdpr) = true := by decide

theorem test_decode_joverflowLa : reads [0x58, 0x91, 0x92, 0x93, 0x94] (.joverflowLa 0x91929394) = true := by decide

theorem test_decode_joverflowRa : reads [0x59, 0x25] (.joverflowRa (.invalid 0x25)) = true := by decide

theorem test_decode_jnotoverflowLa : reads [0x5A, 0xB1, 0xB2, 0xB3, 0xB4] (.jnotoverflowLa 0xB1B2B3B4) = true := by decide

theorem test_decode_jnotoverflowRa : reads [0x5B, 0x0B] (.jnotoverflowRa (.h 3)) = true := by decide

theorem test_decode_callLa : reads [0x5C, 0xD1, 0xD2, 0xD3, 0xD4] (.callLa 0xD1D2D3D4) = true := by decide

theorem test_decode_callRa : reads [0x5D, 0x1F] (.callRa (.f 7)) = true := by decide

theorem test_decode_ret : reads [0x5E] (.ret) = true := by decide

theorem test_decode_syscall : reads [0x5F] (.syscall) = true := by decide

theorem test_decode_unmapped60 : reads [0x73] (.unmapped60 0b10011) = true := by decide

theorem test_decode_unmapped80 : reads [0xC5] (.unmapped80 0b1000101) = true := by decide

/-- A reference that names no register before a variable literal: two bytes, no literal (R98, log 22). -/
theorem test_decode_undefined_length : reads [0x19, 0xFF] (.addVl (.invalid 0xFF) .noLength) = true := by decide

theorem test_decode_refuses_truncated : decode [0x06, 0x00, 0x12, 0x34, 0x56] = .error .truncated := by rfl

theorem test_decode_refuses_nothing : decode [] = .error .truncated := by rfl

theorem test_table_word : decodeTableWord 8 0x5F = some .syscall := by decide

/-! ## One step of each instruction (95_test_vectors.md part 2: pc = 0x100, KSPR = 0x9000, USPR = 0x7000, kernel mode) -/

/-- The start of the vectors of 95_test_vectors.md. -/
def kern : State := { State.reset with kspr := 0x9000, uspr := 0x7000, arrivals := .quiet }

/-- The same in user mode, every page mapped to itself. -/
def user : State := { kern with mode := .user, mmu := .listed [⟨0, 0, 0x100000000, 0, true, []⟩] }

/-- r0, r1, r2 and zeros. -/
def bank (a b c : Word) : Bank := ⟨a, b, c, 0, 0, 0, 0, 0⟩

/-- Bytes placed from an address on. -/
def put (s : State) (a : Word) (bs : List Byte) : State := s.setMem (s.mem.writeAll (addrs a bs.length) bs)

/-- What is seen of the state one step after the instruction's bytes are placed at `pc`. -/
def after {α : Type} (bytes : List Byte) (s : State) (view : State → α) : Option α :=
  match step (put s s.pc bytes) with
  | .next t => some (view t)
  | _ => none

theorem test_halt :
    after [0x00] kern (fun t => t.halted) =
      some true := by decide

theorem test_halt_b :
    after [0x00] user (fun t => (t.latch, t.pc, t.mode)) =
      some (Latches.none.set .illegalOperation true, 0x101, .user) := by decide

theorem test_pause :
    after [0x01] kern (fun t => (t.paused, t.pc)) =
      some (true, 0x101) := by decide

theorem test_timerLw_1000 :
    after [0x02, 0x00, 0x00, 0x03, 0xE8] kern (fun t => (t.timerPeriod, t.pc)) =
      some (0x000003E8, 0x105) := by decide

theorem test_timerRw_r2 :
    after [0x03, 0x02] { kern with r := bank 0x0 0x0 0x3E8 } (fun t => (t.timerPeriod, t.pc)) =
      some (0x000003E8, 0x102) := by decide

theorem test_timerRw_ref_FF :
    after [0x03, 0xFF] user (fun t => (t.latch, t.pc)) =
      some (Latches.none.set .illegalOperation true, 0x102) := by decide

theorem test_usermode :
    after [0x04] (put { kern with flags := 0x7FFF } 0x9000 [0x00, 0x40, 0x00, 0x00]) (fun t => (t.mode, t.pc, t.flags, t.kspr)) =
      some (.user, 0x00400000, 0x0000, 0x00009004) := by decide

theorem test_ireturn :
    after [0x05] (put { kern with kspr := 0x00008FF8 } 0x8FF8 [0x00, 0x7F, 0x00, 0x00, 0x12, 0x34, 0x00, 0x01]) (fun t => (t.imr, t.pc, t.flags, t.mode, t.kspr)) =
      some (0x007F, 0x00001234, 0x0001, .user, 0x00009000) := by decide

theorem test_ireturn_b :
    after [0x05] (put { kern with kspr := 0x00008FF8 } 0x8FF8 [0x00, 0x80, 0x00, 0x00, 0x05, 0x00, 0x80, 0x0C]) (fun t => (t.imr, t.pc, t.flags, t.mode, t.kspr)) =
      some (0x0080, 0x00000500, 0x000C, .kernel, 0x00009000) := by decide

theorem test_loadLa_f3_0x2000 :
    after [0x06, 0x1B, 0x00, 0x00, 0x20, 0x00] (put kern 0x2000 [0x40, 0x49, 0x0F, 0xDB]) (fun t => t.f.r3) =
      some 0x40490FDB := by decide

theorem test_loadLa_FLAGS_0x2000 :
    after [0x06, 0x20, 0x00, 0x00, 0x20, 0x00] (put kern 0x2000 [0xFF, 0xFF]) (fun t => t.flags) =
      some 0x7FFF := by decide

theorem test_loadRa_r1_r1 :
    after [0x07, 0x01, 0x01] (put { kern with r := bank 0x0 0x2000 0x0 } 0x2000 [0xDE, 0xAD, 0xBE, 0xEF]) (fun t => t.r.r1) =
      some 0xDEADBEEF := by decide

theorem test_loadRa_r0_r1h :
    after [0x07, 0x00, 0x09] kern (fun t => (t.latch, t.pc)) =
      some (Latches.none.set .illegalOperation true, 0x103) := by decide

theorem test_storeLa_0x2000_FLAGS :
    after [0x08, 0x00, 0x00, 0x20, 0x00, 0x20] { kern with flags := 0x000F } (fun t => t.bytesAt (addrs 0x2000 2)) =
      some [0x00, 0x0F] := by decide

theorem test_storeLa_0x2000_r0 :
    after [0x08, 0x00, 0x00, 0x20, 0x00, 0x00] (put { kern with r := bank 0x11223344 0x0 0x0, physMap := [⟨0x2000, 4, .readOnly⟩] } 0x2000 [0xAA, 0xAA, 0xAA, 0xAA]) (fun t => (t.latch, t.pc)) =
      some (Latches.none.set .illegalOperation true, 0x106) := by decide

theorem test_storeRa_r1_r0b :
    after [0x09, 0x01, 0x10] { kern with r := bank 0x11223344 0x2000 0x0 } (fun t => t.bytesAt (addrs 0x2000 1)) =
      some [0x44] := by decide

theorem test_copyVl_FLAGS_0x800A :
    after [0x0A, 0x20, 0x80, 0x0A] kern (fun t => t.flags) =
      some 0x000A := by decide

theorem test_copyRr_r0h_FLAGS :
    after [0x0B, 0x08, 0x20] { kern with r := bank 0xFFFFFFFF 0x0 0x0, flags := 0x0005 } (fun t => (t.r.r0, t.flags)) =
      some (0xFFFF0005, 0x0005) := by decide

theorem test_copyRr_f0_r0 :
    after [0x0B, 0x18, 0x00] { kern with r := bank 0x0 0x0 0x0 } (fun t => t.f.r0) =
      some 0x00000000 := by decide

theorem test_swapLa_f0_0x2000 :
    after [0x0C, 0x18, 0x00, 0x00, 0x20, 0x00] (put { kern with f := ⟨0x3F800000, 0x0, 0x0, 0x0, 0x0, 0x0, 0x0, 0x0⟩ } 0x2000 [0x40, 0x00, 0x00, 0x00]) (fun t => (t.bytesAt (addrs 0x2000 4), t.f.r0)) =
      some ([0x3F, 0x80, 0x00, 0x00], 0x40000000) := by decide

theorem test_swapRa_r0b_r1 :
    after [0x0D, 0x10, 0x01] (put { kern with r := bank 0x11223344 0x2000 0x0 } 0x2000 [0x99]) (fun t => (t.bytesAt (addrs 0x2000 1), t.r.r0)) =
      some ([0x44], 0x11223399) := by decide

theorem test_push_KSPR :
    after [0x0E, 0x22] kern (fun t => (t.bytesAt (addrs 0x8FFC 4), t.kspr)) =
      some ([0x00, 0x00, 0x8F, 0xFC], 0x00008FFC) := by decide

theorem test_push_r0 :
    after [0x0E, 0x00] { user with r := bank 0xCAFEBABE 0x0 0x0 } (fun t => (t.bytesAt (addrs 0x6FFC 4), t.uspr)) =
      some ([0xCA, 0xFE, 0xBA, 0xBE], 0x00006FFC) := by decide

theorem test_pop_FLAGS :
    after [0x0F, 0x20] (put { kern with kspr := 0x00008FFE } 0x8FFE [0x81, 0x02]) (fun t => (t.flags, t.kspr)) =
      some (0x0102, 0x00009000) := by decide

theorem test_pop_KSPR :
    after [0x0F, 0x22] (put kern 0x9000 [0x00, 0x00, 0x50, 0x00]) (fun t => t.kspr) =
      some 0x00005004 := by decide

theorem test_blockcopyLwLaLa_3_0x3000_0x2000 :
    after [0x10, 0x00, 0x00, 0x00, 0x03, 0x00, 0x00, 0x30, 0x00, 0x00, 0x00, 0x20, 0x00] (put (put kern 0x2000 [0x01, 0x02, 0x03, 0x04]) 0x3000 [0x09, 0x09, 0x09, 0x09]) (fun t => (t.bytesAt (addrs 0x3000 4), t.pc)) =
      some ([0x01, 0x02, 0x03, 0x09], 0x10D) := by decide

theorem test_negate_r0h :
    after [0x18, 0x08] { kern with r := bank 0xFFFF8000 0x0 0x0 } (fun t => (t.r.r0, t.flags)) =
      some (0xFFFF8000, 0x000E) := by decide

theorem test_negate_f0 :
    after [0x18, 0x18] { kern with f := ⟨0x0, 0x0, 0x0, 0x0, 0x0, 0x0, 0x0, 0x0⟩ } (fun t => (t.f.r0, t.flags)) =
      some (0x80000000, 0x0001) := by decide

theorem test_addVl_r0h_1 :
    after [0x19, 0x08, 0x00, 0x01] { kern with r := bank 0x1234FFFF 0x0 0x0 } (fun t => (t.r.r0, t.flags)) =
      some (0x12340000, 0x0005) := by decide

theorem test_addVl_r0b_0x7F :
    after [0x19, 0x10, 0x7F] { kern with r := bank 0x1 0x0 0x0 } (fun t => (t.x (.b 0), t.flags)) =
      some (0x80, 0x000A) := by decide

theorem test_addRr_r0_r0 :
    after [0x1A, 0x00, 0x00] { kern with r := bank 0x80000000 0x0 0x0 } (fun t => (t.r.r0, t.flags)) =
      some (0x00000000, 0x000D) := by decide

theorem test_addRr_f0_f1 :
    after [0x1A, 0x18, 0x19] { kern with f := ⟨0x3F800000, 0xBF800000, 0x0, 0x0, 0x0, 0x0, 0x0, 0x0⟩ } (fun t => (t.f.r0, t.flags)) =
      some (0x00000000, 0x0001) := by decide

theorem test_addcarryVl_r0b_0xFF :
    after [0x1B, 0x10, 0xFF] { kern with r := bank 0xFF 0x0 0x0, flags := 0x0004 } (fun t => (t.x (.b 0), t.flags)) =
      some (0xFF, 0x0006) := by decide

theorem test_addcarryRr_r0_r1 :
    after [0x1C, 0x00, 0x01] { kern with r := bank 0x7FFFFFFF 0x0 0x0, flags := 0x0004 } (fun t => (t.r.r0, t.flags)) =
      some (0x80000000, 0x000A) := by decide

theorem test_subRr_r0_r0 :
    after [0x1E, 0x00, 0x00] { kern with r := bank 0x12345678 0x0 0x0 } (fun t => (t.r.r0, t.flags)) =
      some (0x00000000, 0x0001) := by decide

theorem test_subRr_f0_f1 :
    after [0x1E, 0x18, 0x19] { kern with f := ⟨0x3F800000, 0x40000000, 0x0, 0x0, 0x0, 0x0, 0x0, 0x0⟩ } (fun t => (t.f.r0, t.flags)) =
      some (0xBF800000, 0x0002) := by decide

theorem test_subborrowVl_r0_0xFFFFFFFF :
    after [0x1F, 0x00, 0xFF, 0xFF, 0xFF, 0xFF] { kern with r := bank 0x0 0x0 0x0, flags := 0x0004 } (fun t => (t.r.r0, t.flags)) =
      some (0x00000000, 0x0005) := by decide

theorem test_subborrowRr_r0h_r1h :
    after [0x20, 0x08, 0x09] { kern with r := bank 0x8000 0x1 0x0, flags := 0x0004 } (fun t => (t.x (.h 0), t.flags)) =
      some (0x7FFE, 0x0008) := by decide

theorem test_multVl_r0h_0x0100 :
    after [0x21, 0x08, 0x01, 0x00] { kern with r := bank 0x80 0x0 0x0 } (fun t => (t.x (.h 0), t.flags)) =
      some (0x8000, 0x000A) := by decide

theorem test_multVl_r0b_2 :
    after [0x21, 0x10, 0x02] { kern with r := bank 0xC0 0x0 0x0 } (fun t => (t.x (.b 0), t.flags)) =
      some (0x80, 0x0006) := by decide

theorem test_multRr_r0_r1 :
    after [0x22, 0x00, 0x01] { kern with r := bank 0xFFFFFFFF 0xFFFFFFFF 0x0 } (fun t => (t.r.r0, t.flags)) =
      some (0x00000001, 0x0004) := by decide

theorem test_multRr_f0_f1 :
    after [0x22, 0x18, 0x19] { kern with f := ⟨0xC0000000, 0x40400000, 0x0, 0x0, 0x0, 0x0, 0x0, 0x0⟩ } (fun t => (t.f.r0, t.flags)) =
      some (0xC0C00000, 0x0002) := by decide

theorem test_sdivVl_r0_0xFFFFFFFE :
    after [0x23, 0x00, 0xFF, 0xFF, 0xFF, 0xFE] { kern with r := bank 0x7 0x0 0x0 } (fun t => (t.r.r0, t.flags)) =
      some (0xFFFFFFFD, 0x0002) := by decide

theorem test_sdivVl_r0b_0xFF :
    after [0x23, 0x10, 0xFF] { kern with r := bank 0x80 0x0 0x0 } (fun t => (t.x (.b 0), t.flags)) =
      some (0x80, 0x000A) := by decide

theorem test_sdivRr_r0_r0 :
    after [0x24, 0x00, 0x00] { kern with r := bank 0xFFFFFFF9 0x0 0x0 } (fun t => (t.r.r0, t.flags)) =
      some (0x00000001, 0x0000) := by decide

theorem test_sdivRr_f0_f1 :
    after [0x24, 0x18, 0x19] { kern with f := ⟨0x3F800000, 0x40800000, 0x0, 0x0, 0x0, 0x0, 0x0, 0x0⟩ } (fun t => (t.f.r0, t.flags)) =
      some (0x3E800000, 0x0000) := by decide

theorem test_udivVl_r0_0xFFFFFFFF :
    after [0x25, 0x00, 0xFF, 0xFF, 0xFF, 0xFF] { kern with r := bank 0xFFFFFFFE 0x0 0x0 } (fun t => (t.r.r0, t.flags)) =
      some (0x00000000, 0x0001) := by decide

theorem test_udivRr_r0_r0 :
    after [0x26, 0x00, 0x00] { kern with r := bank 0x9 0x0 0x0 } (fun t => (t.r.r0, t.flags)) =
      some (0x00000001, 0x0000) := by decide

theorem test_sremVl_r0_0xFFFFFFFE :
    after [0x27, 0x00, 0xFF, 0xFF, 0xFF, 0xFE] { kern with r := bank 0xFFFFFFF9 0x0 0x0 } (fun t => (t.r.r0, t.flags)) =
      some (0xFFFFFFFF, 0x0002) := by decide

theorem test_sremVl_r0h_0 :
    after [0x27, 0x08, 0x00, 0x00] { kern with r := bank 0x5 0x0 0x0 } (fun t => (t.latch, t.pc)) =
      some (Latches.none.set .divideByZero true, 0x104) := by decide

theorem test_sremRr_r0_r1 :
    after [0x28, 0x00, 0x01] { kern with r := bank 0x80000000 0xFFFFFFFF 0x0 } (fun t => (t.r.r0, t.flags)) =
      some (0x00000000, 0x0001) := by decide

theorem test_sremRr_f0_f1 :
    after [0x28, 0x18, 0x19] { kern with f := ⟨0xC0F00000, 0x40000000, 0x0, 0x0, 0x0, 0x0, 0x0, 0x0⟩ } (fun t => (t.f.r0, t.flags)) =
      some (0xBFC00000, 0x0002) := by decide

theorem test_uremVl_r0_0 :
    after [0x29, 0x00, 0x00, 0x00, 0x00, 0x00] { kern with r := bank 0x9 0x0 0x0, flags := 0x000F } (fun t => (t.r.r0, t.flags, t.latch, t.pc)) =
      some (0x00000009, 0x000F, Latches.none.set .divideByZero true, 0x106) := by decide

theorem test_uremRr_r0b_r1b :
    after [0x2A, 0x10, 0x11] { kern with r := bank 0xFF 0x10 0x0 } (fun t => (t.x (.b 0), t.flags)) =
      some (0x0F, 0x0000) := by decide

theorem test_notR_r0 :
    after [0x2B, 0x00] { kern with r := bank 0x0 0x0 0x0 } (fun t => (t.r.r0, t.flags)) =
      some (0xFFFFFFFF, 0x0002) := by decide

theorem test_notR_r0b :
    after [0x2B, 0x10] { kern with r := bank 0x123456FF 0x0 0x0 } (fun t => (t.r.r0, t.flags)) =
      some (0x12345600, 0x0001) := by decide

theorem test_andVl_r0_0x0000FF00 :
    after [0x2C, 0x00, 0x00, 0x00, 0xFF, 0x00] { kern with r := bank 0x12345678 0x0 0x0 } (fun t => (t.r.r0, t.flags)) =
      some (0x00005600, 0x0000) := by decide

theorem test_andVl_FLAGS_0 :
    after [0x2C, 0x20, 0x00, 0x00] kern (fun t => (t.latch, t.pc)) =
      some (Latches.none.set .illegalOperation true, 0x104) := by decide

theorem test_andRr_r0h_r1h :
    after [0x2D, 0x08, 0x09] { kern with r := bank 0xF0F0 0xF0F 0x0, flags := 0x000C } (fun t => (t.x (.h 0), t.flags)) =
      some (0x0000, 0x0001) := by decide

theorem test_orVl_r0b_0x80 :
    after [0x2E, 0x10, 0x80] { kern with r := bank 0x1 0x0 0x0 } (fun t => (t.x (.b 0), t.flags)) =
      some (0x81, 0x0002) := by decide

theorem test_orRr_r0_r1 :
    after [0x2F, 0x00, 0x01] { kern with r := bank 0x0 0x0 0x0 } (fun t => (t.r.r0, t.flags)) =
      some (0x00000000, 0x0001) := by decide

theorem test_xorVl_r0h_0xFFFF :
    after [0x30, 0x08, 0xFF, 0xFF] { kern with r := bank 0x1234 0x0 0x0 } (fun t => (t.r.r0, t.flags)) =
      some (0x0000EDCB, 0x0002) := by decide

theorem test_xorRr_r0_r0 :
    after [0x31, 0x00, 0x00] { kern with r := bank 0xDEADBEEF 0x0 0x0 } (fun t => (t.r.r0, t.flags)) =
      some (0x00000000, 0x0001) := by decide

theorem test_lshiftLb_r0_32 :
    after [0x32, 0x00, 0x20] { kern with r := bank 0x1 0x0 0x0 } (fun t => (t.r.r0, t.flags)) =
      some (0x00000000, 0x0005) := by decide

theorem test_lshiftLb_r0b_9 :
    after [0x32, 0x10, 0x09] { kern with r := bank 0xFF 0x0 0x0 } (fun t => (t.x (.b 0), t.flags)) =
      some (0x00, 0x0001) := by decide

theorem test_lshiftRb_r0_r0b :
    after [0x33, 0x00, 0x10] { kern with r := bank 0x4 0x0 0x0 } (fun t => (t.r.r0, t.flags)) =
      some (0x00000040, 0x0000) := by decide

theorem test_lshiftRb_r0_count_ref_01 :
    after [0x33, 0x00, 0x01] kern (fun t => (t.latch, t.pc)) =
      some (Latches.none.set .illegalOperation true, 0x103) := by decide

theorem test_rshiftlLb_r0_32 :
    after [0x34, 0x00, 0x20] { kern with r := bank 0x80000000 0x0 0x0 } (fun t => (t.r.r0, t.flags)) =
      some (0x00000000, 0x0005) := by decide

theorem test_rshiftlLb_r0_33 :
    after [0x34, 0x00, 0x21] { kern with r := bank 0xFFFFFFFF 0x0 0x0 } (fun t => (t.r.r0, t.flags)) =
      some (0x00000000, 0x0001) := by decide

theorem test_rshiftaLb_r0_31 :
    after [0x36, 0x00, 0x1F] { kern with r := bank 0x7FFFFFFF 0x0 0x0 } (fun t => (t.r.r0, t.flags)) =
      some (0x00000000, 0x0005) := by decide

theorem test_rshiftaLb_r0_32 :
    after [0x36, 0x00, 0x20] { kern with r := bank 0x80000000 0x0 0x0 } (fun t => (t.r.r0, t.flags)) =
      some (0xFFFFFFFF, 0x0006) := by decide

theorem test_lrotLb_r0h_4 :
    after [0x38, 0x08, 0x04] { kern with r := bank 0xAAAA1234 0x0 0x0 } (fun t => (t.r.r0, t.flags)) =
      some (0xAAAA2341, 0x0000) := by decide

theorem test_lrotLb_r0_32 :
    after [0x38, 0x00, 0x20] { kern with r := bank 0x80000001 0x0 0x0 } (fun t => (t.r.r0, t.flags)) =
      some (0x80000001, 0x0002) := by decide

theorem test_rrotLb_r0b_0 :
    after [0x3A, 0x10, 0x00] { kern with r := bank 0x0 0x0 0x0 } (fun t => (t.x (.b 0), t.flags)) =
      some (0x00, 0x0001) := by decide

theorem test_lrotcarryLb_r0b_4 :
    after [0x3C, 0x10, 0x04] { kern with r := bank 0xA5 0x0 0x0, flags := 0x0004 } (fun t => (t.x (.b 0), t.flags)) =
      some (0x5D, 0x0000) := by decide

theorem test_lrotcarryLb_r0_33 :
    after [0x3C, 0x00, 0x21] { kern with r := bank 0x5 0x0 0x0, flags := 0x0004 } (fun t => (t.r.r0, t.flags)) =
      some (0x00000005, 0x0004) := by decide

theorem test_rrotcarryLb_r0h_17 :
    after [0x3E, 0x08, 0x11] { kern with r := bank 0x1234 0x0 0x0, flags := 0x0004 } (fun t => (t.x (.h 0), t.flags)) =
      some (0x1234, 0x0004) := by decide

theorem test_jumpLa_0x00ABCDEF :
    after [0x40, 0x00, 0xAB, 0xCD, 0xEF] kern (fun t => t.pc) =
      some 0x00ABCDEF := by decide

theorem test_jumpRa_r3 :
    after [0x41, 0x03] { kern with r := ⟨0x0, 0x0, 0x0, 0x4000, 0, 0, 0, 0⟩ } (fun t => t.pc) =
      some 0x00004000 := by decide

theorem test_jumpRa_f0 :
    after [0x41, 0x18] kern (fun t => (t.latch, t.pc)) =
      some (Latches.none.set .illegalOperation true, 0x102) := by decide

theorem test_compareVl_f0_1_0 :
    after [0x42, 0x18, 0x3F, 0x80, 0x00, 0x00] { kern with f := ⟨0x3F000000, 0x0, 0x0, 0x0, 0x0, 0x0, 0x0, 0x0⟩ } (fun t => t.flags) =
      some 0x0000 := by decide

theorem test_compareVl_r0b_0x80 :
    after [0x42, 0x10, 0x80] { kern with r := bank 0x7F 0x0 0x0 } (fun t => t.flags) =
      some 0x0008 := by decide

theorem test_compareRr_after_00000005_00000003 :
    after [0x43, 0x00, 0x01] { kern with r := bank 0x5 0x3 0x0 } (fun t => t.flags) =
      some 0x0006 := by decide

theorem test_compareRr_after_80000000_7FFFFFFF :
    after [0x43, 0x00, 0x01] { kern with r := bank 0x80000000 0x7FFFFFFF 0x0 } (fun t => t.flags) =
      some 0x000E := by decide

theorem test_jequalLa_taken :
    after [0x44, 0x00, 0x00, 0x02, 0x00] { kern with flags := 0x0001 } (fun t => t.pc) =
      some 0x200 := by decide

theorem test_jequalLa_not_taken :
    after [0x44, 0x00, 0x00, 0x02, 0x00] { kern with flags := 0x0000 } (fun t => t.pc) =
      some 0x105 := by decide

theorem test_jequalRa_r0h :
    after [0x45, 0x08] { kern with flags := 0x0000 } (fun t => (t.latch, t.pc)) =
      some (Latches.none.set .illegalOperation true, 0x102) := by decide

theorem test_jnotequalLa_taken :
    after [0x46, 0x00, 0x00, 0x02, 0x00] { kern with flags := 0x0008 } (fun t => t.pc) =
      some 0x200 := by decide

theorem test_jnotequalLa_not_taken :
    after [0x46, 0x00, 0x00, 0x02, 0x00] { kern with flags := 0x0001 } (fun t => t.pc) =
      some 0x105 := by decide

theorem test_jgreaterLa_taken :
    after [0x48, 0x00, 0x00, 0x02, 0x00] { kern with flags := 0x000E } (fun t => t.pc) =
      some 0x200 := by decide

theorem test_jgreaterLa_not_taken :
    after [0x48, 0x00, 0x00, 0x02, 0x00] { kern with flags := 0x0008 } (fun t => t.pc) =
      some 0x105 := by decide

theorem test_jgreatereqLa_taken :
    after [0x4A, 0x00, 0x00, 0x02, 0x00] { kern with flags := 0x000E } (fun t => t.pc) =
      some 0x200 := by decide

theorem test_jgreatereqLa_not_taken :
    after [0x4A, 0x00, 0x00, 0x02, 0x00] { kern with flags := 0x0008 } (fun t => t.pc) =
      some 0x105 := by decide

theorem test_jaboveLa_taken :
    after [0x4C, 0x00, 0x00, 0x02, 0x00] { kern with flags := 0x0008 } (fun t => t.pc) =
      some 0x200 := by decide

theorem test_jaboveLa_not_taken :
    after [0x4C, 0x00, 0x00, 0x02, 0x00] { kern with flags := 0x000E } (fun t => t.pc) =
      some 0x105 := by decide

theorem test_jaboveeqLa_taken :
    after [0x4E, 0x00, 0x00, 0x02, 0x00] { kern with flags := 0x0008 } (fun t => t.pc) =
      some 0x200 := by decide

theorem test_jaboveeqLa_not_taken :
    after [0x4E, 0x00, 0x00, 0x02, 0x00] { kern with flags := 0x000E } (fun t => t.pc) =
      some 0x105 := by decide

theorem test_jlesserLa_taken :
    after [0x50, 0x00, 0x00, 0x02, 0x00] { kern with flags := 0x0008 } (fun t => t.pc) =
      some 0x200 := by decide

theorem test_jlesserLa_not_taken :
    after [0x50, 0x00, 0x00, 0x02, 0x00] { kern with flags := 0x000E } (fun t => t.pc) =
      some 0x105 := by decide

theorem test_jlessereqLa_taken :
    after [0x52, 0x00, 0x00, 0x02, 0x00] { kern with flags := 0x0008 } (fun t => t.pc) =
      some 0x200 := by decide

theorem test_jlessereqLa_not_taken :
    after [0x52, 0x00, 0x00, 0x02, 0x00] { kern with flags := 0x000E } (fun t => t.pc) =
      some 0x105 := by decide

theorem test_jbelowLa_taken :
    after [0x54, 0x00, 0x00, 0x02, 0x00] { kern with flags := 0x000E } (fun t => t.pc) =
      some 0x200 := by decide

theorem test_jbelowLa_not_taken :
    after [0x54, 0x00, 0x00, 0x02, 0x00] { kern with flags := 0x0008 } (fun t => t.pc) =
      some 0x105 := by decide

theorem test_jbeloweqLa_taken :
    after [0x56, 0x00, 0x00, 0x02, 0x00] { kern with flags := 0x000E } (fun t => t.pc) =
      some 0x200 := by decide

theorem test_jbeloweqLa_not_taken :
    after [0x56, 0x00, 0x00, 0x02, 0x00] { kern with flags := 0x0008 } (fun t => t.pc) =
      some 0x105 := by decide

theorem test_joverflowLa_taken :
    after [0x58, 0x00, 0x00, 0x02, 0x00] { kern with flags := 0x0008 } (fun t => t.pc) =
      some 0x200 := by decide

theorem test_joverflowLa_not_taken :
    after [0x58, 0x00, 0x00, 0x02, 0x00] { kern with flags := 0x0002 } (fun t => t.pc) =
      some 0x105 := by decide

theorem test_jnotoverflowLa_taken :
    after [0x5A, 0x00, 0x00, 0x02, 0x00] { kern with flags := 0x0002 } (fun t => t.pc) =
      some 0x200 := by decide

theorem test_jnotoverflowLa_not_taken :
    after [0x5A, 0x00, 0x00, 0x02, 0x00] { kern with flags := 0x0008 } (fun t => t.pc) =
      some 0x105 := by decide

theorem test_callLa_0x200 :
    after [0x5C, 0x00, 0x00, 0x02, 0x00] { kern with flags := 0x0005 } (fun t => (t.bytesAt (addrs 0x8FFA 6), t.pc, t.kspr)) =
      some ([0x00, 0x05, 0x00, 0x00, 0x01, 0x05], 0x00000200, 0x00008FFA) := by decide

theorem test_callRa_r2 :
    after [0x5D, 0x02] { user with r := bank 0x0 0x0 0x300, flags := 0x0002 } (fun t => (t.bytesAt (addrs 0x6FFA 6), t.pc, t.uspr)) =
      some ([0x00, 0x02, 0x00, 0x00, 0x01, 0x02], 0x00000300, 0x00006FFA) := by decide

theorem test_ret :
    after [0x5E] (put { kern with kspr := 0x00008FFA } 0x8FFA [0x80, 0x0F, 0x00, 0x00, 0x02, 0x00]) (fun t => (t.flags, t.pc, t.kspr, t.mode)) =
      some (0x000F, 0x00000200, 0x00009000, .kernel) := by decide

theorem test_syscall :
    after [0x5F] { kern with imr := 0x0000 } (fun t => (t.latch, t.pc)) =
      some (Latches.none.set .syscall true, 0x101) := by decide

theorem test_unmapped60 :
    after [0x60] kern (fun t => (t.latch, t.pc)) =
      some (Latches.none.set .illegalOperation true, 0x101) := by decide

theorem test_unmapped80 :
    after [0xFF] kern (fun t => (t.latch, t.pc)) =
      some (Latches.none.set .illegalOperation true, 0x101) := by decide

/-! ### Hand calculations from the rules, for the forms the vectors do not have -/

/-- R158: r0 = length, r1 = destination, r2 = source. -/
def copier : State := put { kern with r := bank 2 0x3000 0x2000 } 0x2000 [0x01, 0x02, 0x03]

theorem test_blockcopyLwLaRa :
    after [0x11, 0x00, 0x00, 0x00, 0x02, 0x00, 0x00, 0x30, 0x00, 0x02] copier (fun t => (t.bytesAt (addrs 0x3000 3), t.pc)) =
      some ([0x01, 0x02, 0x00], 0x10A) := by decide

theorem test_blockcopyLwRaLa :
    after [0x12, 0x00, 0x00, 0x00, 0x02, 0x01, 0x00, 0x00, 0x20, 0x00] copier (fun t => (t.bytesAt (addrs 0x3000 3), t.pc)) =
      some ([0x01, 0x02, 0x00], 0x10A) := by decide

theorem test_blockcopyLwRaRa :
    after [0x13, 0x00, 0x00, 0x00, 0x02, 0x01, 0x02] copier (fun t => (t.bytesAt (addrs 0x3000 3), t.pc)) =
      some ([0x01, 0x02, 0x00], 0x107) := by decide

theorem test_blockcopyRwLaLa :
    after [0x14, 0x00, 0x00, 0x00, 0x30, 0x00, 0x00, 0x00, 0x20, 0x00] copier (fun t => (t.bytesAt (addrs 0x3000 3), t.pc)) =
      some ([0x01, 0x02, 0x00], 0x10A) := by decide

theorem test_blockcopyRwLaRa :
    after [0x15, 0x00, 0x00, 0x00, 0x30, 0x00, 0x02] copier (fun t => (t.bytesAt (addrs 0x3000 3), t.pc)) =
      some ([0x01, 0x02, 0x00], 0x107) := by decide

theorem test_blockcopyRwRaLa :
    after [0x16, 0x00, 0x01, 0x00, 0x00, 0x20, 0x00] copier (fun t => (t.bytesAt (addrs 0x3000 3), t.pc)) =
      some ([0x01, 0x02, 0x00], 0x107) := by decide

theorem test_blockcopyRwRaRa :
    after [0x17, 0x00, 0x01, 0x02] copier (fun t => (t.bytesAt (addrs 0x3000 3), t.pc)) =
      some ([0x01, 0x02, 0x00], 0x104) := by decide

/-- R158: a destination part of which is read_only raises IllegalOperation. -/
theorem test_blockcopyLwLaLa_into_read_only :
    after [0x10, 0x00, 0x00, 0x00, 0x02, 0x00, 0x00, 0x30, 0x00, 0x00, 0x00, 0x20, 0x00] { kern with physMap := [⟨0x3001, 1, .readOnly⟩] } (fun t => (t.latch, t.pc)) =
      some (Latches.none.set .illegalOperation true, 0x10D) := by decide

/-- R187, R183: 0 - 1 borrows. -/
theorem test_subVl_borrows :
    after [0x1D, 0x10, 0x01] { kern with r := bank 0x100 0 0 } (fun t => (t.r.r0, t.flags)) =
      some (0x1FF, 0x6) := by decide

/-- R227: C is the last bit out. -/
theorem test_rshiftlRb :
    after [0x35, 0x00, 0x11] { kern with r := bank 0x18 4 0 } (fun t => (t.r.r0, t.flags)) =
      some (1, 0x4) := by decide

/-- R228: the sign fills. -/
theorem test_rshiftaRb :
    after [0x37, 0x08, 0x11] { kern with r := bank 0x8000 15 0 } (fun t => (t.x (.h 0), t.flags)) =
      some (0xFFFF, 0x2) := by decide

/-- R229: C is written 0. -/
theorem test_lrotRb :
    after [0x39, 0x10, 0x11] { kern with r := bank 0x81 1 0, flags := 0x4 } (fun t => (t.r.r0, t.flags)) =
      some (0x03, 0x0) := by decide

/-- R230. -/
theorem test_rrotRb :
    after [0x3B, 0x10, 0x11] { kern with r := bank 0x81 1 0 } (fun t => (t.r.r0, t.flags)) =
      some (0xC0, 0x2) := by decide

/-- R231: C enters at bit 0, bit 7 leaves to C. -/
theorem test_lrotcarryRb :
    after [0x3D, 0x10, 0x11] { kern with r := bank 0x80 1 0, flags := 0x4 } (fun t => (t.r.r0, t.flags)) =
      some (0x01, 0x4) := by decide

/-- R232: C enters at bit 7, bit 0 leaves to C. -/
theorem test_rrotcarryRb :
    after [0x3F, 0x10, 0x11] { kern with r := bank 0x01 1 0, flags := 0x0 } (fun t => (t.r.r0, t.flags)) =
      some (0x00, 0x5) := by decide

/-- R264. -/
theorem test_jnotequalRa :
    after [0x47, 0x02] { kern with r := bank 0 0 0x300, flags := 0x0 } (fun t => t.pc) =
      some 0x300 := by decide

/-- R265. -/
theorem test_jgreaterRa :
    after [0x49, 0x02] { kern with r := bank 0 0 0x300, flags := 0xA } (fun t => t.pc) =
      some 0x300 := by decide

/-- R266. -/
theorem test_jgreatereqRa :
    after [0x4B, 0x02] { kern with r := bank 0 0 0x300, flags := 0x3 } (fun t => t.pc) =
      some 0x300 := by decide

/-- R267. -/
theorem test_jaboveRa :
    after [0x4D, 0x02] { kern with r := bank 0 0 0x300, flags := 0x4 } (fun t => t.pc) =
      some 0x102 := by decide

/-- R268. -/
theorem test_jaboveeqRa :
    after [0x4F, 0x02] { kern with r := bank 0 0 0x300, flags := 0x5 } (fun t => t.pc) =
      some 0x300 := by decide

/-- R269. -/
theorem test_jlesserRa :
    after [0x51, 0x02] { kern with r := bank 0 0 0x300, flags := 0x8 } (fun t => t.pc) =
      some 0x300 := by decide

/-- R270. -/
theorem test_jlessereqRa :
    after [0x53, 0x02] { kern with r := bank 0 0 0x300, flags := 0x0 } (fun t => t.pc) =
      some 0x102 := by decide

/-- R271. -/
theorem test_jbelowRa :
    after [0x55, 0x02] { kern with r := bank 0 0 0x300, flags := 0x4 } (fun t => t.pc) =
      some 0x300 := by decide

/-- R272. -/
theorem test_jbeloweqRa :
    after [0x57, 0x02] { kern with r := bank 0 0 0x300, flags := 0xA } (fun t => t.pc) =
      some 0x102 := by decide

/-- R273. -/
theorem test_joverflowRa :
    after [0x59, 0x02] { kern with r := bank 0 0 0x300, flags := 0x8 } (fun t => t.pc) =
      some 0x300 := by decide

/-- R274. -/
theorem test_jnotoverflowRa :
    after [0x5B, 0x02] { kern with r := bank 0 0 0x300, flags := 0x8 } (fun t => t.pc) =
      some 0x102 := by decide

/-! ### Interrupts (95_test_vectors.md part 1.3, part 3) -/

/-- The source's example: interrupt 0 arrives in user mode. -/
def exampleBefore : State :=
  put (put { user with pc := 0x1234, flags := 1, imr := 0x7F, latch := Latches.none.set .syscall true } 0x9000
    [0xFA, 0xFF, 0xCA, 0xFE]) 0 [0x00, 0x00, 0x84, 0x20]

theorem test_service_example_state :
    after [] exampleBefore (fun t => (t.mode, t.pc, t.flags, t.imr, t.latch)) =
      some (.kernel, 0x8420, 1, 0, Latches.none) := by decide

theorem test_service_example_stack :
    after [] exampleBefore (fun t => (t.kspr, t.bytesAt (addrs 0x8FF8 12))) =
      some (0x8FF8, [0x00, 0x7F, 0x00, 0x00, 0x12, 0x34, 0x00, 0x01, 0xFA, 0xFF, 0xCA, 0xFE]) := by decide

/-- R305, D27: of two enabled latches the higher number goes first; the handler address is read at 4 * 7. -/
theorem test_service_priority :
    after [] (put { kern with imr := 0x82, latch := (Latches.none.set .keyboard true).set .timer true } 0x1C [0, 0, 5, 0])
      (fun t => (t.pc, t.latch)) = some (0x500, Latches.none.set .keyboard true) := by decide

/-- R303, R320: a scripted arrival sets latch 1; the timer stays silent while its period is 0. -/
theorem test_arrivals :
    after [0x00] { kern with arrivals := .first ⟨true, false, false, true, []⟩ .quiet } (fun t => t.latch) =
      some (Latches.none.set .keyboard true) := by decide

/-- R74, R68 (log 8): a device stores two bytes, the one at a read-only address without effect. -/
theorem test_device_stores :
    after [0x00] { kern with
        physMap := [⟨0x3000, 1, .readOnly⟩]
        arrivals := .first ⟨false, false, false, false, [(0x2FFF, 7), (0x3000, 9)]⟩ .quiet }
      (fun t => t.bytesAt [0x2FFF, 0x3000]) = some [7, 0] := by decide

/-- R312: a fetch in user mode from an unmapped address raises PageFault. -/
theorem test_fetch_page_fault :
    after [0x5F] { user with mmu := .listed [] } (fun t => (t.latch, t.mode)) =
      some (Latches.none.set .pageFault true, .user) := by decide

/-- The first step after reset runs the placed instruction (log 4), if no source acts first. -/
theorem test_first_step :
    after [] ((({ State.reset with arrivals := .quiet } : State)).withFetchWord 8 0x5F) (fun t => (t.pc, t.latch)) =
      some (0x101, Latches.none.set .syscall true) := by decide

/-! ## Witnesses: the hypotheses of each statement can be met -/

/-- A machine whose last megabyte is read-only, in kernel mode. -/
def rom : State := { kern with physMap := [⟨0xFFF00000, 0x100000, .readOnly⟩] }

/-- User mode: addresses below 2^16 mapped to 2^16 and above, the next 4096 mapped read-only, the rest faulting. -/
def mapped : State :=
  { kern with mode := .user, mmu := .listed [⟨0, 0, 0x10000, 0x10000, true, []⟩, ⟨0, 0x10000, 0x1000, 0x50000, false, []⟩] }

/-- An instruction placed where `s` fetches. -/
def placed (s : State) (bytes : List Byte) : State := s.placeAt 0 bytes

theorem kern_ram (l : List Word) : kern.AllRam l := fun _ _ => rfl

theorem kern_readable (l : List Word) : kern.Readable l := fun _ _ => .inl rfl

theorem kern_reaches (acc : Access) (l : List Word) : kern.Reaches acc l l := by
  rw [State.reaches_kernel rfl]

theorem kern_steady : kern.Steady := fun h => by cases h

theorem mapped_steady : mapped.Steady := fun _ _ _ _ => rfl

theorem mapped_ram (l : List Word) : mapped.AllRam l := fun _ _ => rfl

theorem allows_kernel {s : State} (h : s.mode = .kernel) {ref : Ref} (hn : ref.named = true) : s.Allows ref :=
  ⟨hn, fun hu => by rw [h] at hu; cases hu⟩

theorem not_float {ref : Ref} (h : isFloatRef ref = false) : ¬IsFloat ref := isFloatRef_eq_false.1 h

theorem all_of {l : List Word} {P : Word → Prop} [DecidablePred P] (h : (l.all fun p => decide (P p)) = true) :
    ∀ p ∈ l, P p := by simpa using h

theorem any_of {l : List Word} {P : Word → Prop} [DecidablePred P] (h : (l.any fun p => decide (P p)) = true) :
    ∃ p ∈ l, P p := by simpa using h

theorem refused_kernel {s : State} {l : List Word} (hm : s.mode = .kernel) (h : ∃ p ∈ l, s.kindOf p = .readOnly) :
    s.WriteRefused l := by
  simp only [State.WriteRefused, hm]; exact h

theorem refused_user {s : State} {l : List Word} (hm : s.mode = .user) (hf : ∀ v ∈ l, s.translate v .write ≠ .fault)
    (h : ∃ v ∈ l, s.translate v .write = .readOnly) : s.WriteRefused l := by
  simp only [State.WriteRefused, hm]
  obtain ⟨v, hv, ht⟩ := h
  exact ⟨hf, v, hv, .inl ht⟩

/-! ### Encoding -/

theorem witness_DecodeEncodeRoundTrip :
    (Instr.copyVl .imr (.half 0xFFFF)).wf = true ∧ (Instr.push (.invalid 0x25)).wf = true ∧
      (Instr.addVl (.invalid 0xFF) .noLength).wf = true := by decide

theorem witness_DecodeReadsExactEncodings :
    ∃ (bs rest : List Byte) (i : Instr), decode bs = .ok (i, rest) ∧ rest ≠ [] :=
  ⟨[0x0E, 0x24, 0x00], [0x00], .push .imr, rfl, by decide⟩

theorem witness_EncodedLength :
    ∃ (i : Instr) (bs : List Byte), i.wf = true ∧ bs <+: encode i ∧ bs ≠ encode i ∧ (encode i).length = 13 :=
  ⟨.blockcopyLwLaLa 0xFFFFFFFF 0 1, [0x10, 0xFF], rfl, by decide, by decide, rfl⟩

/-! ### The step -/

theorem witness_StepRunsDecodedInstruction_kernel :
    ∃ (s : State) (i : Instr) (pl : List Word), s.halted = false ∧ s.paused = false ∧ s.sample.choose = none ∧
      i.wf = true ∧ s.sample.Reaches .fetch (addrs s.pc (encode i).length) pl ∧ s.Readable pl ∧
      s.sample.bytesAt pl = encode i ∧ 0xFFFFFFFF#32 ∈ pl ∧ 0#32 ∈ pl :=
  ⟨put { kern with pc := 0xFFFFFFFF } 0xFFFFFFFF [0x0E, 0x24], .push .imr, [0xFFFFFFFF, 0], rfl, rfl, by decide, rfl,
    by rw [State.reaches_kernel rfl]; rfl, fun _ _ => .inl rfl, by decide, by decide, by decide⟩

/-- The keyboard acts and a device stores the instruction right before it runs. -/
theorem witness_StepRunsDecodedInstruction_arrival :
    ∃ (s : State) (i : Instr) (pl : List Word), s.halted = false ∧ s.paused = false ∧ s.sample.choose = none ∧
      i.wf = true ∧ s.sample.Reaches .fetch (addrs s.pc (encode i).length) pl ∧ s.Readable pl ∧
      s.sample.bytesAt pl = encode i ∧ s.bytesAt pl ≠ encode i ∧ s.sample.latch ≠ s.latch :=
  ⟨{ kern with arrivals := .first ⟨true, false, false, false, [(0x100, 0x5F)]⟩ .quiet }, .syscall, [0x100], rfl, rfl,
    by decide, rfl, by rw [State.reaches_kernel rfl]; rfl, fun _ _ => .inl rfl, by decide, by decide, by decide⟩

theorem witness_StepRunsDecodedInstruction_user :
    ∃ (s : State) (i : Instr) (pl : List Word), s.mode = .user ∧ s.halted = false ∧ s.paused = false ∧
      s.sample.choose = none ∧ i.wf = true ∧ s.sample.Reaches .fetch (addrs s.pc (encode i).length) pl ∧ s.Readable pl ∧
      s.sample.bytesAt pl = encode i :=
  ⟨placed mapped [0x0E, 0x05], .push (.r 5), [0x10100, 0x10101], rfl, rfl, rfl, by decide, rfl,
    by rw [State.reaches_user rfl]; decide, fun _ _ => .inl rfl, by decide⟩

theorem witness_HaltedStopsPausedWaits :
    ({ kern with halted := true }).halted = true ∧
      ∃ s : State, s.halted = false ∧ s.paused = true ∧ s.sample.choose = none :=
  ⟨rfl, { kern with paused := true }, rfl, rfl, by decide⟩

theorem witness_CheckChoosesHighest :
    State.choose { kern with imr := 0xFF, latch := (Latches.none.set .syscall true).set .timer true } = some .timer ∧
      State.choose { kern with imr := 0xFF00, latch := Latches.none.set .timer true } = none := by decide

theorem witness_SourcesLatchAndDevicesStore :
    ∃ (s : State) (p q : Word) (b : Byte) (before after : List (Word × Byte)), s.Inv ∧ s.timerPeriod ≠ 0 ∧
      s.arrivals.now.keyboard = true ∧ s.arrivals.now.diskA = false ∧ s.arrivals.now.timer = true ∧
      s.kindOf p = .ram ∧ s.arrivals.now.writes = before ++ (p, b) :: after ∧ (∀ w ∈ after, w.1 ≠ p) ∧ before ≠ [] ∧
      s.kindOf q = .readOnly ∧ (q, b) ∈ s.arrivals.now.writes ∧ Irq.syscall ≠ .keyboard :=
  ⟨{ rom with
      timerPeriod := 1000
      arrivals := .first ⟨true, false, false, true, [(0xFFF00000, 5), (0xFFEFFFFF, 1), (0xFFEFFFFF, 5)]⟩ .quiet },
    0xFFEFFFFF, 0xFFF00000, 5, [(0xFFF00000, 5), (0xFFEFFFFF, 1)], [], rfl, by decide, rfl, rfl, rfl, by decide, rfl,
    by simp, by simp, by decide, by decide, by decide⟩

theorem witness_InterruptEntryBuildsFrame :
    ∃ (s : State) (n : Irq), s.Inv ∧ s.halted = false ∧ s.sample.choose = some n ∧ s.AllRam (addrs (s.kspr - 8) 8) ∧
      s.Readable (addrs (BitVec.ofNat 32 (4 * n.number)) 4) ∧ s.kspr = 4 :=
  ⟨{ kern with kspr := 4, imr := 0x80, latch := Latches.none.set .timer true }, .timer, rfl, rfl, by decide,
    fun _ _ => rfl, fun _ _ => .inl rfl, rfl⟩

theorem witness_EntryThenReturnRestores :
    ∃ (s t : State) (n : Irq), s.Inv ∧ s.halted = false ∧ s.sample.choose = some n ∧ s.AllRam (addrs (s.kspr - 8) 8) ∧
      step s = .next t :=
  ⟨{ user with imr := 1, latch := Latches.none.set .syscall true }, _, .syscall, rfl, rfl, by decide, fun _ _ => rfl, rfl⟩

theorem witness_IreturnCompletes : ∃ s : State, s.mode = .kernel ∧ s.Readable (addrs s.kspr 8) ∧ s.kspr = 0xFFFFFFFC :=
  ⟨{ kern with kspr := 0xFFFFFFFC }, rfl, fun _ _ => .inl rfl, rfl⟩

theorem witness_KernelInstructionsComplete : kern.mode = .kernel ∧ kern.Readable (addrs kern.kspr 4) :=
  ⟨rfl, kern_readable _⟩

theorem witness_PrivilegedAndUnmappedOpcodesTrap : user.mode = .user := rfl

/-! ### Traps -/

/-- A step that raises interrupt 0, and an instruction that does not. -/
theorem witness_SyscallRaisedOnlyBySyscall :
    (∃ s t : State, step s = .next t ∧ s.latch.get .syscall = false ∧ t.latch.get .syscall = true) ∧
      ∃ t : State, exec (.jumpLa 0) kern = .next t ∧ kern.latch.get .syscall = false :=
  ⟨⟨placed kern [0x5F], _, rfl, by decide, by decide⟩, _, rfl, by decide⟩

theorem witness_IllegalReferencesTrap :
    (RefClass.any, Ref.invalid 0x25) ∈ refsOf (.addVl (.invalid 0x25) .noLength) ∧
      OutsideClass .any (.invalid 0x25) ∧ (Instr.addVl (.invalid 0x25) .noLength).length = none ∧
      (RefClass.integer, Ref.f 0) ∈ refsOf (.notR (.f 0)) ∧ OutsideClass .integer (.f 0) ∧
      (Instr.notR (.f 0)).length = some 2 ∧
      (RefClass.address, Ref.h 0) ∈ refsOf (.jumpRa (.h 0)) ∧ OutsideClass .address (.h 0) ∧
      (RefClass.byte, Ref.h 7) ∈ refsOf (.lrotRb (.r 0) (.h 7)) ∧ OutsideClass .byte (.h 7) ∧
      (RefClass.byte, Ref.f 0) ∈ refsOf (.lrotRb (.r 0) (.f 0)) ∧ OutsideClass .byte (.f 0) := by
  unfold OutsideClass; decide

theorem witness_PrivilegedRegistersTrap :
    user.mode = .user ∧ (RefClass.any, Ref.kspr) ∈ refsOf (.copyRr (.r 0) .kspr) ∧
      (RefClass.any, Ref.pdpr) ∈ refsOf (.pop .pdpr) ∧ (RefClass.byte, Ref.imr) ∈ refsOf (.lshiftRb (.r 0) .imr) := by
  decide

theorem witness_MismatchedOperandsTrap :
    pairOf (.copyRr (.r 0) .flags) = some (.r 0, .flags) ∧ (Ref.r 0).width ≠ Ref.flags.width ∧
      kindPairOf (.addRr (.f 0) .uspr) = some (.f 0, .uspr) ∧ (IsFloat (.f 0) ↔ ¬IsFloat .uspr) :=
  ⟨rfl, by decide, rfl, by simp [IsFloat]⟩

theorem witness_DivisionByZeroTraps :
    ∃ (s : State) (rd rs : Ref) (lit : Lit), s.Allows rd ∧ ¬IsFloat rd ∧ Lit.fits rd lit = true ∧
      literalValue rd.width lit = 0 ∧ IsGeneral rd ∧ s.Allows rs ∧ ¬IsFloat rs ∧ rs.width = rd.width ∧ s.x rs = 0 ∧
      IsGeneral rs :=
  ⟨user, .b 7, .b 0, .byte 0, ⟨rfl, by simp⟩, not_float rfl, rfl, rfl, ⟨7, by simp⟩, ⟨rfl, by simp⟩, not_float rfl, rfl, rfl,
    ⟨0, by simp⟩⟩

theorem witness_DivisionByZeroTraps_flags :
    kern.Allows .flags ∧ ¬IsFloat .flags ∧ Lit.fits .flags (.half 0) = true ∧ literalValue 16 (.half 0) = 0 ∧
      kern.Allows .imr ∧ Ref.imr.width = Ref.flags.width ∧ kern.x .imr = 0 :=
  ⟨allows_kernel rfl rfl, not_float rfl, rfl, rfl, allows_kernel rfl rfl, rfl, rfl⟩

theorem witness_ReadOnlyStoresTrap_kernel :
    rom.Allows .flags ∧ rom.WriteRefused (addrs 0xFFEFFFFF (bytesOf .flags)) ∧ rom.r.get 0 = 0 ∧
      rom.Reaches .read (addrs 0xFFEFFFFF 2) (addrs 0xFFEFFFFF 2) ∧ rom.Readable (addrs 0xFFEFFFFF 2) := by
  exact ⟨allows_kernel rfl rfl, refused_kernel rfl (any_of (by decide)), rfl, (State.reaches_kernel rfl).2 rfl,
    all_of (by decide)⟩

theorem witness_ReadOnlyStoresTrap_user :
    mapped.Allows (.b 0) ∧ mapped.WriteRefused (addrs 0x10FFF (bytesOf (.b 0))) ∧
      mapped.Reaches .read (addrs 0x10FFF 1) [0x50FFF] ∧ mapped.Readable [0x50FFF] := by
  exact ⟨⟨rfl, by simp⟩, refused_user rfl (all_of (by decide)) (any_of (by decide)), by rw [State.reaches_user rfl]; decide,
    (mapped_ram _).readable⟩

theorem witness_ReadOnlyStoresTrap_stack :
    ∃ s : State, s.Allows (.r 0) ∧ s.WriteRefused (addrs (s.sp - BitVec.ofNat 32 (bytesOf (.r 0))) (bytesOf (.r 0))) ∧
      s.WriteRefused (addrs (s.sp - 4) 4) := by
  exact ⟨{ rom with kspr := 0xFFF00001 }, allows_kernel rfl rfl, refused_kernel rfl (any_of (by decide)),
    refused_kernel rfl (any_of (by decide))⟩

/-- The second push of CALL alone is refused. -/
theorem witness_ReadOnlyStoresTrap_second_push :
    ∃ (s : State) (pl : List Word), s.Steady ∧ s.WriteRefused (addrs (s.sp - 6) 2) ∧
      s.Reaches .write (addrs (s.sp - 4) 4) pl ∧ s.AllRam pl :=
  ⟨{ rom with kspr := 0x00000004 }, [0, 1, 2, 3], (fun h => by cases h), refused_kernel rfl (any_of (by decide)),
    (State.reaches_kernel rfl).2 (by decide), all_of (by decide)⟩

theorem witness_UserAccessesPageFault_fetch :
    ∃ s : State, s.halted = false ∧ s.paused = false ∧ s.sample.choose = none ∧ s.sample.Faults .fetch [s.pc] ∧
      s.pc = 0x11000 :=
  ⟨{ mapped with pc := 0x11000 }, rfl, rfl, by decide, ⟨rfl, _, List.mem_singleton.2 rfl, by decide⟩, rfl⟩

/-- The last byte of a LOAD lies on the page that faults. -/
theorem witness_UserAccessesPageFault_fetch_later :
    ∃ (s : State) (i : Instr) (k : Nat) (pl : List Word), s.halted = false ∧ s.paused = false ∧ s.sample.choose = none ∧
      i.wf = true ∧ k + 1 = (encode i).length ∧ s.sample.Reaches .fetch (addrs s.pc k) pl ∧ s.Readable pl ∧
      s.sample.bytesAt pl = (encode i).take k ∧ s.sample.Faults .fetch [s.pc + BitVec.ofNat 32 k] :=
  ⟨placed { mapped with pc := 0x10FFB } [0x06, 0x00, 0x00, 0x00, 0x00], .loadLa (.r 0) 0, 5,
    [0x50FFB, 0x50FFC, 0x50FFD, 0x50FFE, 0x50FFF], rfl, rfl, by decide, rfl, rfl, by rw [State.reaches_user rfl]; decide,
    fun _ _ => .inl rfl, by decide, rfl, _, List.mem_singleton.2 rfl, by decide⟩

theorem witness_UserAccessesPageFault :
    ∃ s : State, s.Allows (.r 0) ∧ s.Faults .read (addrs 0x10FFD (bytesOf (.r 0))) ∧
      s.Faults .write (addrs 0x10FFD (bytesOf (.r 0))) ∧
      s.Faults .write (addrs (s.uspr - BitVec.ofNat 32 (bytesOf (.r 0))) (bytesOf (.r 0))) ∧
      s.Faults .read (addrs s.uspr (bytesOf (.r 0))) ∧ s.Faults .write (addrs (s.uspr - 4) 4) ∧
      s.Faults .read (addrs s.uspr 2) ∧ s.r.get 0 = 0x10FFD := by
  refine ⟨{ mapped with uspr := 0x11001, r := bank 0x10FFD 0 0 }, ⟨rfl, by simp⟩, ?_, ?_, ?_, ?_, ?_, ?_, rfl⟩ <;>
    exact ⟨rfl, any_of (by decide)⟩

/-- User mode: address 1 read-only, 2 to 5 writable, 8 for reads alone, the rest faulting. -/
def islands : State :=
  { kern with mode := .user, uspr := 6, mmu := .listed [⟨0, 1, 1, 0x201, false, []⟩, ⟨0, 2, 4, 0x102, true, []⟩, ⟨0, 8, 1, 0x108, true, [.write, .fetch]⟩] }

theorem islands_steady : islands.Steady := fun _ _ _ _ => rfl

/-- The second push of CALL faults, its first does not. -/
theorem witness_UserAccessesPageFault_second_push :
    ∃ pl : List Word, islands.Steady ∧ islands.Faults .write (addrs (islands.uspr - 6) 2) ∧
      islands.Reaches .write (addrs (islands.uspr - 4) 4) pl ∧ islands.AllRam pl :=
  ⟨[0x102, 0x103, 0x104, 0x105], islands_steady, ⟨rfl, any_of (by decide)⟩, by rw [State.reaches_user rfl]; decide,
    fun _ _ => rfl⟩

/-- The second pop of RETURN faults, its first does not. -/
theorem witness_UserAccessesPageFault_second_pop :
    ∃ (s : State) (pl : List Word), s.Faults .read (addrs (s.uspr + 2) 4) ∧ s.Reaches .read (addrs s.uspr 2) pl ∧
      s.Readable pl :=
  ⟨{ islands with uspr := 4 }, [0x104, 0x105], ⟨rfl, any_of (by decide)⟩, by rw [State.reaches_user rfl]; decide,
    fun _ _ => .inl rfl⟩

/-- A byte that can be read and whose writes fault: SWAP's write alone. -/
theorem witness_UserAccessesPageFault_swap :
    islands.Allows (.b 0) ∧ islands.Faults .write (addrs 8 (bytesOf (.b 0))) ∧
      islands.Reaches .read (addrs 8 (bytesOf (.b 0))) [0x108] ∧ islands.Readable [0x108] :=
  ⟨⟨rfl, by simp⟩, ⟨rfl, any_of (by decide)⟩, by rw [State.reaches_user rfl]; decide, fun _ _ => .inl rfl⟩

/-! ### Registers, memory, data movement -/

theorem witness_RegisterAndStackPointerWrites :
    kern.mode = .kernel ∧ user.mode = .user ∧ Ref.named .imr = true ∧ Ref.imr ≠ .flags ∧ IsGeneral (.b 7) ∧ (Ref.b 7 ≠ .r 6 ∧ Ref.b 7 ≠ .h 6 ∧ Ref.b 7 ≠ .b 6) :=
  ⟨rfl, rfl, rfl, by decide, ⟨7, by simp⟩, by decide⟩

theorem witness_HalfAndByteRegistersAreViews :
    (kern.setX (.r 7) 0x80).x (.b 7) ≠ kern.x (.b 7) ∧ (kern.setX (.r 7) 0x8000).x (.h 7) ≠ kern.x (.h 7) := by decide

theorem witness_WritesAreBigEndian :
    kern.Inv ∧ kern.mode = .kernel ∧ kern.AllRam (addrs 0xFFFFFFFE (32 / 8)) ∧ kern.AllRam (addrs 0xFFFFFFFF (16 / 8)) ∧
      kern.AllRam (addrs 0 (8 / 8)) ∧ 3 < 32 / 8 ∧ 2 + 16 / 8 ≤ 32 / 8 :=
  ⟨rfl, rfl, kern_ram _, kern_ram _, kern_ram _, by decide, by decide⟩

theorem witness_LoadCompletes :
    ∃ (s : State) (rr : Ref) (a : Word) (pl : List Word), s.Allows rr ∧ s.Reaches .read (addrs a (bytesOf rr)) pl ∧
      s.Readable pl ∧ s.r.get 0 = a ∧ a = 0xFFFFFFFE :=
  ⟨{ kern with r := bank 0xFFFFFFFE 0 0 }, .pdpr, 0xFFFFFFFE, _, allows_kernel rfl rfl, (State.reaches_kernel rfl).2 rfl,
    fun _ _ => .inl rfl, rfl, rfl⟩

theorem witness_LoadCompletes_user :
    mapped.Allows .uspr ∧ mapped.Reaches .read (addrs 0xFFFE (bytesOf .uspr)) [0x1FFFE, 0x1FFFF, 0x50000, 0x50001] ∧
      mapped.Readable [0x1FFFE, 0x1FFFF, 0x50000, 0x50001] :=
  ⟨⟨rfl, by simp⟩, by rw [State.reaches_user rfl]; decide, (mapped_ram _).readable⟩

theorem witness_StoreCompletes :
    ∃ (s : State) (rr : Ref) (a : Word) (pl : List Word), s.Inv ∧ s.Allows rr ∧
      s.Reaches .write (addrs a (bytesOf rr)) pl ∧ s.AllRam pl ∧ s.r.get 0 = a ∧ a = 0xFFFFFFFF :=
  ⟨{ kern with r := bank 0xFFFFFFFF 0 0 }, .flags, 0xFFFFFFFF, _, rfl, allows_kernel rfl rfl,
    (State.reaches_kernel rfl).2 rfl, fun _ _ => rfl, rfl, rfl⟩

theorem witness_StoreCompletes_user :
    mapped.Inv ∧ mapped.Allows (.f 7) ∧
      mapped.Reaches .write (addrs 0xFFFC (bytesOf (.f 7))) [0x1FFFC, 0x1FFFD, 0x1FFFE, 0x1FFFF] ∧
      mapped.AllRam [0x1FFFC, 0x1FFFD, 0x1FFFE, 0x1FFFF] :=
  ⟨rfl, ⟨rfl, by simp⟩, by rw [State.reaches_user rfl]; decide, mapped_ram _⟩

theorem witness_CopyCompletes :
    kern.Allows .pdpr ∧ Lit.fits .pdpr (.word 0xFFFFFFFF) = true ∧ kern.Allows (.r 7) ∧ (Ref.r 7).width = Ref.pdpr.width ∧
      (IsFloat .pdpr ↔ IsFloat (.r 7)) ∧ ¬IsFloat .pdpr ∧ Ref.pdpr.width = 32 :=
  ⟨allows_kernel rfl rfl, rfl, allows_kernel rfl rfl, rfl, by simp [IsFloat], not_float rfl, rfl⟩

theorem witness_ConversionsAreExact :
    (0x01000000#32).toInt.natAbs ≤ 2 ^ 24 ∧ (0xFF000000#32).toInt.natAbs ≤ 2 ^ 24 ∧
      IsFinite 0xCF000000 ∧ (exactValue 0xCF000000).tdiv (2 ^ 149) = -(2 ^ 31) :=
  ⟨by decide, by decide, ⟨by decide, by decide⟩, by decide⟩

/-- R154: 2^24 + 1 and 2^24 + 3 lie halfway between two binary32 values; the one whose last bit is 0 is taken. -/
theorem test_from_int32_ties : fromInt32 0x01000001 = 0x4B800000 ∧ fromInt32 0x01000003 = 0x4B800002 := by decide

theorem witness_SwapCompletes :
    ∃ (s : State) (rr : Ref) (a : Word) (pl pw : List Word), s.Inv ∧ s.Allows rr ∧
      s.Reaches .read (addrs a (bytesOf rr)) pl ∧ s.Readable pl ∧ s.Reaches .write (addrs a (bytesOf rr)) pw ∧
      s.AllRam pw ∧ s.r.get 0 = a :=
  ⟨kern, .r 0, 0, _, _, rfl, allows_kernel rfl rfl, kern_reaches _ _, kern_readable _, kern_reaches _ _, kern_ram _, rfl⟩

theorem witness_PushCompletes :
    ∃ (s : State) (rr : Ref) (pl : List Word), s.Inv ∧ s.Allows rr ∧
      s.Reaches .write (addrs (s.sp - BitVec.ofNat 32 (bytesOf rr)) (bytesOf rr)) pl ∧ s.AllRam pl ∧ s.sp = 1 :=
  ⟨{ kern with kspr := 1 }, .kspr, _, rfl, allows_kernel rfl rfl, (State.reaches_kernel rfl).2 rfl, fun _ _ => rfl, rfl⟩

theorem witness_PushCompletes_user :
    ∃ (s : State) (pl : List Word), s.mode = .user ∧ s.Inv ∧ s.Allows .uspr ∧
      s.Reaches .write (addrs (s.sp - BitVec.ofNat 32 (bytesOf .uspr)) (bytesOf .uspr)) pl ∧ s.AllRam pl :=
  ⟨{ mapped with uspr := 4 }, [0x10000, 0x10001, 0x10002, 0x10003], rfl, rfl, ⟨rfl, by simp⟩,
    by rw [State.reaches_user rfl]; decide, mapped_ram _⟩

theorem witness_PopCompletes :
    ∃ (s t : State) (rr : Ref) (pl : List Word), s.Allows rr ∧ s.Reaches .read (addrs s.sp (bytesOf rr)) pl ∧
      s.Readable pl ∧ t = s.setX rr (ofBytes rr.width (s.bytesAt pl)) ∧ s.sp = 0xFFFFFFFF :=
  ⟨{ kern with kspr := 0xFFFFFFFF }, _, .kspr, _, allows_kernel rfl rfl, (State.reaches_kernel rfl).2 rfl,
    fun _ _ => .inl rfl, rfl, rfl⟩

theorem witness_PushThenPopMovesValue :
    ∃ pl : List Word, kern.Inv ∧ kern.Steady ∧ kern.Allows (.f 0) ∧ kern.Allows .pdpr ∧ Ref.f 0 ≠ kern.activeStack ∧
      Ref.pdpr ≠ kern.activeStack ∧ (Ref.f 0).width = Ref.pdpr.width ∧
      kern.Reaches .write (addrs (kern.sp - BitVec.ofNat 32 (bytesOf (.f 0))) (bytesOf (.f 0))) pl ∧
      kern.Reaches .read (addrs (kern.sp - BitVec.ofNat 32 (bytesOf (.f 0))) (bytesOf (.f 0))) pl ∧ pl.Nodup ∧
      kern.AllRam pl :=
  ⟨_, rfl, (fun h => by cases h), allows_kernel rfl rfl, allows_kernel rfl rfl, by decide, by decide, rfl,
    kern_reaches _ _, kern_reaches _ _, by decide, kern_ram _⟩

theorem witness_PushThenPopMovesValue_user :
    ∃ (s : State) (pl : List Word), s.mode = .user ∧ s.Inv ∧ s.Steady ∧ s.Allows (.b 0) ∧ s.Allows (.b 1) ∧
      Ref.b 0 ≠ s.activeStack ∧ Ref.b 1 ≠ s.activeStack ∧
      s.Reaches .write (addrs (s.sp - BitVec.ofNat 32 (bytesOf (.b 0))) (bytesOf (.b 0))) pl ∧
      s.Reaches .read (addrs (s.sp - BitVec.ofNat 32 (bytesOf (.b 0))) (bytesOf (.b 0))) pl ∧ pl.Nodup ∧ s.AllRam pl :=
  ⟨{ mapped with uspr := 1 }, [0x10000], rfl, rfl, (fun _ _ _ _ => rfl), ⟨rfl, by simp⟩, ⟨rfl, by simp⟩, by decide,
    by decide, by rw [State.reaches_user rfl]; decide, by rw [State.reaches_user rfl]; decide, by decide, fun _ _ => rfl⟩

/-! ### BLOCKCOPY -/

theorem witness_BlockcopyDisjoint :
    ∃ (s : State) (i : Instr) (len d src : Word) (ps pd : List Word), s.Inv ∧ s.Steady ∧
      s.blockcopyOf i = some (len, d, src) ∧ i.length = some 4 ∧ s.Reaches .read (addrs src len.toNat) ps ∧
      s.Readable ps ∧ s.Reaches .write (addrs d len.toNat) pd ∧ s.AllRam pd ∧
      (∀ v ∈ addrs d len.toNat, v ∉ addrs src len.toNat) ∧ (∀ p ∈ pd, p ∉ ps) ∧ pd.Nodup ∧ d + len = src := by
  refine ⟨{ mapped with r := bank 3 0x7FFD 0x8000 }, .blockcopyRwRaRa (.r 0) (.r 1) (.r 2), 3, 0x7FFD, 0x8000,
    [0x18000, 0x18001, 0x18002], [0x17FFD, 0x17FFE, 0x17FFF], rfl, mapped_steady, rfl, rfl, ?_, (mapped_ram _).readable, ?_,
    mapped_ram _, all_of (by decide), all_of (by decide), by decide, by decide⟩ <;> (rw [State.reaches_user rfl]; decide)

theorem witness_BlockcopyOverlapping_self :
    ∃ (i : Instr) (len d : Word), kern.Inv ∧ kern.Steady ∧ kern.blockcopyOf i = some (len, d, d) ∧ i.length = some 13 ∧
      kern.Reaches .read (addrs d len.toNat) (addrs d len.toNat) ∧ kern.AllRam (addrs d len.toNat) :=
  ⟨.blockcopyLwLaLa 4 0xFFFFFFFE 0xFFFFFFFE, 4, 0xFFFFFFFE, rfl, kern_steady, rfl, rfl, kern_reaches _ _, kern_ram _⟩

theorem witness_BlockcopyOverlapping_shifted :
    ∃ (i : Instr) (len d src : Word), kern.Inv ∧ kern.Steady ∧ kern.blockcopyOf i = some (len, d, src) ∧
      i.length = some 13 ∧ d ≠ src ∧ (∃ v ∈ addrs d len.toNat, v ∈ addrs src len.toNat) ∧
      kern.Readable (addrs src len.toNat) ∧ kern.AllRam (addrs d len.toNat) :=
  ⟨.blockcopyLwLaLa 2 0 0xFFFFFFFF, 2, 0, 0xFFFFFFFF, rfl, kern_steady, rfl, rfl, by decide, any_of (by decide), kern_readable _,
    kern_ram _⟩

theorem witness_BlockcopyPartwayFault :
    ∃ (i : Instr) (len d src : Word), rom.Inv ∧ rom.mode = .kernel ∧ rom.blockcopyOf i = some (len, d, src) ∧
      i.length = some 13 ∧ rom.Readable (addrs src len.toNat) ∧ rom.Readable (addrs d len.toNat) ∧
      ∃ p ∈ addrs d len.toNat, rom.kindOf p = .readOnly := by
  exact ⟨.blockcopyLwLaLa 2 0xFFEFFFFF 0xFFFFFFFE, 2, 0xFFEFFFFF, 0xFFFFFFFE, rfl, rfl, rfl, rfl, all_of (by decide),
    all_of (by decide), any_of (by decide)⟩

/-- In user mode, one byte copied: a source byte that faults, a destination byte that faults, one that is read-only. -/
theorem witness_BlockcopyPartwayFault_user :
    ∃ (len d src d' : Word), islands.Inv ∧ islands.Steady ∧
      islands.blockcopyOf (.blockcopyLwLaLa len d src) = some (len, d, src) ∧ 1 < len.toNat ∧
      islands.Reaches .read (addrs 5 1) [0x105] ∧ islands.Reaches .write (addrs d 1) [0x102] ∧
      islands.AllRam [0x105, 0x102] ∧ islands.Faults .read [5 + BitVec.ofNat 32 1] ∧
      islands.Reaches .read [src + BitVec.ofNat 32 1] [0x103] ∧ islands.Faults .write [5 + BitVec.ofNat 32 1] ∧
      islands.WriteRefused [d' + BitVec.ofNat 32 0] ∧ islands.Writable (addrs d len.toNat) 0x102 :=
  ⟨2, 2, 2, 1, rfl, islands_steady, rfl, by decide, by rw [State.reaches_user rfl]; decide,
    by rw [State.reaches_user rfl]; decide, fun _ _ => rfl, ⟨rfl, any_of (by decide)⟩,
    by rw [State.reaches_user rfl]; decide, ⟨rfl, any_of (by decide)⟩,
    refused_user rfl (all_of (by decide)) (any_of (by decide)), rfl, 2, by decide, by rw [State.reaches_user rfl]; decide⟩

/-- In kernel mode with k > 0: the second byte is read-only. -/
theorem witness_BlockcopyPartwayFault_second :
    ∃ (len d src p : Word), rom.Steady ∧ 1 < len.toNat ∧ rom.Reaches .read (addrs src 1) [src] ∧ rom.Readable [src] ∧
      rom.Reaches .write (addrs d 1) [d] ∧ rom.AllRam [d] ∧ rom.Reaches .read [src + BitVec.ofNat 32 1] [p] ∧
      rom.Readable [p] ∧ rom.WriteRefused [d + BitVec.ofNat 32 1] :=
  ⟨2, 0xFFEFFFFF, 0, 1, (fun h => by cases h), by decide, (State.reaches_kernel rfl).2 rfl, all_of (by decide),
    (State.reaches_kernel rfl).2 rfl, all_of (by decide), (State.reaches_kernel rfl).2 rfl, all_of (by decide),
    refused_kernel rfl (any_of (by decide))⟩

/-! ### Arithmetic, logic, shifts -/

/-- For ADD, SUB, MULT, NEGATE and COMPARE: an integer register that is not FLAGS and FLAGS as the source. -/
theorem witness_AdditionAndSubtraction :
    kern.Allows .imr ∧ ¬IsFloat .imr ∧ Ref.imr ≠ .flags ∧ Lit.fits .imr (.half 0xFFFF) = true ∧ kern.Allows .flags ∧
      ¬IsFloat .flags ∧ Ref.flags.width = Ref.imr.width ∧ IsGeneral (.h 0) ∧ Lit.fits (.h 0) (.half 0x8000) = true ∧
      IsGeneral (.h 7) ∧ (Ref.h 7).width = (Ref.h 0).width :=
  ⟨allows_kernel rfl rfl, not_float rfl, by decide, rfl, allows_kernel rfl rfl, not_float rfl, rfl, ⟨0, by simp⟩, rfl,
    ⟨7, by simp⟩, rfl⟩

theorem witness_WideAddition :
    ∃ (s t u : State) (lo hi lo' hi' : Fin 8), lo ≠ hi ∧ lo ≠ hi' ∧ exec (.addRr (.r lo) (.r lo')) s = .next t ∧
      exec (.addcarryRr (.r hi) (.r hi')) t = .next u ∧ t.flagC = true :=
  ⟨{ kern with r := bank 0xFFFFFFFF 0xFFFFFFFF 1 }, _, _, 0, 1, 2, 1, by decide, by decide, rfl, rfl, by decide⟩

theorem witness_MultInteger : kern.Allows (.b 0) ∧ ¬IsFloat (.b 0) ∧ Ref.b 0 ≠ .flags :=
  ⟨allows_kernel rfl rfl, not_float rfl, by decide⟩

theorem witness_SignedDivision :
    ∃ (s : State) (rd rs : Ref), s.Allows rd ∧ ¬IsFloat rd ∧ rd ≠ .flags ∧ s.Allows rs ∧ ¬IsFloat rs ∧ s.x rs ≠ 0 ∧
      rs.width = rd.width ∧ literalValue rd.width (.word 0xFFFFFFFF) ≠ 0 ∧ (s.x rd).toInt = -2147483648 :=
  ⟨{ kern with r := bank 0x80000000 0xFFFFFFFF 0 }, .r 0, .r 1, allows_kernel rfl rfl, not_float rfl, by decide,
    allows_kernel rfl rfl, not_float rfl, by decide, rfl, by decide, by decide⟩

theorem witness_UnsignedDivision :
    ∃ (s : State) (rd rs : Ref), IsGeneral rd ∧ IsGeneral rs ∧ s.x rs ≠ 0 ∧ rs.width = rd.width ∧
      literalValue rd.width (.byte 1) ≠ 0 :=
  ⟨{ kern with r := bank 9 0xFF 0 }, .b 0, .b 1, ⟨0, by simp⟩, ⟨1, by simp⟩, by decide, rfl, by decide⟩

theorem witness_NegateInteger :
    kern.Allows .uspr ∧ ¬IsFloat .uspr ∧ Ref.uspr ≠ .flags ∧ user.Allows .uspr :=
  ⟨allows_kernel rfl rfl, not_float rfl, by decide, ⟨rfl, by simp⟩⟩

theorem witness_FlagsDestinationIsFree :
    ∃ s : State, s.Allows (.h 0) ∧ ¬IsFloat (.h 0) ∧ (Ref.h 0).width = 16 ∧ s.x (.h 0) = 0 ∧
      Instr.multRr .flags (.h 0) ∈ [.addRr .flags (.h 0), .subRr .flags (.h 0), .multRr .flags (.h 0)] ∧
      s.Allows (.h 1) ∧ s.x (.h 1) ≠ 0 ∧ Instr.sremRr .flags (.h 1) ∈ [.sdivRr .flags (.h 1), .sremRr .flags (.h 1)] ∧
      Instr.subVl .flags (.half 0) ∈ [.addVl .flags (.half 0), .subVl .flags (.half 0), .multVl .flags (.half 0)] ∧
      (1#16) ≠ 0 ∧ Instr.sdivVl .flags (.half 1) ∈ [.sdivVl .flags (.half 1), .sremVl .flags (.half 1)] :=
  ⟨{ kern with r := bank 0 7 0 }, allows_kernel rfl rfl, not_float rfl, rfl, by decide, by decide, allows_kernel rfl rfl,
    by decide, by decide, by decide, by decide, by decide⟩

theorem witness_FloatArithmetic :
    (Instr.subVl, Instr.subRr, subFloat) ∈ [(Instr.addVl, Instr.addRr, addFloat), (.subVl, .subRr, subFloat),
      (.multVl, .multRr, mulFloat), (.sdivVl, .sdivRr, divFloat), (.sremVl, .sremRr, remFloat)] ∧ IsFloat (.f 7) ∧ Lit.fits (.f 0) (.word 0x80000000) = true ∧ (Ref.f 7).width = (Ref.f 0).width ∧
      (isNaN 0x3F800000 || isNaN 0xBF800000 || isNaN (addFloat 0x3F800000 0xBF800000)) = false :=
  ⟨by simp, ⟨7, rfl⟩, rfl, rfl, by decide⟩

theorem witness_FloatResultsAreNearest :
    IsFinite 0x7F7FFFFF ∧ IsFinite 0x33000000 ∧ isZero 0x33000000 = false ∧ IsFinite 0x80000000 ∧
      isZero 0x80000000 = true ∧ isZero 0x7F7FFFFF = false ∧ isNaN 0x7F800001 = true ∧ isInf 0xFF800000 = true ∧
      isInf 0x7F800000 = true ∧ signBit 0xFF800000 ≠ signBit 0x7F800000 :=
  ⟨⟨by decide, by decide⟩, ⟨by decide, by decide⟩, by decide, ⟨by decide, by decide⟩, by decide, by decide, by decide,
    by decide, by decide, by decide⟩

/-- R181: sums that round, a tie to even down and one up, and the largest value plus half its last place, an infinity. -/
theorem test_float_rounding :
    addFloat 0x3F800000 0x33800000 = 0x3F800000 ∧ addFloat 0x3F800001 0x33800000 = 0x3F800002 ∧
      addFloat 0x7F7FFFFF 0x73000000 = 0x7F800000 ∧ addFloat 0x7F7FFFFF 0x72FFFFFF = 0x7F7FFFFF := by decide

theorem witness_LogicOperations : IsGeneral (.b 7) ∧ Lit.fits (.b 7) (.byte 0xFF) = true ∧ IsGeneral (.b 0) :=
  ⟨⟨7, by simp⟩, rfl, ⟨0, by simp⟩⟩

theorem witness_Shifts : IsGeneral (.r 0) := ⟨0, by simp⟩

theorem witness_Rotates : IsGeneral (.h 7) := ⟨7, by simp⟩

/-! ### Flow control -/

theorem witness_CompareCompletes :
    user.Allows .flags ∧ ¬IsFloat .flags ∧ Lit.fits .flags (.half 0) = true ∧ user.Allows (.h 0) ∧ ¬IsFloat (.h 0) ∧
      (Ref.h 0).width = Ref.flags.width ∧ IsFloat (.f 1) ∧ isNaN 0 = false ∧ isNaN (subFloat 0 0) = false :=
  ⟨⟨rfl, by simp⟩, not_float rfl, rfl, ⟨rfl, by simp⟩, not_float rfl, rfl, ⟨1, rfl⟩, by decide, by decide⟩

theorem witness_CompareDecidesJumps : kern.Allows (.b 0) ∧ ¬IsFloat (.b 0) ∧ kern.Allows (.b 1) ∧ ¬IsFloat (.b 1) :=
  ⟨allows_kernel rfl rfl, not_float rfl, allows_kernel rfl rfl, not_float rfl⟩

theorem witness_JumpsComplete :
    ∃ s : State, s.flags.getLsbD 0 = false ∧ s.flags.getLsbD 1 = true ∧ s.flags.getLsbD 2 = false ∧
      s.flags.getLsbD 3 = true := ⟨{ kern with flags := 0xA }, by decide⟩

theorem witness_CallCompletes :
    ∃ (s : State) (pl : List Word), s.Inv ∧ s.Steady ∧ s.Reaches .write (addrs (s.sp - 6) 6) pl ∧ s.AllRam pl ∧
      s.mode = .user ∧ s.r.get 0 = 0x300 :=
  ⟨{ mapped with uspr := 6, r := bank 0x300 0 0 }, [0x10000, 0x10001, 0x10002, 0x10003, 0x10004, 0x10005], rfl,
    fun _ _ _ _ => rfl, by rw [State.reaches_user rfl]; decide, mapped_ram _, rfl, rfl⟩

theorem witness_ReturnCompletes :
    ∃ (s : State) (pl : List Word), s.Reaches .read (addrs s.sp 6) pl ∧ s.Readable pl ∧ s.sp = 0xFFFFFFFD :=
  ⟨{ kern with kspr := 0xFFFFFFFD }, _, (State.reaches_kernel rfl).2 rfl, fun _ _ => .inl rfl, rfl⟩

theorem witness_CallThenReturn :
    ∃ (s : State) (pl : List Word), s.Inv ∧ s.Steady ∧ s.mode = .kernel ∧ s.kspr = 2 ∧
      s.Reaches .write (addrs (s.sp - 6) 6) pl ∧ s.Reaches .read (addrs (s.sp - 6) 6) pl ∧ pl.Nodup ∧ s.AllRam pl :=
  ⟨{ kern with kspr := 2 }, addrs (-4) 6, rfl, (fun h => by cases h), rfl, rfl, (State.reaches_kernel rfl).2 rfl,
    (State.reaches_kernel rfl).2 rfl, by decide, fun _ _ => rfl⟩

theorem witness_CallThenReturn_user :
    ∃ (s : State) (pl : List Word), s.Inv ∧ s.Steady ∧ s.mode = .user ∧
      s.Reaches .write (addrs (s.sp - 6) 6) pl ∧ s.Reaches .read (addrs (s.sp - 6) 6) pl ∧ pl.Nodup ∧ s.AllRam pl :=
  ⟨{ mapped with uspr := 6 }, addrs 0x10000 6, rfl, (fun _ _ _ _ => rfl), rfl, by rw [State.reaches_user rfl]; decide,
    by rw [State.reaches_user rfl]; decide, by decide, fun _ _ => rfl⟩

/-! ### The whole machine -/

theorem witness_StepKeepsInvariant : ∃ s t : State, s.Inv ∧ step s = .next t ∧ t.mem ≠ s.mem :=
  ⟨placed { kern with r := bank 7 0 0 } [0x0E, 0x00], _, by unfold State.Inv; decide, rfl, by decide⟩

theorem witness_ReadOnlyBytesNeverChange :
    ∃ (s t : State) (p : Word), s.Inv ∧ s.kindOf p = .readOnly ∧ step s = .next t ∧ t.latch.illegalOperation = true :=
  ⟨placed rom [0x08, 0xFF, 0xF0, 0x00, 0x00, 0x00], _, 0xFFF00000, by unfold State.Inv; decide, by decide, rfl, by decide⟩

theorem witness_ModeTransitions_usermode : ∃ s t : State, exec .usermode s = .next t ∧ t.mode ≠ s.mode :=
  ⟨kern, _, rfl, by decide⟩

theorem witness_ModeTransitions_ireturn : ∃ s t : State, exec .ireturn s = .next t ∧ t.mode ≠ s.mode :=
  ⟨kern, _, rfl, by decide⟩

theorem witness_ModeTransitions_entry : ∃ s t : State, step s = .next t ∧ s.mode = .user ∧ t.mode = .kernel :=
  ⟨{ user with imr := 1, latch := Latches.none.set .syscall true }, _, rfl, rfl, by decide⟩

theorem witness_ModeTransitions_leave :
    ∃ s t : State, step s = .next t ∧ s.mode = .kernel ∧ t.mode = .user ∧ s.sample.choose = none :=
  ⟨placed kern [0x04], _, rfl, rfl, by decide, by decide⟩

theorem witness_UserModeConfined :
    ∃ s t : State, s.mode = .user ∧ step s = .next t ∧ s.sample.choose = none ∧ t.uspr ≠ s.uspr :=
  ⟨placed mapped [0x0E, 0x00], _, rfl, rfl, by decide, by decide⟩

theorem witness_KernelRegistersInvisibleToUser : mapped.mode = .user := rfl

theorem witness_LatchesFollowTheirCauses_step :
    ∃ (s t : State) (n : Irq), step s = .next t ∧ s.latch.get n = true ∧ s.sample.choose ≠ some n :=
  ⟨{ kern with imr := 0x81, latch := (Latches.none.set .syscall true).set .timer true }, _, .syscall, rfl, by decide,
    by decide⟩

theorem witness_LatchesFollowTheirCauses_cleared :
    ∃ (s t : State) (n : Irq), step s = .next t ∧ s.sample.choose = some n :=
  ⟨{ kern with imr := 0x80, latch := Latches.none.set .timer true }, _, .timer, rfl, by decide⟩

theorem witness_SyscallLatchesInterruptZero_enabled :
    ∃ s : State, s.latch.syscall = true ∧ s.halted = false ∧ s.imr.getLsbD 0 = true ∧ s.Inv ∧
      (∀ k : Irq, k ≠ .syscall → ¬(s.imr.getLsbD k.number = true ∧ s.sample.latch.get k = true)) ∧
      s.AllRam (addrs (s.kspr - 8) 8) ∧ s.Readable (addrs 0 4) :=
  ⟨{ kern with imr := 0xFF, latch := Latches.none.set .syscall true }, rfl, rfl, rfl, rfl,
    fun k h => by cases k <;> first | exact absurd rfl h | decide, kern_ram _, kern_readable _⟩

theorem witness_SyscallLatchesInterruptZero_masked :
    ∃ s t : State, s.latch.syscall = true ∧ s.halted = false ∧ s.imr.getLsbD 0 = false ∧ s.paused = false ∧
      (∀ k : Irq, k ≠ .syscall → ¬(s.imr.getLsbD k.number = true ∧ s.sample.latch.get k = true)) ∧
      step s = .next t ∧ t.pc = s.pc + 1 :=
  ⟨placed { kern with imr := 0xFE, latch := Latches.none.set .syscall true } [0x01], _, rfl, rfl, rfl, rfl,
    fun k h => by cases k <;> first | exact absurd rfl h | decide, rfl, rfl⟩

/-- R277's example: the step after SYSCALL services it and pushes the address after it. -/
theorem test_syscall_serviced :
    after [] (put (put { user with pc := 0x1234, imr := 0x7F, latch := Latches.none.set .syscall true } 0 [0, 0, 0x84, 0x20])
      0x1233 [0x5F]) (fun t => (t.pc, t.bytesAt (addrs 0x8FFA 4))) = some (0x8420, [0x00, 0x00, 0x12, 0x34]) := by decide

theorem witness_LatchesFollowTheirCauses_exec :
    (∃ t, exec .syscall kern = .next t ∧ t.latch.syscall ≠ kern.latch.syscall) ∧
      (∃ t, exec (.udivRr (.r 0) (.r 1)) kern = .next t ∧ t.latch.divideByZero ≠ kern.latch.divideByZero) ∧
      (∃ t, exec (.loadLa (.r 0) 0x20000) mapped = .next t ∧ t.latch.pageFault ≠ mapped.latch.pageFault) ∧
      (∃ t, exec (.callLa 0) islands = .next t ∧ t.latch.pageFault ≠ islands.latch.pageFault) ∧
      (∃ t, exec (.notR (.f 0)) kern = .next t ∧ t.latch.illegalOperation ≠ kern.latch.illegalOperation) :=
  ⟨⟨_, rfl, by decide⟩, ⟨_, rfl, by decide⟩, ⟨_, rfl, by decide⟩, ⟨_, rfl, by decide⟩, ⟨_, rfl, by decide⟩⟩

/-- A fetch that faults sets latch 4 alone. -/
theorem witness_LatchesFollowTheirCauses_fetch :
    ∃ s t : State, step s = .next t ∧ s.sample.choose = none ∧ t.latch = s.sample.latch.set .pageFault true ∧
      t.latch ≠ s.sample.latch :=
  ⟨{ user with mmu := .listed [] }, _, rfl, by decide, by decide, by decide⟩

end Sys2Proof.Tests
end

section
/-!
The half and byte registers as views of the full registers (10_state.md R21, R22): what a write through each of the three
names stores, and what the other two names then read.
-/

namespace Sys2Proof.Machine

/-! ## Reference bytes -/

/-- The half registers are references 08 to 0F (R21, R95). -/
theorem Ref.ofByte_half (i : Fin 8) : Ref.ofByte (BitVec.ofNat 8 (0x08 + i)) = .h i :=
  Ref.ofByte_toByte (ref := .h i) rfl

/-- The byte registers are references 10 to 17 (R22, R95). -/
theorem Ref.ofByte_byteRegister (i : Fin 8) : Ref.ofByte (BitVec.ofNat 8 (0x10 + i)) = .b i :=
  Ref.ofByte_toByte (ref := .b i) rfl

/-! ## What a write stores in the general registers -/

@[simp] theorem State.get_setX_r (s : State) (i : Fin 8) (v : Word) : (s.setX (.r i) v).r.get i = v :=
  Bank.get_set_same s.r i v

/-- D10: the upper half of the full register stays. -/
theorem State.get_setX_h (s : State) (i : Fin 8) (v : BitVec 16) :
    (s.setX (.h i) v).r.get i = (s.r.get i).extractLsb' 16 16 ++ v :=
  Bank.get_set_same s.r i _

/-- D10: the upper 24 bits of the full register stay. -/
theorem State.get_setX_b (s : State) (i : Fin 8) (v : BitVec 8) :
    (s.setX (.b i) v).r.get i = (s.r.get i).extractLsb' 8 24 ++ v :=
  Bank.get_set_same s.r i _

/-- A half register is no storage of its own (R21): the write is a write of the full register. -/
theorem State.setX_h_eq_set (s : State) (i : Fin 8) (v : BitVec 16) :
    s.setX (.h i) v = { s with r := s.r.set i ((s.setX (.h i) v).r.get i) } := by
  rw [State.get_setX_h]; rfl

/-- A byte register is no storage of its own (R22): the write is a write of the full register. -/
theorem State.setX_b_eq_set (s : State) (i : Fin 8) (v : BitVec 8) :
    s.setX (.b i) v = { s with r := s.r.set i ((s.setX (.b i) v).r.get i) } := by
  rw [State.get_setX_b]; rfl

/-- A write of r<i> shows under no reference but r<i>, r<i>h and r<i>b. -/
theorem State.x_setX_r_of_ne (s : State) (i : Fin 8) (v : Word) {ref : Ref} (hr : ref ≠ .r i) (hh : ref ≠ .h i)
    (hb : ref ≠ .b i) : (s.setX (.r i) v).x ref = s.x ref := by
  have get_other (j : Fin 8) (hj : j ≠ i) : (s.setX (.r i) v).r.get j = s.r.get j :=
    Bank.get_set_other s.r i j v hj
  cases ref with
  | r j => exact get_other j (by simpa using hr)
  | h j => rw [State.x_h, State.x_h, get_other j (by simpa using hh)]
  | b j => rw [State.x_b, State.x_b, get_other j (by simpa using hb)]
  | f | flags | uspr | kspr | pdpr | imr | invalid => rfl

/-! ## The obligation -/

/-- Settles O23: the half and byte registers are bits 15:0 and 7:0 of the full register, whichever of them is written. -/
theorem halfAndByteRegistersAreViews : Obligations.HalfAndByteRegistersAreViews := by
  intro i
  refine ⟨Ref.ofByte_half i, Ref.ofByte_byteRegister i, fun s =>
    ⟨State.x_h s i, State.x_b s i, fun v => ?readsOfFull, fun v => ⟨?lowHalf, State.setX_h_eq_set s i v⟩,
      fun v => ⟨?lowByte, State.setX_b_eq_set s i v⟩, fun v ref hne => ?frame⟩⟩
  case readsOfFull => simp
  case lowHalf => rw [State.get_setX_h, BitVec.extractLsb'_append_eq_right]
  case lowByte => rw [State.get_setX_b, BitVec.extractLsb'_append_eq_right]
  case frame =>
    by_contra hother
    push Not at hother
    obtain ⟨hr, hh, hb⟩ := hother
    exact hne (State.x_setX_r_of_ne s i v hr hh hb)

end Sys2Proof.Machine
end

section
/-!
The jumps (44_flow_control.md R260, R261, R263 to R274): what their two shared forms do, and the condition on FLAGS that
each of the twelve conditional ones reads.
-/

namespace Sys2Proof.Machine

/-! ## The two forms of a jump -/

@[simp] theorem State.jumpLiteral_eq (s : State) (taken : Bool) (target : Word) :
    s.jumpLiteral taken target = .next { s with pc := if taken then target else s.pc + 5 } := by
  cases taken <;> rfl

/-- A general register is a legal address register in either mode (R96), so the register form completes too. -/
@[simp] theorem State.jumpRegister_r (s : State) (taken : Bool) (i : Fin 8) :
    s.jumpRegister taken (.r i) = .next { s with pc := if taken then s.r.get i else s.pc + 2 } := by
  have checked : need (s.legal .address (.r i)) = .ok () := need_eq_ok.2 (s.legal_address_r i)
  rw [State.jumpRegister, checked]
  cases taken <;> rfl

/-- An instruction pair is a jump once its opcodes are `op` and `op + 1` and its meanings are the two shared forms under its
condition; these four facts are the pair's own lines in `encode` and `exec`. -/
theorem State.jumpsWhen {s : State} {op : Byte} {la : Word → Instr} {ra : Ref → Instr} {cond taken : Bool}
    (cond_eq : cond = taken)
    (encode_la : ∀ target, encode (la target) = op :: bytesOfWord target := by intros; rfl)
    (encode_ra : ∀ r, encode (ra r) = [op + 1, r.toByte] := by intros; rfl)
    (exec_la : ∀ target, exec (la target) s = s.jumpLiteral cond target := by intros; rfl)
    (exec_ra : ∀ r, exec (ra r) s = s.jumpRegister cond r := by intros; rfl) :
    s.JumpsWhen op la ra taken := by
  subst cond_eq
  exact ⟨fun target => ⟨encode_la target, (exec_la target).trans (s.jumpLiteral_eq cond target)⟩,
    fun i => ⟨encode_ra (.r i), (exec_ra (.r i)).trans (s.jumpRegister_r cond i)⟩⟩

/-! ## The conditions on FLAGS -/

theorem State.condEqual_eq (s : State) : s.condEqual = decide (s.flagZ = true) := by
  simp [State.condEqual]

theorem State.condNotEqual_eq (s : State) : s.condNotEqual = decide (s.flagZ = false) := by
  simp [State.condNotEqual]

theorem State.condGreater_eq (s : State) : s.condGreater = decide (s.flagN = s.flagO ∧ s.flagZ = false) := by
  simp [State.condGreater, Bool.beq_eq_decide_eq]

theorem State.condGreaterEq_eq (s : State) : s.condGreaterEq = decide (s.flagN = s.flagO ∨ s.flagZ = true) := by
  simp [State.condGreaterEq, Bool.beq_eq_decide_eq]

theorem State.condAbove_eq (s : State) : s.condAbove = decide (s.flagC = false ∧ s.flagZ = false) := by
  simp [State.condAbove]

theorem State.condAboveEq_eq (s : State) : s.condAboveEq = decide (s.flagC = false ∨ s.flagZ = true) := by
  simp [State.condAboveEq]

theorem State.condLesser_eq (s : State) : s.condLesser = decide (s.flagN ≠ s.flagO) := by
  simp [State.condLesser, bne, Bool.beq_eq_decide_eq]

theorem State.condLesserEq_eq (s : State) : s.condLesserEq = decide (s.flagN ≠ s.flagO ∨ s.flagZ = true) := by
  simp [State.condLesserEq, bne, Bool.beq_eq_decide_eq]

theorem State.condBelow_eq (s : State) : s.condBelow = decide (s.flagC = true) := by
  simp [State.condBelow]

theorem State.condBelowEq_eq (s : State) : s.condBelowEq = decide (s.flagC = true ∨ s.flagZ = true) := by
  simp [State.condBelowEq]

theorem State.condOverflow_eq (s : State) : s.condOverflow = decide (s.flagO = true) := by
  simp [State.condOverflow]

theorem State.condNotOverflow_eq (s : State) : s.condNotOverflow = decide (s.flagO = false) := by
  simp [State.condNotOverflow]

/-! ## The obligation -/

/-- Settles O50: every jump is one of the two shared forms, taken by the condition of its own rule. -/
theorem jumpsComplete : Obligations.JumpsComplete := by
  rintro s _ _ _ _ rfl rfl rfl rfl
  exact ⟨State.jumpsWhen (rfl : true = true),
    State.jumpsWhen s.condEqual_eq,
    State.jumpsWhen s.condNotEqual_eq,
    State.jumpsWhen s.condGreater_eq,
    State.jumpsWhen s.condGreaterEq_eq,
    State.jumpsWhen s.condAbove_eq,
    State.jumpsWhen s.condAboveEq_eq,
    State.jumpsWhen s.condLesser_eq,
    State.jumpsWhen s.condLesserEq_eq,
    State.jumpsWhen s.condBelow_eq,
    State.jumpsWhen s.condBelowEq_eq,
    State.jumpsWhen s.condOverflow_eq,
    State.jumpsWhen s.condNotOverflow_eq⟩

end Sys2Proof.Machine
end

section
/-!
The encoding (30_encoding.md): decoding undoes encoding, the decoder reads exactly the encodings, and their lengths.
-/

namespace Sys2Proof

/-! ## Well-formed operands, by the shape of the check -/

theorem Instr.ref_wf {i : Instr} {r : Ref} (hc : i.check = checkRef r) : i.wf = true ↔ r.wf = true := by
  rw [Instr.wf_iff, hc, checkRef_ok]

theorem Instr.refs_wf {i : Instr} {a b : Ref} (hc : i.check = checkRefs a b) :
    i.wf = true ↔ a.wf = true ∧ b.wf = true := by
  rw [Instr.wf_iff, hc, checkRefs_ok]

theorem Instr.refs3_wf {i : Instr} {a b c : Ref} (hc : i.check = checkRefs3 a b c) :
    i.wf = true ↔ (a.wf = true ∧ b.wf = true) ∧ c.wf = true := by
  rw [Instr.wf_iff, hc, checkRefs3_ok]

theorem Instr.lit_wf {i : Instr} {rd : Ref} {lit : Lit} (hc : i.check = checkLit rd lit) :
    i.wf = true ↔ rd.wf = true ∧ Lit.fits rd lit = true := by
  rw [Instr.wf_iff, hc, checkLit_ok]

/-! ## Unmapped opcodes (R102) -/

theorem decodeOperands_unmapped {op : Byte} (h : 0x60 ≤ op.toNat) (rest : List Byte) :
    decodeOperands op rest =
      if op.toNat < 0x80 then .ok (.unmapped60 (op.extractLsb' 0 5), rest)
      else .ok (.unmapped80 (op.extractLsb' 0 7), rest) := by
  unfold decodeOperands
  split
  case h_97 => rfl
  all_goals omega

theorem toNat_unmapped60 (low : BitVec 5) : (0b011#3 ++ low : BitVec 8).toNat = 0x60 + low.toNat := by
  have := low.isLt
  rw [BitVec.toNat_append, ← Nat.shiftLeft_add_eq_or_of_lt this]; rfl

theorem toNat_unmapped80 (low : BitVec 7) : (0b1#1 ++ low : BitVec 8).toNat = 0x80 + low.toNat := by
  have := low.isLt
  rw [BitVec.toNat_append, ← Nat.shiftLeft_add_eq_or_of_lt this]; rfl

theorem decode_unmapped60 (low : BitVec 5) (rest : List Byte) :
    decode ((0b011#3 ++ low : BitVec 8) :: rest) = .ok (.unmapped60 low, rest) := by
  have hop := toNat_unmapped60 low
  have hlow := low.isLt
  rw [decode, decodeOperands_unmapped (by omega), if_pos (by omega), BitVec.extractLsb'_append_eq_right]

theorem decode_unmapped80 (low : BitVec 7) (rest : List Byte) :
    decode ((0b1#1 ++ low : BitVec 8) :: rest) = .ok (.unmapped80 low, rest) := by
  have hop := toNat_unmapped80 low
  rw [decode, decodeOperands_unmapped (by omega), if_neg (by omega), BitVec.extractLsb'_append_eq_right]

/-- An opcode byte of the first unmapped row is its three fixed bits and the low five (R102). -/
theorem unmapped60_byte {op : Byte} (h : 0x60 ≤ op.toNat) (h' : op.toNat < 0x80) :
    (0b011#3 ++ op.extractLsb' 0 5 : BitVec 8) = op := by
  apply BitVec.eq_of_toNat_eq
  rw [toNat_unmapped60, BitVec.extractLsb'_toNat, Nat.shiftRight_zero]
  omega

/-- An opcode byte of the second unmapped row is its top bit and the low seven (R102). -/
theorem unmapped80_byte {op : Byte} (h : 0x80 ≤ op.toNat) : (0b1#1 ++ op.extractLsb' 0 7 : BitVec 8) = op := by
  have := op.isLt
  apply BitVec.eq_of_toNat_eq
  rw [toNat_unmapped80, BitVec.extractLsb'_toNat, Nat.shiftRight_zero]
  omega

/-! ## Decoding what the encoder writes -/

/-- Settles O1: each format's reader gives back the operands the encoder wrote. -/
theorem decodeEncodeRoundTrip : Obligations.DecodeEncodeRoundTrip := by
  intro i rest h
  cases i with
  | halt | pause | usermode | ireturn | ret | syscall => rfl
  | unmapped60 low => exact decode_unmapped60 low rest
  | unmapped80 low => exact decode_unmapped80 low rest
  | timerLw w | jumpLa w | jequalLa w | jnotequalLa w | jgreaterLa w | jgreatereqLa w | jaboveLa w | jaboveeqLa w
  | jlesserLa w | jlessereqLa w | jbelowLa w | jbeloweqLa w | joverflowLa w | jnotoverflowLa w | callLa w =>
    exact readW_append _ w rest
  | timerRw r | push r | pop r | negate r | notR r | jumpRa r | jequalRa r | jnotequalRa r | jgreaterRa r
  | jgreatereqRa r | jaboveRa r | jaboveeqRa r | jlesserRa r | jlessereqRa r | jbelowRa r | jbeloweqRa r
  | joverflowRa r | jnotoverflowRa r | callRa r =>
    exact readR_append _ r ((Instr.ref_wf rfl).1 h) rest
  | loadLa r w | swapLa r w => exact readRW_append _ r w ((Instr.ref_wf rfl).1 h) rest
  | storeLa w r => exact readWR_append _ w r ((Instr.ref_wf rfl).1 h) rest
  | loadRa a b | storeRa a b | copyRr a b | swapRa a b | addRr a b | addcarryRr a b | subRr a b | subborrowRr a b
  | multRr a b | sdivRr a b | udivRr a b | sremRr a b | uremRr a b | andRr a b | orRr a b | xorRr a b | lshiftRb a b
  | rshiftlRb a b | rshiftaRb a b | lrotRb a b | rrotRb a b | lrotcarryRb a b | rrotcarryRb a b | compareRr a b =>
    obtain ⟨ha, hb⟩ := (Instr.refs_wf rfl).1 h
    exact readRR_append _ a b ha hb rest
  | copyVl rd lit | addVl rd lit | addcarryVl rd lit | subVl rd lit | subborrowVl rd lit | multVl rd lit
  | sdivVl rd lit | udivVl rd lit | sremVl rd lit | uremVl rd lit | andVl rd lit | orVl rd lit | xorVl rd lit
  | compareVl rd lit =>
    obtain ⟨hr, hl⟩ := (Instr.lit_wf rfl).1 h
    exact readRL_append _ hr hl rest
  | lshiftLb rd n | rshiftlLb rd n | rshiftaLb rd n | lrotLb rd n | rrotLb rd n | lrotcarryLb rd n
  | rrotcarryLb rd n =>
    exact readRB_append _ rd n ((Instr.ref_wf rfl).1 h) rest
  | blockcopyLwLaLa len dst src => exact readWWW_append _ len dst src rest
  | blockcopyLwLaRa len dst rsrc => exact readWWR_append _ len dst rsrc ((Instr.ref_wf rfl).1 h) rest
  | blockcopyLwRaLa len rdst src => exact readWRW_append _ len rdst src ((Instr.ref_wf rfl).1 h) rest
  | blockcopyLwRaRa len rdst rsrc =>
    obtain ⟨hd, hs⟩ := (Instr.refs_wf rfl).1 h
    exact readWRR_append _ len rdst rsrc hd hs rest
  | blockcopyRwLaLa rlen dst src => exact readRWW_append _ rlen dst src ((Instr.ref_wf rfl).1 h) rest
  | blockcopyRwLaRa rlen dst rsrc =>
    obtain ⟨hl, hs⟩ := (Instr.refs_wf rfl).1 h
    exact readRWR_append _ rlen dst rsrc hl hs rest
  | blockcopyRwRaLa rlen rdst src =>
    obtain ⟨hl, hd⟩ := (Instr.refs_wf rfl).1 h
    exact readRRW_append _ rlen rdst src hl hd rest
  | blockcopyRwRaRa rlen rdst rsrc =>
    obtain ⟨⟨hl, hd⟩, hs⟩ := (Instr.refs3_wf rfl).1 h
    exact readRRR_append _ rlen rdst rsrc hl hd hs rest

/-! ## What the decoder reads -/

/-- The opcode byte in front of the operands, given by its number. -/
theorem cons_eq_encode {op k : Byte} {i : Instr} {bs rest : List Byte} (henc : encode i ++ rest = k :: bs)
    (hop : op.toNat = k.toNat) : op :: bs = encode i ++ rest := by
  rw [henc, BitVec.eq_of_toNat_eq hop]

theorem decodeOperands_eq_ok {op : Byte} {bs rest : List Byte} {i : Instr}
    (h : decodeOperands op bs = .ok (i, rest)) : i.wf = true ∧ op :: bs = encode i ++ rest := by
  unfold decodeOperands at h
  split at h
  case h_1 hop | h_2 hop | h_5 hop | h_6 hop | h_95 hop | h_96 hop =>
    obtain ⟨rfl, rfl⟩ := Prod.mk.inj (Except.ok.inj h)
    exact ⟨rfl, cons_eq_encode rfl hop⟩
  case h_3 hop | h_65 hop | h_69 hop | h_71 hop | h_73 hop | h_75 hop | h_77 hop | h_79 hop | h_81 hop | h_83 hop
     | h_85 hop | h_87 hop | h_89 hop | h_91 hop | h_93 hop =>
    obtain ⟨w, rfl, rfl⟩ := readW_eq_ok h
    exact ⟨rfl, cons_eq_encode rfl hop⟩
  case h_4 hop | h_15 hop | h_16 hop | h_25 hop | h_44 hop | h_66 hop | h_70 hop | h_72 hop | h_74 hop | h_76 hop
     | h_78 hop | h_80 hop | h_82 hop | h_84 hop | h_86 hop | h_88 hop | h_90 hop | h_92 hop | h_94 hop =>
    obtain ⟨r, rfl, rfl, hr⟩ := readR_eq_ok h
    exact ⟨(Instr.ref_wf rfl).2 hr, cons_eq_encode rfl hop⟩
  case h_7 hop | h_13 hop =>
    obtain ⟨r, w, rfl, rfl, hr⟩ := readRW_eq_ok h
    exact ⟨(Instr.ref_wf rfl).2 hr, cons_eq_encode rfl hop⟩
  case h_9 hop =>
    obtain ⟨w, r, rfl, rfl, hr⟩ := readWR_eq_ok h
    exact ⟨(Instr.ref_wf rfl).2 hr, cons_eq_encode rfl hop⟩
  case h_8 hop | h_10 hop | h_12 hop | h_14 hop | h_27 hop | h_29 hop | h_31 hop | h_33 hop | h_35 hop | h_37 hop
     | h_39 hop | h_41 hop | h_43 hop | h_46 hop | h_48 hop | h_50 hop | h_52 hop | h_54 hop | h_56 hop | h_58 hop
     | h_60 hop | h_62 hop | h_64 hop | h_68 hop =>
    obtain ⟨a, b, rfl, rfl, ha, hb⟩ := readRR_eq_ok h
    exact ⟨(Instr.refs_wf rfl).2 ⟨ha, hb⟩, cons_eq_encode rfl hop⟩
  case h_11 hop | h_26 hop | h_28 hop | h_30 hop | h_32 hop | h_34 hop | h_36 hop | h_38 hop | h_40 hop | h_42 hop
     | h_45 hop | h_47 hop | h_49 hop | h_67 hop =>
    obtain ⟨rd, lit, rfl, rfl, hr, hl⟩ := readRL_eq_ok h
    exact ⟨(Instr.lit_wf rfl).2 ⟨hr, hl⟩, cons_eq_encode rfl hop⟩
  case h_51 hop | h_53 hop | h_55 hop | h_57 hop | h_59 hop | h_61 hop | h_63 hop =>
    obtain ⟨rd, n, rfl, rfl, hr⟩ := readRB_eq_ok h
    exact ⟨(Instr.ref_wf rfl).2 hr, cons_eq_encode rfl hop⟩
  case h_17 hop =>
    obtain ⟨len, dst, src, rfl, rfl⟩ := readWWW_eq_ok h
    exact ⟨rfl, cons_eq_encode rfl hop⟩
  case h_18 hop =>
    obtain ⟨len, dst, rsrc, rfl, rfl, hr⟩ := readWWR_eq_ok h
    exact ⟨(Instr.ref_wf rfl).2 hr, cons_eq_encode rfl hop⟩
  case h_19 hop =>
    obtain ⟨len, rdst, src, rfl, rfl, hr⟩ := readWRW_eq_ok h
    exact ⟨(Instr.ref_wf rfl).2 hr, cons_eq_encode rfl hop⟩
  case h_20 hop =>
    obtain ⟨len, rdst, rsrc, rfl, rfl, hd, hs⟩ := readWRR_eq_ok h
    exact ⟨(Instr.refs_wf rfl).2 ⟨hd, hs⟩, cons_eq_encode rfl hop⟩
  case h_21 hop =>
    obtain ⟨rlen, dst, src, rfl, rfl, hr⟩ := readRWW_eq_ok h
    exact ⟨(Instr.ref_wf rfl).2 hr, cons_eq_encode rfl hop⟩
  case h_22 hop =>
    obtain ⟨rlen, dst, rsrc, rfl, rfl, hl, hs⟩ := readRWR_eq_ok h
    exact ⟨(Instr.refs_wf rfl).2 ⟨hl, hs⟩, cons_eq_encode rfl hop⟩
  case h_23 hop =>
    obtain ⟨rlen, rdst, src, rfl, rfl, hl, hd⟩ := readRRW_eq_ok h
    exact ⟨(Instr.refs_wf rfl).2 ⟨hl, hd⟩, cons_eq_encode rfl hop⟩
  case h_24 hop =>
    obtain ⟨rlen, rdst, rsrc, rfl, rfl, hl, hd, hs⟩ := readRRR_eq_ok h
    exact ⟨(Instr.refs3_wf rfl).2 ⟨⟨hl, hd⟩, hs⟩, cons_eq_encode rfl hop⟩
  case h_97 =>
    have hop : 0x60 ≤ op.toNat := by by_contra hlt; interval_cases op.toNat <;> contradiction
    split at h
    · obtain ⟨rfl, rfl⟩ := Prod.mk.inj (Except.ok.inj h)
      exact ⟨rfl, congrArg (· :: bs) (unmapped60_byte hop ‹_›).symm⟩
    · obtain ⟨rfl, rfl⟩ := Prod.mk.inj (Except.ok.inj h)
      exact ⟨rfl, congrArg (· :: bs) (unmapped80_byte (by omega)).symm⟩

/-- Settles O2: the operands each format's reader returns are those of its bytes. -/
theorem decodeReadsExactEncodings : Obligations.DecodeReadsExactEncodings := by
  intro bs rest i h
  cases bs with
  | nil => cases h
  | cons op bs => exact decodeOperands_eq_ok h

/-! ## Lengths -/

/-- A length is fixed within the bounds of R90, or a variable literal's (R98). -/
theorem Instr.length_cases (i : Instr) :
    (∃ n, i.length = some n ∧ 1 ≤ n ∧ n ≤ 13) ∨ ∃ rd, i.length = vlLength rd := by
  cases i with
  | copyVl rd _ | addVl rd _ | addcarryVl rd _ | subVl rd _ | subborrowVl rd _ | multVl rd _ | sdivVl rd _
  | udivVl rd _ | sremVl rd _ | uremVl rd _ | andVl rd _ | orVl rd _ | xorVl rd _ | compareVl rd _ =>
    exact .inr ⟨rd, rfl⟩
  | _ => exact .inl ⟨_, rfl, by decide, by decide⟩

/-- Of the undefined length two bytes are read (log 22). -/
theorem Instr.length_bounds (i : Instr) : 1 ≤ i.length.getD 2 ∧ i.length.getD 2 ≤ 13 := by
  rcases i.length_cases with ⟨n, hn, low, high⟩ | ⟨rd, h⟩
  · rw [hn]; exact ⟨low, high⟩
  · have := (Machine.Ref.width_bytes rd).2
    rw [h, vlLength]
    split <;> simp only [Option.getD_some, Option.getD_none] <;> omega

theorem vlLength_getD (rd : Ref) : (vlLength rd).getD 2 = 2 + rd.width / 8 := by
  cases rd <;> simp [vlLength, Ref.named]

theorem encode_length {i : Instr} (h : i.wf = true) : (encode i).length = i.length.getD 2 := by
  cases i with
  | copyVl rd lit | addVl rd lit | addcarryVl rd lit | subVl rd lit | subborrowVl rd lit | multVl rd lit
  | sdivVl rd lit | udivVl rd lit | sremVl rd lit | uremVl rd lit | andVl rd lit | orVl rd lit | xorVl rd lit
  | compareVl rd lit =>
    have hfits := Lit.fits_length ((Instr.lit_wf rfl).1 h).2
    rw [Instr.length, vlLength_getD, encode, List.length_cons, List.length_cons, hfits, Nat.add_comm 2]
  | _ => rfl

/-- A list of bytes that an encoding properly extends holds no instruction: the instruction would be another reading of
the same bytes (R98). -/
theorem decode_of_extended {i : Instr} (h : i.wf = true) {bs more : List Byte} (hmore : more ≠ [])
    (henc : bs ++ more = encode i) : decode bs = .error .truncated := by
  cases hd : decode bs with
  | error e => cases e; rfl
  | ok p =>
    obtain ⟨j, rest⟩ := p
    obtain ⟨hj, hbs⟩ := decodeReadsExactEncodings _ _ _ hd
    have read_i : decode (encode i) = .ok (i, []) := by simpa using decodeEncodeRoundTrip i [] h
    have read_j : decode (encode i) = .ok (j, rest ++ more) := by
      rw [← henc, hbs, List.append_assoc]; exact decodeEncodeRoundTrip j _ hj
    rw [read_i, Except.ok.injEq, Prod.mk.injEq] at read_j
    exact absurd (List.append_eq_nil_iff.1 read_j.2.symm).2 hmore

/-- Settles O3. -/
theorem encodedLength : Obligations.EncodedLength := by
  intro i h
  obtain ⟨low, high⟩ := i.length_bounds
  rw [← encode_length h] at low high
  refine ⟨encode_length h, low, high, fun bs hle hne => ?_⟩
  obtain ⟨more, hmore⟩ := hle
  refine decode_of_extended h (fun hnil => hne ?_) hmore
  rw [← hmore, hnil, List.append_nil]

/-- Settles O4: each word is a closed list the decoder evaluates on. -/
theorem sampleEncodingsDecode : Obligations.SampleEncodingsDecode :=
  ⟨rfl, rfl, rfl, rfl, rfl, rfl, rfl, rfl, rfl, rfl, rfl, rfl⟩

end Sys2Proof
end

section
/-!
The step of the CPU's loop (60_exceptions.md R303 to R308; 40_privileged.md R130 to R135): the fetch of an encoded
instruction, the check, the sources' turn, interrupt entry, and the privileged instructions.
-/

namespace Sys2Proof.Machine

/-! ## The fetch of an encoded instruction -/

/-- The first bytes of an encoding fix its length (R98). -/
structure FixesLength (bs : List Byte) : Prop where
  head_le : (formatOf (bs.headD 0)).headBytes ≤ bs.length
  total : bytesToFetch (bs.take (formatOf (bs.headD 0)).headBytes) = bs.length

theorem fixesLength_fixed {op : Byte} {rest : List Byte} (hf : (formatOf op).hasVariableLiteral = false)
    (hb : (formatOf op).bytes = rest.length + 1) : FixesLength (op :: rest) := by
  have hh : (formatOf op).headBytes = 1 := by simp [Format.headBytes, hf]
  exact ⟨by simp [hh], by simp [hh, bytesToFetch, Format.totalBytes, hf, hb]⟩

theorem fixesLength_variable {op : Byte} {rd : Ref} {lit : Lit} (hf : (formatOf op).hasVariableLiteral = true)
    (hr : rd.wf = true) (hl : Lit.fits rd lit = true) : FixesLength (op :: rd.toByte :: lit.bytes) := by
  have hh : (formatOf op).headBytes = 2 := by simp [Format.headBytes, hf]
  refine ⟨by simp [hh], ?_⟩
  simp [hh, bytesToFetch, Format.totalBytes, hf, Ref.ofByte_toByte hr, Lit.fits_length hl]
  omega

theorem formatOf_unmapped {op : Byte} (h : 0x60 ≤ op.toNat) : formatOf op = .n := by
  unfold formatOf
  split
  case h_97 => rfl
  all_goals omega

theorem encode_fixesLength {i : Instr} (h : i.wf = true) : FixesLength (encode i) := by
  cases i with
  | copyVl rd lit | addVl rd lit | addcarryVl rd lit | subVl rd lit | subborrowVl rd lit | multVl rd lit
  | sdivVl rd lit | udivVl rd lit | sremVl rd lit | uremVl rd lit | andVl rd lit | orVl rd lit | xorVl rd lit
  | compareVl rd lit =>
    obtain ⟨hr, hl⟩ := (Instr.lit_wf rfl).1 h
    exact fixesLength_variable rfl hr hl
  | unmapped60 low =>
    have hf := formatOf_unmapped (op := 0b011#3 ++ low) (by rw [toNat_unmapped60]; omega)
    exact fixesLength_fixed (by rw [hf]; rfl) (by rw [hf]; rfl)
  | unmapped80 low =>
    have hf := formatOf_unmapped (op := 0b1#1 ++ low) (by rw [toNat_unmapped80]; omega)
    exact fixesLength_fixed (by rw [hf]; rfl) (by rw [hf]; rfl)
  | _ => exact fixesLength_fixed rfl rfl

/-- The first n of m bytes the fetch reaches. -/
theorem State.fetchFrom_take {s : State} {m n : Nat} {pl : List Word} {bs : List Byte} (hn : n ≤ m)
    (h : s.Reaches .fetch (addrs s.pc m) pl) (hr : s.Readable pl) (hb : s.bytesAt pl = bs) :
    s.fetchFrom 0 n = .ok (bs.take n) := by
  obtain ⟨d, rfl⟩ := Nat.exists_eq_add_of_le hn
  rw [addrs_append] at h
  obtain ⟨p, p', rfl, h1, -⟩ := State.reaches_append.1 h
  have hpc : s.pc + BitVec.ofNat 32 0 = s.pc := BitVec.add_zero _
  have hlen : (s.bytesAt p).length = n := by simpa [State.bytesAt] using h1.length
  rw [State.fetchFrom_of (by rwa [hpc]) (State.readable_append.1 hr).1, ← hb, State.bytesAt_append, ← hlen,
    List.take_left']
  rfl

/-- The fetch reads the instruction whose bytes lie at `pc` (R71). -/
theorem State.fetch_of {s : State} {i : Instr} {pl : List Word} (hi : i.wf = true)
    (h : s.Reaches .fetch (addrs s.pc (encode i).length) pl) (hr : s.Readable pl) (hb : s.bytesAt pl = encode i) :
    s.fetch = .ok i := by
  obtain ⟨hle, htotal⟩ := encode_fixesLength hi
  have hlen := (Nat.zero_lt_one.trans_le ((encodedLength i hi).2.1))
  have hopcode : ((encode i).take 1).headD 0 = (encode i).headD 0 := by cases encode i <;> rfl
  have hdec : decode (encode i) = .ok (i, []) := by simpa using decodeEncodeRoundTrip i [] hi
  simp only [State.fetch, State.fetchFrom_take hlen h hr hb, bind, Except.bind, hopcode,
    State.fetchFrom_take hle h hr hb, htotal, State.fetchFrom_take le_rfl h hr hb, List.take_length, hdec]

/-- A byte of the instruction at `pc` whose translation faults stops the fetch (R71, R312). -/
theorem State.fetch_of_later_fault {s : State} {i : Instr} {k : Nat} {pl : List Word} (hi : i.wf = true)
    (hk : k < (encode i).length) (h : s.Reaches .fetch (addrs s.pc k) pl) (hr : s.Readable pl)
    (hb : s.bytesAt pl = (encode i).take k) (hf : s.Faults .fetch [s.pc + BitVec.ofNat 32 k]) :
    s.fetch = .error (.raise .pageFault) := by
  obtain ⟨hle, htotal⟩ := encode_fixesLength hi
  have hpc : s.pc + BitVec.ofNat 32 0 = s.pc := BitVec.add_zero _
  have read (n : Nat) (hn : n ≤ k) : s.fetchFrom 0 n = .ok ((encode i).take n) := by
    rw [State.fetchFrom_take hn h hr hb, List.take_take, Nat.min_eq_left hn]
  have stop (n : Nat) (hn : k < n) : s.fetchFrom 0 n = .error (.raise .pageFault) :=
    State.fetchFrom_of_faults (j := 0) hn (by rwa [hpc]) hr (by rwa [Nat.zero_add])
  have hopcode : ((encode i).take 1).headD 0 = (encode i).headD 0 := by cases encode i <;> rfl
  rcases Nat.lt_or_ge k 1 with h1 | h1
  · simp only [State.fetch, stop 1 h1, bind, Except.bind]
  rcases Nat.lt_or_ge k (formatOf ((encode i).headD 0)).headBytes with h2 | h2
  · simp only [State.fetch, read 1 h1, bind, Except.bind, hopcode, stop _ h2]
  · simp only [State.fetch, read 1 h1, bind, Except.bind, hopcode, read _ h2, htotal, stop _ hk]

/-! ## The step, by what the check chooses -/

theorem step_runs {s : State} (hh : s.halted = false) (hp : s.paused = false) (hc : s.sample.choose = none) :
    step s = runInstruction s.sample := by
  simp [step, hh, checkAndRun, hc, hp]

theorem step_waits {s : State} (hh : s.halted = false) (hp : s.paused = true) (hc : s.sample.choose = none) :
    step s = .next s.sample := by
  simp [step, hh, checkAndRun, hc, hp]

theorem step_services {s : State} {n : Irq} (hh : s.halted = false) (hc : s.sample.choose = some n) :
    step s = settle none s.sample (s.sample.service n) := by
  simp [step, hh, checkAndRun, hc]

theorem runInstruction_of_fetch {s : State} {i : Instr} (h : s.fetch = .ok i) : runInstruction s = exec i s := by
  simp [runInstruction, runFetched, h]

theorem State.readable_sample {s : State} {l : List Word} : s.sample.Readable l ↔ s.Readable l :=
  State.readable_congr rfl l

theorem State.allRam_sample {s : State} {l : List Word} : s.sample.AllRam l ↔ s.AllRam l :=
  State.allRam_congr rfl l

/-- Settles O5: the fetch gives the instruction of the bytes at `pc`. -/
theorem stepRunsDecodedInstruction : Obligations.StepRunsDecodedInstruction := by
  intro s i pl hh hp hc hi hreach hread hbytes
  rw [step_runs hh hp hc]
  exact runInstruction_of_fetch (State.fetch_of hi hreach (State.readable_sample.2 hread) hbytes)

/-- Settles O6. -/
theorem haltedStopsPausedWaits : Obligations.HaltedStopsPausedWaits :=
  ⟨fun s hh => by simp [step, hh], fun _ hh hp hc => step_waits hh hp hc⟩

/-- Settles O7: the order of priority descends, so the first pending interrupt is the highest. -/
theorem checkChoosesHighest : Obligations.CheckChoosesHighest := by
  intro s
  refine ⟨fun n => ?_, ?_⟩
  · simp only [State.choose_eq_some, State.pending_iff, and_assoc, and_imp]
  · simp only [State.choose_eq_none, ← State.pending_iff, Bool.not_eq_true]

/-! ## The sources -/

/-- Settles O8: which latch each source sets, and where the devices' stores arrive. -/
theorem sourcesLatchAndDevicesStore : Obligations.SourcesLatchAndDevicesStore := by
  intro s
  refine ⟨rfl, ?_, ?_, ?_, ?_, fun n hk ha hb ht => ?_, fun hinv p => ⟨fun hp => ?_, fun hw => ?_, ?_⟩⟩
  · simp [latchArrivals, Latches.get]
  · simp [latchArrivals, Latches.get]
  · simp [latchArrivals, Latches.get]
  · simp [latchArrivals, Latches.get]
  · cases n <;> first | rfl | contradiction
  · exact State.sample_not_ram hinv hp
  · exact Memory.read_deviceWrites_none _ _ _ p hinv hw
  · intro hp before after b hwrites hafter
    rw [State.sample_mem, hwrites]
    exact Memory.read_deviceWrites_last _ _ before after p b hinv hp hafter

/-! ## Interrupt entry -/

/-- The entry of R306 to R308, of a service that completes. -/
theorem State.afterEntry_entered {s : State} (hs : s.Inv) (n : Irq) :
    s.AfterEntry { s.entered n with
      paused := false, pc := (s.entered n).valueAt 32 (BitVec.ofNat 32 (4 * n.number)) } n := by
  obtain ⟨hframe, hout, -⟩ := State.entryMem_frame hs
  exact ⟨rfl, hframe, hout⟩

theorem State.service_afterEntry {s : State} (hs : s.Inv) (n : Irq) (hf : s.AllRam (addrs (s.kspr - 8) 8))
    (hv : s.Readable (addrs (BitVec.ofNat 32 (4 * n.number)) 4)) : ∃ t, s.service n = .ok t ∧ s.AfterEntry t n :=
  ⟨_, State.service_of n hf hv, State.afterEntry_entered hs n⟩

theorem step_afterEntry {s : State} {n : Irq} (hs : s.Inv) (hh : s.halted = false) (hc : s.sample.choose = some n)
    (hf : s.AllRam (addrs (s.kspr - 8) 8)) (hv : s.Readable (addrs (BitVec.ofNat 32 (4 * n.number)) 4)) :
    ∃ t, step s = .next t ∧ s.sample.AfterEntry t n := by
  obtain ⟨t, hservice, ht⟩ := State.service_afterEntry (State.sample_inv hs) n (State.allRam_sample.2 hf)
    (State.readable_sample.2 hv)
  exact ⟨t, by rw [step_services hh hc, hservice, settle_ok], ht⟩

/-- Settles O9. -/
theorem interruptEntryBuildsFrame : Obligations.InterruptEntryBuildsFrame := by
  intro s n hs hh hc hf hv
  exact step_afterEntry hs hh hc hf hv

/-! ## The return from an interrupt -/

theorem exec_ireturn_kernel {s : State} (hm : s.mode = .kernel) (hr : s.Readable (addrs s.kspr 8)) :
    exec .ireturn s = .next { s with
      imr := s.valueAt 16 s.kspr, pc := s.valueAt 32 (s.kspr + 2),
      flags := (s.valueAt 16 (s.kspr + 6)).setWidth 15, kspr := s.kspr + 8,
      mode := if (s.valueAt 16 (s.kspr + 6)).msb then .kernel else .user } := by
  show settle (some 1) s (s.needKernel >>= fun _ => s.interruptReturn) = _
  rw [State.needKernel_kernel hm]
  exact congrArg (settle (some 1) s) (State.interruptReturn_kernel hm hr)

/-- Settles O11. -/
theorem ireturnCompletes : Obligations.IreturnCompletes := fun _ hm hr => exec_ireturn_kernel hm hr

/-- A step that services goes on from the state of the entry, its vector read. -/
theorem step_eq_entered {s t : State} {n : Irq} (hh : s.halted = false) (hc : s.sample.choose = some n)
    (hf : s.AllRam (addrs (s.kspr - 8) 8)) (h : step s = .next t) :
    ∃ handler, t = { s.sample.entered n with paused := false, pc := handler } := by
  rw [step_services hh hc, State.service_of_ram n (State.allRam_sample.2 hf)] at h
  cases hr : (s.sample.entered n).memRead 32 (BitVec.ofNat 32 (4 * n.number)) with
  | ok handler =>
    rw [hr] at h
    exact ⟨handler, (Host.Outcome.next.inj h).symm⟩
  | error e =>
    rw [hr] at h
    rcases settle_eq_next h with h' | ⟨c, h', -⟩
    · cases h'
    · obtain rfl := Except.error.inj h'
      cases (State.memRead_eq_raise hr : Mode.kernel = .user)

/-- The three values a frame holds, read where IRETURN pops them (R307, R134). -/
theorem State.valueAt_frame {t : State} {a : Word} {imr fl : BitVec 16} {pc : Word}
    (h : t.bytesAt (addrs a 8) = toBytes imr ++ toBytes pc ++ toBytes fl) :
    t.valueAt 16 a = imr ∧ t.valueAt 32 (a + 2) = pc ∧ t.valueAt 16 (a + 6) = fl := by
  rw [addrs_frame, State.bytesAt_append, State.bytesAt_append, List.append_assoc] at h
  obtain ⟨himr, h⟩ := List.append_inj h (by simp [State.bytesAt])
  obtain ⟨hpc, hfl⟩ := List.append_inj h (by simp [State.bytesAt])
  refine ⟨?_, ?_, ?_⟩
  · rw [← ofBytes_toBytes rfl imr, ← himr]; rfl
  · rw [← ofBytes_toBytes rfl pc, ← hpc]; rfl
  · rw [← ofBytes_toBytes rfl fl, ← hfl]; rfl

/-- IRETURN in the state of an entry, its vector read: what the entry pushed comes back. -/
theorem exec_ireturn_entered {s : State} (hs : s.Inv) (n : Irq) (handler : Word)
    (hf : s.AllRam (addrs (s.kspr - 8) 8)) :
    exec .ireturn { s.entered n with paused := false, pc := handler } =
      .next { s with latch := s.latch.set n false, paused := false, mem := s.entryMem } := by
  obtain ⟨hframe, -, -⟩ := State.entryMem_frame hs
  obtain ⟨himr, hpc, hfl⟩ := State.valueAt_frame
    (t := { s.entered n with paused := false, pc := handler }) (a := s.kspr - 8) hframe
  have hkspr : (s.kspr - 8 + 8 : Word) = s.kspr := BitVec.sub_add_cancel _ _
  have hmode : (if decide (s.mode = .kernel) = true then Mode.kernel else .user) = s.mode := by cases s.mode <;> rfl
  rw [exec_ireturn_kernel rfl hf.readable]
  simp only [State.entered] at himr hpc hfl ⊢
  simp only [himr, hpc, hfl, hkspr, State.image_flags, State.image_msb, hmode]

/-- Settles O10. -/
theorem entryThenReturnRestores : Obligations.EntryThenReturnRestores := by
  intro s t n hs hh hc hf hstep
  obtain ⟨handler, rfl⟩ := step_eq_entered hh hc hf hstep
  exact exec_ireturn_entered (State.sample_inv hs) n handler (State.allRam_sample.2 hf)

/-! ## SYSCALL (44_flow_control.md R277) -/

theorem exec_syscall (s : State) :
    exec .syscall s = .next { s with latch := { s.latch with syscall := true }, pc := s.pc + 1 } := rfl

/-- Where nothing but interrupt 0 can be pending, its own latch and IMR bit decide the check (R304). -/
theorem State.choose_syscall {s : State} (hl : s.latch.syscall = true)
    (hothers : ∀ k : Irq, k ≠ .syscall → ¬(s.imr.getLsbD k.number = true ∧ s.latch.get k = true)) :
    s.choose = if s.imr.getLsbD 0 then some .syscall else none := by
  have hpending (k : Irq) : s.pending k = true ↔ k = .syscall ∧ s.imr.getLsbD 0 = true := by
    rw [State.pending_iff]
    constructor
    · intro hk
      obtain rfl : k = .syscall := by
        by_contra hne
        exact hothers k hne hk
      exact ⟨rfl, hk.1⟩
    · rintro ⟨rfl, henabled⟩
      exact ⟨henabled, hl⟩
  split
  · rename_i henabled
    rw [State.choose_eq_some]
    exact ⟨(hpending _).2 ⟨rfl, henabled⟩, fun k hk => by rw [((hpending k).1 hk).1]⟩
  · rename_i hmasked
    rw [State.choose_eq_none]
    exact fun k => by rw [← Bool.not_eq_true, hpending]; exact fun hk => hmasked hk.2

/-! ## Reset -/

/-- Settles O54. -/
theorem resetState : Obligations.ResetState := by
  refine ⟨rfl, rfl, fun n => ?_, rfl, rfl, rfl, rfl⟩
  cases n <;> rfl

/-! ## The other privileged instructions -/

/-- USERMODE pops its target from the kernel stack (R133). -/
theorem exec_usermode_kernel {s : State} (hm : s.mode = .kernel) (hr : s.Readable (addrs s.kspr 4)) :
    exec .usermode s = .next { s with
      pc := s.valueAt 32 s.kspr, kspr := s.kspr + 4, flags := 0, mode := .user } := by
  have hpop := State.pop_kernel hm 32 hr
  show settle (some 1) s (s.needKernel >>= fun _ => s.pop 32 >>= _) = _
  rw [State.needKernel_kernel hm, hpop]
  rfl

/-- Settles O12. -/
theorem kernelInstructionsComplete : Obligations.KernelInstructionsComplete := by
  intro s hm
  have checked := State.needKernel_kernel hm
  refine ⟨?_, ?_, fun ms => ?_, fun i => ?_, exec_usermode_kernel hm⟩
  · show completes (some 1) s (s.needKernel >>= _) = _
    rw [checked]; rfl
  · show completes (some 1) s (s.needKernel >>= _) = _
    rw [checked]; rfl
  · show completes (some 5) s (s.needKernel >>= _) = _
    rw [checked]; rfl
  · show completes (some 2) s (s.needKernel >>= fun _ => need (s.legal .address (.r i)) >>= _) = _
    rw [checked, State.legal_address_r, ← State.addressIn_r]; rfl

/-- An instruction whose first check fails raises IllegalOperation and does nothing else (30_encoding.md R104). -/
theorem settle_stopped (n : Nat) (s : State) : settle (some n) s (.error (.raise .illegalOperation)) =
    .next (s.trapped .illegalOperation n) := by
  rw [settle_raise, State.raise_some (by decide)]; rfl

theorem settle_needKernel_user {s : State} (hu : s.mode = .user) (n : Nat) (f : Unit → Exec State) :
    settle (some n) s (s.needKernel >>= f) = .next (s.trapped .illegalOperation n) := by
  rw [State.needKernel_user hu]; exact settle_stopped n s

theorem completes_needKernel_user {s : State} (hu : s.mode = .user) (n : Nat) (f : Unit → Exec State) :
    completes (some n) s (s.needKernel >>= f) = .next (s.trapped .illegalOperation n) := by
  rw [State.needKernel_user hu]; exact settle_stopped n s

/-- Settles O13: the privilege check comes first, and an unmapped opcode has nothing else. -/
theorem privilegedAndUnmappedOpcodesTrap : Obligations.PrivilegedAndUnmappedOpcodesTrap :=
  ⟨fun _ hu => ⟨completes_needKernel_user hu 1 _, completes_needKernel_user hu 1 _,
      fun _ => completes_needKernel_user hu 5 _, fun _ => completes_needKernel_user hu 2 _,
      settle_needKernel_user hu 1 _, settle_needKernel_user hu 1 _⟩,
    fun s => ⟨fun _ => settle_stopped 1 s, fun _ => settle_stopped 1 s⟩⟩

end Sys2Proof.Machine
end

section
/-!
What an instruction may change: every instruction but SYSCALL and the privileged ones ends as `State.Ends` says, with at
most one latch set, for a cause the spec names; those are said apart. From it the invariants of every step (20_memory.md R68; 10_state.md
R36, R38, R39; 60_exceptions.md R308, R310 to R313, R318, R319).
-/

namespace Sys2Proof.Machine

/-! ## Causes over the memory the instruction finds -/

theorem State.mayRaise_readOnly {s : State} {i : Instr} {l : List Word} (hl : ∀ v ∈ l, v ∈ s.storesTo i)
    (h : s.WriteRefused l) : s.MayRaise i .illegalOperation :=
  State.mayRaise_refused .start hl h

theorem State.body_raise {s : State} {A : Cause → Prop} {c : Cause} (h : A c) : s.Body A (.error (.raise c)) :=
  ⟨fun _ hok => (nomatch hok), fun _ hc => by cases hc; exact h⟩

/-! ## The stack instructions -/

/-- PUSH (41_data_movement.md R156). -/
theorem State.ends_push {s t : State} {rr : Ref} (h : exec (.push rr) s = .next t) :
    s.Ends (s.MayRaise (.push rr)) t := by
  refine State.Body.completes (State.body_need (State.illegal_operand (List.mem_singleton.2 rfl)) fun _ => ?_) h
  refine ⟨fun u hu => ((s.quiet_setSp _).trans (State.quiet_memWrite hu)).ends, fun c hc => ?_⟩
  refine State.memWrite_cause (fun hf => ?_) (fun hr => ?_) hc
  · rw [State.faults_setSp, State.sp_setSp] at hf
    exact State.mayRaise_write hf
  · rw [State.writeRefused_setSp, State.sp_setSp] at hr
    exact State.mayRaise_readOnly (fun _ => id) hr

/-- POP (41_data_movement.md R157). -/
theorem State.ends_pop {s t : State} {rr : Ref} (h : exec (.pop rr) s = .next t) :
    s.Ends (s.MayRaise (.pop rr)) t := by
  refine State.Body.completes (State.body_need (State.illegal_operand (List.mem_singleton.2 rfl)) fun hl =>
    State.body_bind (fun c hc => ?_) fun v _ => State.body_ok ?_) h
  · obtain ⟨rfl, hf⟩ := State.memRead_raises hc
    exact State.mayRaise_read hf
  · exact (State.quiet_setX (State.legal_not_privileged hl) v).trans (State.quiet_setSp _ _)

/-! ## BLOCKCOPY in its eight forms -/

theorem State.loadsFrom_blockcopy {s : State} {i : Instr} {len dst src : Word}
    (h : s.blockcopyOf i = some (len, dst, src)) : s.loadsFrom i = addrs src len.toNat := by
  unfold State.loadsFrom
  split
  case h_9 => rw [h]
  all_goals cases h

theorem State.storesTo_blockcopy {s : State} {i : Instr} {len dst src : Word}
    (h : s.blockcopyOf i = some (len, dst, src)) : s.storesTo i = addrs dst len.toNat := by
  unfold State.storesTo
  split
  case h_8 => rw [h]
  all_goals cases h

theorem State.ends_blockcopy {s t : State} {i : Instr} {bytes : Nat} {legal : Bool} {len dst src : Word}
    (hillegal : legal = false → s.MayRaise i .illegalOperation)
    (hi : legal = true → s.blockcopyOf i = some (len, dst, src))
    (h : settle (some bytes) s (need legal >>= fun _ => s.blockcopy bytes len dst src) = .next t) :
    s.Ends (s.MayRaise i) t :=
  State.Body.settle (State.body_need hillegal fun hl =>
    State.body_blockcopy bytes (hi hl) (State.loadsFrom_blockcopy (hi hl)) (State.storesTo_blockcopy (hi hl))) h

/-! ## Every instruction but SYSCALL and the privileged ones -/

theorem exec_ends {i : Instr} {s t : State} (hp : ¬IsPrivileged i) (hsys : i ≠ .syscall) (h : exec i s = .next t) :
    s.Ends (s.MayRaise i) t := by
  cases i with
  | halt | pause | timerLw _ | timerRw _ | usermode | ireturn => exact absurd (by simp [IsPrivileged]) hp
  | syscall => exact absurd rfl hsys
  | loadLa rr a =>
    exact State.Body.completes (State.body_need (State.illegal_operand (List.mem_singleton.2 rfl)) fun hl =>
      State.body_loadInto hl a (State.mayRaise_read (i := .loadLa rr a))) h
  | loadRa rr ra =>
    exact State.Body.completes (State.body_need (State.illegal_operands (by simp [refsOf]) (by simp [refsOf])) fun hl =>
      State.body_loadInto (Bool.and_eq_true_iff.1 hl).1 _ (State.mayRaise_read (i := .loadRa rr ra))) h
  | storeLa a rr =>
    exact State.Body.completes (State.body_need (State.illegal_operand (List.mem_singleton.2 rfl)) fun _ =>
      State.body_storeFrom (State.mayRaise_write (i := .storeLa a rr)) (State.mayRaise_readOnly (i := .storeLa a rr) fun _ => id)) h
  | storeRa ra rr =>
    exact State.Body.completes (State.body_need (State.illegal_operands (by simp [refsOf]) (by simp [refsOf])) fun _ =>
      State.body_storeFrom (State.mayRaise_write (i := .storeRa ra rr)) (State.mayRaise_readOnly (i := .storeRa ra rr) fun _ => id)) h
  | copyVl rd lit =>
    exact State.Body.completes (State.body_need (State.illegal_operand (List.mem_singleton.2 rfl)) fun hl =>
      State.body_ok (State.quiet_setX (State.legal_not_privileged hl) _)) h
  | copyRr rd rs =>
    exact State.Body.completes (State.body_need (State.illegal_operands (by simp [refsOf]) (by simp [refsOf])) fun hl =>
      State.body_need (fun hw => .lengths rd rs rfl (by simpa [widthsMatch] using hw)) fun _ =>
        State.body_ok (State.quiet_copyInto (Bool.and_eq_true_iff.1 hl).1)) h
  | swapLa rr a =>
    exact State.Body.completes (State.body_need (State.illegal_operand (List.mem_singleton.2 rfl)) fun hl =>
      State.body_swapWith hl (State.mayRaise_read (i := .swapLa rr a)) (State.mayRaise_write (i := .swapLa rr a))
        (State.mayRaise_readOnly (i := .swapLa rr a) fun _ => id)) h
  | swapRa rr ra =>
    exact State.Body.completes (State.body_need (State.illegal_operands (by simp [refsOf]) (by simp [refsOf])) fun hl =>
      State.body_swapWith (Bool.and_eq_true_iff.1 hl).1 (State.mayRaise_read (i := .swapRa rr ra)) (State.mayRaise_write (i := .swapRa rr ra))
        (State.mayRaise_readOnly (i := .swapRa rr ra) fun _ => id)) h
  | push rr => exact State.ends_push h
  | pop rr => exact State.ends_pop h
  | blockcopyLwLaLa len dst src => exact State.ends_blockcopy (legal := true) (fun hl => nomatch hl) (fun _ => rfl) h
  | blockcopyLwLaRa len dst rsrc =>
    refine State.ends_blockcopy (State.illegal_operand (List.mem_singleton.2 rfl)) (fun hl => ?_) h
    obtain ⟨c, rfl⟩ := State.legal_address hl
    rw [State.addressIn_r]; rfl
  | blockcopyLwRaLa len rdst src =>
    refine State.ends_blockcopy (State.illegal_operand (List.mem_singleton.2 rfl)) (fun hl => ?_) h
    obtain ⟨b, rfl⟩ := State.legal_address hl
    rw [State.addressIn_r]; rfl
  | blockcopyLwRaRa len rdst rsrc =>
    refine State.ends_blockcopy (State.illegal_operands (by simp [refsOf]) (by simp [refsOf])) (fun hl => ?_) h
    obtain ⟨hd, hs⟩ := Bool.and_eq_true_iff.1 hl
    obtain ⟨b, rfl⟩ := State.legal_address hd
    obtain ⟨c, rfl⟩ := State.legal_address hs
    rw [State.addressIn_r, State.addressIn_r]; rfl
  | blockcopyRwLaLa rlen dst src =>
    refine State.ends_blockcopy (State.illegal_operand (List.mem_singleton.2 rfl)) (fun hl => ?_) h
    obtain ⟨a, rfl⟩ := State.legal_address hl
    rw [State.addressIn_r]; rfl
  | blockcopyRwLaRa rlen dst rsrc =>
    refine State.ends_blockcopy (State.illegal_operands (by simp [refsOf]) (by simp [refsOf])) (fun hl => ?_) h
    obtain ⟨hlen, hs⟩ := Bool.and_eq_true_iff.1 hl
    obtain ⟨a, rfl⟩ := State.legal_address hlen
    obtain ⟨c, rfl⟩ := State.legal_address hs
    rw [State.addressIn_r, State.addressIn_r]; rfl
  | blockcopyRwRaLa rlen rdst src =>
    refine State.ends_blockcopy (State.illegal_operands (by simp [refsOf]) (by simp [refsOf])) (fun hl => ?_) h
    obtain ⟨hlen, hd⟩ := Bool.and_eq_true_iff.1 hl
    obtain ⟨a, rfl⟩ := State.legal_address hlen
    obtain ⟨b, rfl⟩ := State.legal_address hd
    rw [State.addressIn_r, State.addressIn_r]; rfl
  | blockcopyRwRaRa rlen rdst rsrc =>
    refine State.ends_blockcopy (fun hl => ?_) (fun hl => ?_) h
    · rcases Bool.and_eq_false_iff.1 hl with hl | hl
      · exact State.illegal_operands (by simp [refsOf]) (by simp [refsOf]) hl
      · exact State.illegal_operand (by simp [refsOf]) hl
    · obtain ⟨hl, hs⟩ := Bool.and_eq_true_iff.1 hl
      obtain ⟨hlen, hd⟩ := Bool.and_eq_true_iff.1 hl
      obtain ⟨a, rfl⟩ := State.legal_address hlen
      obtain ⟨b, rfl⟩ := State.legal_address hd
      obtain ⟨c, rfl⟩ := State.legal_address hs
      rw [State.addressIn_r, State.addressIn_r, State.addressIn_r]; rfl
  | negate rd =>
    exact State.Body.completes (State.body_need (State.illegal_operand (List.mem_singleton.2 rfl)) fun hl =>
      State.body_ok (State.quiet_negateIn hl)) h
  | notR rd =>
    exact State.Body.completes (State.body_need (State.illegal_operand (List.mem_singleton.2 rfl)) fun hl =>
      State.body_ok (State.quiet_writeAlu (State.legal_not_privileged hl) _)) h
  | addVl rd lit | subVl rd lit | multVl rd lit =>
    refine State.ends_arithmeticVl (d := false) ?_ (List.mem_singleton.2 rfl) (fun _ hd => nomatch hd) h
    exact IntOp.raises_of_ok false fun _ _ _ => ⟨_, rfl⟩
  | sdivVl rd lit | sremVl rd lit =>
    refine State.ends_arithmeticVl (d := true) ?_ (List.mem_singleton.2 rfl)
      (fun hf _ hb => ⟨rd, hf, .inl ⟨lit, by simp, hb⟩⟩) h
    exact IntOp.raises_dividing _
  | addRr rd rs | subRr rd rs | multRr rd rs =>
    refine State.ends_arithmeticRr (d := false) ?_ (by simp [refsOf]) (by simp [refsOf]) rfl rfl
      (fun _ hd => nomatch hd) h
    exact IntOp.raises_of_ok false fun _ _ _ => ⟨_, rfl⟩
  | sdivRr rd rs | sremRr rd rs =>
    refine State.ends_arithmeticRr (d := true) ?_ (by simp [refsOf]) (by simp [refsOf]) rfl rfl
      (fun hf _ hw hb => ⟨rd, hf, .inr ⟨rs, by simp, hw, hb⟩⟩) h
    exact IntOp.raises_dividing _
  | addcarryVl rd lit | subborrowVl rd lit | andVl rd lit | orVl rd lit | xorVl rd lit =>
    refine State.ends_integerVl (d := false) ?_ (List.mem_singleton.2 rfl) (fun _ hd => nomatch hd) h
    exact IntOp.raises_of_ok false fun _ _ _ => ⟨_, rfl⟩
  | udivVl rd lit | uremVl rd lit =>
    refine State.ends_integerVl (d := true) ?_ (List.mem_singleton.2 rfl)
      (fun hf _ hb => ⟨rd, hf, .inl ⟨lit, by simp, hb⟩⟩) h
    exact IntOp.raises_dividing _
  | addcarryRr rd rs | subborrowRr rd rs | andRr rd rs | orRr rd rs | xorRr rd rs =>
    refine State.ends_integerRr (d := false) ?_ (by simp [refsOf]) (by simp [refsOf]) rfl (fun _ hd => nomatch hd) h
    exact IntOp.raises_of_ok false fun _ _ _ => ⟨_, rfl⟩
  | udivRr rd rs | uremRr rd rs =>
    refine State.ends_integerRr (d := true) ?_ (by simp [refsOf]) (by simp [refsOf]) rfl
      (fun hf _ hw hb => ⟨rd, hf, .inr ⟨rs, by simp, hw, hb⟩⟩) h
    exact IntOp.raises_dividing _
  | lshiftLb rd n | rshiftlLb rd n | rshiftaLb rd n | lrotLb rd n | rrotLb rd n =>
    exact State.ends_shiftLb (List.mem_singleton.2 rfl) h
  | lrotcarryLb rd n =>
    exact State.ends_shiftLb (op := fun _ a n => lrotcarryW a s.flagC n) (List.mem_singleton.2 rfl) h
  | rrotcarryLb rd n =>
    exact State.ends_shiftLb (op := fun _ a n => rrotcarryW a s.flagC n) (List.mem_singleton.2 rfl) h
  | lshiftRb rd rb | rshiftlRb rd rb | rshiftaRb rd rb | lrotRb rd rb | rrotRb rd rb =>
    exact State.ends_shiftRb (by simp [refsOf]) (by simp [refsOf]) h
  | lrotcarryRb rd rb =>
    exact State.ends_shiftRb (op := fun _ a n => lrotcarryW a s.flagC n) (by simp [refsOf]) (by simp [refsOf]) h
  | rrotcarryRb rd rb =>
    exact State.ends_shiftRb (op := fun _ a n => rrotcarryW a s.flagC n) (by simp [refsOf]) (by simp [refsOf]) h
  | jumpLa a | jequalLa a | jnotequalLa a | jgreaterLa a | jgreatereqLa a | jaboveLa a | jaboveeqLa a | jlesserLa a
  | jlessereqLa a | jbelowLa a | jbeloweqLa a | joverflowLa a | jnotoverflowLa a => exact State.ends_jumpLiteral h
  | jumpRa ra | jequalRa ra | jnotequalRa ra | jgreaterRa ra | jgreatereqRa ra | jaboveRa ra | jaboveeqRa ra
  | jlesserRa ra | jlessereqRa ra | jbelowRa ra | jbeloweqRa ra | joverflowRa ra | jnotoverflowRa ra =>
    exact State.ends_jumpRegister (List.mem_singleton.2 rfl) h
  | compareVl r1 lit =>
    exact State.Body.completes (State.body_need (State.illegal_operand (List.mem_singleton.2 rfl)) fun _ =>
      State.body_ok (s.quiet_compareWith r1 _)) h
  | compareRr r1 r2 =>
    exact State.Body.completes (State.body_bind
      (fun _ => State.checkRr_raises (by simp [refsOf]) (by simp [refsOf]) rfl rfl) fun _ _ =>
        State.body_ok (s.quiet_compareWith r1 _)) h
  | callLa a => exact State.Body.settle (State.body_callTo 5 a (.inl ⟨a, rfl⟩) rfl rfl) h
  | callRa ra =>
    exact State.Body.settle (State.body_need (State.illegal_operand (List.mem_singleton.2 rfl)) fun _ =>
      State.body_callTo 2 _ (.inr ⟨ra, rfl⟩) rfl rfl) h
  | ret => exact State.Body.settle (s.body_returnFromCall (State.mayRaise_read (i := .ret))) h
  | unmapped60 low => exact State.Body.settle (State.body_raise (c := .illegalOperation) (.unmapped (.inl ⟨low, rfl⟩))) h
  | unmapped80 low => exact State.Body.settle (State.body_raise (c := .illegalOperation) (.unmapped (.inr ⟨low, rfl⟩))) h

/-! ## The privileged instructions -/

theorem State.pop_kernel_readable {s u : State} {w : Nat} {v : BitVec w} (hm : s.mode = .kernel)
    (h : s.pop w = .ok (v, u)) : s.Readable (addrs s.kspr (w / 8)) ∧ u = { s with kspr := s.kspr + BitVec.ofNat 32 (w / 8) } := by
  obtain ⟨hread, rfl⟩ := State.pop_eq_ok h
  obtain ⟨pl, hreach, hpl, -⟩ := State.memRead_eq_ok.1 hread
  rw [State.reaches_kernel hm, State.sp_kernel s hm] at hreach
  rw [State.setSp_kernel s hm, State.sp_kernel s hm]
  exact ⟨hreach ▸ hpl, rfl⟩

theorem State.pop_kernel_raises {s : State} {w : Nat} {c : Cause} (hm : s.mode = .kernel) :
    s.pop w ≠ .error (.raise c) := fun h => by
  have hu := (State.pop_raises h).2.1
  rw [hm] at hu; cases hu

/-- An IRETURN that answers a next state in kernel mode has read its whole frame. -/
theorem State.readable_of_ireturn {s t : State} (hm : s.mode = .kernel) (h : exec .ireturn s = .next t) :
    s.Readable (addrs s.kspr 8) := by
  have h : settle (some 1) s (s.needKernel >>= fun _ => s.interruptReturn) = .next t := h
  rw [State.needKernel_kernel hm] at h
  have stopped {e : Stop} {u : State} (hu : ∀ c, e ≠ .raise c) : settle (some 1) u (.error e) ≠ .next t := fun h => by
    rcases settle_eq_next h with h | ⟨c, h, -⟩
    · cases h
    · exact hu c (Except.error.inj h)
  simp only [State.interruptReturn, bind, Except.bind] at h
  cases h1 : s.pop 16 with
  | error e => rw [h1] at h; exact absurd h (stopped fun c hc => State.pop_kernel_raises hm (hc ▸ h1))
  | ok p1 =>
    obtain ⟨r1, e1⟩ := State.pop_kernel_readable hm h1
    have hm1 : p1.2.mode = .kernel := by rw [e1]; exact hm
    simp only [h1] at h
    cases h2 : p1.2.pop 32 with
    | error e => rw [h2] at h; exact absurd h (stopped fun c hc => State.pop_kernel_raises hm1 (hc ▸ h2))
    | ok p2 =>
      obtain ⟨r2, e2⟩ := State.pop_kernel_readable hm1 h2
      have hm2 : p2.2.mode = .kernel := by rw [e2]; exact hm1
      simp only [h2] at h
      cases h3 : p2.2.pop 16 with
      | error e => rw [h3] at h; exact absurd h (stopped fun c hc => State.pop_kernel_raises hm2 (hc ▸ h3))
      | ok p3 =>
        have r3 := (State.pop_kernel_readable hm2 h3).1
        have k1 : p1.2.kspr = s.kspr + 2 := by rw [e1]; rfl
        have k2 : p2.2.kspr = s.kspr + 6 := by rw [e2, e1]; exact BitVec.add_assoc _ _ _
        have same1 := State.readable_congr (s := s) (t := p1.2) (by rw [e1])
        have same2 := State.readable_congr (s := s) (t := p2.2) (by rw [e2, e1])
        rw [addrs_frame, State.readable_append, State.readable_append]
        exact ⟨r1, (same1 _).1 (k1 ▸ r2), (same2 _).1 (k2 ▸ r3)⟩

/-- What a privileged instruction leaves where it completes, in kernel mode: memory, the platform and the latches; and
which ones enter user mode (40_privileged.md R130 to R134). -/
structure State.KernelEffect (s : State) (i : Instr) (t : State) : Prop where
  kernel : s.mode = .kernel
  mem : t.mem = s.mem
  platform : s.SamePlatform t
  latch : t.latch = s.latch
  mode : t.mode = s.mode ∨ t.mode = .user ∧
    (i = .usermode ∨ i = .ireturn ∧ (s.valueAt 16 (s.kspr + 6)).msb = false)

theorem State.kernelEffect_ireturn {s t : State} (hm : s.mode = .kernel) (h : exec .ireturn s = .next t) :
    s.KernelEffect .ireturn t := by
  rw [exec_ireturn_kernel hm (State.readable_of_ireturn hm h)] at h
  obtain rfl := Host.Outcome.next.inj h
  refine ⟨hm, rfl, ⟨rfl, rfl⟩, rfl, ?_⟩
  cases hb : (s.valueAt 16 (s.kspr + 6)).msb with
  | true => exact .inl (by simp [hm])
  | false => exact .inr ⟨by simp, .inr ⟨rfl, rfl⟩⟩

theorem State.kernelEffect_usermode {s t : State} (hm : s.mode = .kernel) (h : exec .usermode s = .next t) :
    s.KernelEffect .usermode t := by
  have h' : settle (some 1) s (s.needKernel >>= fun _ => s.pop 32 >>= _) = .next t := h
  rw [State.needKernel_kernel hm] at h'
  cases hpop : s.pop 32 with
  | error e =>
    rw [hpop] at h'
    rcases settle_eq_next h' with h' | ⟨c, h', -⟩
    · cases h'
    · exact absurd hpop (Except.error.inj h' ▸ State.pop_kernel_raises hm)
  | ok p =>
    rw [exec_usermode_kernel hm (State.pop_kernel_readable hm hpop).1] at h
    obtain rfl := Host.Outcome.next.inj h
    exact ⟨hm, rfl, ⟨rfl, rfl⟩, rfl, .inr ⟨rfl, .inl rfl⟩⟩

/-- A privileged instruction raises IllegalOperation, or it completes in kernel mode (R135). -/
theorem exec_privileged {i : Instr} {s t : State} (hp : IsPrivileged i) (h : exec i s = .next t) :
    s.Ends (s.MayRaise i) t ∨ s.KernelEffect i t := by
  cases hm : s.mode with
  | user =>
    left
    have raised {n : Nat} (h : (.next (s.trapped .illegalOperation n) : Result) = .next t) :
        s.Ends (s.MayRaise i) t := by
      obtain rfl := Host.Outcome.next.inj h
      rw [show s.trapped .illegalOperation n = s.raise .illegalOperation (some n) from rfl]
      exact State.raise_ends (.privileged hm hp) _
    obtain ⟨traps, -⟩ := privilegedAndUnmappedOpcodesTrap
    obtain ⟨hhalt, hpause, htimerLw, htimerRw, husermode, hireturn⟩ := traps s hm
    rcases hp with rfl | rfl | ⟨ms, rfl⟩ | ⟨rr, rfl⟩ | rfl | rfl
    · exact raised (hhalt ▸ h)
    · exact raised (hpause ▸ h)
    · exact raised (htimerLw ms ▸ h)
    · exact raised (htimerRw rr ▸ h)
    · exact raised (husermode ▸ h)
    · exact raised (hireturn ▸ h)
  | kernel =>
    obtain ⟨hhalt, hpause, htimerLw, htimerRw, -⟩ := kernelInstructionsComplete s hm
    rcases hp with rfl | rfl | ⟨ms, rfl⟩ | ⟨rr, rfl⟩ | rfl | rfl
    · obtain rfl := Host.Outcome.next.inj (hhalt ▸ h)
      exact .inr ⟨hm, rfl, ⟨rfl, rfl⟩, rfl, .inl rfl⟩
    · obtain rfl := Host.Outcome.next.inj (hpause ▸ h)
      exact .inr ⟨hm, rfl, ⟨rfl, rfl⟩, rfl, .inl rfl⟩
    · obtain rfl := Host.Outcome.next.inj (htimerLw ms ▸ h)
      exact .inr ⟨hm, rfl, ⟨rfl, rfl⟩, rfl, .inl rfl⟩
    · cases hl : s.legal .address rr with
      | false =>
        left
        have h : completes (some 2) s (s.needKernel >>= fun _ => need (s.legal .address rr) >>= _) = .next t := h
        rw [State.needKernel_kernel hm, hl] at h
        exact State.Body.completes (State.body_raise
          (State.illegal_operand (i := .timerRw rr) (List.mem_singleton.2 rfl) hl)) h
      | true =>
        obtain ⟨j, rfl⟩ := State.legal_address hl
        obtain rfl := Host.Outcome.next.inj (htimerRw j ▸ h)
        exact .inr ⟨hm, rfl, ⟨rfl, rfl⟩, rfl, .inl rfl⟩
    · exact .inr (State.kernelEffect_usermode hm h)
    · exact .inr (State.kernelEffect_ireturn hm h)

/-! ## Every instruction -/

/-- What an instruction that answers a next state did. -/
theorem exec_eq_next {i : Instr} {s t : State} (h : exec i s = .next t) :
    (i = .syscall ∧ t = { s with latch := s.latch.set .syscall true, pc := s.pc + 1 }) ∨
      (i ≠ .syscall ∧ (s.Ends (s.MayRaise i) t ∨ s.KernelEffect i t)) := by
  by_cases hsys : i = .syscall
  · subst hsys
    exact .inl ⟨rfl, (Host.Outcome.next.inj h).symm⟩
  · refine .inr ⟨hsys, ?_⟩
    by_cases hp : IsPrivileged i
    · exact exec_privileged hp h
    · exact .inl (exec_ends hp hsys h)

/-- What every instruction keeps: the canonical form, the platform and read-only bytes. -/
theorem exec_keeps {i : Instr} {s t : State} (hs : s.Inv) (h : exec i s = .next t) :
    t.Inv ∧ s.SamePlatform t ∧ ∀ p, s.kindOf p = .readOnly → t.mem.read p.toNat = s.mem.read p.toNat := by
  rcases exec_eq_next h with ⟨-, rfl⟩ | ⟨-, hends | hkernel⟩
  · exact ⟨hs, ⟨rfl, rfl⟩, fun _ _ => rfl⟩
  · exact ⟨hends.isLocal.inv hs, hends.isLocal.platform, hends.isLocal.readOnly hs⟩
  · exact ⟨by rw [State.Inv, hkernel.mem]; exact hs, hkernel.platform, fun p _ => by rw [hkernel.mem]⟩

/-- The latches an instruction leaves: all it found, and one more at most, for its cause (R310 to R313). -/
theorem exec_latch {i : Instr} {s t : State} (h : exec i s = .next t) :
    (i = .syscall → t.latch = s.latch.set .syscall true) ∧
    (i ≠ .syscall → t.latch = s.latch ∨ ∃ c : Cause, s.MayRaise i c ∧ t.latch = s.latch.set c.irq true) := by
  rcases exec_eq_next h with ⟨hi, rfl⟩ | ⟨hi, hends | hkernel⟩
  · exact ⟨fun _ => rfl, fun hne => absurd hi hne⟩
  · exact ⟨fun he => absurd he hi, fun _ => hends.latch⟩
  · exact ⟨fun he => absurd he hi, fun _ => .inl hkernel.latch⟩

theorem Latches.get_set_true {l : Latches} {n : Irq} (k : Irq) (h : l.get n = true) : (l.set k true).get n = true := by
  rw [Latches.get_set]; split <;> [rfl; exact h]

theorem exec_latchesKept {i : Instr} {s t : State} (h : exec i s = .next t) : s.LatchesKept t := by
  intro n hn
  obtain ⟨hsys, hother⟩ := exec_latch h
  by_cases hi : i = .syscall
  · rw [hsys hi]; exact Latches.get_set_true _ hn
  · rcases hother hi with hl | ⟨c, -, hl⟩
    · rw [hl]; exact hn
    · rw [hl]; exact Latches.get_set_true _ hn

/-- Latch 0 is set by SYSCALL alone (R313). -/
theorem exec_sets_syscall {i : Instr} {s t : State} (h : exec i s = .next t) (hs : s.latch.get .syscall = false) :
    t.latch.get .syscall = true ↔ i = .syscall := by
  obtain ⟨hsys, hother⟩ := exec_latch h
  refine ⟨fun ht => ?_, fun hi => by rw [hsys hi]; rfl⟩
  by_contra hi
  rcases hother hi with hl | ⟨c, -, hl⟩
  · rw [hl, hs] at ht; cases ht
  · rw [hl, Latches.get_set_other _ _ _ _ (by cases c <;> decide), hs] at ht; cases ht

/-- The mode an instruction leaves (R319). -/
theorem exec_mode {i : Instr} {s t : State} (h : exec i s = .next t) (hne : t.mode ≠ s.mode) :
    s.mode = .kernel ∧ t.mode = .user ∧
      (i = .usermode ∨ (i = .ireturn ∧ (s.valueAt 16 (s.kspr + 6)).msb = false)) := by
  rcases exec_eq_next h with ⟨-, rfl⟩ | ⟨-, hends | hkernel⟩
  · exact absurd rfl hne
  · exact absurd hends.isLocal.mode hne
  · rcases hkernel.mode with hm | ⟨hm, hi⟩
    · exact absurd hm hne
    · exact ⟨hkernel.kernel, hm, hi⟩

/-- In user mode an instruction leaves what only kernel mode may change (R318). -/
theorem exec_samePrivileged {i : Instr} {s t : State} (hu : s.mode = .user) (h : exec i s = .next t) :
    s.SamePrivileged t := by
  rcases exec_eq_next h with ⟨-, rfl⟩ | ⟨-, hends | hkernel⟩
  · exact ⟨rfl, rfl, rfl, rfl, rfl, rfl, rfl⟩
  · obtain ⟨hk, hp, hi⟩ := hends.isLocal.privileged hu
    exact ⟨hends.isLocal.mode, hk, hp, hi, hends.isLocal.timerPeriod, hends.isLocal.halted, hends.isLocal.paused⟩
  · rw [hkernel.kernel] at hu; cases hu

/-! ## Every step -/

/-- Settles O55. -/
theorem stepKeepsInvariant : Obligations.StepKeepsInvariant := by
  intro s t hs hstep
  have hsample := State.sample_inv hs
  obtain ⟨-, ⟨n, -, hservice⟩ | ⟨-, -, rfl⟩ | ⟨-, -, i, -, hexec⟩ | ⟨-, -, -, rfl⟩⟩ := step_eq_next hstep
  · obtain ⟨hinv, hplatform, -⟩ := State.service_eq_next hservice
    exact ⟨hinv hsample, hplatform⟩
  · exact ⟨hsample, rfl, rfl⟩
  · obtain ⟨hinv, hplatform, -⟩ := exec_keeps hsample hexec
    exact ⟨hinv, hplatform⟩
  · exact ⟨hsample, rfl, rfl⟩

/-- Settles O56. -/
theorem readOnlyBytesNeverChange : Obligations.ReadOnlyBytesNeverChange := by
  intro s t p hs hp hstep
  have hsample := State.sample_inv hs
  rw [← State.sample_not_ram hs (p := p) (by rw [hp]; decide)]
  obtain ⟨-, ⟨n, -, hservice⟩ | ⟨-, -, rfl⟩ | ⟨-, -, i, -, hexec⟩ | ⟨-, -, -, rfl⟩⟩ := step_eq_next hstep
  · obtain ⟨-, -, hread, -⟩ := State.service_eq_next hservice
    exact hread hsample p hp
  · rfl
  · exact (exec_keeps hsample hexec).2.2 p hp
  · rfl

/-- Settles O58: neither the sources' turn, a wait, a faulting fetch nor a user-mode instruction changes any of them. -/
theorem userModeConfined : Obligations.UserModeConfined := by
  intro s t hu hstep hc
  obtain ⟨-, ⟨n, hn, -⟩ | ⟨-, -, rfl⟩ | ⟨-, -, i, -, hexec⟩ | ⟨-, -, -, rfl⟩⟩ := step_eq_next hstep
  · rw [hc] at hn; cases hn
  · exact ⟨rfl, rfl, rfl, rfl, rfl, rfl, rfl⟩
  · exact exec_samePrivileged (s := s.sample) hu hexec
  · exact ⟨rfl, rfl, rfl, rfl, rfl, rfl, rfl⟩

/-- Settles O57. -/
theorem modeTransitions : Obligations.ModeTransitions := by
  refine ⟨fun i s t h hne => exec_mode h hne, fun s t hstep hs ht => ?_, fun s t n hstep hc => ?_,
    fun s t hstep hs ht => ?_⟩
  · obtain ⟨-, ⟨n, hn, -⟩ | ⟨-, -, rfl⟩ | ⟨-, -, i, -, hexec⟩ | ⟨-, -, -, rfl⟩⟩ := step_eq_next hstep
    · exact ⟨n, hn⟩
    · rw [State.sample_mode, hs] at ht; cases ht
    · obtain ⟨hm, -⟩ := exec_samePrivileged (s := s.sample) hs hexec
      rw [hm, State.sample_mode, hs] at ht; cases ht
    · rw [State.raise_eq, State.sample_mode, hs] at ht; cases ht
  · obtain ⟨-, ⟨m, hm, hservice⟩ | ⟨hn, -⟩ | ⟨hn, -⟩ | ⟨hn, -⟩⟩ := step_eq_next hstep
    · exact (State.service_eq_next hservice).2.2.2.2
    all_goals rw [hc] at hn; cases hn
  · obtain ⟨-, ⟨n, -, hservice⟩ | ⟨-, -, rfl⟩ | ⟨hn, hp, i, hi, hexec⟩ | ⟨-, -, -, rfl⟩⟩ := step_eq_next hstep
    · rw [(State.service_eq_next hservice).2.2.2.2] at ht; cases ht
    · rw [State.sample_mode, hs] at ht; cases ht
    · obtain ⟨-, -, hcause⟩ := exec_mode hexec (by rw [ht, State.sample_mode, hs]; decide)
      exact ⟨hn, hp, i, hi, hexec, hcause⟩
    · rw [State.raise_eq, State.sample_mode, hs] at ht; cases ht

/-- No step clears a latch but that of the interrupt it services (R308). -/
theorem step_latch_kept {s t : State} {n : Irq} (hstep : step s = .next t) (hn : s.latch.get n = true)
    (hc : s.sample.choose ≠ some n) : t.latch.get n = true := by
  have hsample := State.sample_latchesKept s n hn
  obtain ⟨-, ⟨m, hm, hservice⟩ | ⟨-, -, rfl⟩ | ⟨-, -, i, -, hexec⟩ | ⟨-, -, -, rfl⟩⟩ := step_eq_next hstep
  · obtain ⟨-, -, -, hlatch, -⟩ := State.service_eq_next hservice
    rw [hlatch, Latches.get_set_other _ _ _ _ (by rintro rfl; exact hc hm)]
    exact hsample
  · exact hsample
  · exact exec_latchesKept hexec n hsample
  · exact Latches.get_set_true .pageFault hsample

/-- Settles O60. -/
theorem latchesFollowTheirCauses : Obligations.LatchesFollowTheirCauses := by
  refine ⟨fun s t n => step_latch_kept, fun s t n hstep hc => ?_, fun s t hstep hc => ?_,
    fun i s t h => exec_latch h⟩
  · obtain ⟨-, ⟨m, hm, hservice⟩ | ⟨hn, -⟩ | ⟨hn, -⟩ | ⟨hn, -⟩⟩ := step_eq_next hstep
    · obtain rfl : n = m := Option.some.inj (hc.symm.trans hm)
      exact (State.service_eq_next hservice).2.2.2.1
    all_goals rw [hc] at hn; cases hn
  · obtain ⟨-, ⟨n, hn, -⟩ | ⟨-, -, rfl⟩ | ⟨-, -, i, hi, hexec⟩ | ⟨-, -, hfault, rfl⟩⟩ := step_eq_next hstep
    · rw [hc] at hn; cases hn
    · exact .inl rfl
    · exact .inr (.inl ⟨i, hi, hexec⟩)
    · exact .inr (.inr ⟨rfl, hfault⟩)

/-- Settles O17. -/
theorem syscallRaisedOnlyBySyscall : Obligations.SyscallRaisedOnlyBySyscall := by
  refine ⟨fun s => ⟨_, exec_syscall s, rfl⟩, fun i s t h hs => exec_sets_syscall h hs, fun s t hstep hs ht => ?_⟩
  have hsample : s.sample.latch.get .syscall = false := hs
  obtain ⟨-, ⟨n, -, hservice⟩ | ⟨-, -, rfl⟩ | ⟨hn, hp, i, hi, hexec⟩ | ⟨-, -, -, rfl⟩⟩ := step_eq_next hstep
  · obtain ⟨-, -, -, hlatch, -⟩ := State.service_eq_next hservice
    rw [hlatch, Latches.get_set, hsample] at ht
    split at ht <;> cases ht
  · rw [hsample] at ht; cases ht
  · obtain rfl := (exec_sets_syscall hexec hsample).1 ht
    exact ⟨hn, hp, hi, hexec⟩
  · have ht : (s.sample.latch.set .pageFault true).get .syscall = true := ht
    rw [Latches.get_set_other _ _ _ _ (by decide), hsample] at ht; cases ht

/-- Settles O18. -/
theorem syscallLatchesInterruptZero : Obligations.SyscallLatchesInterruptZero := by
  refine ⟨rfl, exec_syscall, fun s hl hh hothers => ?_⟩
  have hchoose := State.choose_syscall (s := s.sample) hl hothers
  refine ⟨fun henabled hs hf hv => ?_, fun hmasked => ⟨fun hp => ?_, fun t hstep => ?_⟩⟩
  · rw [State.sample_imr, if_pos henabled] at hchoose
    exact step_afterEntry hs hh hchoose hf hv
  · rw [State.sample_imr, hmasked] at hchoose
    exact step_runs hh hp hchoose
  · rw [State.sample_imr, hmasked] at hchoose
    exact step_latch_kept (n := .syscall) hstep hl (by rw [hchoose]; nofun)

end Sys2Proof.Machine
end

section
/-!
What user mode cannot name it cannot observe (10_state.md R36, R41): run beside itself with other contents of KSPR, IMR and the
timer period, a user-mode instruction answers the same outcome with those contents carried along. Said once for each
shared operation, then composed along the bodies of the instructions.
-/

namespace Sys2Proof.Machine

/-! ## Two runs of one computation -/

/-- The second run ends as the first, the other kernel registers carried along. -/
def Parallel (k : Word) (m : BitVec 16) (p : Word) (b b' : Exec State) : Prop :=
  b' = b.map fun t => t.withKernelRegisters k m p

section
variable {k : Word} {m : BitVec 16} {p : Word} {s : State}

theorem Parallel.ok {t t' : State} (h : t' = t.withKernelRegisters k m p) : Parallel k m p (.ok t) (.ok t') :=
  congrArg Except.ok h

/-- A computation both runs share, then what each does with its answer. -/
theorem Parallel.bind {α : Type} {e : Exec α} {f f' : α → Exec State} (h : ∀ a, e = .ok a → Parallel k m p (f a) (f' a)) :
    Parallel k m p (e >>= f) (e >>= f') := by
  cases e with
  | error e => rfl
  | ok a => exact h a rfl

theorem Parallel.need {b : Bool} {f f' : Unit → Exec State} (h : b = true → Parallel k m p (f ()) (f' ())) :
    Parallel k m p (need b >>= f) (need b >>= f') := by
  cases b with
  | false => rfl
  | true => exact h rfl

/-- A state each run computes, then what each does from it. -/
theorem Parallel.andThen {b b' : Exec State} {f f' : State → Exec State} (h : Parallel k m p b b')
    (hf : ∀ t, b = .ok t → Parallel k m p (f t) (f' (t.withKernelRegisters k m p))) :
    Parallel k m p (b >>= f) (b' >>= f') := by
  subst h
  cases b with
  | error e => rfl
  | ok t => exact hf t rfl

theorem State.raise_with (s : State) (c : Cause) (len : Option Nat) :
    (s.withKernelRegisters k m p).raise c len = (s.raise c len).withKernelRegisters k m p := by
  cases c <;> cases len <;> rfl

theorem Parallel.settle {b b' : Exec State} {len : Option Nat} (h : Parallel k m p b b') :
    settle len (s.withKernelRegisters k m p) b' =
      mapNext (fun t => t.withKernelRegisters k m p) (settle len s b) := by
  subst h
  cases b with
  | ok t => rfl
  | error e =>
    cases e with
    | raise c => exact congrArg Host.Outcome.next (s.raise_with c len)
    | fault f => rfl
    | refuse r => rfl

theorem Parallel.completes {b b' : Exec State} {len : Option Nat} (h : Parallel k m p b b') :
    completes len (s.withKernelRegisters k m p) b' =
      mapNext (fun t => t.withKernelRegisters k m p) (completes len s b) :=
  Parallel.settle (h.andThen fun _ _ => rfl)

/-! ## Registers -/

/-- A register an instruction may name in user mode holds the same in both runs (R36). -/
theorem State.x_with {c : RefClass} {r : Ref} (hu : s.mode = .user) (hl : s.legal c r = true) :
    (s.withKernelRegisters k m p).x r = s.x r := by
  obtain ⟨hk, -, hi⟩ := State.legal_not_privileged hl hu
  cases r <;> first | rfl | contradiction

theorem State.xAs_with {c : RefClass} {r : Ref} (hu : s.mode = .user) (hl : s.legal c r = true) (w : Nat) :
    (s.withKernelRegisters k m p).xAs w r = s.xAs w r := by
  rw [State.xAs, State.x_with hu hl]; rfl

theorem State.addressIn_with {c : RefClass} {r : Ref} (hu : s.mode = .user) (hl : s.legal c r = true) :
    (s.withKernelRegisters k m p).addressIn r = s.addressIn r := State.xAs_with hu hl 32

theorem State.setX_with {c : RefClass} {r : Ref} (hu : s.mode = .user) (hl : s.legal c r = true)
    (v : BitVec r.width) : (s.withKernelRegisters k m p).setX r v = (s.setX r v).withKernelRegisters k m p := by
  obtain ⟨hk, -, hi⟩ := State.legal_not_privileged hl hu
  cases r <;> first | rfl | contradiction

/-- The active stack pointer of user mode is USPR (R33). -/
theorem State.sp_with (hu : s.mode = .user) : (s.withKernelRegisters k m p).sp = s.sp := by
  rw [State.sp_user s hu]; exact State.sp_user (s.withKernelRegisters k m p) hu

theorem State.setSp_with (hu : s.mode = .user) (v : Word) :
    (s.withKernelRegisters k m p).setSp v = (s.setSp v).withKernelRegisters k m p := by
  rw [State.setSp_user s hu]; exact State.setSp_user (s.withKernelRegisters k m p) hu v

theorem State.writeAlu_with {c : RefClass} {rd : Ref} (hu : s.mode = .user) (hl : s.legal c rd = true)
    (out : Alu rd.width) :
    (s.withKernelRegisters k m p).writeAlu rd out = (s.writeAlu rd out).withKernelRegisters k m p := by
  unfold State.writeAlu
  split
  · rfl
  · rw [State.setX_with hu hl]; rfl

theorem State.floatFlags_with (s : State) (anyNaN : Bool) (r : Word) :
    (s.withKernelRegisters k m p).floatFlags anyNaN r = (s.floatFlags anyNaN r).withKernelRegisters k m p := by
  cases anyNaN <;> rfl

theorem State.floatResult_with {c : RefClass} {rd : Ref} (hu : s.mode = .user) (hl : s.legal c rd = true)
    (op : Word → Word → Word) (b : Word) :
    (s.withKernelRegisters k m p).floatResult op rd b = (s.floatResult op rd b).withKernelRegisters k m p := by
  unfold State.floatResult
  rw [State.xAs_with hu hl]
  exact (congrArg (State.floatFlags · _ _) (State.setX_with hu hl _)).trans (State.floatFlags_with _ _ _)

theorem State.negateIn_with {c : RefClass} {rd : Ref} (hu : s.mode = .user) (hl : s.legal c rd = true) :
    (s.withKernelRegisters k m p).negateIn rd = (s.negateIn rd).withKernelRegisters k m p := by
  unfold State.negateIn
  rw [State.xAs_with hu hl, State.x_with hu hl]
  split
  · exact (congrArg (State.floatFlags · _ _) (State.setX_with hu hl _)).trans (State.floatFlags_with _ _ _)
  · exact State.writeAlu_with hu hl _

theorem State.copyInto_with {c c' : RefClass} {rd rs : Ref} (hu : s.mode = .user) (hd : s.legal c rd = true)
    (hs : s.legal c' rs = true) :
    (s.withKernelRegisters k m p).copyInto rd rs = (s.copyInto rd rs).withKernelRegisters k m p := by
  unfold State.copyInto
  rw [State.xAs_with hu hs, State.xAs_with hu hs]
  split
  · exact State.setX_with hu hd _
  · split <;> exact State.setX_with hu hd _

theorem State.compareWith_with {c : RefClass} {r : Ref} (hu : s.mode = .user) (hl : s.legal c r = true)
    (v : BitVec r.width) :
    (s.withKernelRegisters k m p).compareWith r v = (s.compareWith r v).withKernelRegisters k m p := by
  unfold State.compareWith
  rw [State.xAs_with hu hl, State.x_with hu hl]
  split
  · exact State.floatFlags_with _ _ _
  · rfl

/-! ## Memory and the stack -/

theorem State.memRead_with (s : State) (w : Nat) (a : Word) :
    (s.withKernelRegisters k m p).memRead w a = s.memRead w a := rfl

theorem State.memWrite_with (s : State) {w : Nat} (a : Word) (v : BitVec w) :
    Parallel k m p (s.memWrite a v) ((s.withKernelRegisters k m p).memWrite a v) := by
  refine Parallel.bind (e := s.resolve .write (addrs a (w / 8))) fun l _ => ?_
  unfold State.physWrite
  by_cases h : (l.any fun a => decide (s.kindOf a = .readOnly)) = true
  · rw [if_pos h, if_pos (by exact h)]; rfl
  · rw [if_neg h, if_neg (by exact h)]
    exact Parallel.bind (e := s.accessible l) fun _ _ => rfl

theorem State.memWrite_user {t : State} {w : Nat} {a : Word} {v : BitVec w} (hu : s.mode = .user)
    (h : s.memWrite a v = .ok t) : t.mode = .user :=
  (State.quiet_memWrite h).isLocal.mode.trans hu

theorem State.push_with (hu : s.mode = .user) {w : Nat} (v : BitVec w) :
    Parallel k m p (s.push v) ((s.withKernelRegisters k m p).push v) := by
  unfold State.push
  rw [State.sp_with hu, State.setSp_with hu]
  dsimp only
  rw [State.sp_with (by simpa using hu)]
  exact State.memWrite_with _ _ _

/-- A pop in both runs, then what each does with the value and the raised stack pointer. -/
theorem Parallel.pop (hu : s.mode = .user) {w : Nat} {f f' : BitVec w × State → Exec State}
    (h : ∀ v t, t.mode = .user → Parallel k m p (f (v, t)) (f' (v, t.withKernelRegisters k m p))) :
    Parallel k m p (s.pop w >>= f) ((s.withKernelRegisters k m p).pop w >>= f') := by
  unfold State.pop
  rw [State.sp_with hu, State.setSp_with hu, State.memRead_with]
  cases s.memRead w s.sp with
  | error e => rfl
  | ok v => exact h v _ (by simpa using hu)

theorem State.callTo_with (hu : s.mode = .user) (bytes : Nat) (target : Word) :
    Parallel k m p (s.callTo bytes target) ((s.withKernelRegisters k m p).callTo bytes target) :=
  (State.push_with hu _).andThen fun _ ht =>
    (State.push_with ((State.quiet_push ht).isLocal.mode.trans hu) _).andThen fun _ _ => rfl

theorem State.returnFromCall_with (hu : s.mode = .user) :
    Parallel k m p s.returnFromCall (s.withKernelRegisters k m p).returnFromCall :=
  Parallel.pop hu fun _ _ ht => Parallel.pop ht fun _ _ _ => rfl

/-! ## BLOCKCOPY -/

theorem State.copyBytes_with (s : State) (d src : Word) (free : Option Nat) (j n : Nat) :
    Parallel k m p (s.copyBytes d src free j n) ((s.withKernelRegisters k m p).copyBytes d src free j n) := by
  induction n generalizing s j with
  | zero => rfl
  | succ n ih =>
    exact Parallel.bind (e := s.memRead 8 (src + BitVec.ofNat 32 j)) fun _ _ =>
      (State.memWrite_with s _ _).andThen fun t _ => ih t (j + 1)

theorem State.scramble_with (s : State) (d : Word) (draw j n : Nat) :
    (s.withKernelRegisters k m p).scramble d draw j n = (s.scramble d draw j n).withKernelRegisters k m p := by
  induction n generalizing s j with
  | zero => rfl
  | succ n ih =>
    have hw := State.memWrite_with (k := k) (m := m) (p := p) s (d + BitVec.ofNat 32 j) (Config.freeByte draw j)
    unfold Parallel at hw
    unfold State.scramble
    rw [hw]
    cases s.memWrite (d + BitVec.ofNat 32 j) (Config.freeByte draw j) with
    | error e => exact ih s (j + 1)
    | ok t => exact ih t (j + 1)

theorem State.blockcopy_with (s : State) (bytes : Nat) (len d src : Word) :
    Parallel k m p (s.blockcopy bytes len d src) ((s.withKernelRegisters k m p).blockcopy bytes len d src) := by
  have hc := State.copyBytes_with (k := k) (m := m) (p := p) s d src
    (if rangesOverlap len d src then some s.draws else none) 0 len.toNat
  have hdraws : (s.withKernelRegisters k m p).draws = s.draws := rfl
  unfold Parallel at hc ⊢
  unfold State.blockcopy
  rw [hdraws]
  dsimp only
  rw [hc]
  cases s.copyBytes d src (if rangesOverlap len d src then some s.draws else none) 0 len.toNat with
  | ok t => cases rangesOverlap len d src <;> rfl
  | error e =>
    cases e with
    | raise c =>
      refine congrArg Except.ok ?_
      rw [State.scramble_with]
      exact State.raise_with (s.scramble d s.draws 0 len.toNat).draw c (some bytes)
    | fault f => rfl
    | refuse r => rfl

/-! ## The shared shapes -/

theorem State.integerOp_with {c : RefClass} {rd : Ref} (hu : s.mode = .user) (hl : s.legal c rd = true) (op : IntOp)
    (b : BitVec rd.width) :
    Parallel k m p (s.integerOp op rd b) ((s.withKernelRegisters k m p).integerOp op rd b) := by
  unfold State.integerOp
  rw [State.x_with hu hl]
  exact Parallel.bind fun out _ => .ok (State.writeAlu_with hu hl out)

theorem State.arithmeticOp_with {c : RefClass} {rd : Ref} (hu : s.mode = .user) (hl : s.legal c rd = true)
    (op : IntOp) (fop : Word → Word → Word) (b : BitVec rd.width) :
    Parallel k m p (s.arithmeticOp op fop rd b) ((s.withKernelRegisters k m p).arithmeticOp op fop rd b) := by
  unfold State.arithmeticOp
  split
  · exact .ok (State.floatResult_with hu hl _ _)
  · exact State.integerOp_with hu hl op b

theorem State.arithmeticVl_with (hu : s.mode = .user) (op : IntOp) (fop : Word → Word → Word) (rd : Ref) (lit : Lit) :
    (s.withKernelRegisters k m p).arithmeticVl op fop rd lit =
      mapNext (fun t => t.withKernelRegisters k m p) (s.arithmeticVl op fop rd lit) :=
  Parallel.completes (Parallel.need fun hl => State.arithmeticOp_with hu hl op fop _)

theorem State.checkRr_legal {rd rs : Ref} (h : s.checkRr rd rs = .ok ()) :
    s.legal .any rd = true ∧ s.legal .any rs = true := by
  refine Bool.and_eq_true_iff.1 ?_
  by_contra hl
  rw [Bool.not_eq_true] at hl
  simp [State.checkRr, hl, bind, Except.bind] at h

theorem State.checkIntRr_legal {rd rs : Ref} (h : s.checkIntRr rd rs = .ok ()) :
    s.legal .integer rd = true ∧ s.legal .integer rs = true := by
  refine Bool.and_eq_true_iff.1 ?_
  by_contra hl
  rw [Bool.not_eq_true] at hl
  simp [State.checkIntRr, hl, bind, Except.bind] at h

theorem State.arithmeticRr_with (hu : s.mode = .user) (op : IntOp) (fop : Word → Word → Word) (rd rs : Ref) :
    (s.withKernelRegisters k m p).arithmeticRr op fop rd rs =
      mapNext (fun t => t.withKernelRegisters k m p) (s.arithmeticRr op fop rd rs) := by
  refine Parallel.completes (Parallel.bind (e := s.checkRr rd rs) fun _ hc => ?_)
  obtain ⟨hd, hs⟩ := State.checkRr_legal hc
  rw [State.xAs_with hu hs]
  exact State.arithmeticOp_with hu hd op fop _

theorem State.integerVl_with (hu : s.mode = .user) (op : IntOp) (rd : Ref) (lit : Lit) :
    (s.withKernelRegisters k m p).integerVl op rd lit =
      mapNext (fun t => t.withKernelRegisters k m p) (s.integerVl op rd lit) :=
  Parallel.completes (Parallel.need fun hl => State.integerOp_with hu hl op _)

theorem State.integerRr_with (hu : s.mode = .user) (op : IntOp) (rd rs : Ref) :
    (s.withKernelRegisters k m p).integerRr op rd rs =
      mapNext (fun t => t.withKernelRegisters k m p) (s.integerRr op rd rs) := by
  refine Parallel.completes (Parallel.bind (e := s.checkIntRr rd rs) fun _ hc => ?_)
  obtain ⟨hd, hs⟩ := State.checkIntRr_legal hc
  rw [State.xAs_with hu hs]
  exact State.integerOp_with hu hd op _

theorem State.shiftLb_with (hu : s.mode = .user) (op : (w : Nat) → BitVec w → Nat → Alu w) (rd : Ref) (n : Byte) :
    (s.withKernelRegisters k m p).shiftLb op rd n =
      mapNext (fun t => t.withKernelRegisters k m p) (s.shiftLb op rd n) := by
  refine Parallel.completes (Parallel.need fun hl => .ok ?_)
  rw [State.x_with hu hl]
  exact State.writeAlu_with hu hl _

theorem State.shiftRb_with (hu : s.mode = .user) (op : (w : Nat) → BitVec w → Nat → Alu w) (rd rb : Ref) :
    (s.withKernelRegisters k m p).shiftRb op rd rb =
      mapNext (fun t => t.withKernelRegisters k m p) (s.shiftRb op rd rb) := by
  refine Parallel.completes (Parallel.need fun hl => .ok ?_)
  obtain ⟨hd, hb⟩ := Bool.and_eq_true_iff.1 hl
  rw [State.x_with hu hd, State.countIn, State.x_with hu hb]
  exact State.writeAlu_with hu hd _

theorem State.jumpLiteral_with (s : State) (taken : Bool) (target : Word) :
    (s.withKernelRegisters k m p).jumpLiteral taken target =
      mapNext (fun t => t.withKernelRegisters k m p) (s.jumpLiteral taken target) := by
  cases taken <;> rfl

theorem State.jumpRegister_with (hu : s.mode = .user) (taken : Bool) (ra : Ref) :
    (s.withKernelRegisters k m p).jumpRegister taken ra =
      mapNext (fun t => t.withKernelRegisters k m p) (s.jumpRegister taken ra) := by
  refine Parallel.settle (Parallel.need fun hl => .ok ?_)
  rw [State.addressIn_with hu hl]
  cases taken <;> rfl

theorem State.loadInto_with {c : RefClass} {rr : Ref} (hu : s.mode = .user) (hl : s.legal c rr = true) (a : Word) :
    Parallel k m p (s.loadInto rr a) ((s.withKernelRegisters k m p).loadInto rr a) :=
  Parallel.bind (e := s.memRead rr.width a) fun v _ => .ok (State.setX_with hu hl v)

theorem State.storeFrom_with {c : RefClass} {rr : Ref} (hu : s.mode = .user) (hl : s.legal c rr = true) (a : Word) :
    Parallel k m p (s.storeFrom rr a) ((s.withKernelRegisters k m p).storeFrom rr a) := by
  rw [State.storeFrom, State.storeFrom, State.x_with hu hl]
  exact State.memWrite_with s a _

theorem State.swapWith_with {rr : Ref} (hu : s.mode = .user) (hl : s.legal .any rr = true) (a : Word) :
    Parallel k m p (s.swapWith rr a) ((s.withKernelRegisters k m p).swapWith rr a) := by
  rw [State.swapWith, State.swapWith, State.x_with hu hl]
  refine Parallel.bind (e := s.memRead rr.width a) fun v _ => (State.memWrite_with s a _).andThen fun t ht => .ok ?_
  have hmode := (State.quiet_memWrite ht).isLocal.mode
  have hl' : t.legal .any rr = true := by rw [State.legal, hmode]; exact hl
  exact State.setX_with (hmode.trans hu) hl' v

/-! ## Every instruction -/

theorem exec_push_with (hu : s.mode = .user) (rr : Ref) :
    exec (.push rr) (s.withKernelRegisters k m p) =
      mapNext (fun t => t.withKernelRegisters k m p) (exec (.push rr) s) := by
  refine Parallel.completes (Parallel.need fun hl => ?_)
  have hu' : ∀ v, (s.setSp v).mode = .user := fun v => (State.setSp_mode s v).trans hu
  have hl' : ∀ v, (s.setSp v).legal .any rr = true := fun v => by rw [State.legal, State.setSp_mode]; exact hl
  rw [State.sp_with hu, State.setSp_with hu]
  dsimp only
  rw [State.sp_with (hu' _), State.x_with (hu' _) (hl' _)]
  exact State.memWrite_with _ _ _

theorem exec_pop_with (hu : s.mode = .user) (rr : Ref) :
    exec (.pop rr) (s.withKernelRegisters k m p) =
      mapNext (fun t => t.withKernelRegisters k m p) (exec (.pop rr) s) := by
  refine Parallel.completes (Parallel.need fun hl => ?_)
  rw [State.sp_with hu]
  refine Parallel.bind (e := s.memRead rr.width s.sp) fun v _ => .ok ?_
  have hu' : (s.setX rr v).mode = .user := (State.setX_mode s rr v).trans hu
  rw [State.setX_with hu hl, State.sp_with hu', State.setSp_with hu']

theorem trapped_with {i : Instr} {n : Nat} (h : exec i s = .next (s.trapped .illegalOperation n))
    (h' : exec i (s.withKernelRegisters k m p) =
      .next ((s.withKernelRegisters k m p).trapped .illegalOperation n)) :
    exec i (s.withKernelRegisters k m p) = mapNext (fun t => t.withKernelRegisters k m p) (exec i s) := by
  rw [h, h']; rfl

theorem exec_with (hu : s.mode = .user) (i : Instr) :
    exec i (s.withKernelRegisters k m p) = mapNext (fun t => t.withKernelRegisters k m p) (exec i s) := by
  obtain ⟨traps, -⟩ := privilegedAndUnmappedOpcodesTrap
  obtain ⟨hhalt, hpause, htimerLw, htimerRw, husermode, hireturn⟩ := traps s hu
  obtain ⟨hhalt', hpause', htimerLw', htimerRw', husermode', hireturn'⟩ := traps (s.withKernelRegisters k m p) hu
  cases i with
  | halt => exact trapped_with hhalt hhalt'
  | pause => exact trapped_with hpause hpause'
  | timerLw ms => exact trapped_with (htimerLw ms) (htimerLw' ms)
  | timerRw rr => exact trapped_with (htimerRw rr) (htimerRw' rr)
  | usermode => exact trapped_with husermode husermode'
  | ireturn => exact trapped_with hireturn hireturn'
  | syscall => rfl
  | unmapped60 low => rfl
  | unmapped80 low => rfl
  | loadLa rr a => exact Parallel.completes (Parallel.need fun hl => State.loadInto_with hu hl a)
  | loadRa rr ra =>
    refine Parallel.completes (Parallel.need fun hl => ?_)
    obtain ⟨hr, ha⟩ := Bool.and_eq_true_iff.1 hl
    rw [State.addressIn_with hu ha]
    exact State.loadInto_with hu hr _
  | storeLa a rr => exact Parallel.completes (Parallel.need fun hl => State.storeFrom_with hu hl a)
  | storeRa ra rr =>
    refine Parallel.completes (Parallel.need fun hl => ?_)
    obtain ⟨hr, ha⟩ := Bool.and_eq_true_iff.1 hl
    rw [State.addressIn_with hu ha]
    exact State.storeFrom_with hu hr _
  | copyVl rd lit => exact Parallel.completes (Parallel.need fun hl => .ok (State.setX_with hu hl _))
  | copyRr rd rs =>
    refine Parallel.completes (Parallel.need fun hl => Parallel.need fun _ => .ok ?_)
    obtain ⟨hd, hs⟩ := Bool.and_eq_true_iff.1 hl
    exact State.copyInto_with hu hd hs
  | swapLa rr a => exact Parallel.completes (Parallel.need fun hl => State.swapWith_with hu hl a)
  | swapRa rr ra =>
    refine Parallel.completes (Parallel.need fun hl => ?_)
    obtain ⟨hr, ha⟩ := Bool.and_eq_true_iff.1 hl
    rw [State.addressIn_with hu ha]
    exact State.swapWith_with hu hr _
  | push rr => exact exec_push_with hu rr
  | pop rr => exact exec_pop_with hu rr
  | blockcopyLwLaLa len dst src => exact Parallel.settle (s.blockcopy_with 13 len dst src)
  | blockcopyLwLaRa len dst r | blockcopyLwRaLa len r src | blockcopyRwLaLa r dst src =>
    refine Parallel.settle (Parallel.need fun hl => ?_)
    rw [State.addressIn_with hu hl]
    exact s.blockcopy_with _ _ _ _
  | blockcopyLwRaRa len r r' | blockcopyRwLaRa r dst r' | blockcopyRwRaLa r r' src =>
    refine Parallel.settle (Parallel.need fun hl => ?_)
    obtain ⟨hr, hr'⟩ := Bool.and_eq_true_iff.1 hl
    rw [State.addressIn_with hu hr, State.addressIn_with hu hr']
    exact s.blockcopy_with _ _ _ _
  | blockcopyRwRaRa rlen rdst rsrc =>
    refine Parallel.settle (Parallel.need fun hl => ?_)
    obtain ⟨hl, hs⟩ := Bool.and_eq_true_iff.1 hl
    obtain ⟨hlen, hd⟩ := Bool.and_eq_true_iff.1 hl
    rw [State.addressIn_with hu hlen, State.addressIn_with hu hd, State.addressIn_with hu hs]
    exact s.blockcopy_with _ _ _ _
  | negate rd => exact Parallel.completes (Parallel.need fun hl => .ok (State.negateIn_with hu hl))
  | notR rd =>
    refine Parallel.completes (Parallel.need fun hl => .ok ?_)
    rw [State.x_with hu hl]
    exact State.writeAlu_with hu hl _
  | addVl rd lit | subVl rd lit | multVl rd lit | sdivVl rd lit | sremVl rd lit =>
    exact State.arithmeticVl_with hu _ _ rd lit
  | addRr rd rs | subRr rd rs | multRr rd rs | sdivRr rd rs | sremRr rd rs =>
    exact State.arithmeticRr_with hu _ _ rd rs
  | addcarryVl rd lit | subborrowVl rd lit | udivVl rd lit | uremVl rd lit | andVl rd lit | orVl rd lit
  | xorVl rd lit => exact State.integerVl_with hu _ rd lit
  | addcarryRr rd rs | subborrowRr rd rs | udivRr rd rs | uremRr rd rs | andRr rd rs | orRr rd rs | xorRr rd rs =>
    exact State.integerRr_with hu _ rd rs
  | lshiftLb rd n | rshiftlLb rd n | rshiftaLb rd n | lrotLb rd n | rrotLb rd n =>
    exact State.shiftLb_with hu _ rd n
  | lrotcarryLb rd n => exact State.shiftLb_with hu (fun _ a n => lrotcarryW a s.flagC n) rd n
  | rrotcarryLb rd n => exact State.shiftLb_with hu (fun _ a n => rrotcarryW a s.flagC n) rd n
  | lshiftRb rd rb | rshiftlRb rd rb | rshiftaRb rd rb | lrotRb rd rb | rrotRb rd rb =>
    exact State.shiftRb_with hu _ rd rb
  | lrotcarryRb rd rb => exact State.shiftRb_with hu (fun _ a n => lrotcarryW a s.flagC n) rd rb
  | rrotcarryRb rd rb => exact State.shiftRb_with hu (fun _ a n => rrotcarryW a s.flagC n) rd rb
  | jumpLa a | jequalLa a | jnotequalLa a | jgreaterLa a | jgreatereqLa a | jaboveLa a | jaboveeqLa a | jlesserLa a
  | jlessereqLa a | jbelowLa a | jbeloweqLa a | joverflowLa a | jnotoverflowLa a =>
    exact s.jumpLiteral_with _ a
  | jumpRa ra | jequalRa ra | jnotequalRa ra | jgreaterRa ra | jgreatereqRa ra | jaboveRa ra | jaboveeqRa ra
  | jlesserRa ra | jlessereqRa ra | jbelowRa ra | jbeloweqRa ra | joverflowRa ra | jnotoverflowRa ra =>
    exact State.jumpRegister_with hu _ ra
  | compareVl r1 lit => exact Parallel.completes (Parallel.need fun hl => .ok (State.compareWith_with hu hl _))
  | compareRr r1 r2 =>
    refine Parallel.completes (Parallel.bind (e := s.checkRr r1 r2) fun _ hc => .ok ?_)
    obtain ⟨h1, h2⟩ := State.checkRr_legal hc
    rw [State.xAs_with hu h2]
    exact State.compareWith_with hu h1 _
  | callLa a => exact Parallel.settle (State.callTo_with hu 5 a)
  | callRa ra =>
    refine Parallel.settle (Parallel.need fun hl => ?_)
    rw [State.addressIn_with hu hl]
    exact State.callTo_with hu 2 _
  | ret => exact Parallel.settle (State.returnFromCall_with hu)

end

/-- Settles O59: the legality checks keep user mode away from KSPR and IMR, and nothing but TIMER names the period. -/
theorem kernelRegistersInvisibleToUser : Obligations.KernelRegistersInvisibleToUser :=
  fun i _ _ _ _ hu => exec_with hu i

end Sys2Proof.Machine
end

section
/-!
Illegal operations (30_encoding.md R99 to R104; 60_exceptions.md R309, R310): a failed check raises IllegalOperation before
anything is read or written, whichever operand fails it.
-/

namespace Sys2Proof.Machine

/-! ## A failed check -/

section
variable {s : State} {len : Option Nat}

theorem completes_illegal {b : Bool} {f : Unit → Exec State} (h : b = false) :
    completes len s (need b >>= f) = .next (s.raise .illegalOperation len) := by
  subst h; rfl

theorem settle_illegal {b : Bool} {f : Unit → Exec State} (h : b = false) :
    settle len s (need b >>= f) = .next (s.raise .illegalOperation len) := by
  subst h; rfl

theorem completes_raised {e : Exec Unit} {f : Unit → Exec State} {c : Cause} (h : e = .error (.raise c)) :
    completes len s (e >>= f) = .next (s.raise c len) := by
  subst h; rfl

theorem State.checkRr_illegal {rd rs : Ref}
    (h : (s.legal .any rd && s.legal .any rs) = false ∨ widthsMatch rd rs = false ∨ kindsMatch rd rs = false) :
    s.checkRr rd rs = .error (.raise .illegalOperation) := by
  unfold State.checkRr
  cases hl : s.legal .any rd && s.legal .any rs with
  | false => rfl
  | true =>
    cases hw : widthsMatch rd rs with
    | false => rfl
    | true =>
      rw [hl, hw] at h
      have hk : kindsMatch rd rs = false := by simpa using h
      rw [hk]; rfl

theorem State.checkIntRr_illegal {rd rs : Ref}
    (h : (s.legal .integer rd && s.legal .integer rs) = false ∨ widthsMatch rd rs = false) :
    s.checkIntRr rd rs = .error (.raise .illegalOperation) := by
  unfold State.checkIntRr
  cases hl : s.legal .integer rd && s.legal .integer rs with
  | false => rfl
  | true =>
    rw [hl] at h
    have hw : widthsMatch rd rs = false := by simpa using h
    rw [hw]; rfl

theorem completes_mismatch {b b' : Bool} {f : Unit → Exec State} (h : b' = false) :
    completes len s (need b >>= fun _ => need b' >>= f) = .next (s.raise .illegalOperation len) := by
  subst h; cases b <;> rfl

/-! ## An illegal reference among the operands -/

theorem State.legal_of_one {c c₁ : RefClass} {ref r₁ : Ref} (hm : (c, ref) ∈ [(c₁, r₁)]) (h : s.legal c ref = false) :
    s.legal c₁ r₁ = false := by
  obtain ⟨rfl, rfl⟩ := Prod.mk.inj (List.mem_singleton.1 hm)
  exact h

theorem State.legal_of_two {c c₁ c₂ : RefClass} {ref r₁ r₂ : Ref} (hm : (c, ref) ∈ [(c₁, r₁), (c₂, r₂)])
    (h : s.legal c ref = false) : (s.legal c₁ r₁ && s.legal c₂ r₂) = false := by
  rw [Bool.and_eq_false_iff]
  rcases List.mem_cons.1 hm with hm | hm
  · obtain ⟨rfl, rfl⟩ := Prod.mk.inj hm
    exact .inl h
  · exact .inr (State.legal_of_one hm h)

theorem State.legal_of_three {c c₁ c₂ c₃ : RefClass} {ref r₁ r₂ r₃ : Ref}
    (hm : (c, ref) ∈ [(c₁, r₁), (c₂, r₂), (c₃, r₃)]) (h : s.legal c ref = false) :
    (s.legal c₁ r₁ && s.legal c₂ r₂ && s.legal c₃ r₃) = false := by
  rw [Bool.and_assoc, Bool.and_eq_false_iff]
  rcases List.mem_cons.1 hm with hm | hm
  · obtain ⟨rfl, rfl⟩ := Prod.mk.inj hm
    exact .inl h
  · exact .inr (State.legal_of_two hm h)

theorem exec_illegal {i : Instr} {c : RefClass} {ref : Ref} (hm : (c, ref) ∈ refsOf i)
    (h : s.legal c ref = false) : exec i s = .next (s.raise .illegalOperation i.length) := by
  cases i with
  | halt | pause | timerLw _ | usermode | ireturn | blockcopyLwLaLa _ _ _ | jumpLa _ | jequalLa _ | jnotequalLa _
  | jgreaterLa _ | jgreatereqLa _ | jaboveLa _ | jaboveeqLa _ | jlesserLa _ | jlessereqLa _ | jbelowLa _
  | jbeloweqLa _ | joverflowLa _ | jnotoverflowLa _ | callLa _ | ret | syscall | unmapped60 _ | unmapped80 _ =>
    cases hm
  | timerRw rr =>
    cases hmode : s.mode with
    | user => exact completes_raised (State.needKernel_user hmode)
    | kernel =>
      show completes (some 2) s (s.needKernel >>= fun _ => need (s.legal .address rr) >>= _) = _
      rw [State.needKernel_kernel hmode]
      exact completes_illegal (State.legal_of_one hm h)
  | loadLa _ _ | storeLa _ _ | copyVl _ _ | swapLa _ _ | push _ | pop _ | negate _ | notR _ | addVl _ _
  | addcarryVl _ _ | subVl _ _ | subborrowVl _ _ | multVl _ _ | sdivVl _ _ | udivVl _ _ | sremVl _ _ | uremVl _ _
  | andVl _ _ | orVl _ _ | xorVl _ _ | lshiftLb _ _ | rshiftlLb _ _ | rshiftaLb _ _ | lrotLb _ _ | rrotLb _ _
  | lrotcarryLb _ _ | rrotcarryLb _ _ | compareVl _ _ => exact completes_illegal (State.legal_of_one hm h)
  | loadRa _ _ | copyRr _ _ | swapRa _ _ | lshiftRb _ _ | rshiftlRb _ _ | rshiftaRb _ _ | lrotRb _ _ | rrotRb _ _
  | lrotcarryRb _ _ | rrotcarryRb _ _ => exact completes_illegal (State.legal_of_two hm h)
  | storeRa _ _ => exact completes_illegal (by rw [Bool.and_comm]; exact State.legal_of_two hm h)
  | blockcopyLwLaRa _ _ _ | blockcopyLwRaLa _ _ _ | blockcopyRwLaLa _ _ _ | jumpRa _ | jequalRa _ | jnotequalRa _
  | jgreaterRa _ | jgreatereqRa _ | jaboveRa _ | jaboveeqRa _ | jlesserRa _ | jlessereqRa _ | jbelowRa _
  | jbeloweqRa _ | joverflowRa _ | jnotoverflowRa _ | callRa _ => exact settle_illegal (State.legal_of_one hm h)
  | blockcopyLwRaRa _ _ _ | blockcopyRwLaRa _ _ _ | blockcopyRwRaLa _ _ _ =>
    exact settle_illegal (State.legal_of_two hm h)
  | blockcopyRwRaRa _ _ _ => exact settle_illegal (State.legal_of_three hm h)
  | addRr _ _ | subRr _ _ | multRr _ _ | sdivRr _ _ | sremRr _ _ | compareRr _ _ =>
    exact completes_raised (State.checkRr_illegal (.inl (State.legal_of_two hm h)))
  | addcarryRr _ _ | subborrowRr _ _ | udivRr _ _ | uremRr _ _ | andRr _ _ | orRr _ _ | xorRr _ _ =>
    exact completes_raised (State.checkIntRr_illegal (.inl (State.legal_of_two hm h)))

/-- The classes of R96 by their bytes and by their registers. -/
theorem State.legal_of_outsideClass {c : RefClass} {ref : Ref} (h : OutsideClass c ref) : s.legal c ref = false := by
  have accepts : c.accepts ref = false := by
    unfold OutsideClass RefClass.firstLast at h
    cases c <;> cases ref <;> simp_all [RefClass.accepts, Ref.named, regclassWide, Ref.toByte] <;> omega
  rw [State.legal, accepts, Bool.false_and]

theorem Instr.length_of_named {i : Instr} {c : RefClass} {ref : Ref} (hm : (c, ref) ∈ refsOf i)
    (hn : ref.named = true) : ∃ n, i.length = some n := by
  cases i with
  | copyVl rd _ | addVl rd _ | addcarryVl rd _ | subVl rd _ | subborrowVl rd _ | multVl rd _ | sdivVl rd _
  | udivVl rd _ | sremVl rd _ | uremVl rd _ | andVl rd _ | orVl rd _ | xorVl rd _ | compareVl rd _ =>
    obtain ⟨-, rfl⟩ := Prod.mk.inj (List.mem_singleton.1 hm)
    exact ⟨_, vlLength_named hn⟩
  | _ => exact ⟨_, rfl⟩

/-! ## Operands that do not match -/

theorem kindsMatch_eq_false {a b : Ref} (h : IsFloat a ↔ ¬IsFloat b) : kindsMatch a b = false := by
  rw [← isFloatRef_iff, ← isFloatRef_iff] at h
  unfold kindsMatch
  cases ha : isFloatRef a <;> cases hb : isFloatRef b <;> simp_all

theorem exec_lengths {i : Instr} {a b : Ref} (hp : pairOf i = some (a, b)) (hw : a.width ≠ b.width) :
    exec i s = .next (s.raise .illegalOperation (some 3)) := by
  have hmatch : widthsMatch a b = false := by simpa [widthsMatch] using hw
  cases i with
  | copyRr _ _ =>
    obtain ⟨rfl, rfl⟩ := Prod.mk.inj (Option.some.inj hp)
    exact completes_mismatch hmatch
  | addRr _ _ | subRr _ _ | multRr _ _ | sdivRr _ _ | sremRr _ _ | compareRr _ _ =>
    obtain ⟨rfl, rfl⟩ := Prod.mk.inj (Option.some.inj hp)
    exact completes_raised (State.checkRr_illegal (.inr (.inl hmatch)))
  | addcarryRr _ _ | subborrowRr _ _ | udivRr _ _ | uremRr _ _ | andRr _ _ | orRr _ _ | xorRr _ _ =>
    obtain ⟨rfl, rfl⟩ := Prod.mk.inj (Option.some.inj hp)
    exact completes_raised (State.checkIntRr_illegal (.inr hmatch))
  | _ => cases hp

theorem exec_kinds {i : Instr} {a b : Ref} (hp : kindPairOf i = some (a, b)) (hk : IsFloat a ↔ ¬IsFloat b) :
    exec i s = .next (s.raise .illegalOperation (some 3)) := by
  cases i with
  | addRr _ _ | subRr _ _ | multRr _ _ | sdivRr _ _ | sremRr _ _ | compareRr _ _ =>
    obtain ⟨rfl, rfl⟩ := Prod.mk.inj (Option.some.inj hp)
    exact completes_raised (State.checkRr_illegal (.inr (.inr (kindsMatch_eq_false hk))))
  | _ => cases hp

end

/-! ## The obligations -/

/-- Settles O14. -/
theorem illegalReferencesTrap : Obligations.IllegalReferencesTrap := by
  intro i s c ref hm hout
  refine ⟨_, exec_illegal hm (State.legal_of_outsideClass hout), State.raise_eq _ _ _, fun n hn => ?_⟩
  rw [hn]
  exact ⟨rfl, rfl⟩

/-- Settles O15. -/
theorem privilegedRegistersTrap : Obligations.PrivilegedRegistersTrap := by
  intro i s c ref hu hm href
  have hnamed : ref.named = true := by rcases href with rfl | rfl | rfl <;> rfl
  have hprivileged : isPrivilegedRef ref = true := by rcases href with rfl | rfl | rfl <;> rfl
  have hl : s.legal c ref = false := by simp [State.legal, hu, hprivileged]
  obtain ⟨n, hn⟩ := Instr.length_of_named hm hnamed
  refine ⟨n, hn, ?_⟩
  rw [exec_illegal hm hl, hn, State.raise_some (by decide)]
  rfl

/-- Settles O16. -/
theorem mismatchedOperandsTrap : Obligations.MismatchedOperandsTrap := by
  intro i s a b
  have trapped : s.raise .illegalOperation (some 3) = s.trapped .illegalOperation 3 := State.raise_some (by decide) 3
  exact ⟨fun hp hw => by rw [exec_lengths hp hw, trapped], fun hp hk => by rw [exec_kinds hp hk, trapped]⟩

end Sys2Proof.Machine
end

section
/-!
Data movement and calls (41_data_movement.md; 44_flow_control.md R275, R276): each instruction of a register it may name is
its memory access, what stops that access stops the instruction, and what the access answers the instruction stores.
-/

namespace Sys2Proof.Machine

/-! ## Instructions with legal operands -/

section
variable {s : State} {rr : Ref}

theorem exec_loadLa (h : s.Allows rr) (a : Word) :
    exec (.loadLa rr a) s = completes (some 6) s (s.loadInto rr a) := by
  show completes (some 6) s (need (s.legal .any rr) >>= _) = _
  rw [State.legal_any.2 h]; rfl

theorem exec_loadRa (h : s.Allows rr) (i : Fin 8) :
    exec (.loadRa rr (.r i)) s = completes (some 3) s (s.loadInto rr (s.r.get i)) := by
  show completes (some 3) s (need (s.legal .any rr && s.legal .address (.r i)) >>= _) = _
  rw [State.legal_any.2 h, State.legal_address_r, State.addressIn_r]; rfl

theorem exec_storeLa (h : s.Allows rr) (a : Word) :
    exec (.storeLa a rr) s = completes (some 6) s (s.storeFrom rr a) := by
  show completes (some 6) s (need (s.legal .any rr) >>= _) = _
  rw [State.legal_any.2 h]; rfl

theorem exec_storeRa (h : s.Allows rr) (i : Fin 8) :
    exec (.storeRa (.r i) rr) s = completes (some 3) s (s.storeFrom rr (s.r.get i)) := by
  show completes (some 3) s (need (s.legal .any rr && s.legal .address (.r i)) >>= _) = _
  rw [State.legal_any.2 h, State.legal_address_r, State.addressIn_r]; rfl

theorem exec_swapLa (h : s.Allows rr) (a : Word) :
    exec (.swapLa rr a) s = completes (some 6) s (s.swapWith rr a) := by
  show completes (some 6) s (need (s.legal .any rr) >>= _) = _
  rw [State.legal_any.2 h]; rfl

theorem exec_swapRa (h : s.Allows rr) (i : Fin 8) :
    exec (.swapRa rr (.r i)) s = completes (some 3) s (s.swapWith rr (s.r.get i)) := by
  show completes (some 3) s (need (s.legal .any rr && s.legal .address (.r i)) >>= _) = _
  rw [State.legal_any.2 h, State.legal_address_r, State.addressIn_r]; rfl

/-- The state PUSH stores in, its stack pointer lowered (R156, D23). -/
def State.lowered (s : State) (rr : Ref) : State := s.setSp (s.sp - BitVec.ofNat 32 (bytesOf rr))

theorem exec_push (h : s.Allows rr) :
    exec (.push rr) s =
      completes (some 2) s ((s.lowered rr).memWrite (s.sp - BitVec.ofNat 32 (bytesOf rr)) ((s.lowered rr).x rr)) := by
  show completes (some 2) s (need (s.legal .any rr) >>= _) = _
  rw [State.legal_any.2 h]
  show completes (some 2) s ((s.lowered rr).memWrite (s.setSp _).sp ((s.lowered rr).x rr)) = _
  rw [State.setSp_sp]; rfl

theorem exec_pop (h : s.Allows rr) :
    exec (.pop rr) s = completes (some 2) s (s.memRead rr.width s.sp >>= fun v =>
      .ok ((s.setX rr v).setSp ((s.setX rr v).sp + BitVec.ofNat 32 (bytesOf rr)))) := by
  show completes (some 2) s (need (s.legal .any rr) >>= _) = _
  rw [State.legal_any.2 h]; rfl

theorem exec_callLa (s : State) (a : Word) : exec (.callLa a) s = settle (some 5) s (s.callTo 5 a) := rfl

theorem exec_callRa (s : State) (i : Fin 8) :
    exec (.callRa (.r i)) s = settle (some 2) s (s.callTo 2 (s.r.get i)) := by
  show settle (some 2) s (need (s.legal .address (.r i)) >>= _) = _
  rw [State.legal_address_r, State.addressIn_r]; rfl

theorem exec_ret (s : State) : exec .ret s = settle (some 1) s s.returnFromCall := rfl

/-! ## What stops the access stops the instruction -/

variable {c : Cause} {a : Word}

theorem exec_load_stops (h : s.Allows rr) (hr : s.memRead rr.width a = .error (.raise c)) :
    exec (.loadLa rr a) s = .next (s.raise c (some 6)) ∧
      ∀ i, s.r.get i = a → exec (.loadRa rr (.r i)) s = .next (s.raise c (some 3)) := by
  have stop : s.loadInto rr a = .error (.raise c) := by rw [State.loadInto, hr]; rfl
  refine ⟨by rw [exec_loadLa h, stop]; rfl, ?_⟩
  rintro i rfl
  rw [exec_loadRa h, stop]; rfl

theorem exec_store_stops (h : s.Allows rr) (hw : ∀ v : BitVec rr.width, s.memWrite a v = .error (.raise c)) :
    exec (.storeLa a rr) s = .next (s.raise c (some 6)) ∧
      ∀ i, s.r.get i = a → exec (.storeRa (.r i) rr) s = .next (s.raise c (some 3)) := by
  have stop : s.storeFrom rr a = .error (.raise c) := hw _
  refine ⟨by rw [exec_storeLa h, stop]; rfl, ?_⟩
  rintro i rfl
  rw [exec_storeRa h, stop]; rfl

theorem exec_swap_stops (h : s.Allows rr) (hstop : s.swapWith rr a = .error (.raise c)) :
    exec (.swapLa rr a) s = .next (s.raise c (some 6)) ∧
      ∀ i, s.r.get i = a → exec (.swapRa rr (.r i)) s = .next (s.raise c (some 3)) := by
  refine ⟨by rw [exec_swapLa h, hstop]; rfl, ?_⟩
  rintro i rfl
  rw [exec_swapRa h, hstop]; rfl

theorem State.swapWith_read_stops (hr : s.memRead rr.width a = .error (.raise c)) :
    s.swapWith rr a = .error (.raise c) := by rw [State.swapWith, hr]; rfl

theorem State.swapWith_write_stops {pl : List Word} (hreach : s.Reaches .read (addrs a (bytesOf rr)) pl)
    (hread : s.Readable pl) (hw : ∀ v : BitVec rr.width, s.memWrite a v = .error (.raise c)) :
    s.swapWith rr a = .error (.raise c) := by
  rw [State.swapWith, State.memRead_of hreach hread]
  show (s.memWrite a (s.x rr) >>= _) = _
  rw [hw]; rfl

theorem exec_push_stops (h : s.Allows rr) (hw : ∀ v : BitVec rr.width,
    (s.lowered rr).memWrite (s.sp - BitVec.ofNat 32 (bytesOf rr)) v = .error (.raise c)) :
    exec (.push rr) s = .next (s.raise c (some 2)) := by
  rw [exec_push h, hw]; rfl

theorem exec_pop_stops (h : s.Allows rr) (hr : s.memRead rr.width s.sp = .error (.raise c)) :
    exec (.pop rr) s = .next (s.raise c (some 2)) := by
  rw [exec_pop h, hr]; rfl

theorem exec_call_stops (hstop : ∀ (n : Nat) (target : Word), s.callTo n target = .error (.raise c)) :
    exec (.callLa a) s = .next (s.raise c (some 5)) ∧
      ∀ i, exec (.callRa (.r i)) s = .next (s.raise c (some 2)) :=
  ⟨by rw [exec_callLa, hstop]; rfl, fun i => by rw [exec_callRa, hstop]; rfl⟩

/-! ## The stack -/

theorem State.push_of_faults {w : Nat} {v : BitVec w}
    (h : s.Faults .write (addrs (s.sp - BitVec.ofNat 32 (w / 8)) (w / 8))) :
    s.push v = .error (.raise .pageFault) := by
  simp only [State.push, State.sp_setSp]
  exact State.memWrite_of_faults (State.faults_setSp.2 h)

theorem State.push_of_refused {w : Nat} {v : BitVec w}
    (h : s.WriteRefused (addrs (s.sp - BitVec.ofNat 32 (w / 8)) (w / 8))) :
    s.push v = .error (.raise .illegalOperation) := by
  simp only [State.push, State.sp_setSp]
  exact State.memWrite_of_refused (State.writeRefused_setSp.2 h)

theorem State.pop_of_faults {w : Nat} (h : s.Faults .read (addrs s.sp (w / 8))) :
    s.pop w = .error (.raise .pageFault) := by
  rw [State.pop, State.memRead_of_faults h]; rfl

theorem State.callTo_first_stops (h : ∀ v : Word, s.push v = .error (.raise c)) (n : Nat) (target : Word) :
    s.callTo n target = .error (.raise c) := by
  rw [State.callTo, h]; rfl

/-- The second push of a CALL, where the first reached ram (R275). -/
theorem State.callTo_second_stops {pl : List Word} (hreach : s.Reaches .write (addrs (s.sp - 4) 4) pl)
    (hram : s.AllRam pl)
    (h : ∀ (m : Memory) (v : BitVec 16), ((s.setSp (s.sp - 4)).setMem m).push v = .error (.raise c))
    (n : Nat) (target : Word) : s.callTo n target = .error (.raise c) := by
  rw [State.callTo, State.push_of hreach hram]
  show (State.push _ _ >>= _) = _
  rw [show s.sp - BitVec.ofNat 32 (32 / 8) = s.sp - 4 from rfl, h]; rfl

/-- The stack of the second push: below what the first wrote. -/
theorem State.sp_second_push (s : State) (m : Memory) : ((s.setSp (s.sp - 4)).setMem m).sp - 2 = s.sp - 6 := by
  have hsp : ((s.setSp (s.sp - 4)).setMem m).sp = s.sp - 4 := State.sp_setSp s _
  rw [hsp, BitVec.sub_sub]; rfl

theorem State.second_push_of_faults (hs : s.Steady) (h : s.Faults .write (addrs (s.sp - 6) 2)) (m : Memory)
    (v : BitVec 16) : ((s.setSp (s.sp - 4)).setMem m).push v = .error (.raise .pageFault) := by
  refine State.push_of_faults ?_
  rw [State.faults_setMem_setSp, show BitVec.ofNat 32 (16 / 8) = (2 : Word) from rfl, State.sp_second_push,
    State.faults_setMem hs]
  exact h

theorem State.second_push_of_refused (hs : s.Steady) (h : s.WriteRefused (addrs (s.sp - 6) 2)) (m : Memory)
    (v : BitVec 16) : ((s.setSp (s.sp - 4)).setMem m).push v = .error (.raise .illegalOperation) := by
  refine State.push_of_refused ?_
  rw [State.writeRefused_setMem_setSp, show BitVec.ofNat 32 (16 / 8) = (2 : Word) from rfl, State.sp_second_push,
    State.writeRefused_setMem hs]
  exact h

theorem State.returnFromCall_first_stops (h : s.pop 16 = .error (.raise c)) :
    s.returnFromCall = .error (.raise c) := by rw [State.returnFromCall, h]; rfl

theorem State.returnFromCall_second_stops {pl : List Word} (hreach : s.Reaches .read (addrs s.sp 2) pl)
    (hread : s.Readable pl) (h : (s.setSp (s.sp + 2)).pop 32 = .error (.raise c)) :
    s.returnFromCall = .error (.raise c) := by
  rw [State.returnFromCall, State.pop_of hreach hread]
  show (State.pop _ _ >>= _) = _
  rw [show s.sp + BitVec.ofNat 32 (16 / 8) = s.sp + 2 from rfl, h]; rfl

theorem State.pageFaulted_raise (s : State) (len : Option Nat) : s.PageFaulted (.next (s.raise .pageFault len)) :=
  ⟨_, rfl⟩

/-- A fetch that faults: the step raises PageFault in the state the sources left (R312, U12). -/
theorem step_of_fetch_fault (hh : s.halted = false) (hp : s.paused = false) (hc : s.sample.choose = none)
    (h : s.sample.fetch = .error (.raise .pageFault)) : s.sample.PageFaulted (step s) := by
  rw [step_runs hh hp hc, runInstruction, h]
  exact State.pageFaulted_raise _ none

end

/-! ## Refused stores -/

/-- Settles O20. -/
theorem readOnlyStoresTrap : Obligations.ReadOnlyStoresTrap := by
  intro s rr i a
  have trapped (n : Nat) : s.raise .illegalOperation (some n) = s.trapped .illegalOperation n :=
    State.raise_some (by decide) n
  simp only [← trapped]
  refine ⟨fun ha hw => ?_, fun ha hw => ?_, fun hw => ?_, fun hs hw pl hreach hram => ?_⟩
  · have stop (v : BitVec rr.width) := State.memWrite_of_refused (v := v) hw
    obtain ⟨hla, hra⟩ := exec_store_stops ha stop
    refine ⟨hla, hra i, fun pl hreach hread => ?_⟩
    obtain ⟨hla, hra⟩ := exec_swap_stops ha (State.swapWith_write_stops hreach hread stop)
    exact ⟨hla, hra i⟩
  · exact exec_push_stops ha fun v => State.memWrite_of_refused (State.writeRefused_setSp.2 hw)
  · obtain ⟨hla, hra⟩ := exec_call_stops (a := a) (State.callTo_first_stops fun v => State.push_of_refused hw)
    exact ⟨hla, hra i⟩
  · obtain ⟨hla, hra⟩ := exec_call_stops (a := a)
      (State.callTo_second_stops hreach hram (State.second_push_of_refused hs hw))
    exact ⟨hla, hra i⟩

/-! ## Faulting accesses -/

/-- Settles O21. -/
theorem userAccessesPageFault : Obligations.UserAccessesPageFault := by
  intro s
  have faulted {out : Result} {len : Option Nat} (h : out = .next (s.raise .pageFault len)) : s.PageFaulted out :=
    h ▸ s.pageFaulted_raise len
  have sp_of {acc : Access} {l : List Word} (h : s.Faults acc l) : s.sp = s.uspr := State.sp_user s h.1
  refine ⟨fun hh hp hc => ⟨fun hf => ?_, fun i k pl hi hk hreach hread hb hf => ?_⟩,
    fun rr i a ha => ⟨fun hf => ?_, fun hf => ?_, fun hf => ?_, fun hf => ?_⟩,
    fun i a => ⟨fun hf => ?_, fun hs hf pl hreach hram => ?_⟩, fun hf => ?_, fun hf pl hreach hread => ?_⟩
  · exact step_of_fetch_fault hh hp hc (State.fetch_of_faults hf)
  · exact step_of_fetch_fault hh hp hc
      (State.fetch_of_later_fault hi hk hreach (State.readable_sample.2 hread) hb hf)
  · have stop : s.memRead rr.width a = _ := State.memRead_of_faults hf
    obtain ⟨hla, hra⟩ := exec_load_stops ha stop
    obtain ⟨hsla, hsra⟩ := exec_swap_stops ha (State.swapWith_read_stops stop)
    exact ⟨faulted hla, faulted hsla, fun hi => ⟨faulted (hra i hi), faulted (hsra i hi)⟩⟩
  · have stop (v : BitVec rr.width) := State.memWrite_of_faults (v := v) hf
    obtain ⟨hla, hra⟩ := exec_store_stops ha stop
    refine ⟨faulted hla, fun hi => faulted (hra i hi), fun pl hreach hread => ?_⟩
    obtain ⟨hsla, hsra⟩ := exec_swap_stops ha (State.swapWith_write_stops hreach hread stop)
    exact ⟨faulted hsla, fun hi => faulted (hsra i hi)⟩
  · rw [← sp_of hf] at hf
    exact faulted (exec_push_stops ha fun v => State.memWrite_of_faults (State.faults_setSp.2 hf))
  · rw [← sp_of hf] at hf
    exact faulted (exec_pop_stops ha (State.memRead_of_faults hf))
  · rw [← sp_of hf] at hf
    obtain ⟨hla, hra⟩ := exec_call_stops (a := a) (State.callTo_first_stops fun v => State.push_of_faults hf)
    exact ⟨faulted hla, faulted (hra i)⟩
  · rw [← sp_of hf] at hf hreach
    obtain ⟨hla, hra⟩ := exec_call_stops (a := a)
      (State.callTo_second_stops hreach hram (State.second_push_of_faults hs hf))
    exact ⟨faulted hla, faulted (hra i)⟩
  · rw [← sp_of hf] at hf
    refine faulted (len := some 1) ?_
    rw [exec_ret, State.returnFromCall_first_stops (State.pop_of_faults hf)]; rfl
  · rw [← sp_of hf] at hf hreach
    refine faulted (len := some 1) ?_
    have stop : (s.setSp (s.sp + 2)).pop 32 = .error (.raise .pageFault) :=
      State.pop_of_faults (by rw [State.sp_setSp, State.faults_setSp]; exact hf)
    rw [exec_ret, State.returnFromCall_second_stops hreach hread stop]; rfl

end Sys2Proof.Machine
end

section
/-!
Data movement and calls that complete (41_data_movement.md; 44_flow_control.md R275, R276): what each stores and what it
leaves.
-/

namespace Sys2Proof.Machine

/-! ## LOAD, STORE, SWAP -/

section
variable {s : State} {rr : Ref} {a : Word} {pl pw : List Word}

theorem State.loadInto_of (hreach : s.Reaches .read (addrs a (bytesOf rr)) pl) (hread : s.Readable pl) :
    s.loadInto rr a = .ok (s.setX rr (ofBytes rr.width (s.bytesAt pl))) := by
  rw [State.loadInto, State.memRead_of hreach hread]; rfl

theorem State.storeFrom_of (hreach : s.Reaches .write (addrs a (bytesOf rr)) pl) (hram : s.AllRam pl) :
    s.storeFrom rr a = .ok (s.setMem (s.mem.writeAll pl (toBytes (s.x rr)))) :=
  State.memWrite_of hreach hram

theorem State.swapWith_of (hreach : s.Reaches .read (addrs a (bytesOf rr)) pl) (hread : s.Readable pl)
    (hreach' : s.Reaches .write (addrs a (bytesOf rr)) pw) (hram : s.AllRam pw) :
    s.swapWith rr a = .ok ((s.setMem (s.mem.writeAll pw (toBytes (s.x rr)))).setX rr
      (ofBytes rr.width (s.bytesAt pl))) := by
  rw [State.swapWith, State.memRead_of hreach hread]
  show (s.memWrite a (s.x rr) >>= _) = _
  rw [State.memWrite_of hreach' hram]; rfl

/-- The bytes of a register stored where a write of its width reaches. -/
theorem State.stores_register {t : State} {ref : Ref} {v : BitVec ref.width} (hs : s.Inv)
    (hreach : s.Reaches .write (addrs a (bytesOf ref)) pl) (ht : t.mem = s.mem.writeAll pl (toBytes v)) :
    s.Stores t pl (toBytes v) :=
  State.stores_writeAll hs (by rw [hreach.length, addrs_length, toBytes_length]; rfl) ht

end

/-- Settles O25. -/
theorem loadCompletes : Obligations.LoadCompletes := by
  intro s rr a pl ha hreach hread
  refine ⟨?_, ?_⟩
  · rw [exec_loadLa ha, State.loadInto_of hreach hread, completes_ok, State.advance_setX]; rfl
  · rintro i rfl
    rw [exec_loadRa ha, State.loadInto_of hreach hread, completes_ok, State.advance_setX]; rfl

/-- Settles O26. -/
theorem storeCompletes : Obligations.StoreCompletes := by
  intro s rr a pl hs ha hreach hram
  have stores (n : Nat) := State.stores_register (v := s.x rr)
    (t := (s.setMem (s.mem.writeAll pl (toBytes (s.x rr)))).advance n) hs hreach rfl
  refine ⟨⟨_, ?_, rfl, stores 6⟩, ?_⟩
  · rw [exec_storeLa ha, State.storeFrom_of hreach hram]; rfl
  · rintro i rfl
    refine ⟨_, ?_, rfl, stores 3⟩
    rw [exec_storeRa ha, State.storeFrom_of hreach hram]; rfl

/-- Settles O29. -/
theorem swapCompletes : Obligations.SwapCompletes := by
  intro s rr a pl pw hs ha hreach hread hreach' hram
  have stores (p : Word) := State.stores_register (v := s.x rr) (t := { s.setX rr (ofBytes rr.width (s.bytesAt pl)) with
    mem := s.mem.writeAll pw (toBytes (s.x rr)), pc := p }) hs hreach' rfl
  refine ⟨⟨_, ?_, rfl, stores (s.pc + 6)⟩, ?_⟩
  · rw [exec_swapLa ha, State.swapWith_of hreach hread hreach' hram, completes_ok, State.advance_setX_setMem]; rfl
  · rintro i rfl
    refine ⟨_, ?_, rfl, stores (s.pc + 3)⟩
    rw [exec_swapRa ha, State.swapWith_of hreach hread hreach' hram, completes_ok, State.advance_setX_setMem]; rfl

/-! ## PUSH and POP -/

theorem exec_push_of {s : State} {rr : Ref} {pl : List Word} (ha : s.Allows rr)
    (hreach : s.Reaches .write (addrs (s.sp - BitVec.ofNat 32 (bytesOf rr)) (bytesOf rr)) pl) (hram : s.AllRam pl) :
    exec (.push rr) s = .next { s.lowered rr with
      mem := s.mem.writeAll pl (toBytes ((s.lowered rr).x rr)), pc := s.pc + 2 } := by
  have hmem : (s.lowered rr).mem = s.mem := State.setSp_mem s _
  have hpc : (s.lowered rr).pc = s.pc := State.setSp_pc s _
  have hreach' : (s.lowered rr).Reaches .write (addrs (s.sp - BitVec.ofNat 32 (bytesOf rr)) (rr.width / 8)) pl :=
    State.reaches_setSp.2 hreach
  have hram' : (s.lowered rr).AllRam pl := State.allRam_setSp.2 hram
  rw [exec_push ha, State.memWrite_of hreach' hram', ← hmem, ← hpc]
  rfl

/-- Settles O30. -/
theorem pushCompletes : Obligations.PushCompletes := by
  intro s rr pl hs ha hreach hram
  exact ⟨_, exec_push_of ha hreach hram, rfl, State.stores_register hs hreach rfl⟩

/-- Settles O31. -/
theorem popCompletes : Obligations.PopCompletes := by
  rintro s t rr pl ha hreach hread rfl
  have hpc (v : BitVec rr.width) (p : Word) : ((s.setX rr v).setSp p).pc = s.pc := by
    rw [State.setSp_pc, State.setX_pc]
  rw [exec_pop ha, State.memRead_of hreach hread]
  exact congrArg Host.Outcome.next (State.advance_of_pc (hpc _ _) 2)

/-- The stack pointer's own register aside, a register keeps its value when the stack pointer moves. -/
theorem State.x_setSp {s : State} {ref : Ref} (h : ref ≠ s.activeStack) (v : Word) :
    (s.setSp v).x ref = s.x ref := by
  unfold State.activeStack at h
  cases hm : s.mode with
  | kernel =>
    rw [hm] at h
    rw [State.setSp_kernel s hm]
    cases ref <;> first | rfl | exact absurd rfl h
  | user =>
    rw [hm] at h
    rw [State.setSp_user s hm]
    cases ref <;> first | rfl | exact absurd rfl h

theorem State.sp_setX {s : State} {ref : Ref} (h : ref ≠ s.activeStack) (v : BitVec ref.width) :
    (s.setX ref v).sp = s.sp := by
  unfold State.activeStack at h
  cases hm : s.mode with
  | kernel =>
    rw [hm] at h
    rw [State.sp_kernel s hm, State.sp_kernel _ ((State.setX_mode s ref v).trans hm)]
    cases ref <;> first | rfl | exact absurd rfl h
  | user =>
    rw [hm] at h
    rw [State.sp_user s hm, State.sp_user _ ((State.setX_mode s ref v).trans hm)]
    cases ref <;> first | rfl | exact absurd rfl h

/-- The stack is reached alike after its pointer, `pc` and memory have changed. -/
theorem State.reaches_stacked {s : State} (hs : s.Steady) (p q : Word) (m : Memory) (acc : Access) (l pl : List Word) :
    State.Reaches { s.setSp p with mem := m, pc := q } acc l pl ↔ s.Reaches acc l pl :=
  State.reaches_congr (t := { s.setSp p with mem := m, pc := q }) (State.setSp_mode s p)
    (fun hu v acc => (State.translate_setMem_setSp v acc).trans (hs hu m v acc)) acc l pl

theorem State.readable_stacked {s : State} (p q : Word) (m : Memory) (l : List Word) :
    State.Readable { s.setSp p with mem := m, pc := q } l ↔ s.Readable l :=
  State.readable_congr (t := { s.setSp p with mem := m, pc := q }) (State.setSp_physMap s p) l

theorem State.sp_stacked {s : State} (p q : Word) (m : Memory) : State.sp { s.setSp p with mem := m, pc := q } = p :=
  State.sp_setSp s p

/-- Lowered and raised again the stack pointer is what it was, whatever other register was written between. -/
theorem State.raised_setX_stacked {s : State} {ref : Ref} (h : ref ≠ s.activeStack) (v : BitVec ref.width) (p q : Word)
    (m : Memory) : (State.setX { s.setSp p with mem := m, pc := q } ref v).setSp s.sp =
      { s.setX ref v with mem := m, pc := q } := by
  unfold State.activeStack at h
  cases hm : s.mode with
  | kernel =>
    rw [hm] at h
    rw [State.setSp_kernel s hm, State.sp_kernel s hm]
    refine (State.setSp_kernel _ (by rw [State.setX_mode]; exact hm) _).trans ?_
    cases ref <;> first | rfl | exact absurd rfl h
  | user =>
    rw [hm] at h
    rw [State.setSp_user s hm, State.sp_user s hm]
    refine (State.setSp_user _ (by rw [State.setX_mode]; exact hm) _).trans ?_
    cases ref <;> first | rfl | exact absurd rfl h

/-- Settles O32. -/
theorem pushThenPopMovesValue : Obligations.PushThenPopMovesValue := by
  intro s a b pl hs hst ha hb hna hnb hw hwrite hread hnd hram
  have hbytes : bytesOf a = bytesOf b := congrArg (· / 8) hw
  refine ⟨_, exec_push_of ha hwrite hram, ?_⟩
  set m := s.mem.writeAll pl (toBytes ((s.lowered a).x a)) with hm
  set t : State := { s.lowered a with mem := m, pc := s.pc + 2 } with ht
  have hsp : t.sp = s.sp - BitVec.ofNat 32 (bytesOf a) := State.sp_stacked _ _ _
  have hpopped : t.bytesAt pl = toBytes (s.x a) := by
    rw [(State.stores_register hs hwrite rfl : s.Stores t pl _).1 hnd, State.lowered, State.x_setSp hna]
  have hvalue : ofBytes b.width (t.bytesAt pl) = (s.x a).setWidth b.width := by
    rw [hpopped, ← hw, ofBytes_toBytes (Ref.width_bytes a).1, BitVec.setWidth_eq]
  have hpop := popCompletes t _ b pl ?allows ?reach ?readable rfl
  case allows => exact ⟨hb.1, fun hu => hb.2 ((State.setSp_mode s _).symm.trans hu)⟩
  case reach => rw [hsp, ← hbytes]; exact (State.reaches_stacked hst _ _ _ _ _ _).2 hread
  case readable => exact (State.readable_stacked _ _ _ _).2 hram.readable
  have hraised : (t.setX b (ofBytes b.width (t.bytesAt pl))).sp + BitVec.ofNat 32 (bytesOf b) = s.sp := by
    rw [State.sp_setX (by rwa [State.activeStack, show t.mode = s.mode from State.setSp_mode s _]), hsp, hbytes,
      BitVec.sub_add_cancel]
  rw [hpop, hraised, hvalue, ht, State.lowered, State.raised_setX_stacked hnb]
  have : s.pc + 2 + 2 = s.pc + 4 := BitVec.add_assoc ..
  rw [← this]

/-! ## CALL and RETURN -/

section
variable {s : State} {pl : List Word}

/-- Both pushes of CALL in ram (R275): FLAGS lies below the return address. -/
theorem State.callTo_of {pf pr : List Word} (hs : s.Steady) (hret : s.Reaches .write (addrs (s.sp - 4) 4) pr)
    (hret' : s.AllRam pr) (hfl : s.Reaches .write (addrs (s.sp - 6) 2) pf) (hfl' : s.AllRam pf) (n : Nat)
    (target : Word) :
    s.callTo n target = .ok { s.setSp (s.sp - 6) with
      mem := (s.mem.writeAll pr (toBytes (s.pc + BitVec.ofNat 32 n))).writeAll pf (toBytes (s.flags.setWidth 16))
      pc := target } := by
  set s1 := (s.setSp (s.sp - 4)).setMem (s.mem.writeAll pr (toBytes (s.pc + BitVec.ofNat 32 n))) with hs1
  have first : s.push (s.pc + BitVec.ofNat 32 n) = .ok s1 := State.push_of hret hret'
  have hlow : s1.sp - BitVec.ofNat 32 (16 / 8) = s.sp - 6 := State.sp_second_push s _
  have hreach : s1.Reaches .write (addrs (s1.sp - BitVec.ofNat 32 (16 / 8)) 2) pf := by
    rw [hlow]; exact (State.reaches_stacked hs _ _ _ _ _ _).2 hfl
  have hram : s1.AllRam pf := (State.allRam_congr (t := s1) (State.setSp_physMap s _) pf).2 hfl'
  have second : s1.push (s.flags.setWidth 16) = 
      .ok ((s1.setSp (s.sp - 6)).setMem (s1.mem.writeAll pf (toBytes (s.flags.setWidth 16)))) := by
    rw [State.push_of (w := 16) hreach hram, hlow]
  rw [State.callTo, first, State.flags_image]
  show (s1.push _ >>= _) = _
  rw [second]
  cases hm : s.mode <;> simp [hs1, State.setSp, hm, State.setMem, State.setPc, bind, Except.bind]

theorem State.call_stores (hinv : s.Inv) (hs : s.Steady) (hreach : s.Reaches .write (addrs (s.sp - 6) 6) pl)
    (hram : s.AllRam pl) (n : Nat) (target : Word) :
    ∃ t : State, s.callTo n target = .ok t ∧ t = { s.setSp (s.sp - 6) with mem := t.mem, pc := target } ∧
      s.Stores t pl (toBytes (s.flags.setWidth 16) ++ toBytes (s.pc + BitVec.ofNat 32 n)) := by
  rw [addrs_stack, show s.sp - 4 - 2 = s.sp - 6 by rw [BitVec.sub_sub]; rfl] at hreach
  obtain ⟨pf, pr, rfl, hfl, hret⟩ := State.reaches_append.1 hreach
  obtain ⟨hfl', hret'⟩ := State.allRam_append.1 hram
  refine ⟨_, State.callTo_of hs hret hret' hfl hfl' n target, rfl, State.stores_two hinv ?_ ?_ rfl⟩
  · rw [hfl.length, addrs_length, toBytes_length]
  · rw [hret.length, addrs_length, toBytes_length]

end

/-- Settles O51. -/
theorem callCompletes : Obligations.CallCompletes := by
  intro s target pl hinv hs hreach hram
  refine ⟨?_, ?_⟩
  · obtain ⟨t, hcall, ht⟩ := State.call_stores hinv hs hreach hram 5 target
    exact ⟨t, by rw [exec_callLa, hcall]; rfl, ht⟩
  · rintro i rfl
    obtain ⟨t, hcall, ht⟩ := State.call_stores hinv hs hreach hram 2 (s.r.get i)
    exact ⟨t, by rw [exec_callRa, hcall]; rfl, ht⟩

/-- Settles O52. -/
theorem returnCompletes : Obligations.ReturnCompletes := by
  intro s pl hreach hread
  rw [addrs_call] at hreach
  obtain ⟨pf, pr, rfl, hfl, hret⟩ := State.reaches_append.1 hreach
  obtain ⟨hfl', hret'⟩ := State.readable_append.1 hread
  have hlen : (s.bytesAt pf).length = 2 := by rw [State.bytesAt, List.length_map, hfl.length, addrs_length]
  have first : s.pop 16 = .ok (ofBytes 16 (s.bytesAt pf), s.setSp (s.sp + 2)) := State.pop_of hfl hfl'
  have second : (s.setSp (s.sp + 2)).pop 32 =
      .ok (ofBytes 32 (s.bytesAt pr), (s.setSp (s.sp + 2)).setSp (s.sp + 6)) := by
    rw [State.pop_of (pl := pr) (by rw [State.sp_setSp]; exact State.reaches_setSp.2 hret)
      (State.readable_setSp.2 hret'), State.bytesAt_congr (State.setSp_mem s _), State.sp_setSp, BitVec.add_assoc]
    rfl
  rw [State.bytesAt_append, List.take_left' hlen, List.drop_left' hlen, exec_ret, State.returnFromCall, first]
  show settle (some 1) s (State.pop _ _ >>= _) = _
  rw [second]
  cases hm : s.mode <;>
    simp [State.setSp, hm, State.setFlags, State.setPc, bind, Except.bind, BitVec.setWidth_eq_extractLsb']

/-- RETURN in a state a CALL leaves, where the stack is read where it was written. -/
theorem exec_ret_called {s t : State} {pl : List Word} {target ret : Word} (hs : s.Steady)
    (hread : s.Reaches .read (addrs (s.sp - 6) 6) pl) (hram : s.AllRam pl) (hnd : pl.Nodup)
    (ht : t = { s.setSp (s.sp - 6) with mem := t.mem, pc := target })
    (hst : s.Stores t pl (toBytes (s.flags.setWidth 16) ++ toBytes ret)) :
    exec .ret t = .next { s with mem := t.mem, pc := ret } := by
  have hsp : t.sp = s.sp - 6 := by rw [ht]; exact State.sp_stacked _ _ _
  have hreach : t.Reaches .read (addrs t.sp 6) pl := by
    rw [hsp, ht]; exact (State.reaches_stacked hs _ _ _ _ _ _).2 hread
  have hreadable : t.Readable pl := by rw [ht]; exact (State.readable_stacked _ _ _ _).2 hram.readable
  rw [returnCompletes t pl hreach hreadable, hst.1 hnd, List.take_left' (by simp), List.drop_left' (by simp),
    ofBytes_toBytes rfl, ofBytes_toBytes rfl, hsp, BitVec.sub_add_cancel,
    BitVec.setWidth_setWidth_of_le _ (by decide), BitVec.setWidth_eq, ht]
  cases hm : s.mode <;> simp [State.setSp, State.sp, hm]

/-- Settles O53. -/
theorem callThenReturn : Obligations.CallThenReturn := by
  intro s pl hinv hs hwrite hread hnd hram
  refine ⟨fun target => ?_, fun i => ?_⟩
  · obtain ⟨⟨t, hcall, ht, hst⟩, _⟩ := callCompletes s target pl hinv hs hwrite hram
    exact ⟨t, hcall, exec_ret_called hs hread hram hnd ht hst⟩
  · obtain ⟨_, hra⟩ := callCompletes s (s.r.get i) pl hinv hs hwrite hram
    obtain ⟨t, hcall, ht, hst⟩ := hra i rfl
    exact ⟨t, hcall, exec_ret_called hs hread hram hnd ht hst⟩

end Sys2Proof.Machine
end

section
/-!
Register writes (10_state.md R24 to R27, R33), the order of bytes in memory (20_memory.md R62) and COPY (41_data_movement.md
R153, R154).
-/

namespace Sys2Proof.Machine

/-! ## Registers -/

theorem State.x_setX_same (s : State) {ref : Ref} (hn : ref.named = true) (hf : ref ≠ .flags) (v : BitVec ref.width) :
    (s.setX ref v).x ref = v := by
  cases ref with
  | r i => exact State.get_setX_r s i v
  | h i => rw [State.x_h, State.get_setX_h]; exact BitVec.extractLsb'_append_eq_right
  | b i => rw [State.x_b, State.get_setX_b]; exact BitVec.extractLsb'_append_eq_right
  | f i => exact Bank.get_set_same s.f i v
  | flags => exact absurd rfl hf
  | invalid => cases hn
  | uspr | kspr | pdpr | imr => rfl

/-- R27: bit 15 of what is written to FLAGS is lost. -/
theorem State.x_setX_flags (s : State) (v : BitVec 16) : (s.setX .flags v).x .flags = v &&& 0x7FFF#16 := by
  have hmod : v.toNat &&& 0x7FFF = v.toNat % 2 ^ 15 := Nat.and_two_pow_sub_one_eq_mod v.toNat 15
  rw [State.x_flags, State.flags_image]
  show (v.extractLsb' 0 15).setWidth 16 = _
  apply BitVec.eq_of_toNat_eq
  simp [hmod]
  omega

/-- The upper part of a word in front of a new lower part of m bits (D10). -/
theorem upper_append (x : Word) {n m : Nat} (h : n + m = 32) (v : BitVec m) :
    (x.extractLsb' m n ++ v).cast h = (x >>> m) <<< m ||| v.setWidth 32 := by
  ext i hi
  by_cases him : i < m
  · simp [BitVec.getElem_append, him]
  · have : v.getLsbD i = false := BitVec.getLsbD_of_ge v i (by omega)
    simp [BitVec.getElem_append, him, this, BitVec.getLsbD_eq_getElem, hi, show m + (i - m) = i by omega]

/-- A write of a general register changes the full register of its number alone. -/
theorem State.get_setX_other (s : State) {ref : Ref} (hg : IsGeneral ref) (v : BitVec ref.width) {i : Fin 8}
    (hr : ref ≠ .r i) (hh : ref ≠ .h i) (hb : ref ≠ .b i) : (s.setX ref v).r.get i = s.r.get i := by
  obtain ⟨j, rfl | rfl | rfl⟩ := hg
  · exact Bank.get_set_other s.r j i v fun h => hr (h ▸ rfl)
  · exact Bank.get_set_other s.r j i _ fun h => hh (h ▸ rfl)
  · exact Bank.get_set_other s.r j i _ fun h => hb (h ▸ rfl)

/-- Settles O22. -/
theorem registerAndStackPointerWrites : Obligations.RegisterAndStackPointerWrites := by
  intro s i
  refine ⟨fun ref v hn hf => State.x_setX_same s hn hf v, State.x_setX_flags s, ?_, fun v => ?_, fun v => ?_,
    fun ref v hg => ⟨?_, State.get_setX_other s hg v⟩, fun j v => ⟨rfl, fun h => Bank.get_set_other s.f j i v h.symm⟩,
    fun v => ⟨?_, rfl⟩, fun v => ⟨rfl, rfl, rfl⟩, fun hm => ⟨State.sp_kernel s hm, State.setSp_kernel s hm⟩,
    fun hm => ⟨State.sp_user s hm, State.setSp_user s hm⟩⟩
  · rw [State.x_flags, BitVec.msb_append]; rfl
  · exact (State.get_setX_h s i v).trans (upper_append _ rfl v)
  · exact (State.get_setX_b s i v).trans (upper_append _ rfl v)
  · obtain ⟨j, rfl | rfl | rfl⟩ := hg <;> rfl
  · rw [BitVec.setWidth_eq_extractLsb' (by decide)]; rfl

/-! ## The order of bytes in memory -/

theorem toBytes_getElem {w : Nat} (v : BitVec w) (k : Nat) (h : k < (toBytes v).length) :
    (toBytes v)[k] = v.extractLsb' (8 * (w / 8 - 1 - k)) 8 := by
  rw [show (toBytes v)[k] = _ from bytesOfNat_getElem (w / 8) v.toNat k h]
  apply BitVec.eq_of_toNat_eq
  rw [BitVec.extractLsb'_toNat, BitVec.toNat_ofNat, Nat.shiftRight_eq_div_pow, pow_mul]
  rfl

theorem State.bytesAt_getElem (s : State) (a : Word) {n k : Nat} (h : k < n) :
    (s.bytesAt (addrs a n))[k]'(by simpa [State.bytesAt] using h) = s.mem.read (a + BitVec.ofNat 32 k).toNat := by
  simp [State.bytesAt, addrs_getElem]

/-- Part of a range of addresses. -/
theorem mem_addrs_within {a v : Word} {k m n : Nat} (h : k + m ≤ n) (hv : v ∈ addrs (a + BitVec.ofNat 32 k) m) :
    v ∈ addrs a n := by
  obtain ⟨r, rfl⟩ := Nat.exists_eq_add_of_le h
  rw [Nat.add_assoc, addrs_append, addrs_append]
  exact List.mem_append_right _ (List.mem_append_left _ hv)

/-- Settles O24. -/
theorem writesAreBigEndian : Obligations.WritesAreBigEndian := by
  intro s w v a hw hs hm hram
  have hreach : s.Reaches .write (addrs a (w / 8)) (addrs a (w / 8)) := (State.reaches_kernel hm).2 rfl
  set t := s.setMem (s.mem.writeAll (addrs a (w / 8)) (toBytes v)) with ht
  have stores : s.Stores t (addrs a (w / 8)) (toBytes v) := State.stores_writeAll hs (by simp) rfl
  have hbytes : t.bytesAt (addrs a (w / 8)) = toBytes v := stores.1 (nodup_addrs a _ (by omega))
  have byte (k : Nat) (hk : k < w / 8) :
      t.mem.read (a + BitVec.ofNat 32 k).toNat = v.extractLsb' (8 * (w / 8 - 1 - k)) 8 := by
    rw [← State.bytesAt_getElem t a hk, ← toBytes_getElem v k (by simpa using hk)]
    exact List.getElem_of_eq hbytes _
  refine ⟨t, State.memWrite_of hreach hram, rfl, stores.2, byte, fun k u hu hk => ?_⟩
  have readable : t.Readable (addrs (a + BitVec.ofNat 32 k) (u / 8)) := fun p hp =>
    .inl (hram p (mem_addrs_within hk hp))
  have narrow : t.bytesAt (addrs (a + BitVec.ofNat 32 k) (u / 8)) = toBytes (v.extractLsb' (w - 8 * k - u) u) := by
    refine List.ext_getElem (by simp [State.bytesAt]) fun j hj _ => ?_
    have hj : j < u / 8 := by simpa [State.bytesAt] using hj
    rw [State.bytesAt_getElem t _ hj, BitVec.add_assoc, ← BitVec.ofNat_add, byte (k + j) (by omega), toBytes_getElem]
    ext l hl
    simp only [BitVec.getElem_extractLsb', BitVec.getLsbD_extractLsb']
    rw [decide_eq_true (by omega), Bool.true_and]
    congr 1
    omega
  rw [State.memRead_kernel (s := t) hm readable, State.valueAt, narrow, ofBytes_toBytes (by omega)]

/-! ## COPY -/

theorem exec_copyVl {s : State} {rd : Ref} (h : s.Allows rd) (lit : Lit) :
    exec (.copyVl rd lit) s = .next ((s.setX rd (literalValue rd.width lit)).advance (2 + bytesOf rd)) := by
  show completes (vlLength rd) s (need (s.legal .any rd) >>= _) = _
  rw [State.legal_any.2 h, vlLength_named h.1]; rfl

theorem exec_copyRr {s : State} {rd rs : Ref} (hd : s.Allows rd) (hr : s.Allows rs) (hw : rd.width = rs.width) :
    exec (.copyRr rd rs) s = .next ((s.copyInto rd rs).advance 3) := by
  show completes (some 3) s (need (s.legal .any rd && s.legal .any rs) >>= fun _ => need (widthsMatch rd rs) >>= _) = _
  rw [State.legal_any.2 hd, State.legal_any.2 hr, State.widthsMatch_iff.2 hw]; rfl

theorem State.allows_f (s : State) (i : Fin 8) : s.Allows (.f i) := ⟨rfl, fun _ => by simp⟩

/-- An integer register copied to a float register is converted (R154). -/
theorem State.copyInto_float {s : State} {rs : Ref} (h : ¬IsFloat rs) (i : Fin 8) :
    s.copyInto (.f i) rs = s.setX (.f i) ((fromInt32 (s.xAs 32 rs)).setWidth 32) := by
  rw [State.copyInto, isFloatRef_eq_false.2 h]; rfl

/-- A float register copied to an integer register is converted (R154). -/
theorem State.copyInto_of_float {s : State} {rd : Ref} (h : ¬IsFloat rd) (i : Fin 8) :
    s.copyInto rd (.f i) = s.setX rd ((toInt32 (s.xAs 32 (.f i))).setWidth rd.width) := by
  rw [State.copyInto, isFloatRef_eq_false.2 h]; rfl

/-- Settles O27. -/
theorem copyCompletes : Obligations.CopyCompletes := by
  intro s rd hd
  refine ⟨fun lit _ => ?_, fun rs hs hw hk => ?_, fun hf hw i => ⟨?_, ?_⟩⟩
  · rw [exec_copyVl hd, State.advance_setX]
  · rw [exec_copyRr hd hs hw.symm, State.copyInto, if_pos (isFloatRef_congr hk), State.advance_setX]; rfl
  · rw [exec_copyRr (s.allows_f i) hd hw.symm, State.copyInto_float hf, BitVec.setWidth_eq]; rfl
  · rw [exec_copyRr hd (s.allows_f i) hw, State.copyInto_of_float hf, State.advance_setX]; rfl

end Sys2Proof.Machine
end

section
/-!
The integer operations of the model as the operations of `BitVec`: result, carry and overflow of each in one equation
(42_arithmetic.md R182, R183, R189 to R193; 43_bitwise.md R221 to R232).
-/

namespace Sys2Proof.Machine

variable {w : Nat}

/-! ## Addition and subtraction -/

/-- Overflow as `BitVec` states it. -/
theorem signedOverflow_eq (w : Nat) (x : Int) :
    signedOverflow w x = (decide (x ≥ 2 ^ (w - 1)) || decide (x < -2 ^ (w - 1))) := by
  rw [signedOverflow, Bool.or_comm]
  push_cast
  congr 1
  exact decide_eq_decide.2 (by omega)

/-- Overflow as leaving the two's complement range. -/
theorem signedOverflow_range (w : Nat) (x : Int) :
    signedOverflow w x = decide (¬(-(2 ^ (w - 1)) ≤ x ∧ x ≤ 2 ^ (w - 1) - 1)) := by
  rw [signedOverflow, ← Bool.decide_or]
  push_cast
  exact decide_eq_decide.2 (by omega)

theorem ofNat_toNat_bool (w : Nat) (c : Bool) : BitVec.ofNat w c.toNat = (BitVec.ofBool c).setWidth w := by
  apply BitVec.eq_of_toNat_eq
  rw [BitVec.toNat_ofNat, BitVec.toNat_setWidth, BitVec.toNat_ofBool]

theorem addW_eq (a b : BitVec w) (c : Bool) :
    addW a b c = ⟨a + b + (BitVec.ofBool c).setWidth w, decide (2 ^ w ≤ a.toNat + b.toNat + c.toNat),
      decide (¬(-(2 ^ (w - 1)) ≤ a.toInt + b.toInt + c.toNat ∧ a.toInt + b.toInt + c.toNat ≤ 2 ^ (w - 1) - 1))⟩ := by
  rw [addW, signedOverflow_range, BitVec.ofNat_add, BitVec.ofNat_add, ofNat_toNat_bool, BitVec.ofNat_toNat,
    BitVec.ofNat_toNat, BitVec.setWidth_eq, BitVec.setWidth_eq]

theorem addW_false (a b : BitVec w) :
    addW a b false = ⟨a + b, BitVec.uaddOverflow a b, BitVec.saddOverflow a b⟩ := by
  rw [addW, signedOverflow_eq]
  simp [BitVec.uaddOverflow, BitVec.saddOverflow, BitVec.ofNat_add]

theorem subW_eq (a b : BitVec w) (c : Bool) :
    subW a b c = ⟨a - b - (BitVec.ofBool c).setWidth w, decide (a.toNat < b.toNat + c.toNat),
      decide (¬(-(2 ^ (w - 1)) ≤ a.toInt - b.toInt - c.toNat ∧ a.toInt - b.toInt - c.toNat ≤ 2 ^ (w - 1) - 1))⟩ := by
  rw [subW, signedOverflow_range]
  congr 1
  · rw [Int.sub_eq_add_neg, Int.sub_eq_add_neg, BitVec.ofInt_add, BitVec.ofInt_add, BitVec.ofInt_neg, BitVec.ofInt_neg,
      BitVec.ofInt_natCast, BitVec.ofInt_natCast, BitVec.ofInt_natCast, ofNat_toNat_bool, BitVec.ofNat_toNat,
      BitVec.ofNat_toNat, BitVec.setWidth_eq, BitVec.setWidth_eq, ← BitVec.sub_eq_add_neg, ← BitVec.sub_eq_add_neg]
  · exact decide_eq_decide.2 (by omega)

theorem subW_false (a b : BitVec w) :
    subW a b false = ⟨a - b, BitVec.usubOverflow a b, BitVec.ssubOverflow a b⟩ := by
  have h := subW_eq a b false
  rw [← signedOverflow_range, signedOverflow_eq] at h
  simpa [BitVec.usubOverflow, BitVec.ssubOverflow] using h

/-- 0 - a (D16). -/
theorem subW_zero (hw : 0 < w) (a : BitVec w) :
    subW 0 a false = ⟨-a, decide (a ≠ 0), decide (a = BitVec.intMin w)⟩ := by
  rw [subW_false]
  congr 1
  · rw [BitVec.usubOverflow]
    exact decide_eq_decide.2 (by rw [← BitVec.toNat_inj.ne]; simp [Nat.pos_iff_ne_zero])
  · have hmin := a.le_toInt
    have hp : (0 : Int) < 2 ^ (w - 1) := Int.pow_pos (by decide)
    rw [BitVec.ssubOverflow, ← Bool.decide_or]
    refine decide_eq_decide.2 ?_
    rw [← BitVec.toInt_inj, BitVec.toInt_intMin_of_pos hw]
    simp only [BitVec.ofNat_eq_ofNat, BitVec.toInt_zero]
    have := a.toInt_lt
    omega

/-! ## Multiplication and division -/

theorem mulW_eq (a b : BitVec w) : mulW a b = ⟨a * b, BitVec.umulOverflow a b, BitVec.smulOverflow a b⟩ := by
  rw [mulW, signedOverflow_eq, BitVec.ofNat_mul, BitVec.ofNat_toNat, BitVec.ofNat_toNat, BitVec.setWidth_eq,
    BitVec.setWidth_eq]
  rfl

/-- The one signed quotient that does not fit (D18). -/
theorem tdiv_eq_two_pow_iff (hw : 0 < w) (a b : BitVec w) :
    a.toInt.tdiv b.toInt = 2 ^ (w - 1) ↔ a = BitVec.intMin w ∧ b = -1 := by
  constructor
  · intro h
    by_contra hne
    have hfits := BitVec.toInt_sdiv_of_ne_or_ne a b (not_and_or.1 hne)
    have := (a.sdiv b).toInt_lt
    omega
  · rintro ⟨rfl, rfl⟩
    have hb : (-1 : BitVec w).toInt = -1 := by
      rw [show (-1 : BitVec w) = BitVec.allOnes w from BitVec.neg_one_eq_allOnes, BitVec.toInt_allOnes, if_pos hw]
    rw [BitVec.toInt_intMin_of_pos hw, hb, Int.neg_tdiv, Int.tdiv_neg, Int.neg_neg, Int.tdiv_one]

theorem sdivW_eq (hw : 0 < w) (a b : BitVec w) :
    sdivW a b = ⟨a.sdiv b, false, decide (a = BitVec.intMin w ∧ b = -1)⟩ := by
  rw [sdivW]
  congr 1
  · rw [← BitVec.toInt_inj, BitVec.toInt_sdiv, BitVec.toInt_ofInt]
  · refine decide_eq_decide.2 ?_
    push_cast
    exact tdiv_eq_two_pow_iff hw a b

theorem sremW_eq (a b : BitVec w) : sremW a b = ⟨a.srem b, false, false⟩ := by
  rw [sremW, Int.mul_comm, ← Int.tmod_def, ← BitVec.toInt_srem, BitVec.ofInt_toInt]

theorem udivW_eq (a b : BitVec w) : udivW a b = ⟨a / b, false, false⟩ := by
  rw [udivW, ← BitVec.toNat_udiv, BitVec.ofNat_toNat, BitVec.setWidth_eq]

theorem uremW_eq (a b : BitVec w) : uremW a b = ⟨a % b, false, false⟩ := by
  rw [uremW, ← BitVec.toNat_umod, BitVec.ofNat_toNat, BitVec.setWidth_eq]

/-! ## Bitwise -/

theorem notW_eq (a : BitVec w) : notW a = ⟨~~~a, false, false⟩ := by
  rw [notW, logicW, ← BitVec.toNat_not, BitVec.ofNat_toNat, BitVec.setWidth_eq]

theorem ofNat_mul_two_pow (a : BitVec w) (n : Nat) : BitVec.ofNat w (a.toNat * 2 ^ n) = a <<< n := by
  apply BitVec.eq_of_toNat_eq
  rw [BitVec.toNat_ofNat, BitVec.toNat_shiftLeft, Nat.shiftLeft_eq]

theorem ofNat_div_two_pow (a : BitVec w) (n : Nat) : BitVec.ofNat w (a.toNat / 2 ^ n) = a >>> n := by
  rw [← Nat.shiftRight_eq_div_pow, ← BitVec.toNat_ushiftRight, BitVec.ofNat_toNat, BitVec.setWidth_eq]

theorem lshiftW_eq (a : BitVec w) (n : Nat) :
    lshiftW a n = ⟨a <<< n, decide (1 ≤ n ∧ n ≤ w) && a.getLsbD (w - n), false⟩ := by
  rw [← ofNat_mul_two_pow]; rfl

theorem rshiftlW_eq (a : BitVec w) (n : Nat) :
    rshiftlW a n = ⟨a >>> n, decide (1 ≤ n) && a.getLsbD (n - 1), false⟩ := by
  show rshiftlBy a n = _
  rw [rshiftlBy, ofNat_div_two_pow]
  congr 1
  by_cases hn : n ≤ w
  · simp [hn]
  · simp [hn, BitVec.getLsbD_of_ge a (n - 1) (by omega)]

theorem rshiftaW_eq (hw : 0 < w) (a : BitVec w) (n : Nat) :
    rshiftaW a n = ⟨a.sshiftRight n, decide (1 ≤ n) && (a.sshiftRight (n - 1)).getLsbD 0, false⟩ := by
  show rshiftaBy a n = _
  rw [rshiftaBy, BitVec.sshiftRight_eq, Int.shiftRight_eq_div_pow]
  congr 1
  rw [BitVec.getLsbD_sshiftRight]
  rcases Nat.eq_zero_or_pos n with rfl | hn
  · rfl
  · by_cases hle : n ≤ w
    · simp [hle, show n ≠ 0 by omega, show 1 ≤ n by omega, show n - 1 < w by omega, show ¬w = 0 by omega]
    · simp [hle, show n ≠ 0 by omega, show 1 ≤ n by omega, show ¬n - 1 < w by omega, show ¬w = 0 by omega,
        BitVec.msb_eq_getLsbD_last]

theorem rotateL_eq (a : BitVec w) (n : Nat) : rotateL a (n % w) = a.rotateLeft n := by
  rw [rotateL, ofNat_mul_two_pow, ofNat_div_two_pow, BitVec.rotateLeft_def]

theorem rotateR_eq (a : BitVec w) (n : Nat) : rotateR a (n % w) = a.rotateRight n := by
  rw [rotateR, ofNat_mul_two_pow, ofNat_div_two_pow, BitVec.rotateRight_def]

theorem lrotW_eq (a : BitVec w) (n : Nat) : lrotW a n = ⟨a.rotateLeft n, false, false⟩ := by
  rw [lrotW, rotateL_eq]; rfl

theorem rrotW_eq (a : BitVec w) (n : Nat) : rrotW a n = ⟨a.rotateRight n, false, false⟩ := by
  rw [rrotW, rotateR_eq]; rfl

theorem lrotcarryW_eq (a : BitVec w) (c : Bool) (n : Nat) :
    lrotcarryW a c n = ⟨((BitVec.cons c a).rotateLeft n).setWidth w, ((BitVec.cons c a).rotateLeft n).msb, false⟩ := by
  rw [lrotcarryW, rotateL_eq, BitVec.setWidth_eq_extractLsb' (by omega), BitVec.msb_eq_getLsbD_last]; rfl

theorem rrotcarryW_eq (a : BitVec w) (c : Bool) (n : Nat) :
    rrotcarryW a c n = ⟨((a.concat c).rotateRight n).extractLsb' 1 w, ((a.concat c).rotateRight n).getLsbD 0, false⟩ := by
  rw [rrotcarryW, rotateR_eq]

end Sys2Proof.Machine
end

section
/-!
Integer instructions (42_arithmetic.md R180 to R195, 43_bitwise.md R220 to R232): each leaves the result and the flags of
its operation, a division by 0 raises.
-/

namespace Sys2Proof.Machine

/-- A register that may be named and is no float register holds whole bytes, at least one (R95). -/
theorem State.Allows.width_pos {s : State} {rd : Ref} (h : s.Allows rd) : 0 < rd.width := by
  obtain ⟨hn, _⟩ := h
  cases rd <;> first | exact Nat.succ_pos _ | cases hn

theorem IsGeneral.width_pos {rd : Ref} (h : IsGeneral rd) : 0 < rd.width := by
  obtain ⟨i, rfl | rfl | rfl⟩ := h <;> exact Nat.succ_pos _

/-! ## Operations that raise nothing -/

section
variable {s : State} {rd : Ref} {op : IntOp} {vl : Lit → Instr} {rr : Ref → Instr} {out : BitVec rd.width → Alu rd.width}

/-- Both forms of an instruction of both kinds, its integer operation total. -/
theorem State.arithmetic_leaves {fop : Word → Word → Word} (hvl : ∀ lit, exec (vl lit) s = s.arithmeticVl op fop rd lit)
    (hrr : ∀ rs, exec (rr rs) s = s.arithmeticRr op fop rd rs) (ha : s.Allows rd) (hf : ¬IsFloat rd) (hd : rd ≠ .flags)
    (hop : ∀ b, op rd.width (s.x rd) b = .ok (out b)) :
    s.BothForms rd (fun rs => s.Allows rs ∧ ¬IsFloat rs) vl rr fun b n t =>
      s.AfterAlu t n rd (out b).val (out b).c (out b).o :=
  State.bothForms_arithmetic hvl hrr ha hf (fun _ h => h) (fun b => State.completes_integerOp hd (hop b))
    fun _ _ _ => State.completes_integerOp hd (hop _) 3

/-- Both forms of an instruction on integers only, its operation total. -/
theorem State.integer_leaves (hvl : ∀ lit, exec (vl lit) s = s.integerVl op rd lit)
    (hrr : ∀ rs, exec (rr rs) s = s.integerRr op rd rs) (hg : IsGeneral rd)
    (hop : ∀ b, op rd.width (s.x rd) b = .ok (out b)) :
    s.BothForms rd IsGeneral vl rr fun b n t => s.AfterAlu t n rd (out b).val (out b).c (out b).o :=
  State.bothForms_integer hvl hrr hg (fun _ h => h) (fun b => State.completes_integerOp hg.not_flags (hop b))
    fun _ _ _ => State.completes_integerOp hg.not_flags (hop _) 3

end

/-- Settles O36. -/
theorem additionAndSubtraction : Obligations.AdditionAndSubtraction := by
  intro s rd
  refine ⟨fun ha hf hd => ⟨?_, ?_⟩, fun hg => ⟨?_, ?_⟩⟩
  · exact State.arithmetic_leaves (op := addOp) (out := fun _ => ⟨_, _, _⟩) (fun _ => rfl) (fun _ => rfl) ha hf hd
      fun b => congrArg Except.ok (addW_false (s.x rd) b)
  · exact State.arithmetic_leaves (op := subOp) (out := fun _ => ⟨_, _, _⟩) (fun _ => rfl) (fun _ => rfl) ha hf hd
      fun b => congrArg Except.ok (subW_false (s.x rd) b)
  · exact State.integer_leaves (op := addcarryOp s.flagC) (out := fun _ => ⟨_, _, _⟩) (fun _ => rfl) (fun _ => rfl) hg
      fun b => congrArg Except.ok (addW_eq (s.x rd) b s.flagC)
  · exact State.integer_leaves (op := subborrowOp s.flagC) (out := fun _ => ⟨_, _, _⟩) (fun _ => rfl) (fun _ => rfl) hg
      fun b => congrArg Except.ok (subW_eq (s.x rd) b s.flagC)

/-- Settles O38. -/
theorem multInteger : Obligations.MultInteger := fun s rd ha hf hd =>
  State.arithmetic_leaves (op := multOp) (out := fun _ => ⟨_, _, _⟩) (fun _ => rfl) (fun _ => rfl) ha hf hd
    fun b => congrArg Except.ok (mulW_eq (s.x rd) b)

/-- Settles O41. -/
theorem negateInteger : Obligations.NegateInteger := by
  intro s rd ha hf hd
  refine ⟨(s.writeAlu rd (subW 0 (s.x rd) false)).advance 2, ?_, ?_⟩
  · show completes (some 2) s (need (s.legal .any rd) >>= fun _ => .ok (s.negateIn rd)) = _
    rw [State.legal_any.2 ha, State.negateIn, isFloatRef_eq_false.2 hf]; rfl
  · rw [subW_zero ha.width_pos]
    exact State.afterAlu_writeAlu hd _ 2

/-- Settles O45. -/
theorem logicOperations : Obligations.LogicOperations := by
  intro s rd hg
  refine ⟨⟨(s.writeAlu rd (notW (s.x rd))).advance 2, ?_, ?_⟩, ?_, ?_, ?_⟩
  · show completes (some 2) s (need (s.legal .integer rd) >>= _) = _
    rw [State.legal_integer.2 hg]; rfl
  · rw [notW_eq]
    exact State.afterAlu_writeAlu hg.not_flags _ 2
  · exact State.integer_leaves (op := andOp) (out := andW (s.x rd)) (fun _ => rfl) (fun _ => rfl) hg fun _ => rfl
  · exact State.integer_leaves (op := orOp) (out := orW (s.x rd)) (fun _ => rfl) (fun _ => rfl) hg fun _ => rfl
  · exact State.integer_leaves (op := xorOp) (out := xorW (s.x rd)) (fun _ => rfl) (fun _ => rfl) hg fun _ => rfl

/-! ## Shifts and rotates -/

/-- Settles O46. -/
theorem shifts : Obligations.Shifts := by
  intro s rd hg
  refine ⟨?_, ?_, ?_⟩
  · refine State.bothCounts_of (op := fun _ a n => lshiftW a n) (fun _ => rfl) (fun _ => rfl) hg fun n t h => ?_
    rwa [lshiftW_eq] at h
  · refine State.bothCounts_of (op := fun _ a n => rshiftlW a n) (fun _ => rfl) (fun _ => rfl) hg fun n t h => ?_
    rwa [rshiftlW_eq] at h
  · refine State.bothCounts_of (op := fun _ a n => rshiftaW a n) (fun _ => rfl) (fun _ => rfl) hg fun n t h => ?_
    rwa [rshiftaW_eq hg.width_pos] at h

/-- Settles O47. -/
theorem rotates : Obligations.Rotates := by
  intro s rd hg
  refine ⟨?_, ?_, ?_, ?_⟩
  · refine State.bothCounts_of (op := fun _ a n => lrotW a n) (fun _ => rfl) (fun _ => rfl) hg fun n t h => ?_
    rwa [lrotW_eq] at h
  · refine State.bothCounts_of (op := fun _ a n => rrotW a n) (fun _ => rfl) (fun _ => rfl) hg fun n t h => ?_
    rwa [rrotW_eq] at h
  · refine State.bothCounts_of (op := fun _ a n => lrotcarryW a s.flagC n) (fun _ => rfl) (fun _ => rfl) hg
      fun n t h => ?_
    rwa [lrotcarryW_eq] at h
  · refine State.bothCounts_of (op := fun _ a n => rrotcarryW a s.flagC n) (fun _ => rfl) (fun _ => rfl) hg
      fun n t h => ?_
    rwa [rrotcarryW_eq] at h

/-! ## Division -/

section
variable {s : State} {rd : Ref} {op : (w : Nat) → BitVec w → BitVec w → Alu w} {vl : Lit → Instr} {rr : Ref → Instr}

/-- `t` is `s` after a division of n bytes by `b`: trapped where b is 0 (R195), the result and its flags where not. -/
def State.AfterDivision (s : State) (op : (w : Nat) → BitVec w → BitVec w → Alu w) (rd : Ref) (b : BitVec rd.width) (n : Nat)
    (t : State) : Prop :=
  (b = 0 → t = s.trapped .divideByZero n) ∧ (b ≠ 0 → t = (s.writeAlu rd (op rd.width (s.x rd) b)).advance n)

theorem State.completes_dividing (s : State) (op : (w : Nat) → BitVec w → BitVec w → Alu w) (rd : Ref)
    (b : BitVec rd.width) (n : Nat) :
    ∃ t, completes (some n) s (s.integerOp (dividing op) rd b) = .next t ∧ s.AfterDivision op rd b n t := by
  by_cases hb : b = 0
  · have stop : s.integerOp (dividing op) rd b = .error (.raise .divideByZero) := by
      rw [State.integerOp, dividing, if_pos hb]; rfl
    exact ⟨_, by rw [stop]; exact congrArg _ (State.raise_some (by decide) n), fun _ => rfl, fun h => absurd hb h⟩
  · have done : s.integerOp (dividing op) rd b = .ok (s.writeAlu rd (op rd.width (s.x rd) b)) := by
      rw [State.integerOp, dividing, if_neg hb]; rfl
    exact ⟨_, by rw [done]; rfl, fun h => absurd h hb, fun _ => rfl⟩

theorem State.division_arithmetic {fop : Word → Word → Word}
    (hvl : ∀ lit, exec (vl lit) s = s.arithmeticVl (dividing op) fop rd lit)
    (hrr : ∀ rs, exec (rr rs) s = s.arithmeticRr (dividing op) fop rd rs) (ha : s.Allows rd) (hf : ¬IsFloat rd) :
    s.BothForms rd (fun rs => s.Allows rs ∧ ¬IsFloat rs) vl rr (s.AfterDivision op rd) :=
  State.bothForms_arithmetic hvl hrr ha hf (fun _ h => h) (s.completes_dividing op rd)
    fun _ _ _ => s.completes_dividing op rd _ 3

theorem State.division_integer (hvl : ∀ lit, exec (vl lit) s = s.integerVl (dividing op) rd lit)
    (hrr : ∀ rs, exec (rr rs) s = s.integerRr (dividing op) rd rs) (hg : IsGeneral rd) :
    s.BothForms rd IsGeneral vl rr (s.AfterDivision op rd) :=
  State.bothForms_integer hvl hrr hg (fun _ h => h) (s.completes_dividing op rd)
    fun _ _ _ => s.completes_dividing op rd _ 3

/-- Both forms with fewer sources and a weaker end. -/
theorem State.BothForms.mono {source source' : Ref → Prop} {P Q : BitVec rd.width → Nat → State → Prop}
    (h : s.BothForms rd source vl rr P) (hs : ∀ rs, source' rs → source rs) (hP : ∀ b n t, P b n t → Q b n t) :
    s.BothForms rd source' vl rr Q := by
  obtain ⟨literal, register⟩ := h
  refine ⟨fun lit hlit => ?_, fun rs hrs hw => ?_⟩
  · obtain ⟨t, ht, hPt⟩ := literal lit hlit
    exact ⟨t, ht, hP _ _ _ hPt⟩
  · obtain ⟨t, ht, hPt⟩ := register rs (hs rs hrs) hw
    exact ⟨t, ht, hP _ _ _ hPt⟩

theorem State.sdiv_forms (ha : s.Allows rd) (hf : ¬IsFloat rd) :
    s.BothForms rd (fun rs => s.Allows rs ∧ ¬IsFloat rs) (.sdivVl rd) (.sdivRr rd)
      (s.AfterDivision (fun _ a b => sdivW a b) rd) :=
  State.division_arithmetic (fun _ => rfl) (fun _ => rfl) ha hf

theorem State.srem_forms (ha : s.Allows rd) (hf : ¬IsFloat rd) :
    s.BothForms rd (fun rs => s.Allows rs ∧ ¬IsFloat rs) (.sremVl rd) (.sremRr rd)
      (s.AfterDivision (fun _ a b => sremW a b) rd) :=
  State.division_arithmetic (fun _ => rfl) (fun _ => rfl) ha hf

theorem State.udiv_forms (hg : IsGeneral rd) :
    s.BothForms rd IsGeneral (.udivVl rd) (.udivRr rd) (s.AfterDivision (fun _ a b => udivW a b) rd) :=
  State.division_integer (fun _ => rfl) (fun _ => rfl) hg

theorem State.urem_forms (hg : IsGeneral rd) :
    s.BothForms rd IsGeneral (.uremVl rd) (.uremRr rd) (s.AfterDivision (fun _ a b => uremW a b) rd) :=
  State.division_integer (fun _ => rfl) (fun _ => rfl) hg

/-- What a division by a divisor that is not 0 leaves, its destination not FLAGS. -/
theorem State.AfterDivision.afterAlu {b : BitVec rd.width} {n : Nat} {t : State} (h : s.AfterDivision op rd b n t)
    (hd : rd ≠ .flags) {out : Alu rd.width} (hout : op rd.width (s.x rd) b = out) (hb : b ≠ 0) :
    s.AfterAlu t n rd out.val out.c out.o := by
  rw [h.2 hb, hout]
  exact State.afterAlu_writeAlu hd out n

/-- Both forms trap on a divisor 0. -/
theorem State.trapped_of_forms {source : Ref → Prop} (h : s.BothForms rd source vl rr (s.AfterDivision op rd)) :
    (∀ lit, Lit.fits rd lit = true → literalValue rd.width lit = 0 →
      exec (vl lit) s = .next (s.trapped .divideByZero (2 + bytesOf rd))) ∧
    (∀ rs, source rs → rs.width = rd.width → s.x rs = 0 → exec (rr rs) s = .next (s.trapped .divideByZero 3)) := by
  refine ⟨fun lit hlit hzero => ?_, fun rs hs hw hzero => ?_⟩
  · obtain ⟨t, ht, htrap, _⟩ := h.1 lit hlit
    rw [ht, htrap hzero]
  · obtain ⟨t, ht, htrap, _⟩ := h.2 rs hs hw
    rw [ht, htrap (by rw [hzero]; exact BitVec.setWidth_zero _ _)]

end

/-- Settles O19. -/
theorem divisionByZeroTraps : Obligations.DivisionByZeroTraps := by
  intro s rd rs lit ha hf
  obtain ⟨sdivVl, sdivRr⟩ := State.trapped_of_forms (State.sdiv_forms ha hf)
  obtain ⟨sremVl, sremRr⟩ := State.trapped_of_forms (State.srem_forms ha hf)
  refine ⟨fun hlit hz => ⟨sdivVl lit hlit hz, sremVl lit hlit hz, fun hg => ?_⟩,
    fun has hfs hw hz => ⟨sdivRr rs ⟨has, hfs⟩ hw hz, sremRr rs ⟨has, hfs⟩ hw hz, fun hg hgs => ?_⟩⟩
  · exact ⟨(State.trapped_of_forms (State.udiv_forms hg)).1 lit hlit hz,
      (State.trapped_of_forms (State.urem_forms hg)).1 lit hlit hz⟩
  · exact ⟨(State.trapped_of_forms (State.udiv_forms hg)).2 rs hgs hw hz,
      (State.trapped_of_forms (State.urem_forms hg)).2 rs hgs hw hz⟩

/-- Settles O39. -/
theorem signedDivision : Obligations.SignedDivision := by
  intro s rd ha hf hd
  refine ⟨(State.sdiv_forms ha hf).mono (fun rs h => ⟨h.1, h.2.1⟩) fun b n t h hb => ?_,
    (State.srem_forms ha hf).mono (fun rs h => ⟨h.1, h.2.1⟩) fun b n t h hb => ?_⟩
  · exact h.afterAlu hd (sdivW_eq ha.width_pos (s.x rd) b) hb
  · exact h.afterAlu hd (sremW_eq (s.x rd) b) hb

/-- Settles O40. -/
theorem unsignedDivision : Obligations.UnsignedDivision := by
  intro s rd hg
  refine ⟨(State.udiv_forms hg).mono (fun rs h => h.1) fun b n t h hb => ?_,
    (State.urem_forms hg).mono (fun rs h => h.1) fun b n t h hb => ?_⟩
  · exact h.afterAlu hg.not_flags (udivW_eq (s.x rd) b) hb
  · exact h.afterAlu hg.not_flags (uremW_eq (s.x rd) b) hb

/-! ## FLAGS as the destination -/

section
variable {s : State}

/-- `t` is `s` after an instruction of n bytes that leaves FLAGS[14:0] free (U2; log 10). -/
def State.AfterFree (s : State) (n : Nat) (t : State) : Prop :=
  t = { s with flags := t.flags, draws := s.draws + 1, pc := s.pc + BitVec.ofNat 32 n }

theorem State.afterFree_writeAlu (out : Alu 16) (n : Nat) : s.AfterFree n ((s.writeAlu .flags out).advance n) := rfl

theorem State.allows_flags (s : State) : s.Allows .flags := ⟨rfl, fun _ => by decide⟩

/-- Both forms of a total operation. -/
theorem State.flags_free {op : IntOp} {fop : Word → Word → Word} {vl : Lit → Instr} {rr : Ref → Instr}
    (hvl : ∀ lit, exec (vl lit) s = s.arithmeticVl op fop .flags lit)
    (hrr : ∀ rs, exec (rr rs) s = s.arithmeticRr op fop .flags rs)
    (hop : ∀ b : BitVec 16, ∃ out, op 16 (s.x .flags) b = .ok out) :
    s.BothForms .flags (fun rs => s.Allows rs ∧ ¬IsFloat rs) vl rr fun _ n t => s.AfterFree n t := by
  have completed (b : BitVec 16) (n : Nat) :
      ∃ t, completes (some n) s (s.integerOp op .flags b) = .next t ∧ s.AfterFree n t := by
    obtain ⟨out, hout⟩ := hop b
    refine ⟨(s.writeAlu .flags out).advance n, ?_, s.afterFree_writeAlu out n⟩
    rw [State.integerOp, hout]; rfl
  exact State.bothForms_arithmetic hvl hrr s.allows_flags (by rintro ⟨_, h⟩; cases h) (fun _ h => h) completed
    fun _ _ _ => completed _ 3

end

/-- A word that is not 0 is not 0 read at the width of another register as wide. -/
theorem setWidth_ne_zero {v w : Nat} {x : BitVec v} (hw : v = w) (hx : x ≠ 0) : x.setWidth w ≠ 0 := by
  subst hw
  rwa [BitVec.setWidth_eq]

/-- Settles O42. -/
theorem flagsDestinationIsFree : Obligations.FlagsDestinationIsFree := by
  intro s i hi
  have hf : ¬IsFloat .flags := by rintro ⟨_, h⟩; cases h
  have add := State.flags_free (s := s) (op := addOp) (vl := .addVl .flags) (rr := .addRr .flags) (fun _ => rfl)
    (fun _ => rfl) fun b => ⟨_, rfl⟩
  have sub := State.flags_free (s := s) (op := subOp) (vl := .subVl .flags) (rr := .subRr .flags) (fun _ => rfl)
    (fun _ => rfl) fun b => ⟨_, rfl⟩
  have mult := State.flags_free (s := s) (op := multOp) (vl := .multVl .flags) (rr := .multRr .flags) (fun _ => rfl)
    (fun _ => rfl) fun b => ⟨_, rfl⟩
  obtain ⟨sdivVl, sdivRr⟩ := State.sdiv_forms s.allows_flags hf
  obtain ⟨sremVl, sremRr⟩ := State.srem_forms s.allows_flags hf
  have settled {i : Instr} {n : Nat} (hn : i.length = some n) (h : ∃ t, exec i s = .next t ∧ s.AfterFree n t) :
      ∃ (t : State) (n : Nat), i.length = some n ∧ exec i s = .next t ∧ s.AfterFree n t := by
    obtain ⟨t, ht⟩ := h
    exact ⟨t, n, hn, ht⟩
  have divided {op : (w : Nat) → BitVec w → BitVec w → Alu w} {b : BitVec 16} (hb : b ≠ 0) {n : Nat} {i : Instr}
      (h : ∃ t, exec i s = .next t ∧ s.AfterDivision op .flags b n t) : ∃ t, exec i s = .next t ∧ s.AfterFree n t := by
    obtain ⟨t, ht, _, hquot⟩ := h
    exact ⟨t, ht, hquot hb ▸ s.afterFree_writeAlu _ n⟩
  rcases hi with rfl | ⟨b, hi | ⟨hb, hi⟩⟩ | ⟨rs, ha, hfs, hw, hi | ⟨hz, hi⟩⟩
  case inl =>
    refine ⟨(s.writeAlu .flags (subW 0 (s.x .flags) false)).advance 2, 2, rfl, ?_, s.afterFree_writeAlu _ 2⟩
    show completes (some 2) s (need (s.legal .any .flags) >>= _) = _
    rw [State.legal_any.2 s.allows_flags]; rfl
  all_goals simp only [List.mem_cons, List.not_mem_nil, or_false] at hi
  · rcases hi with rfl | rfl | rfl
    · exact settled rfl (add.1 (.half b) rfl)
    · exact settled rfl (sub.1 (.half b) rfl)
    · exact settled rfl (mult.1 (.half b) rfl)
  · have hb' : literalValue 16 (.half b) ≠ 0 := setWidth_ne_zero rfl hb
    rcases hi with rfl | rfl
    · exact settled rfl (divided hb' (sdivVl (.half b) rfl))
    · exact settled rfl (divided hb' (sremVl (.half b) rfl))
  · rcases hi with rfl | rfl | rfl
    · exact settled rfl (add.2 rs ⟨ha, hfs⟩ hw)
    · exact settled rfl (sub.2 rs ⟨ha, hfs⟩ hw)
    · exact settled rfl (mult.2 rs ⟨ha, hfs⟩ hw)
  · rcases hi with rfl | rfl
    · exact settled rfl (divided (setWidth_ne_zero hw hz) (sdivRr rs ⟨ha, hfs⟩ hw))
    · exact settled rfl (divided (setWidth_ne_zero hw hz) (sremRr rs ⟨ha, hfs⟩ hw))

/-! ## 64-bit addition -/

theorem toNat_append_word (a b : Word) : (a ++ b : BitVec 64).toNat = a.toNat * 2 ^ 32 + b.toNat := by
  rw [BitVec.toNat_append, ← Nat.shiftLeft_add_eq_or_of_lt b.isLt, Nat.shiftLeft_eq]

section
variable (a b c d : Word)

/-- The low halves carry into the high halves. -/
theorem append_add_append :
    ((a ++ b : BitVec 64) + (c ++ d : BitVec 64) : BitVec 64) =
      (a + c + (BitVec.ofBool (BitVec.uaddOverflow b d)).setWidth 32) ++ (b + d) := by
  apply BitVec.eq_of_toNat_eq
  rw [BitVec.toNat_add, toNat_append_word, toNat_append_word, toNat_append_word, BitVec.toNat_add, BitVec.toNat_add,
    BitVec.toNat_add, BitVec.toNat_setWidth, BitVec.toNat_ofBool, BitVec.uaddOverflow]
  by_cases hc : 2 ^ 32 ≤ b.toNat + d.toNat
  · rw [decide_eq_true hc, Bool.toNat_true]; omega
  · rw [decide_eq_false hc, Bool.toNat_false]; omega

/-- The carry out of the high halves is that of the whole. -/
theorem uaddOverflow_append :
    BitVec.uaddOverflow (a ++ b : BitVec 64) (c ++ d : BitVec 64) =
      decide (2 ^ 32 ≤ a.toNat + c.toNat + (BitVec.uaddOverflow b d).toNat) := by
  rw [BitVec.uaddOverflow, toNat_append_word, toNat_append_word, BitVec.uaddOverflow]
  refine decide_eq_decide.2 ?_
  by_cases hc : 2 ^ 32 ≤ b.toNat + d.toNat
  · rw [decide_eq_true hc, Bool.toNat_true]; omega
  · rw [decide_eq_false hc, Bool.toNat_false]; omega

end

/-- Settles O37. -/
theorem wideAddition : Obligations.WideAddition := by
  intro s t u lo hi lo' hi' hne _ hadd hcarry
  have general (i : Fin 8) : IsGeneral (.r i) := ⟨i, .inl rfl⟩
  have allows (s : State) (i : Fin 8) : s.Allows (.r i) := ⟨rfl, fun _ => ⟨by simp, by simp, by simp⟩⟩
  obtain ⟨lowForms, _⟩ := (additionAndSubtraction s (.r lo)).1 (allows s lo) (by rintro ⟨_, h⟩; cases h) (by simp)
  obtain ⟨highForms, _⟩ := (additionAndSubtraction t (.r hi)).2 (general hi)
  obtain ⟨t', ht, hlow, _, _, hC, _⟩ := lowForms.2 (.r lo') ⟨allows s lo', by rintro ⟨_, h⟩; cases h⟩ rfl
  obtain ⟨u', hu, hhigh, _, _, hC', _⟩ := highForms.2 (.r hi') (general hi') rfl
  obtain rfl : t' = t := by rw [hadd] at ht; exact (Host.Outcome.next.inj ht).symm
  obtain rfl : u' = u := by rw [hcarry] at hu; exact (Host.Outcome.next.inj hu).symm
  simp only [State.x_r, BitVec.setWidth_eq] at hlow hhigh hC hC'
  have tlo : t'.r.get lo = s.r.get lo + s.r.get lo' := by rw [hlow]; exact Bank.get_set_same ..
  have thi : t'.r.get hi = s.r.get hi := by rw [hlow]; exact Bank.get_set_other _ _ _ _ hne.symm
  have ulo : u'.r.get lo = t'.r.get lo := by rw [hhigh]; exact Bank.get_set_other _ _ _ _ hne
  have uhi : u'.r.get hi = t'.r.get hi + t'.r.get hi' + (BitVec.ofBool t'.flagC).setWidth 32 := by
    rw [hhigh]; exact Bank.get_set_same ..
  rw [uhi, ulo, hC', thi, tlo, hC, append_add_append, uaddOverflow_append]
  exact ⟨rfl, rfl⟩

end Sys2Proof.Machine
end

section
/-!
Binary32 arithmetic (42_arithmetic.md R181, R194) and the conversions (41_data_movement.md R154): what each function answers
by its operands, and what the instructions leave.
-/

namespace Sys2Proof.Machine

/-! ## Sums -/

theorem roundsTo_zero (neg : Bool) : RoundsTo neg 0 1 (packFloat neg 0) := by
  have h := roundFloat_roundsTo neg 0 1 (by decide)
  rwa [show roundFloat neg 0 1 = packFloat neg 0 by cases neg <;> decide] at h

section
variable {a b nan : Word}

theorem sumFloat_finite (ha : IsFinite a) (hb : IsFinite b) :
    RoundsTo (if exactValue a + exactValue b = 0 then signBit a && signBit b else decide (exactValue a + exactValue b < 0))
      (exactValue a + exactValue b).natAbs 1 (sumFloat nan a b) := by
  rw [sumFloat, ha.2, hb.2]
  by_cases hv : exactValue a + exactValue b = 0
  · simp only [hv, if_true, Bool.false_eq_true, if_false, Int.natAbs_zero]
    exact roundsTo_zero _
  · simp only [hv, if_false, Bool.false_eq_true]
    exact roundFloat_roundsTo _ _ 1 (by decide)

theorem sumFloat_inf_left (ha : isInf a = true) (h : isInf b = true → signBit a = signBit b) :
    IsInfinity (signBit a) (sumFloat nan a b) := by
  have : (isInf b && (signBit a != signBit b)) = false := by
    cases hb : isInf b
    · rfl
    · rw [h hb]; simp
  rw [sumFloat, ha, if_pos rfl, this]
  exact ⟨ha, rfl⟩

theorem sumFloat_inf_right (ha : IsFinite a) (hb : isInf b = true) : IsInfinity (signBit b) (sumFloat nan a b) := by
  rw [sumFloat, ha.2, hb]
  exact ⟨hb, rfl⟩

theorem sumFloat_inf_opposite (ha : isInf a = true) (hb : isInf b = true) (h : signBit a ≠ signBit b) :
    sumFloat nan a b = nan := by
  simp [sumFloat, ha, hb, h]

theorem addFloat_eq (ha : isNaN a = false) (hb : isNaN b = false) :
    addFloat a b = sumFloat (freeNaN .add a b) a b := by
  rw [addFloat, ha, hb]; rfl

theorem subFloat_eq (ha : isNaN a = false) (hb : isNaN b = false) :
    subFloat a b = sumFloat (freeNaN .sub a b) a (negFloat b) := by
  rw [subFloat, ha, hb]; rfl

theorem IsFinite.negFloat (hb : IsFinite b) : IsFinite (negFloat b) := by
  obtain ⟨hnan, hinf, _⟩ := negFloat_props b
  exact ⟨hnan.trans hb.1, hinf.trans hb.2⟩

theorem isInf_negFloat (b : Word) : isInf (negFloat b) = isInf b := (negFloat_props b).2.1

theorem signBit_negFloat (b : Word) : signBit (negFloat b) = !signBit b := (negFloat_props b).2.2.2.2

theorem subFloat_finite (ha : IsFinite a) (hb : IsFinite b) :
    RoundsTo (if exactValue a - exactValue b = 0 then signBit a && !signBit b
        else decide (exactValue a - exactValue b < 0))
      (exactValue a - exactValue b).natAbs 1 (subFloat a b) := by
  rw [subFloat_eq ha.1 hb.1, Int.sub_eq_add_neg, ← exactValue_negFloat, ← signBit_negFloat]
  exact sumFloat_finite ha hb.negFloat

/-! ## Products and quotients -/

theorem mulFloat_finite (ha : IsFinite a) (hb : IsFinite b) :
    RoundsTo (signBit a != signBit b) (magnitude a * magnitude b) (2 ^ 149) (mulFloat a b) := by
  rw [mulFloat, ha.1, hb.1, ha.2, hb.2]
  simp only [Bool.and_false, Bool.false_and, Bool.or_self, Bool.false_eq_true, if_false]
  exact roundFloat_roundsTo _ _ _ (Nat.two_pow_pos 149)

/-- An infinity times what is neither a NaN nor a zero. -/
theorem mulFloat_inf (ha : isNaN a = false) (hb : isNaN b = false) (hza : isZero a = false) (hzb : isZero b = false)
    (h : (isInf a || isInf b) = true) : IsInfinity (signBit a != signBit b) (mulFloat a b) := by
  rw [mulFloat, ha, hb, hza, hzb, h, Bool.and_false]
  exact ⟨isInf_packFloat_infBits _, signBit_packFloat _ _⟩

theorem mulFloat_inf_zero (h : (isInf a && isZero b || isZero a && isInf b) = true) :
    isNaN (mulFloat a b) = true := by
  rw [mulFloat, h, if_pos rfl, ite_self]
  exact isNaN_freeNaN ..

theorem divFloat_finite (ha : IsFinite a) (hb : IsFinite b) (hz : isZero b = false) :
    RoundsTo (signBit a != signBit b) (magnitude a * 2 ^ 149) (magnitude b) (divFloat a b) := by
  rw [divFloat, ha.1, hb.1, ha.2, hb.2, hz]
  simp only [Bool.and_false, Bool.or_self, Bool.false_eq_true, if_false]
  exact roundFloat_roundsTo _ _ _ (magnitude_pos hz)

theorem divFloat_invalid (h : (isInf a && isInf b || isZero a && isZero b) = true) :
    isNaN (divFloat a b) = true := by
  rw [divFloat, h, if_pos rfl, ite_self]
  exact isNaN_freeNaN ..

/-- An infinity by a number, and what is no zero by a zero. -/
theorem divFloat_inf (ha : isNaN a = false) (hb : isNaN b = false)
    (hv : (isInf a && isInf b || isZero a && isZero b) = false) (h : (isInf a || isZero b) = true) :
    IsInfinity (signBit a != signBit b) (divFloat a b) := by
  rw [divFloat, ha, hb, hv, h]
  exact ⟨isInf_packFloat_infBits _, signBit_packFloat _ _⟩

theorem divFloat_by_inf (ha : IsFinite a) (hb : isInf b = true) :
    RoundsTo (signBit a != signBit b) 0 1 (divFloat a b) := by
  rw [divFloat, ha.1, isNaN_of_isInf hb, ha.2, hb, isZero_of_isInf hb, Bool.and_false]
  exact roundsTo_zero _

/-! ## Remainders -/

theorem exactValue_packFloat_zero (neg : Bool) : exactValue (packFloat neg 0) = 0 := by
  cases neg <;> decide

/-- A finite magnitude with a sign is answered exactly, zero with either sign. -/
theorem signed_exact {m : Nat} {neg sign : Bool} (h : ∃ z, IsFinite z ∧ magnitude z = m) :
    IsFinite (if m = 0 then packFloat sign 0 else roundFloat neg m 1) ∧
      exactValue (if m = 0 then packFloat sign 0 else roundFloat neg m 1) = if neg then -(m : Int) else m := by
  obtain ⟨z, hz, rfl⟩ := h
  by_cases h0 : magnitude z = 0
  · rw [if_pos h0, h0, exactValue_packFloat_zero]
    exact ⟨isFinite_packFloat sign (by decide), by cases neg <;> rfl⟩
  · rw [if_neg h0]
    have hr := roundFloat_roundsTo neg (magnitude z) 1 (by decide)
    obtain ⟨hfin, hmag⟩ := hr.exact hz
    exact ⟨hfin, by rw [exactValue, hr.1, hmag]⟩

theorem exactValue_tmod (a b : Word) :
    (exactValue a).tmod (exactValue b) =
      if signBit a then -((magnitude a % magnitude b : Nat) : Int) else (magnitude a % magnitude b : Nat) := by
  unfold exactValue
  cases signBit a <;> cases signBit b <;> simp [Int.neg_tmod, Int.tmod_neg, Int.tmod_eq_emod_of_nonneg]

theorem remFloat_finite (ha : IsFinite a) (hb : IsFinite b) (hz : isZero b = false) :
    IsFinite (remFloat a b) ∧ exactValue (remFloat a b) = (exactValue a).tmod (exactValue b) := by
  rw [remFloat, ha.1, hb.1, ha.2, hb.2, hz, exactValue_tmod]
  exact signed_exact (exists_magnitude_mod ha hb (magnitude_pos hz))

theorem remFloat_by_inf (ha : IsFinite a) (hb : isInf b = true) :
    IsFinite (remFloat a b) ∧ exactValue (remFloat a b) = exactValue a := by
  rw [remFloat, ha.1, isNaN_of_isInf hb, ha.2, hb, isZero_of_isInf hb]
  exact signed_exact ⟨a, ha, rfl⟩

theorem remFloat_invalid (h : (isInf a || isZero b) = true) : isNaN (remFloat a b) = true := by
  rw [remFloat, h, if_pos rfl, ite_self]
  exact isNaN_freeNaN ..

/-! ## The functions by their operands -/

/-- A NaN operand makes every result a NaN. -/
theorem isNaN_of_operand (h : isNaN a = true ∨ isNaN b = true) :
    ∀ op ∈ [addFloat, subFloat, mulFloat, divFloat, remFloat], isNaN (op a b) = true := by
  have h : (isNaN a || isNaN b) = true := by simpa using h
  intro op hop
  simp only [List.mem_cons, List.not_mem_nil, or_false] at hop
  rcases hop with rfl | rfl | rfl | rfl | rfl
  · rw [addFloat, if_pos h, isNaN_freeNaN]
  · rw [subFloat, if_pos h, isNaN_freeNaN]
  · rw [mulFloat, if_pos h, isNaN_freeNaN]
  · rw [divFloat, if_pos h, isNaN_freeNaN]
  · rw [remFloat, if_pos h, isNaN_freeNaN]

end

/-- Settles O44. -/
theorem floatResultsAreNearest : Obligations.FloatResultsAreNearest := by
  intro a b
  refine ⟨fun ha hb => ⟨?add, subFloat_finite ha hb, mulFloat_finite ha hb, fun hz => ?quotient, fun hz => ?zeroDivisor⟩,
    isNaN_of_operand, fun ha hb => ?infLeft, fun ha hb => ?infRight, fun ha hb => ?infBoth⟩
  case add => rw [addFloat_eq ha.1 hb.1]; exact sumFloat_finite ha hb
  case quotient => exact ⟨divFloat_finite ha hb hz, remFloat_finite ha hb hz⟩
  case zeroDivisor =>
    refine ⟨remFloat_invalid (by rw [hz, Bool.or_true]), fun hza => divFloat_invalid (by rw [hza, hz, Bool.and_true,
      Bool.or_true]), fun hza => divFloat_inf ha.1 hb.1 ?_ (by rw [hz, Bool.or_true])⟩
    rw [ha.2, hza]; rfl
  case infLeft =>
    have hna := isNaN_of_isInf ha
    have hza := isZero_of_isInf ha
    refine ⟨?_, ?_, fun hz => mulFloat_inf_zero (by rw [ha, hz]; rfl),
      fun hz => mulFloat_inf hna hb.1 hza hz (by rw [ha]; rfl), divFloat_inf hna hb.1 ?_ (by rw [ha]; rfl),
      remFloat_invalid (by rw [ha]; rfl)⟩
    · rw [addFloat_eq hna hb.1]
      exact sumFloat_inf_left ha fun h => by rw [hb.2] at h; cases h
    · rw [subFloat_eq hna hb.1]
      exact sumFloat_inf_left ha fun h => by rw [hb.negFloat.2] at h; cases h
    · rw [hb.2, hza, Bool.and_false]; rfl
  case infRight =>
    have hnb := isNaN_of_isInf hb
    have hzb := isZero_of_isInf hb
    refine ⟨?_, ?_, fun hz => mulFloat_inf_zero (by rw [hb, hz, Bool.and_true, Bool.or_true]),
      fun hz => mulFloat_inf ha.1 hnb hz hzb (by rw [hb, Bool.or_true]), divFloat_by_inf ha hb, remFloat_by_inf ha hb⟩
    · rw [addFloat_eq ha.1 hnb]
      exact sumFloat_inf_right ha hb
    · rw [subFloat_eq ha.1 hnb, ← signBit_negFloat]
      exact sumFloat_inf_right ha ((isInf_negFloat b).trans hb)
  case infBoth =>
    have hna := isNaN_of_isInf ha
    have hnb := isNaN_of_isInf hb
    have hneg : isInf (negFloat b) = true := (isInf_negFloat b).trans hb
    rw [addFloat_eq hna hnb, subFloat_eq hna hnb]
    refine ⟨fun hs => ⟨sumFloat_inf_left ha fun _ => hs, ?_⟩, fun hs => ⟨?_, sumFloat_inf_left ha fun _ => ?_⟩,
      mulFloat_inf hna hnb (isZero_of_isInf ha) (isZero_of_isInf hb) (by rw [ha]; rfl),
      divFloat_invalid (by rw [ha, hb]; rfl), remFloat_invalid (by rw [ha]; rfl)⟩
    · rw [sumFloat_inf_opposite ha hneg (by rw [signBit_negFloat, hs]; simp)]
      exact isNaN_freeNaN ..
    · rw [sumFloat_inf_opposite ha hb hs]
      exact isNaN_freeNaN ..
    · rw [signBit_negFloat]
      exact Bool.eq_not_of_ne hs

/-! ## Conversions -/

/-- A finite float converts to its truncated value where that is in range (R154). -/
theorem toInt32_of_finite {x : Word} (hx : IsFinite x) (hlo : -(2 ^ 31) ≤ (exactValue x).tdiv (2 ^ 149))
    (hhi : (exactValue x).tdiv (2 ^ 149) ≤ 2 ^ 31 - 1) : (toInt32 x).toInt = (exactValue x).tdiv (2 ^ 149) := by
  have trunc : (exactValue x).tdiv (2 ^ 149) =
      if signBit x then -((magnitude x / 2 ^ 149 : Nat) : Int) else ((magnitude x / 2 ^ 149 : Nat) : Int) := by
    rw [exactValue]
    cases signBit x
    · exact (Int.ofNat_tdiv (magnitude x) (2 ^ 149)).symm
    · exact (Int.neg_tdiv _ _).trans (congrArg _ (Int.ofNat_tdiv (magnitude x) (2 ^ 149)).symm)
  rw [toInt32, hx.1, hx.2]
  simp only [Bool.or_self, Bool.false_eq_true, if_false]
  rw [← trunc, if_pos ⟨by omega, by omega⟩, BitVec.toInt_ofInt, Int.bmod_eq_of_le (by omega) (by omega)]

/-- Every integer of magnitude up to 2^24 is a finite float. -/
theorem exists_magnitude_int {n : Nat} (h : n ≤ 2 ^ 24) : ∃ z, IsFinite z ∧ magnitude z = n * 2 ^ 149 := by
  rcases Nat.lt_or_eq_of_le h with h | rfl
  · exact exists_magnitude n 149 h (by decide)
  · obtain ⟨z, hz, hmag⟩ := exists_magnitude 1 173 (by decide) (by decide)
    exact ⟨z, hz, hmag.trans (by decide)⟩

theorem fromInt32_exact {a : Word} (h : a.toInt.natAbs ≤ 2 ^ 24) :
    IsFinite (fromInt32 a) ∧ exactValue (fromInt32 a) = a.toInt * 2 ^ 149 := by
  obtain ⟨z, hz, hmag⟩ := exists_magnitude_int h
  have hr := roundFloat_roundsTo (decide (a.toInt < 0)) (a.toInt.natAbs * 2 ^ 149) 1 (by decide)
  have hsign := hr.1
  rw [← hmag] at hr
  obtain ⟨hfin, hmag'⟩ := hr.exact hz
  rw [hmag] at hfin hmag'
  refine ⟨hfin, ?_⟩
  rw [fromInt32, exactValue, hsign, hmag']
  split <;> rename_i hneg <;> rw [decide_eq_true_eq] at hneg
  · rw [Nat.cast_mul, Int.ofNat_natAbs_of_nonpos hneg.le, Int.neg_mul, Int.neg_neg]; rfl
  · rw [Nat.cast_mul, Int.natAbs_of_nonneg (not_lt.1 hneg)]; rfl

/-- Settles O28. -/
theorem conversionsAreExact : Obligations.ConversionsAreExact := by
  refine ⟨fun a => roundFloat_roundsTo _ _ 1 (by decide), fun a ha => ?_, fun x hx => toInt32_of_finite hx⟩
  obtain ⟨hfin, hval⟩ := fromInt32_exact ha
  have htrunc : (exactValue (fromInt32 a)).tdiv (2 ^ 149) = a.toInt := by
    rw [hval, Int.mul_tdiv_cancel _ (by decide)]
  refine ⟨hfin, hval, BitVec.toInt_inj.1 ?_⟩
  rw [toInt32_of_finite hfin, htrunc]
  · rw [htrunc]; omega
  · rw [htrunc]; omega

/-! ## The flags of a float operation -/

theorem isZero_eq (v : Word) : isZero v = decide (v = 0x00000000 ∨ v = 0x80000000) := by
  rw [isZero, expField_eq, fracField_eq, Bool.eq_iff_iff]
  simp only [Bool.and_eq_true, beq_iff_eq, decide_eq_true_eq, ← BitVec.toNat_inj]
  have := v.isLt
  rw [show (0x00000000 : Word).toNat = 0 from rfl, show (0x80000000 : Word).toNat = 2 ^ 31 from rfl]
  omega

theorem isNegative_eq {v : Word} (h : isNaN v = false) : isNegative v = (v.msb && decide (v ≠ 0x80000000)) := by
  rw [isNegative, h, isZero_eq, Bool.decide_or, Bool.not_false, Bool.and_true, show signBit v = v.msb from
    (BitVec.msb_eq_getLsbD_last v).symm]
  by_cases h0 : v = 0
  · subst h0; decide
  · rw [decide_eq_false (show ¬v = 0x00000000 from h0), Bool.false_or, decide_not]

/-- What the flags of a float result are (R194): C and O 0, Z and N of the result but where a NaN is about. -/
theorem State.floatFlags_leaves (s : State) (anyNaN : Bool) (r : Word) :
    s.floatFlags anyNaN r = { s with flags := (s.floatFlags anyNaN r).flags, draws := (s.floatFlags anyNaN r).draws } ∧
    (s.floatFlags anyNaN r).flagC = false ∧ (s.floatFlags anyNaN r).flagO = false ∧
    (s.floatFlags anyNaN r).flags.extractLsb' 4 11 = s.flags.extractLsb' 4 11 ∧
    (anyNaN = false → (s.floatFlags anyNaN r).flagZ = isZero r ∧ (s.floatFlags anyNaN r).flagN = isNegative r ∧
      (s.floatFlags anyNaN r).draws = s.draws) := by
  cases anyNaN with
  | false =>
    obtain ⟨hz, hn, hc, ho, hrest⟩ := withZNCO_bits s.flags (isZero r) (isNegative r) false false
    exact ⟨rfl, hc, ho, hrest, fun _ => ⟨hz, hn, rfl⟩⟩
  | true =>
    obtain ⟨_, _, hc, ho, hrest⟩ := withZNCO_bits s.flags ((Config.freeWord s.draws).getLsbD 0)
      ((Config.freeWord s.draws).getLsbD 1) false false
    exact ⟨rfl, hc, ho, hrest, fun h => by cases h⟩

/-- A float result and its flags. -/
theorem State.afterFloat_floatFlags (s : State) (i : Fin 8) (r : Word) {anyNaN : Bool}
    (h : anyNaN = false → isNaN r = false) (n : Nat) :
    s.AfterFloat (((s.setX (.f i) r).floatFlags anyNaN r).advance n) n i r anyNaN := by
  obtain ⟨hframe, hc, ho, hrest, hnum⟩ := (s.setX (.f i) r).floatFlags_leaves anyNaN r
  refine ⟨?_, hc, ho, hrest, fun hnan => ?_⟩
  · rw [hframe]; rfl
  · obtain ⟨hz, hn, hd⟩ := hnum hnan
    exact ⟨hz.trans (isZero_eq r), hn.trans (isNegative_eq (h hnan)), hd⟩

theorem State.afterFloat_floatResult (s : State) (op : Word → Word → Word) (i : Fin 8) (b : Word) (n : Nat) :
    s.AfterFloat ((s.floatResult op (.f i) b).advance n) n i (op (s.f.get i) b)
      (isNaN (s.f.get i) || isNaN b || isNaN (op (s.f.get i) b)) := by
  have e : s.floatResult op (.f i) b = (s.setX (.f i) (op (s.f.get i) b)).floatFlags
      (isNaN (s.f.get i) || isNaN b || isNaN (op (s.f.get i) b)) (op (s.f.get i) b) := by
    simp only [State.floatResult, State.xAs, State.x_f, BitVec.setWidth_eq]
  rw [e]
  refine s.afterFloat_floatFlags i _ (fun h => ?_) n
  rw [Bool.or_eq_false_iff] at h
  exact h.2

/-- Both forms of a float instruction (R180, R194). -/
theorem State.bothForms_float {s : State} {op : IntOp} {fop : Word → Word → Word} {i : Fin 8} {vl : Lit → Instr}
    {rr : Ref → Instr} (hvl : ∀ lit, exec (vl lit) s = s.arithmeticVl op fop (.f i) lit)
    (hrr : ∀ rs, exec (rr rs) s = s.arithmeticRr op fop (.f i) rs) :
    s.BothForms (.f i) IsFloat vl rr fun b n t =>
      s.AfterFloat t n i (fop (s.f.get i) b) (isNaN (s.f.get i) || isNaN b || isNaN (fop (s.f.get i) b)) := by
  refine ⟨fun lit _ => ⟨_, ?_, s.afterFloat_floatResult fop i _ _⟩, ?_⟩
  · rw [hvl, State.arithmeticVl, State.checkVl, State.legal_any.2 (s.allows_f i), vlLength_named (s.allows_f i).1]
    rfl
  · rintro _ ⟨j, rfl⟩ _
    refine ⟨_, ?_, s.afterFloat_floatResult fop i _ _⟩
    rw [hrr, State.arithmeticRr, State.checkRr, State.legal_any.2 (s.allows_f i), State.legal_any.2 (s.allows_f j)]
    rfl

/-- Settles O43. -/
theorem floatArithmetic : Obligations.FloatArithmetic := by
  intro s i
  refine ⟨fun vl rr op hop => ?_, ((s.setX (.f i) (negFloat (s.f.get i))).floatFlags
    (isNaN (s.f.get i) || isNaN (negFloat (s.f.get i))) (negFloat (s.f.get i))).advance 2, ?_, ?_⟩
  · simp only [List.mem_cons, List.not_mem_nil, or_false, Prod.mk.injEq] at hop
    rcases hop with ⟨rfl, rfl, rfl⟩ | ⟨rfl, rfl, rfl⟩ | ⟨rfl, rfl, rfl⟩ | ⟨rfl, rfl, rfl⟩ | ⟨rfl, rfl, rfl⟩
    · exact State.bothForms_float (op := addOp) (fun _ => rfl) fun _ => rfl
    · exact State.bothForms_float (op := subOp) (fun _ => rfl) fun _ => rfl
    · exact State.bothForms_float (op := multOp) (fun _ => rfl) fun _ => rfl
    · exact State.bothForms_float (op := sdivOp) (fun _ => rfl) fun _ => rfl
    · exact State.bothForms_float (op := sremOp) (fun _ => rfl) fun _ => rfl
  · show completes (some 2) s (need (s.legal .any (.f i)) >>= _) = _
    rw [State.legal_any.2 (s.allows_f i)]
    simp only [State.negateIn, State.xAs, State.x_f, BitVec.setWidth_eq]
    rfl
  · rw [(negFloat_props (s.f.get i)).1, Bool.or_self]
    exact s.afterFloat_floatFlags i _ (fun h => (negFloat_props _).1.trans h) 2

end Sys2Proof.Machine
end

section
/-!
COMPARE (44_flow_control.md R262): the flags it leaves, and what the conditional jumps read in them (R278).
-/

namespace Sys2Proof.Machine

section
variable {s : State} {r1 : Ref}

theorem exec_compareVl (h : s.Allows r1) (lit : Lit) :
    exec (.compareVl r1 lit) s = .next ((s.compareWith r1 (literalValue r1.width lit)).advance (2 + bytesOf r1)) := by
  show completes (vlLength r1) s (need (s.legal .any r1) >>= _) = _
  rw [State.legal_any.2 h, vlLength_named h.1]; rfl

theorem exec_compareRr {r2 : Ref} (h1 : s.Allows r1) (h2 : s.Allows r2) (hw : r1.width = r2.width)
    (hk : IsFloat r1 ↔ IsFloat r2) :
    exec (.compareRr r1 r2) s = .next ((s.compareWith r1 ((s.x r2).setWidth r1.width)).advance 3) := by
  have hkinds : kindsMatch r1 r2 = true := by rw [kindsMatch, isFloatRef_congr hk, beq_self_eq_true]
  show completes (some 3) s ((need (s.legal .any r1 && s.legal .any r2) >>= fun _ =>
    need (widthsMatch r1 r2) >>= fun _ => need (kindsMatch r1 r2)) >>= _) = _
  rw [State.legal_any.2 h1, State.legal_any.2 h2, State.widthsMatch_iff.2 hw, hkinds]; rfl

/-- Both forms of COMPARE. -/
theorem State.bothForms_compare {source : Ref → Prop} {P : BitVec r1.width → Nat → State → Prop} (h : s.Allows r1)
    (hsrc : ∀ r2, source r2 → s.Allows r2 ∧ (IsFloat r1 ↔ IsFloat r2))
    (hP : ∀ b n, P b n ((s.compareWith r1 b).advance n)) :
    s.BothForms r1 source (.compareVl r1) (.compareRr r1) P :=
  ⟨fun lit _ => ⟨_, exec_compareVl h lit, hP _ _⟩,
    fun r2 hs hw => ⟨_, exec_compareRr h (hsrc r2 hs).1 hw.symm (hsrc r2 hs).2, hP _ _⟩⟩

/-- COMPARE of integers leaves the flags of value2 - value1. -/
theorem State.afterCompare_compareWith (hf : ¬IsFloat r1) (b : BitVec r1.width) (n : Nat) :
    s.AfterCompare ((s.compareWith r1 b).advance n) n (s.x r1) b := by
  have e : s.compareWith r1 b = s.setFlags (withZNCO s.flags (decide (b - s.x r1 = 0)) (b - s.x r1).msb
      (BitVec.usubOverflow b (s.x r1)) (BitVec.ssubOverflow b (s.x r1))) := by
    rw [State.compareWith, isFloatRef_eq_false.2 hf, if_neg Bool.false_ne_true, State.compareInt, subW_false,
      BitVec.msb_eq_getMsbD_zero]
    rfl
  obtain ⟨hz, hn, hc, ho, hrest⟩ := withZNCO_bits s.flags (decide (b - s.x r1 = 0)) (b - s.x r1).msb
    (BitVec.usubOverflow b (s.x r1)) (BitVec.ssubOverflow b (s.x r1))
  rw [e]
  exact ⟨rfl, hz.trans (decide_eq_decide.2 (sub_eq_zero.trans eq_comm)), hn, hc, ho, hrest⟩

end

/-- Settles O48. -/
theorem compareCompletes : Obligations.CompareCompletes := by
  refine ⟨fun s r1 h1 hf => State.bothForms_compare h1 (fun r2 h => ⟨h.1, iff_of_false hf h.2⟩)
    (State.afterCompare_compareWith hf), fun s i => State.bothForms_compare (s.allows_f i) ?_ fun b n => ?_⟩
  · rintro _ ⟨j, rfl⟩
    exact ⟨s.allows_f j, iff_of_true ⟨i, rfl⟩ ⟨j, rfl⟩⟩
  · have e : s.compareWith (.f i) b = s.floatFlags (isNaN (s.f.get i) || isNaN b || isNaN (subFloat b (s.f.get i)))
        (subFloat b (s.f.get i)) := by
      simp only [State.compareWith, isFloatRef, if_true, State.xAs, State.x_f, BitVec.setWidth_eq]
      rfl
    obtain ⟨hframe, hc, ho, hrest, hnum⟩ := s.floatFlags_leaves
      (isNaN (s.f.get i) || isNaN b || isNaN (subFloat b (s.f.get i))) (subFloat b (s.f.get i))
    rw [e]
    refine ⟨?_, hc, ho, hrest, fun ha hb hr => hnum (by rw [ha, hb, hr]; rfl)⟩
    rw [hframe]; rfl

/-! ## What the jumps read -/

/-- N = O after b - a says that a is at most b, signed: an overflow is a difference of the wrong sign. -/
theorem msb_sub_eq_ssubOverflow {w : Nat} (a b : BitVec w) :
    (b - a).msb = BitVec.ssubOverflow b a ↔ a.toInt ≤ b.toInt := by
  by_cases hov : BitVec.ssubOverflow b a = true
  · rw [hov]
    rw [BitVec.ssubOverflow_eq] at hov
    simp only [BitVec.msb_eq_toInt, Bool.or_eq_true, Bool.and_eq_true, Bool.not_eq_true', decide_eq_true_eq,
      decide_eq_false_iff_not] at hov ⊢
    omega
  · have hdiff := BitVec.toInt_sub_of_not_ssubOverflow hov
    rw [Bool.not_eq_true] at hov
    rw [hov, BitVec.msb_eq_toInt, hdiff, decide_eq_false_iff_not]
    omega

section
variable {s t : State} {n w : Nat} {a b : BitVec w}

theorem State.AfterCompare.flagZ_iff (h : s.AfterCompare t n a b) : t.flagZ = true ↔ a.toInt = b.toInt := by
  obtain ⟨_, hz, _⟩ := h
  rw [hz, decide_eq_true_eq, BitVec.toInt_inj]

theorem State.AfterCompare.flagN_eq_flagO_iff (h : s.AfterCompare t n a b) : t.flagN = t.flagO ↔ a.toInt ≤ b.toInt := by
  obtain ⟨_, _, hn, _, ho, _⟩ := h
  rw [hn, ho, msb_sub_eq_ssubOverflow]

theorem State.AfterCompare.flagC_iff (h : s.AfterCompare t n a b) : t.flagC = true ↔ b.toNat < a.toNat := by
  obtain ⟨_, _, _, hc, _⟩ := h
  rw [hc, decide_eq_true_eq]

theorem State.AfterCompare.flagZ_iff_toNat (h : s.AfterCompare t n a b) : t.flagZ = true ↔ a.toNat = b.toNat := by
  rw [h.flagZ_iff, BitVec.toInt_inj, BitVec.toNat_inj]

end

/-- Settles O49. -/
theorem compareDecidesJumps : Obligations.CompareDecidesJumps := by
  intro s r1 h1 hf
  refine State.bothForms_compare h1 (fun r2 h => ⟨h.1, iff_of_false hf h.2⟩) fun b n => ?_
  have h := State.afterCompare_compareWith (s := s) hf b n
  have hz := h.flagZ_iff
  have hzu := h.flagZ_iff_toNat
  have hle := h.flagN_eq_flagO_iff
  have hc := h.flagC_iff
  refine ⟨State.jumpsWhen ((State.condEqual_eq _).trans (decide_eq_decide.2 ?_)),
    State.jumpsWhen ((State.condNotEqual_eq _).trans (decide_eq_decide.2 ?_)),
    State.jumpsWhen ((State.condGreater_eq _).trans (decide_eq_decide.2 ?_)),
    State.jumpsWhen ((State.condGreaterEq_eq _).trans (decide_eq_decide.2 ?_)),
    State.jumpsWhen ((State.condAbove_eq _).trans (decide_eq_decide.2 ?_)),
    State.jumpsWhen ((State.condAboveEq_eq _).trans (decide_eq_decide.2 ?_)),
    State.jumpsWhen ((State.condLesser_eq _).trans (decide_eq_decide.2 ?_)),
    State.jumpsWhen ((State.condLesserEq_eq _).trans (decide_eq_decide.2 ?_)),
    State.jumpsWhen ((State.condBelow_eq _).trans (decide_eq_decide.2 ?_)),
    State.jumpsWhen ((State.condBelowEq_eq _).trans (decide_eq_decide.2 ?_))⟩
  · rw [hz, BitVec.toInt_inj]
  · rw [← Bool.not_eq_true, hz, BitVec.toInt_inj]
  · rw [hle, ← Bool.not_eq_true, hz]; omega
  · rw [hle, hz]; omega
  · rw [← Bool.not_eq_true, ← Bool.not_eq_true, hc, hzu]; omega
  · rw [← Bool.not_eq_true, hc, hzu]; omega
  · rw [Ne, hle]; omega
  · rw [Ne, hle, hz]; omega
  · exact hc
  · rw [hc, hzu]; omega

end Sys2Proof.Machine
end

section
/-!
BLOCKCOPY (41_data_movement.md R158): between ranges that share no byte, between overlapping ranges, and stopped part-way.
-/

namespace Sys2Proof.Machine

/-! ## The eight forms -/

theorem settle_need_true (n : Nat) (s : State) {legal : Bool} (h : legal = true) (body : Exec State) :
    settle (some n) s (need legal >>= fun _ => body) = settle (some n) s body := by
  rw [h]; rfl

/-- Each form whose registers are r0-r7 is the copy between its ranges. -/
theorem exec_blockcopy {s : State} {i : Instr} {n : Nat} {len d src : Word}
    (hi : s.blockcopyOf i = some (len, d, src)) (hn : i.length = some n) :
    exec i s = settle (some n) s (s.blockcopy n len d src) := by
  unfold State.blockcopyOf at hi
  split at hi
  case h_9 => cases hi
  all_goals
    obtain ⟨rfl, rfl, rfl⟩ : _ ∧ _ ∧ _ := by simpa using hi
    obtain rfl := Option.some.inj hn
  case h_1 => rfl
  all_goals
    refine (settle_need_true _ s ?_ _).trans ?_
    · simp
    · simp only [State.addressIn_r]

section
variable {s t : State} {i : Instr} {n : Nat} {len d src : Word}

/-- The copy completes: an overlap has drawn its free bytes. -/
theorem exec_blockcopy_ok (hi : s.blockcopyOf i = some (len, d, src)) (hn : i.length = some n)
    (h : s.copyBytes d src (if rangesOverlap len d src then some s.draws else none) 0 len.toNat = .ok t) :
    exec i s = .next ((if rangesOverlap len d src then t.draw else t).advance n) := by
  rw [exec_blockcopy hi hn, State.blockcopy]
  simp only [h, settle_ok]

/-- The copy is stopped: the destination range is unspecified and the interrupt raised (D25; log 16). -/
theorem exec_blockcopy_raise {c : Cause} (hi : s.blockcopyOf i = some (len, d, src)) (hn : i.length = some n)
    (h : ∀ free, s.copyBytes d src free 0 len.toNat = .error (.raise c)) :
    exec i s = .next ((s.scramble d s.draws 0 len.toNat).draw.raise c (some n)) := by
  rw [exec_blockcopy hi hn, State.blockcopy]
  simp only [h, settle_ok]

end

/-! ## Ranges -/

/-- Ranges overlap where their starts differ and they share an address. -/
theorem rangesOverlap_iff (len d src : Word) :
    rangesOverlap len d src = true ↔ d ≠ src ∧ ∃ v ∈ addrs d len.toNat, v ∈ addrs src len.toNat := by
  have hlen : len.toNat ≤ 2 ^ 32 := len.isLt.le
  simp only [rangesOverlap, Bool.and_eq_true, Bool.or_eq_true, decide_eq_true_eq, mem_addrs _ _ _ hlen]
  refine and_congr_right fun _ => ⟨?_, ?_⟩
  · rintro (h | h)
    · exact ⟨d, by rw [BitVec.sub_self]; exact Nat.zero_lt_of_lt h, h⟩
    · exact ⟨src, h, by rw [BitVec.sub_self]; exact Nat.zero_lt_of_lt h⟩
  · rintro ⟨v, hd, hs⟩
    bv_omega

theorem mem_addrs_iff (a v : Word) (n : Nat) : v ∈ addrs a n ↔ ∃ k < n, v = a + BitVec.ofNat 32 k := by
  rw [List.mem_iff_getElem]
  simp only [addrs_length, addrs_getElem, exists_prop, eq_comm]

theorem addrs_from_zero (a : Word) (n : Nat) : addrs (a + BitVec.ofNat 32 0) n = addrs a n :=
  congrArg (addrs · n) (BitVec.add_zero a)

/-! ## Copies that complete -/

/-- Settles O33. -/
theorem blockcopyDisjoint : Obligations.BlockcopyDisjoint := by
  intro s i n len d src ps pd hinv hs hi hn hread hreadable hwrite hram hdisjoint hphys hnd
  have apart : rangesOverlap len d src = false := by
    rw [← Bool.not_eq_true, rangesOverlap_iff]
    rintro ⟨_, v, hd, hsrc⟩
    exact hdisjoint v hd hsrc
  have copied : s.copyBytes d src none 0 len.toNat = .ok (s.setMem (s.mem.copyEach pd ps)) :=
    State.copyBytes_of hs d src s.mem 0 len.toNat pd ps (by rwa [addrs_from_zero]) hreadable
      (by rwa [addrs_from_zero]) hram
  have hlen : pd.length = ps.length := by rw [hwrite.length, hread.length, addrs_length, addrs_length]
  refine ⟨(s.setMem (s.mem.copyEach pd ps)).advance n, ?_, rfl, Memory.read_copyEach _ _ _ hinv hlen hphys hnd,
    fun a ha => Memory.read_copyEach_outside _ _ _ _ hinv ha⟩
  rw [exec_blockcopy_ok hi hn (by rw [apart]; exact copied), apart]
  rfl

/-- Settles O34. -/
theorem blockcopyOverlapping : Obligations.BlockcopyOverlapping := by
  intro s i n len d src ps pd hinv hs hi hn hread hreadable hwrite hram
  refine ⟨?_, fun hne hshared => ?_⟩
  · rintro rfl rfl
    have apart : rangesOverlap len d d = false := by
      rw [← Bool.not_eq_true, rangesOverlap_iff]
      exact fun h => h.1 rfl
    have copied : s.copyBytes d d none 0 len.toNat = .ok (s.setMem (s.mem.copyEach ps ps)) :=
      State.copyBytes_of hs d d s.mem 0 len.toNat ps ps (by rwa [addrs_from_zero]) hreadable
        (by rwa [addrs_from_zero]) hram
    refine ⟨(s.setMem (s.mem.copyEach ps ps)).advance n, ?_, rfl, fun a => Memory.read_copyEach_self _ _ a hinv⟩
    rw [exec_blockcopy_ok hi hn (by rw [apart]; exact copied), apart]
    rfl
  · have overlap : rangesOverlap len d src = true := (rangesOverlap_iff len d src).2 ⟨hne, hshared⟩
    have copied : s.copyBytes d src (some s.draws) 0 len.toNat =
        .ok (s.setMem (s.mem.writeAll pd (freeBytes s.draws 0 len.toNat))) :=
      State.copyBytes_free_of hs d src s.draws s.mem 0 len.toNat pd ps (by rwa [addrs_from_zero]) hreadable
        (by rwa [addrs_from_zero]) hram
    refine ⟨(s.setMem (s.mem.writeAll pd (freeBytes s.draws 0 len.toNat))).draw.advance n, ?_, rfl,
      fun a ha => Memory.read_writeAll_outside _ _ _ a hinv ha⟩
    rw [exec_blockcopy_ok hi hn (by rw [overlap]; exact copied), overlap]
    rfl

/-! ## Copies that are stopped -/

section
variable {s : State} {i : Instr} {n k : Nat} {len d src : Word} {c : Cause}

/-- What a stopped copy leaves: the interrupt raised in a state that differs at writable destination bytes. -/
theorem exec_blockcopy_stopped (hinv : s.Inv) (hs : s.Steady) (hi : s.blockcopyOf i = some (len, d, src))
    (hn : i.length = some n) (h : ∀ free, s.copyBytes d src free 0 len.toNat = .error (.raise c)) :
    ∃ m : Memory, exec i s = .next ((s.setMem m).draw.raise c (some n)) ∧
      s.OnlyWritable (s.setMem m) (addrs d len.toNat) := by
  obtain ⟨m, hm, honly⟩ := State.scramble_writable hs d s.draws s.mem 0 len.toNat hinv
  refine ⟨m, ?_, fun a ha => honly a (by rwa [addrs_from_zero])⟩
  rw [exec_blockcopy_raise hi hn h]
  exact congrArg (fun t : State => Host.Outcome.next (t.draw.raise c (some n))) hm

/-- The copy stops at byte k, whatever memory holds there, once the k bytes before it can be copied. -/
theorem State.copyBytes_stops_at {ps pd : List Word} (hs : s.Steady) (hk : k < len.toNat)
    (hread : s.Reaches .read (addrs src k) ps) (hreadable : s.Readable ps)
    (hwrite : s.Reaches .write (addrs d k) pd) (hram : s.AllRam pd)
    (h : ∀ m : Memory, (s.setMem m).memRead 8 (src + BitVec.ofNat 32 k) = .error (.raise c) ∨
      ((∃ b, (s.setMem m).memRead 8 (src + BitVec.ofNat 32 k) = .ok b) ∧
        ∀ v : Byte, (s.setMem m).memWrite (d + BitVec.ofNat 32 k) v = .error (.raise c))) (free : Option Nat) :
    s.copyBytes d src free 0 len.toNat = .error (.raise c) :=
  State.copyBytes_stops hs d src free c s.mem 0 k len.toNat pd ps hk (by rwa [addrs_from_zero]) hreadable
    (by rwa [addrs_from_zero]) hram (by rwa [Nat.zero_add])

end

/-- A range that is readable and holds a read-only byte holds a first one, with ram before it. -/
theorem State.exists_first_readOnly {s : State} {a : Word} {n : Nat} (hr : s.Readable (addrs a n))
    (h : ∃ p ∈ addrs a n, s.kindOf p = .readOnly) :
    ∃ k < n, s.AllRam (addrs a k) ∧ s.kindOf (a + BitVec.ofNat 32 k) = .readOnly := by
  have found : ∃ k, k < n ∧ s.kindOf (a + BitVec.ofNat 32 k) = .readOnly := by
    obtain ⟨p, hp, hk⟩ := h
    obtain ⟨k, hkn, rfl⟩ := (mem_addrs_iff a p n).1 hp
    exact ⟨k, hkn, hk⟩
  obtain ⟨hkn, hk⟩ := Nat.find_spec found
  refine ⟨Nat.find found, hkn, fun p hp => ?_, hk⟩
  obtain ⟨j, hj, rfl⟩ := (mem_addrs_iff a p _).1 hp
  have hjn : j < n := hj.trans hkn
  exact (hr _ ((mem_addrs_iff a _ n).2 ⟨j, hjn, rfl⟩)).resolve_right fun hro => Nat.find_min found hj ⟨hjn, hro⟩

/-- A copy stopped at byte k, its forerunners copied, by each of the three things that stop it (D25, D15). -/
theorem exec_blockcopy_partway {s : State} {i : Instr} {n k : Nat} {len d src : Word} {ps pd : List Word}
    (hinv : s.Inv) (hs : s.Steady) (hi : s.blockcopyOf i = some (len, d, src)) (hn : i.length = some n)
    (hk : k < len.toNat) (hread : s.Reaches .read (addrs src k) ps) (hreadable : s.Readable ps)
    (hwrite : s.Reaches .write (addrs d k) pd) (hram : s.AllRam pd) :
    (s.Faults .read [src + BitVec.ofNat 32 k] →
      ∃ t : State, exec i s = .next t ∧ s.OnlyWritable t (addrs d len.toNat) ∧
        t = { s with latch := s.latch.set .pageFault true, mem := t.mem, pc := t.pc, draws := s.draws + 2 }) ∧
    ∀ p : Word, s.Reaches .read [src + BitVec.ofNat 32 k] [p] → s.Readable [p] →
      (s.Faults .write [d + BitVec.ofNat 32 k] →
        ∃ t : State, exec i s = .next t ∧ s.OnlyWritable t (addrs d len.toNat) ∧
          t = { s with latch := s.latch.set .pageFault true, mem := t.mem, pc := t.pc, draws := s.draws + 2 }) ∧
      (s.WriteRefused [d + BitVec.ofNat 32 k] →
        ∃ t : State, exec i s = .next t ∧ s.OnlyWritable t (addrs d len.toNat) ∧
          t = { s.trapped .illegalOperation n with mem := t.mem, draws := s.draws + 1 }) := by
  have stops {c : Cause} := State.copyBytes_stops_at (c := c) hs hk hread hreadable hwrite hram
  refine ⟨fun hf => ?_, fun p hp hpr => ?_⟩
  · obtain ⟨m, hm, honly⟩ := exec_blockcopy_stopped hinv hs hi hn
      (stops fun m => .inl (State.memRead_of_faults ((State.faults_setMem hs m _ _).2 hf)))
    exact ⟨_, hm, honly, rfl⟩
  · have source (m : Memory) : ∃ b, (s.setMem m).memRead 8 (src + BitVec.ofNat 32 k) = .ok b :=
      ⟨_, State.memRead_byte ((State.reaches_setMem hs m _ _ _).2 hp) hpr⟩
    refine ⟨fun hf => ?_, fun hr => ?_⟩
    · obtain ⟨m, hm, honly⟩ := exec_blockcopy_stopped hinv hs hi hn
        (stops fun m => .inr ⟨source m, fun v => State.memWrite_of_faults ((State.faults_setMem hs m _ _).2 hf)⟩)
      exact ⟨_, hm, honly, rfl⟩
    · obtain ⟨m, hm, honly⟩ := exec_blockcopy_stopped hinv hs hi hn
        (stops fun m => .inr ⟨source m, fun v => State.memWrite_of_refused ((State.writeRefused_setMem hs m _).2 hr)⟩)
      exact ⟨_, hm, honly, rfl⟩

/-- Settles O35. -/
theorem blockcopyPartwayFault : Obligations.BlockcopyPartwayFault := by
  intro s i n len d src hinv hi hn
  refine ⟨fun hs k ps pd hk hread hreadable hwrite hram =>
    exec_blockcopy_partway hinv hs hi hn hk hread hreadable hwrite hram, fun hm hsrc hdst hro => ?_⟩
  have hs : s.Steady := fun hu => by rw [hm] at hu; cases hu
  have reaches (acc : Access) (l : List Word) : s.Reaches acc l l := (State.reaches_kernel hm).2 rfl
  obtain ⟨k, hk, hram, hkind⟩ := State.exists_first_readOnly hdst hro
  have readable_before : s.Readable (addrs src k) := fun p hp => by
    obtain ⟨j, hj, rfl⟩ := (mem_addrs_iff src p k).1 hp
    exact hsrc _ (mem_addrs_add src (hj.trans hk))
  have readable_here : s.Readable [src + BitVec.ofNat 32 k] := fun p hp => by
    rw [List.mem_singleton.1 hp]; exact hsrc _ (mem_addrs_add src hk)
  have refused : s.WriteRefused [d + BitVec.ofNat 32 k] := by
    rw [State.WriteRefused, hm]; exact ⟨_, List.mem_singleton.2 rfl, hkind⟩
  obtain ⟨_, destination⟩ := exec_blockcopy_partway hinv hs hi hn hk (reaches .read _) readable_before
    (reaches .write _) hram
  obtain ⟨t, ht, honly, hframe⟩ := (destination _ (reaches .read _) readable_here).2 refused
  refine ⟨t, ht, hframe, fun a ha => honly a fun p hp => ha p ?_⟩
  obtain ⟨hpram, v, hv, hreach⟩ := hp
  obtain rfl : p = v := List.singleton_injective ((State.reaches_kernel hm).1 hreach)
  exact List.mem_filter.2 ⟨hv, decide_eq_true hpram⟩

end Sys2Proof.Machine
end
